-- ==== Sys2Proof/Word.lean ====
section
/-! DEFINITION. The word types of the T-BUS CORE (00_scope.md rule R6): bytes, half-words and words are
unsigned integers of 8, 16 and 32 bits; there are no signed quantities. Counts, sizes and time are `Nat`. -/

namespace Sys2Proof

/-- `u8`. -/
abbrev Byte := BitVec 8

/-- `u16`. -/
abbrev Half := BitVec 16

/-- `u32`, the width of one register of the window (rule R76). -/
abbrev Word := BitVec 32

end Sys2Proof
end

