-- ==== Sys2Proof/Machine/Bytes.lean ====
section
/-! DEFINITION. Byte strings and little-endian quantities (00_scope.md rule R6, 20_memory.md rule R72), and the
length helpers `Even`, `Up4`, `ceil` and `FrameLen` (rules R6, R109). -/

namespace Sys2Proof.Machine

/-- The byte that holds `n` modulo 256. -/
def byte (n : Nat) : Byte := BitVec.ofNat 8 n

/-- The half-word whose low byte is `b0` (rule R6, `LE16`). -/
def half (b0 b1 : Byte) : Half := BitVec.ofNat 16 (b0.toNat + 256 * b1.toNat)

/-- The word whose bytes, least significant first, are `b0 b1 b2 b3` (rule R6, `LE32`). -/
def word (b0 b1 b2 b3 : Byte) : Word :=
  BitVec.ofNat 32 (b0.toNat + 256 * b1.toNat + 65536 * b2.toNat + 16777216 * b3.toNat)

/-- `le16(v)`: the two bytes of `v`, least significant first (rule R6). -/
def le16 (v : Half) : List Byte := [byte v.toNat, byte (v.toNat / 256)]

/-- `le32(v)`: the four bytes of `v`, least significant first (rule R6). -/
def le32 (v : Word) : List Byte :=
  [byte v.toNat, byte (v.toNat / 256), byte (v.toNat / 65536), byte (v.toNat / 16777216)]

/-- `b[i]`, and 0x00 past the end of `b` (no rule reads there: log entry 20). -/
def byteAt (b : List Byte) (i : Nat) : Byte := b.getD i 0

/-- `LE16(b, i)` (rule R6). -/
def halfAt (b : List Byte) (i : Nat) : Half := half (byteAt b i) (byteAt b (i + 1))

/-- `LE32(b, i)` (rule R6). -/
def wordAt (b : List Byte) (i : Nat) : Word :=
  word (byteAt b i) (byteAt b (i + 1)) (byteAt b (i + 2)) (byteAt b (i + 3))

/-- `b[i : j]` of rule R6. -/
def slice (b : List Byte) (i j : Nat) : List Byte := (b.drop i).take (j - i)

/-- `zeros(n)` (rule R6). -/
def zeros (n : Nat) : List Byte := List.replicate n 0

/-- The words of a byte string, padded with 0x00 to a whole word: `LE32(p, 4*j)` for `j = 0, 1, ...` with
`p = b ++ zeros(Up4(len(b)) - len(b))` (20_memory.md rule R73). -/
def wordsOf : List Byte → List Word
  | [] => []
  | [a] => [word a 0 0 0]
  | [a, b] => [word a b 0 0]
  | [a, b, c] => [word a b c 0]
  | a :: b :: c :: d :: rest => word a b c d :: wordsOf rest

/-- The half-words of a byte string, padded with 0x00 to a whole half-word (20_memory.md rule R73). -/
def halvesOf : List Byte → List Half
  | [] => []
  | [a] => [half a 0]
  | a :: b :: rest => half a b :: halvesOf rest

/-- `le32(w_0) ++ le32(w_1) ++ ...` (20_memory.md rule R74). -/
def bytesOf : List Word → List Byte
  | [] => []
  | w :: ws => le32 w ++ bytesOf ws

/-- `Even(n)` (rule R6). -/
def even (n : Nat) : Nat := n + n % 2

/-- `ceil(a/b)` (rule R6), for `b` at least 1. -/
def ceilDiv (a b : Nat) : Nat := (a + b - 1) / b

/-- `Up4(n)` (rule R6). -/
def up4 (n : Nat) : Nat := 4 * ceilDiv n 4

/-- `FrameLen(m) = Even(m) + 2` (30_encoding.md rule R109). -/
def frameLen (m : Nat) : Nat := even m + 2

/-- `n` consecutive slices of `size` bytes: the slice of channel `c` is `b[c*size : (c+1)*size]`
(40_device_ops.md rules R150, R152). -/
def channelSlices (b : List Byte) (size n : Nat) : List (List Byte) :=
  (List.range n).map fun c => slice b (c * size) ((c + 1) * size)

/-- The byte string cut into pieces of `size` bytes, the last one possibly shorter; `k` bounds the number of
pieces (42_srq_ops.md rule R236). -/
def chunksOf (size : Nat) : Nat → List Byte → List (List Byte)
  | 0, _ => []
  | _ + 1, [] => []
  | k + 1, b :: bs => (b :: bs).take size :: chunksOf size k ((b :: bs).drop size)

/-- The first byte of `b` that is not 0x00, with its offset counted from `i` (41_bus_ops.md rule R183, check 6). -/
def firstNonzero : Nat → List Byte → Option (Nat × Byte)
  | _, [] => none
  | i, b :: bs => if b ≠ 0 then some (i, b) else firstNonzero (i + 1) bs

/-- All pairs `(c, i)` with `c < n` and `i < m`, `c` outer, both increasing (41_bus_ops.md rule R190,
42_srq_ops.md rules R233, R236). -/
def pairs (n m : Nat) : List (Nat × Nat) :=
  (List.range n).flatMap fun c => (List.range m).map fun i => (c, i)

end Sys2Proof.Machine
end

