-- ==== Sys2Proof/Machine/Checksum.lean ====
section
/-! DEFINITION. The reference flash checksum (42_srq_ops.md rule R235, reference configuration). The rest of the
model reaches it through the parameter `Config.params.cksum` only. -/

namespace Sys2Proof.Machine

/-- One byte of the reference checksum: `h + x*m` and `m*33`, with `x` the bit-inverted byte (rule R235). -/
def cksumStep (hm : Word × Word) (b : Byte) : Word × Word :=
  (hm.1 + BitVec.zeroExtend 32 (b ^^^ 0xFF) * hm.2, hm.2 * 33)

/-- `Cksum(data)` of the reference configuration (rule R235): `h` starts at 5381 and `m` at 1. -/
def refCksum (data : List Byte) : Word := (data.foldl cksumStep (5381, 1)).1

end Sys2Proof.Machine
end

