-- ==== Sys2Proof/Config.lean ====
section
/-! DEFINITION. The implementation parameters of 00_scope.md rule R5 with the reference values of
92_eei_decisions.md as defaults, and the free values: constants with no body, of which nothing can be proved. -/

namespace Sys2Proof.Config

/-- The parameters of rule R5. Every default is the reference value. -/
structure Params where
  /-- Bytes per register word. -/
  wordBytes : Nat := 4
  /-- Bytes of the command header. -/
  headerBytes : Nat := 8
  /-- "has payload" bit of the command code. -/
  flagPayload : Byte := 0x40
  /-- "multiple responses expected" bit of the command code. -/
  flagMulti : Byte := 0x80
  codeEnum : Byte := 0x01
  codeWait : Byte := 0x02
  codeTest : Byte := 0x43
  codeWrite : Byte := 0x44
  codePoll : Byte := 0x45
  codeRead : Byte := 0x86
  /-- Largest payload or per-module read length. -/
  maxDataLen : Nat := 256
  /-- Largest command. -/
  maxCmdLen : Nat := 264
  /-- Synchronous-mode bit of the SRQ request code. -/
  srqSyncFlag : Byte := 0x80
  srqEraseWrite : Byte := 0x01
  srqWrite : Byte := 0x02
  srqRunProc : Byte := 0x03
  /-- SRQ status value meaning success. -/
  srqOk : Byte := 0x00
  srqHdrBytes : Nat := 4
  /-- Flash bytes per SRQ transfer. -/
  srqChunk : Nat := 128
  srqMboxAddr : Nat := 0x0100
  modStatusAddr : Nat := 0x0000
  statusLen : Nat := 8
  /-- Least supported module version. -/
  minVersion : Nat := 1
  /-- Synchronous SRQ mode when the module version is greater than this. -/
  syncVersionThreshold : Nat := 1
  /-- Largest channel count. -/
  nchMax : Nat := 8
  regTrigger : Nat := 0
  regStatus : Nat := 1
  regChCtl : Nat := 2
  regClkCtl : Nat := 3
  regRstCtl : Nat := 4
  regTxCtl : Nat := 5
  regRxCtl : Nat := 6
  /-- First word index of the command buffer. -/
  cmdBuf : Nat := 0x100
  cmdWords : Nat := 66
  /-- First word index of the receive buffer. -/
  rxBuf : Nat := 0x400
  /-- Byte capacity of the receive buffer. -/
  rxCap : Nat := 4096
  /-- Words in the register window. -/
  winWords : Nat := 0x800
  /-- Bytes per channel of one streaming pull. -/
  chunkSize : Nat := 256
  /-- Timeout operand meaning "no deadline". -/
  noTimeout : Word := 0xFFFFFFFF
  /-- Status bits (10_state.md rule R29). -/
  stReady : Word := 0x001
  stResetActive : Word := 0x002
  stHold : Word := 0x004
  stActive : Word := 0x008
  stTxDone : Word := 0x010
  stStopping : Word := 0x020
  stError : Word := 0x040
  stDataRdy : Word := 0x080
  stCompleted : Word := 0x100
  stPaused : Word := 0x200
  stRdMisaligned : Word := 0x400
  stUnderrun : Word := 0x800
  /-- `Cksum`, a parameter function (42_srq_ops.md rule R235). -/
  cksum : List Byte → Word := Machine.refCksum
  /-- The names of the SRQ status codes; by default every code is "unknown" (42_srq_ops.md rule R237). -/
  srqStatusName : Byte → String := fun _ => "unknown"

/-- The reference configuration: every parameter at its default. -/
def params : Params := {}

/-- The constraints a substituted configuration must keep (92_eei_decisions.md, after the reference
configuration), but for the properties of `cksum`. -/
def Params.admissible (p : Params) : Bool :=
  let codes := [p.codeEnum, p.codeWait, p.codeTest, p.codeWrite, p.codePoll, p.codeRead]
  let masks := [p.stReady, p.stResetActive, p.stHold, p.stActive, p.stTxDone, p.stStopping, p.stError, p.stDataRdy,
    p.stCompleted, p.stPaused, p.stRdMisaligned, p.stUnderrun]
  let regs := [p.regTrigger, p.regStatus, p.regChCtl, p.regClkCtl, p.regRstCtl, p.regTxCtl, p.regRxCtl]
  decide codes.Nodup && codes.all (· != 0)
  && (codes.map fun c => c &&& p.flagPayload != 0) == [false, false, true, true, true, false]
  && (codes.map fun c => c &&& p.flagMulti != 0) == [false, false, false, false, false, true]
  && decide (p.maxDataLen ≤ 256) && decide (p.headerBytes + p.maxDataLen ≤ p.maxCmdLen)
  && decide (p.srqChunk + 4 ≤ p.maxDataLen) && decide (p.srqChunk ≤ 256)
  && decide (p.chunkSize * p.nchMax ≤ p.rxCap) && p.chunkSize % 4 == 0 && p.rxCap % 4 == 0
  && decide regs.Nodup && regs.all (fun r => decide (r < p.cmdBuf))
  && decide (p.maxCmdLen ≤ 4 * p.cmdWords) && decide (p.cmdBuf + p.cmdWords ≤ p.rxBuf)
  && decide (p.rxBuf + p.rxCap / 4 ≤ p.winWords)
  && decide masks.Nodup && masks.all (fun m => m != 0 && m &&& (m - 1) == 0)
  && p.statusLen == 8

/-- TICK, the duration of one tick of `Now()`: OPEN in the spec (92_eei_decisions.md D1). No rule depends on it. -/
opaque tick : Nat

/-- What the link engine answers to a `RegRead` for which the state lists no answer (20_memory.md rules R71, R76:
"let every `RegRead` be answered independently"). Log entry 1. -/
opaque linkAnswer : Nat → Word

/-- By how many ticks the time base has advanced at a call of `Now()` for which the state lists none
(60_exceptions.md rule R284). Log entry 1. -/
opaque tickAdvance : Nat → Nat

/-- Whether the host answers `Continue` at an idle point for which the state lists no answer
(40_device_ops.md rule R153). Log entry 1. -/
opaque hostContinues : Nat → Bool

/-- The length of a start while `REG_TX_CTL` has no value: the argument is how many transactions came before it
(10_state.md rules R36, R41). Log entry 16. -/
opaque sentLength : Nat → Half

/-- A transmitted byte at a position where nothing has been written: the arguments are how many transactions came
before the start, and the position (10_state.md rule R36, 93_implementation_defined.md U1, U15). Log entry 16. -/
opaque sentByte : Nat → Nat → Byte

/-- A byte of module memory or flash that no modelled command has fixed: the arguments are the epoch, the channel,
the module's place in its chain and the address (20_memory.md rule R78). Log entry 11. -/
opaque moduleByte : Nat → Nat → Nat → Nat → Byte

/-- A byte of a response body whose content the spec does not define: the arguments are the epoch, the channel and
the offset, so that it is the same in every response of one epoch, which is the model's choice (30_encoding.md rule
R104). Log entry 12. -/
opaque bodyByte : Nat → Nat → Nat → Byte

end Sys2Proof.Config
end

