-- ==== Sys2Proof/Syntax.lean ====
section
/-! DEFINITION. The instructions: one constructor per row of spec/opcode_table.json. The 24 host operations take
the operands of 30_encoding.md rule R102, the six command codes the header of rule R103, the three SRQ requests the
record of rule R110. -/

namespace Sys2Proof

/-- The header fields of a T-BUS command that its code leaves free (30_encoding.md rule R103). The other two,
`status_or_reserved` and `response_count`, are 0 in every request (rule R106). -/
structure CmdHeader where
  /-- `len_minus_one`. -/
  lm1 : Byte
  /-- Module address. -/
  address : Half
  /-- Echoed by the modules, compared exactly. -/
  cookie : Byte
deriving DecidableEq, Repr

/-- The SRQ Request Record but for its request code (30_encoding.md rule R110). -/
structure SrqFields where
  /-- Bit 7 of the code byte, SRQ_SYNC_FLAG. -/
  sync : Bool
  param : Byte
  address : Half
  payload : List Byte
deriving DecidableEq, Repr

/-- The instructions of spec/opcode_table.json. -/
inductive Instr where
  -- Controller Device operations (40_device_ops.md)
  /-- `TRIGGER action` (R141). -/
  | trigger (action : Word)
  /-- `WAIT_STATUS set_mask, clear_mask, timeout` (R142). -/
  | waitStatus (set clr timeout : Word)
  /-- `CFG_CHANNELS n` (R143). -/
  | cfgChannels (n : Word)
  /-- `CFG_CLOCK divider, tx_idle, turbo_idle` (R144). -/
  | cfgClock (divider txIdle turboIdle : Word)
  /-- `CFG_RESET reset_time, hold_time` (R145). -/
  | cfgReset (resetTime holdTime : Word)
  /-- `CFG_TRANSMIT length, fast, wide16, lb_self_test` (R146). -/
  | cfgTransmit (length fast wide16 lbSelfTest : Word)
  /-- `CFG_RECEIVE length, skip_words, wait_nonzero, loopback` (R147). -/
  | cfgReceive (length skipWords waitNonzero loopback : Word)
  /-- `WRITE_COMMAND ; data` (R148). -/
  | writeCommand (data : List Byte)
  /-- `READ_RX size` (R149). -/
  | readRx (size : Word)
  /-- `READ_RX_ALL size, channels` (R150). -/
  | readRxAll (size channels : Word)
  /-- `READ_RX_STREAM size, channels, budget` (R152). -/
  | readRxStream (size channels budget : Word)
  /-- `READ_RX_STREAM_BLK size, channels, timeout, budget` (R153). -/
  | readRxStreamBlk (size channels timeout budget : Word)
  /-- `LOAD_CONFIG ; data` (R154). -/
  | loadConfig (data : List Byte)
  -- Bus Protocol Controller operations (41_bus_ops.md)
  /-- `SEND code, address, verify ; data` (R184). -/
  | send (code address verify : Word) (data : List Byte)
  /-- `BUS_WRITE address ; data` (R185). -/
  | busWrite (address : Word) (data : List Byte)
  /-- `BUS_WAIT` (R186). -/
  | busWait
  /-- `READ_BOUNDED address, data_len` (R187). -/
  | readBounded (address dataLen : Word)
  /-- `READ_STREAMING address, data_len` (R188). -/
  | readStreaming (address dataLen : Word)
  /-- `READ_COHERENT address, data_len` (R189). -/
  | readCoherent (address dataLen : Word)
  /-- `INITIALIZE` (R191). -/
  | initBus
  -- Module SRQ Protocol operations (42_srq_ops.md)
  /-- `SRQ request_code, param, address ; data` (R232). -/
  | srq (code param address : Word) (data : List Byte)
  /-- `SRQ_SYNC request_code, param, address, delay ; data` (R233). -/
  | srqSync (code param address delay : Word) (data : List Byte)
  /-- `PROGRAM address ; data` (R236). -/
  | program (address : Word) (data : List Byte)
  /-- `READ_MODULE_STATUS` (R234). -/
  | readModuleStatus
  -- T-BUS commands, as the modules receive them (30_encoding.md R104, 20_memory.md R78)
  /-- A command with code `CODE_ENUM`. -/
  | codeEnum (h : CmdHeader)
  /-- A command with code `CODE_WAIT`. -/
  | codeWait (h : CmdHeader)
  /-- A command with code `CODE_TEST`. -/
  | codeTest (h : CmdHeader) (payload : List Byte)
  /-- A command with code `CODE_WRITE`. -/
  | codeWrite (h : CmdHeader) (payload : List Byte)
  /-- A command with code `CODE_POLL`. -/
  | codePoll (h : CmdHeader) (payload : List Byte)
  /-- A command with code `CODE_READ`. -/
  | codeRead (h : CmdHeader)
  -- SRQ requests, as the modules find them in their mailbox (30_encoding.md R110, R111)
  /-- A record with request `SRQ_ERASE_WRITE`. -/
  | srqEraseWrite (r : SrqFields)
  /-- A record with request `SRQ_WRITE`. -/
  | srqWrite (r : SrqFields)
  /-- A record with request `SRQ_RUN_PROC`. -/
  | srqRunProc (r : SrqFields)
deriving DecidableEq, Repr

/-- Where an instruction's bytes stand; it decides how they are read (log entry 9). -/
inductive Format where
  /-- A descriptor at the operation port (rule R100). -/
  | descriptor
  /-- A T-BUS command on the wire (rule R103). -/
  | command
  /-- An SRQ Request Record in the mailbox (rule R110). -/
  | srqRecord
deriving DecidableEq, Repr

/-- The format of each instruction. -/
def Instr.format : Instr → Format
  | .trigger _ => .descriptor
  | .waitStatus _ _ _ => .descriptor
  | .cfgChannels _ => .descriptor
  | .cfgClock _ _ _ => .descriptor
  | .cfgReset _ _ => .descriptor
  | .cfgTransmit _ _ _ _ => .descriptor
  | .cfgReceive _ _ _ _ => .descriptor
  | .writeCommand _ => .descriptor
  | .readRx _ => .descriptor
  | .readRxAll _ _ => .descriptor
  | .readRxStream _ _ _ => .descriptor
  | .readRxStreamBlk _ _ _ _ => .descriptor
  | .loadConfig _ => .descriptor
  | .send _ _ _ _ => .descriptor
  | .busWrite _ _ => .descriptor
  | .busWait => .descriptor
  | .readBounded _ _ => .descriptor
  | .readStreaming _ _ => .descriptor
  | .readCoherent _ _ => .descriptor
  | .initBus => .descriptor
  | .srq _ _ _ _ => .descriptor
  | .srqSync _ _ _ _ _ => .descriptor
  | .program _ _ => .descriptor
  | .readModuleStatus => .descriptor
  | .codeEnum _ => .command
  | .codeWait _ => .command
  | .codeTest _ _ => .command
  | .codeWrite _ _ => .command
  | .codePoll _ _ => .command
  | .codeRead _ => .command
  | .srqEraseWrite _ => .srqRecord
  | .srqWrite _ => .srqRecord
  | .srqRunProc _ => .srqRecord

/-- A descriptor as the host presents it (30_encoding.md rule R100): `w0` is its first word, which holds `op` in
bits 7..0. -/
structure Descriptor where
  w0 : Word
  a0 : Word
  a1 : Word
  a2 : Word
  a3 : Word
  data : List Byte
deriving DecidableEq, Repr

end Sys2Proof
end

