-- ==== Sys2Proof/WellFormed.lean ====
section
/-! DEFINITION. Which instructions an encoding can hold: the byte counts of 30_encoding.md rules R100, R105, R110
and R114. A descriptor's operands are u32 by their type, and what an operation does with an operand out of range is
the operation's own business (an error it delivers), so nothing more is asked of them here. -/

namespace Sys2Proof

open Config (params)

/-- A descriptor's `data` has at most 65536 bytes (rule R100). -/
def maxDescriptorData : Nat := 65536

/-- Rule R100. -/
def dataFits (data : List Byte) : Bool := data.length ≤ maxDescriptorData

/-- Rule R105: a code with FLAG_PAYLOAD carries `len_minus_one + 1` payload bytes. -/
def payloadFits (h : CmdHeader) (payload : List Byte) : Bool := payload.length == h.lm1.toNat + 1

/-- Rule R105: `CODE_ENUM` and `CODE_WAIT` have `len_minus_one = 0`. -/
def noData (h : CmdHeader) : Bool := h.lm1 == 0

/-- Rule R110: a record has 0..(MAX_DATA_LEN - 4) payload bytes. -/
def recordFits (r : SrqFields) : Bool := r.payload.length ≤ params.maxDataLen - params.srqHdrBytes

/-- The instruction can be encoded. -/
def Instr.wf : Instr → Bool
  | .trigger _ => true
  | .waitStatus _ _ _ => true
  | .cfgChannels _ => true
  | .cfgClock _ _ _ => true
  | .cfgReset _ _ => true
  | .cfgTransmit _ _ _ _ => true
  | .cfgReceive _ _ _ _ => true
  | .writeCommand data => dataFits data
  | .readRx _ => true
  | .readRxAll _ _ => true
  | .readRxStream _ _ _ => true
  | .readRxStreamBlk _ _ _ _ => true
  | .loadConfig data => dataFits data
  | .send _ _ _ data => dataFits data
  | .busWrite _ data => dataFits data
  | .busWait => true
  | .readBounded _ _ => true
  | .readStreaming _ _ => true
  | .readCoherent _ _ => true
  | .initBus => true
  | .srq _ _ _ data => dataFits data
  | .srqSync _ _ _ _ data => dataFits data
  | .program _ data => dataFits data
  | .readModuleStatus => true
  | .codeEnum h => noData h
  | .codeWait h => noData h
  | .codeTest h payload => payloadFits h payload
  | .codeWrite h payload => payloadFits h payload
  | .codePoll h payload => payloadFits h payload
  | .codeRead _ => true
  | .srqEraseWrite r => recordFits r
  | .srqWrite r => recordFits r
  | .srqRunProc r => recordFits r

end Sys2Proof
end

