-- ==== Sys2Proof/Decode.lean ====
section
/-! DEFINITION. The decoder, total on any bytes and rejecting by name, and the encoder, for the three formats of
30_encoding.md: descriptors (rules R100, R102, R113), T-BUS commands (rules R103 to R106, R114) and SRQ Request
Records (rules R110, R111). -/

namespace Sys2Proof

open Config (params)
open Machine (byte half le16 le32 word)

/-- Why bytes are no instruction. -/
inductive DecodeError where
  /-- The first word of a descriptor is not one of rule R102's operation numbers (rule R113 (a)). -/
  | illegalOp (w : Word)
  /-- The first byte of a command is none of the six codes (rule R104). -/
  | illegalCode (code : Byte)
  /-- A request whose `status_or_reserved` or `response_count` is not 0 (rule R106, U17). -/
  | reservedNotZero
  /-- An `ENUM` or `WAIT` whose `len_minus_one` is not 0 (rule R105). -/
  | lengthWithoutData
  /-- The request code of a record has bits 6..0 outside 1..3: the spec gives it no meaning (rule R111). -/
  | unnamedRequest (code : Byte)
  /-- A record with more payload than rule R110 allows. -/
  | recordTooLong
  /-- Fewer bytes than the format asks for. -/
  | truncated
deriving DecidableEq, Repr

/-- The operation a descriptor presents (rule R102). Operands the operation does not use are ignored (rule R100);
a first word with a bit of 31..8 set is none of the numbers below (rule R113 (a)). -/
def decodeDescriptor (d : Descriptor) : Except DecodeError Instr :=
  match d.w0.toNat with
  | 0x01 => .ok (.trigger d.a0)
  | 0x02 => .ok (.waitStatus d.a0 d.a1 d.a2)
  | 0x03 => .ok (.cfgChannels d.a0)
  | 0x04 => .ok (.cfgClock d.a0 d.a1 d.a2)
  | 0x05 => .ok (.cfgReset d.a0 d.a1)
  | 0x06 => .ok (.cfgTransmit d.a0 d.a1 d.a2 d.a3)
  | 0x07 => .ok (.cfgReceive d.a0 d.a1 d.a2 d.a3)
  | 0x08 => .ok (.writeCommand d.data)
  | 0x09 => .ok (.readRx d.a0)
  | 0x0A => .ok (.readRxAll d.a0 d.a1)
  | 0x0B => .ok (.readRxStream d.a0 d.a1 d.a2)
  | 0x0C => .ok (.readRxStreamBlk d.a0 d.a1 d.a2 d.a3)
  | 0x0D => .ok (.loadConfig d.data)
  | 0x10 => .ok (.send d.a0 d.a1 d.a2 d.data)
  | 0x11 => .ok (.busWrite d.a0 d.data)
  | 0x12 => .ok .busWait
  | 0x13 => .ok (.readBounded d.a0 d.a1)
  | 0x14 => .ok (.readStreaming d.a0 d.a1)
  | 0x15 => .ok (.readCoherent d.a0 d.a1)
  | 0x16 => .ok .initBus
  | 0x20 => .ok (.srq d.a0 d.a1 d.a2 d.data)
  | 0x21 => .ok (.srqSync d.a0 d.a1 d.a2 d.a3 d.data)
  | 0x22 => .ok (.program d.a0 d.data)
  | 0x23 => .ok .readModuleStatus
  | _ => .error (.illegalOp d.w0)

/-- A descriptor's bytes: five words, each little-endian (rules R72, R100), then `data`. -/
def descriptorOfBytes : List Byte → Option Descriptor
  | b0 :: b1 :: b2 :: b3 :: c0 :: c1 :: c2 :: c3 :: d0 :: d1 :: d2 :: d3 :: e0 :: e1 :: e2 :: e3 :: f0 :: f1 :: f2 :: f3 :: data =>
    some { w0 := word b0 b1 b2 b3, a0 := word c0 c1 c2 c3, a1 := word d0 d1 d2 d3, a2 := word e0 e1 e2 e3,
           a3 := word f0 f1 f2 f3, data := data }
  | _ => none

/-- The command whose code byte is `c`, with header `h` and the bytes `rest` after the header (rules R104, R114). -/
def decodeCode (c : Byte) (h : CmdHeader) (rest : List Byte) : Except DecodeError Instr :=
  let n := h.lm1.toNat + 1
  if c = params.codeEnum then if h.lm1 = 0 then .ok (.codeEnum h) else .error .lengthWithoutData
  else if c = params.codeWait then if h.lm1 = 0 then .ok (.codeWait h) else .error .lengthWithoutData
  else if c = params.codeRead then .ok (.codeRead h)
  else if c = params.codeTest then if n ≤ rest.length then .ok (.codeTest h (rest.take n)) else .error .truncated
  else if c = params.codeWrite then if n ≤ rest.length then .ok (.codeWrite h (rest.take n)) else .error .truncated
  else if c = params.codePoll then if n ≤ rest.length then .ok (.codePoll h (rest.take n)) else .error .truncated
  else .error (.illegalCode c)

/-- A T-BUS command (rules R103, R106). Bytes after the command are idle (rule R114). -/
def decodeCommand : List Byte → Except DecodeError Instr
  | c :: lm1 :: a0 :: a1 :: cookie :: st :: r0 :: r1 :: rest =>
    if st = 0 ∧ r0 = 0 ∧ r1 = 0 then decodeCode c { lm1 := lm1, address := half a0 a1, cookie := cookie } rest
    else .error .reservedNotZero
  | _ => .error .truncated

/-- The request of bits 6..0 of a record's code byte (rule R111). -/
def decodeRequest (code : Byte) (r : SrqFields) : Except DecodeError Instr :=
  let req := code &&& ~~~params.srqSyncFlag
  if req = params.srqEraseWrite then .ok (.srqEraseWrite r)
  else if req = params.srqWrite then .ok (.srqWrite r)
  else if req = params.srqRunProc then .ok (.srqRunProc r)
  else .error (.unnamedRequest code)

/-- An SRQ Request Record (rule R110): the bytes after the first four are its payload. -/
def decodeRecord : List Byte → Except DecodeError Instr
  | code :: param :: a0 :: a1 :: payload =>
    if payload.length ≤ params.maxDataLen - params.srqHdrBytes then
      decodeRequest code { sync := decide (code &&& params.srqSyncFlag ≠ 0), param := param, address := half a0 a1,
                           payload := payload }
    else .error .recordTooLong
  | _ => .error .truncated

/-- The instruction that `bytes` hold in the format `f`. -/
def decode (f : Format) (bytes : List Byte) : Except DecodeError Instr :=
  match f with
  | .descriptor => match descriptorOfBytes bytes with
    | some d => decodeDescriptor d
    | none => .error .truncated
  | .command => decodeCommand bytes
  | .srqRecord => decodeRecord bytes

/-- The bytes of a descriptor (rule R100). -/
def bytesOfDescriptor (d : Descriptor) : List Byte :=
  le32 d.w0 ++ le32 d.a0 ++ le32 d.a1 ++ le32 d.a2 ++ le32 d.a3 ++ d.data

/-- A descriptor with operation number `op`; operands not used are 0. -/
def descriptor (op : Nat) (a0 a1 a2 a3 : Word) (data : List Byte) : List Byte :=
  bytesOfDescriptor { w0 := BitVec.ofNat 32 op, a0 := a0, a1 := a1, a2 := a2, a3 := a3, data := data }

/-- A command: header and payload (rules R103, R106). -/
def commandBytes (code : Byte) (h : CmdHeader) (payload : List Byte) : List Byte :=
  [code, h.lm1] ++ le16 h.address ++ [h.cookie, 0, 0, 0] ++ payload

/-- A record: code byte with its synchronous flag, param, address, payload (rule R110). -/
def recordBytes (request : Byte) (r : SrqFields) : List Byte :=
  [if r.sync then request ||| params.srqSyncFlag else request, r.param] ++ le16 r.address ++ r.payload

/-- The bytes of a well-formed instruction in its own format. -/
def encode : Instr → List Byte
  | .trigger a => descriptor 0x01 a 0 0 0 []
  | .waitStatus s c t => descriptor 0x02 s c t 0 []
  | .cfgChannels n => descriptor 0x03 n 0 0 0 []
  | .cfgClock d ti tu => descriptor 0x04 d ti tu 0 []
  | .cfgReset rt ht => descriptor 0x05 rt ht 0 0 []
  | .cfgTransmit len f w lb => descriptor 0x06 len f w lb []
  | .cfgReceive len sk wnz lb => descriptor 0x07 len sk wnz lb []
  | .writeCommand data => descriptor 0x08 0 0 0 0 data
  | .readRx size => descriptor 0x09 size 0 0 0 []
  | .readRxAll size n => descriptor 0x0A size n 0 0 []
  | .readRxStream size n budget => descriptor 0x0B size n budget 0 []
  | .readRxStreamBlk size n timeout budget => descriptor 0x0C size n timeout budget []
  | .loadConfig data => descriptor 0x0D 0 0 0 0 data
  | .send code address verify data => descriptor 0x10 code address verify 0 data
  | .busWrite address data => descriptor 0x11 address 0 0 0 data
  | .busWait => descriptor 0x12 0 0 0 0 []
  | .readBounded address dlen => descriptor 0x13 address dlen 0 0 []
  | .readStreaming address dlen => descriptor 0x14 address dlen 0 0 []
  | .readCoherent address dlen => descriptor 0x15 address dlen 0 0 []
  | .initBus => descriptor 0x16 0 0 0 0 []
  | .srq code param address data => descriptor 0x20 code param address 0 data
  | .srqSync code param address delay data => descriptor 0x21 code param address delay data
  | .program address data => descriptor 0x22 address 0 0 0 data
  | .readModuleStatus => descriptor 0x23 0 0 0 0 []
  | .codeEnum h => commandBytes params.codeEnum h []
  | .codeWait h => commandBytes params.codeWait h []
  | .codeTest h payload => commandBytes params.codeTest h payload
  | .codeWrite h payload => commandBytes params.codeWrite h payload
  | .codePoll h payload => commandBytes params.codePoll h payload
  | .codeRead h => commandBytes params.codeRead h []
  | .srqEraseWrite r => recordBytes params.srqEraseWrite r
  | .srqWrite r => recordBytes params.srqWrite r
  | .srqRunProc r => recordBytes params.srqRunProc r

/-- The descriptor whose first word is `w` and whose operands are 0. -/
def tableDescriptor (w : Nat) : Descriptor :=
  { w0 := BitVec.ofNat 32 w, a0 := 0, a1 := 0, a2 := 0, a3 := 0, data := [] }

/-- The command whose code byte is `w`, every other byte 0, up to the longest command. -/
def tableCommand (w : Nat) : List Byte := byte w :: Machine.zeros (params.maxCmdLen - 1)

/-- The record whose code byte is `w`, every other byte 0, up to the longest record. -/
def tableRecord (w : Nat) : List Byte := byte w :: Machine.zeros (params.maxDataLen - 1)

/-- The instruction of a word of spec/opcode_table.json. Rows of 8 bits stand in one of two places; a byte that is
a command's code is read as one, any other as a record's (log entry 9). -/
def decodeTableWord (nbits w : Nat) : Option Instr :=
  if nbits ≤ 8 then
    match decode .command (tableCommand w) with
    | .ok i => some i
    | .error _ => (decode .srqRecord (tableRecord w)).toOption
  else (decode .descriptor (bytesOfDescriptor (tableDescriptor w))).toOption

end Sys2Proof
end

