-- ==== Sys2Proof/Machine/Flags.lean ====
section
/-! DEFINITION. The status bits, the only flags of the hardware (10_state.md rules R29, R30), and the tests the CORE
makes on a status word; the trigger words (rule R28). No operation of the CORE writes a status bit. -/

namespace Sys2Proof.Machine

open Config (params)

/-- `FAILURE_MASK = ST_ERROR | ST_UNDERRUN` (rule R30). -/
def failureMask : Word := params.stError ||| params.stUnderrun

/-- `DONE_SET = ST_READY | ST_TX_DONE | ST_DATA_RDY | ST_COMPLETED` (rule R30). -/
def doneSet : Word := params.stReady ||| params.stTxDone ||| params.stDataRdy ||| params.stCompleted

/-- `DONE_CLR = ST_ACTIVE` (rule R30). -/
def doneClr : Word := params.stActive

/-- Bits 11..0: the twelve named bits (rule R29). Bits 31..12 are ignored in every test. -/
def statusBits : Word := 0xFFF

/-- A failure bit is set (rule R30). -/
def hasFailed (s : Word) : Bool := s &&& failureMask != 0

/-- The waited-for condition holds: every bit of `set` is set and every bit of `clr` clear (40_device_ops.md rule
R142). -/
def holds (s set clr : Word) : Bool := s &&& set == set && s &&& clr == 0

/-- The word of a trigger: `1 << action` (40_device_ops.md rule R141, 10_state.md rule R28). -/
def triggerWord (action : Nat) : Word := 1 <<< action

def trgReset : Word := triggerWord 0
def trgSrq : Word := triggerWord 1
def trgStart : Word := triggerWord 2
def trgStop : Word := triggerWord 3
def trgAuto : Word := triggerWord 4

end Sys2Proof.Machine
end

