-- ==== Sys2Proof/Machine/State.lean ====
section
/-! DEFINITION. The state of the machine: the session registers of the CORE (10_state.md rule R20), the register
window as the CORE has written it (rule R27), the operation port (30_encoding.md rules R100, R101), the module side
of the bus (20_memory.md rule R78), and the oracle inputs (00_scope.md rule R4). Plain data throughout. -/

namespace Sys2Proof.Machine

/-- The bus-level state machine (10_state.md rule R21). -/
inductive BusState where
  | uninitialized
  | initializing
  | ready
  | faulted
deriving DecidableEq, Repr

/-- The configuration record, field by field as loaded (10_state.md rule R26). -/
structure CfgRecord where
  channels : Word
  divider : Word
  txIdle : Word
  turboIdle : Word
  resetTime : Word
  holdTime : Word
  skipCookie : Word
  skipStatusCheck : Word
  fast : Word
  cfgWide16 : Word
  loopbackSelfTest : Word
  rxSkipWords : Word
  rxWaitNonzero : Word
  rxLoopback : Word
  busTimeout : Word
  srqTimeout : Word
  streamSkipBudget : Word
  legacyDelay : Word
deriving DecidableEq, Repr

/-- The session registers but for `busy` (10_state.md rule R20). -/
structure Session where
  busState : BusState
  /-- Modules detected per channel (rule R22). -/
  chain : Option Half
  /-- `chain * nch` at the end of `INITIALIZE` (rule R22). -/
  modules : Option Nat
  modVersion : Option Byte
  /-- Carry-over of a streaming pull (rule R23). -/
  stash : List Byte
  /-- The last SRQ record written to the modules (rule R24). -/
  lastSrq : Option (List Byte)
  /-- The next command's cookie (rule R25). -/
  cookieCtr : Byte
  cfg : CfgRecord
  cfgValid : Bool
  /-- The channel count last written to `REG_CH_CTL` (rule R42). -/
  nch : Option Nat
  /-- The flag last written to `REG_TX_CTL` (rule R42). -/
  wide16 : Bool
deriving DecidableEq, Repr

/-- One transaction of the Register Access Port (20_memory.md rule R71). -/
inductive Txn where
  /-- `RegRead(i)`, answered `v`. -/
  | read (i : Nat) (v : Word)
  /-- `RegWrite(i, v)`. -/
  | write (i : Nat) (v : Word)
  /-- `RegWrite16(i, h, v)`; `upper` is `h = 1`. -/
  | write16 (i : Nat) (upper : Bool) (v : Half)
deriving DecidableEq, Repr

/-- What a trigger has made the link engine send to the modules (10_state.md rule R28). -/
inductive Wire where
  /-- `TRG_START`: the command bytes that were in `CMD_BUF` (20_memory.md rule R82). -/
  | command (bytes : List Byte)
  /-- `TRG_SRQ`: the SRQ strobe. -/
  | strobe
  /-- `TRG_RESET` or `TRG_AUTO`: the spec does not say what it does to the modules (70_reset_and_hazards.md rule R301,
  93_implementation_defined.md U9, log entry 28). -/
  | unspecified
deriving DecidableEq, Repr

/-- Bytes by address, in one canonical form: addresses strictly rising. An address that is not listed has no value
(log entry 5). -/
abbrev Memory := List Host.Cell

/-- The link engine's side of the port, as far as the CORE determines it. -/
structure Link where
  /-- The register window as written, byte `k` of word `i` at address `4*i + k` (20_memory.md rule R72). The status
  word, the receive buffer and the trigger are not kept here: the first two are the link engine's, the third is an
  action, not stored state (10_state.md rules R28, R29, R37). -/
  win : Memory
  /-- Every transaction issued, newest first (20_memory.md rule R80). -/
  log : List Txn
  /-- Sent and not yet executed by the modules, oldest first. -/
  wire : List Wire
deriving DecidableEq, Repr

/-- The oracle inputs (00_scope.md rule R4): the answers still to come, next one first. Past the end of a list the
free values of `Config` answer (log entry 1). -/
structure Env where
  /-- The last value of `Now()` (60_exceptions.md rule R284). -/
  now : Nat
  /-- What the successive `RegRead`s return. -/
  reads : List Word
  /-- By how much the time base has advanced at the successive calls of `Now()`. -/
  ticks : List Nat
  /-- The host's answers at the successive idle points, `true` for `Continue`. -/
  idles : List Bool
deriving DecidableEq, Repr

/-- All that an operation of the CORE acts on. -/
structure Ctx where
  sess : Session
  link : Link
  env : Env
deriving DecidableEq, Repr

/-- Which oracle answer an operation in progress waits for. -/
inductive Need where
  /-- The value of a `RegRead`. -/
  | read
  /-- The value of `Now()`. -/
  | tick
  /-- The host's answer at an idle point. -/
  | idle
deriving DecidableEq, Repr

/-- An operation in progress: its position is given by where it started and by the answers it has had, so that it
goes on by running from its start with one answer more (10_state.md rule R21, log entry 2). -/
structure InFlight where
  instr : Instr
  start : Ctx
  need : Need
deriving DecidableEq, Repr

/-- The result of an operation (30_encoding.md rule R101). -/
structure Result where
  err : Byte
  i0 : Word
  i1 : Word
  i2 : Word
  i3 : Word
  out : List Byte
deriving DecidableEq, Repr

/-- The module side of the bus (20_memory.md rule R78, log entries 10 to 14). -/
structure Modules where
  /-- How many modules each channel has. -/
  chains : List Nat
  /-- The bytes of module memory that modelled commands have fixed, the same in every module of a channel: byte `a` of
  channel `c` at `65536 * c + a`. -/
  mem : Memory
  /-- The flash bytes that modelled SRQ requests have fixed, placed alike. -/
  flash : Memory
  /-- Separates the free bytes before and after an event that may have changed them. -/
  epoch : Nat
  /-- The response body of each configured channel for the last command executed. -/
  reply : List (List Byte)
  /-- The last SRQ Request Record acted on. -/
  request : Option (List Byte)
deriving DecidableEq, Repr

/-- The state of the machine. -/
structure State where
  ctx : Ctx
  /-- An operation is in progress (10_state.md rule R44). -/
  busy : Bool
  inflight : Option InFlight
  /-- The last result delivered (30_encoding.md rule R101). -/
  result : Option Result
  /-- The descriptors the host presents, next one first (30_encoding.md rule R100). -/
  queue : List Descriptor
  mods : Modules
  /-- How many free oracle answers have been used. -/
  fed : Nat
deriving DecidableEq, Repr

/-- Why the machine stops with a fault. -/
inductive Fault where
  /-- An operation needs `chain` or `mod_version` and the register is `none` although `bus_state` is `Ready`.
  Raised by `needChain` and `needVersion`. 10_state.md rule R22 excludes such a state and no run reaches one, so the
  stop is safe (log entry 8). -/
  | sessionUnset
deriving DecidableEq, Repr

/-- Why an instruction is refused. -/
inductive Refusal where
  /-- The instruction has no meaning in this model. Raised by an arm of `exec` only; no arm does. Safe. -/
  | notModelled (mnemonic : String)
deriving DecidableEq, Repr

/-- Every field of the configuration 0: the spec leaves them unspecified at reset (10_state.md rule R39) and no
rule reads them while `cfg_valid` is false. DESIGN CHOICE, log entry 4. -/
def CfgRecord.zero : CfgRecord where
  channels := 0
  divider := 0
  txIdle := 0
  turboIdle := 0
  resetTime := 0
  holdTime := 0
  skipCookie := 0
  skipStatusCheck := 0
  fast := 0
  cfgWide16 := 0
  loopbackSelfTest := 0
  rxSkipWords := 0
  rxWaitNonzero := 0
  rxLoopback := 0
  busTimeout := 0
  srqTimeout := 0
  streamSkipBudget := 0
  legacyDelay := 0

/-- The session registers after power-on (10_state.md rule R39, 70_reset_and_hazards.md rule R300). -/
def Session.reset : Session where
  busState := .uninitialized
  chain := none
  modules := none
  modVersion := none
  stash := []
  lastSrq := none
  cookieCtr := 0
  cfg := CfgRecord.zero
  cfgValid := false
  nch := none
  wide16 := false

/-- The machine after power-on: the session registers as rule R39 says, no word of the window with a value
(rule R41), nothing presented, nothing answered (log entries 1, 3, 7, 13, 17). -/
def State.reset : State where
  ctx := {
    sess := Session.reset
    link := { win := [], log := [], wire := [] }
    env := { now := 0, reads := [], ticks := [], idles := [] } }
  busy := false
  inflight := none
  result := none
  queue := []
  mods := { chains := [], mem := [], flash := [], epoch := 0, reply := [], request := none }
  fed := 0

end Sys2Proof.Machine
end

