-- ==== Sys2Proof/Machine/Ops.lean ====
section
/-! DEFINITION. The named operations every meaning is made of: memory, the port primitives of 20_memory.md, the time
base and the idle point, raising an error (the exception entry of this hardware, 60_exceptions.md rules R279, R280)
and the bus reset (its way back, rules R281 and 10_state.md R40), and the running of one operation. -/

namespace Sys2Proof.Machine

open Config (params)

/-! ### Memory -/

/-- The byte at address `a`, `none` where it has no value. -/
def Memory.read : Memory → Nat → Option Byte
  | [], _ => none
  | (k, b) :: m, a => if a = k then some b else Memory.read m a

/-- Store a byte. -/
def Memory.write : Memory → Nat → Byte → Memory
  | [], a, v => [(a, v)]
  | (k, b) :: m, a, v =>
    if a < k then (a, v) :: (k, b) :: m
    else if a = k then (a, v) :: m
    else (k, b) :: Memory.write m a v

/-- Store a byte string at rising addresses. -/
def Memory.writeBytes (m : Memory) (a : Nat) : List Byte → Memory
  | [] => m
  | b :: bs => Memory.writeBytes (Memory.write m a b) (a + 1) bs

/-- The canonical form: addresses strictly rising. -/
abbrev Memory.wf (m : Memory) : Prop := m.Pairwise fun x y => x.1 < y.1

/-- The bytes from address `a` on, at most `n`, up to the first that has no value. -/
def Memory.known (m : Memory) (a : Nat) : Nat → List Byte
  | 0 => []
  | n + 1 => match Memory.read m a with
    | some b => b :: Memory.known m (a + 1) n
    | none => []

/-! ### The errors -/

/-- The errors of 60_exceptions.md rule R260, with their information words. -/
inductive Err where
  /-- R261: operand index (4 for data, `16 + f` for configuration field `f`), value, least and greatest legal. -/
  | invalidConfig (operand value least greatest : Nat)
  /-- R262: kind 1..10 and the offending value. -/
  | invalidCommand (kind value : Nat)
  /-- R263: set mask, clear mask, last status; `stream` for a stream wait. -/
  | timeout (set clr status : Word) (stream : Bool)
  /-- R264. -/
  | failure (status set clr : Word)
  /-- R265: channel, check 1..7, expected value or offset, observed value. -/
  | protocolError (channel check expected observed : Nat)
  /-- R266. -/
  | moduleError (channel status count : Nat)
  /-- R267: channel, first differing offset, number of differing bytes. -/
  | dataMismatch (channel offset differing : Nat)
  /-- R268: channel, byte offset, first value, second value (plus 256 across channels). -/
  | coherenceError (channel offset first second : Nat)
  /-- R269. -/
  | srqFailed (status channel module : Nat)
  /-- R270. -/
  | checksumMismatch (expected observed : Word) (channel module : Nat)
  /-- R271. -/
  | noModulesDetected (channels : Nat)
  /-- R272. -/
  | channelMismatch (channel first observed : Nat)
  /-- R273. -/
  | unsupportedVersion (found least : Nat)
  /-- R274: bus state code 0..3, reason 1..3. -/
  | stateError (busState reason : Nat)
  /-- R275. -/
  | cancelled
deriving DecidableEq, Repr

/-- An information word (30_encoding.md rule R101, log entry 21). -/
def info (n : Nat) : Word := BitVec.ofNat 32 n

/-- The result an error delivers: its code, its information words, an empty `out` (rules R260, R279 (d)). -/
def Err.toResult : Err → Result
  | .invalidConfig o v l g => ⟨1, info o, info v, info l, info g, []⟩
  | .invalidCommand k v => ⟨2, info k, info v, 0, 0, []⟩
  | .timeout s c w st => ⟨3, s, c, w, if st then 1 else 0, []⟩
  | .failure w s c => ⟨4, w, s, c, 0, []⟩
  | .protocolError ch k e o => ⟨5, info ch, info k, info e, info o, []⟩
  | .moduleError ch st n => ⟨6, info ch, info st, info n, 0, []⟩
  | .dataMismatch ch o n => ⟨7, info ch, info o, info n, 0, []⟩
  | .coherenceError ch o a b => ⟨8, info ch, info o, info a, info b, []⟩
  | .srqFailed st ch m => ⟨9, info st, info ch, info m, 0, []⟩
  | .checksumMismatch e o ch m => ⟨10, e, o, info ch, info m, []⟩
  | .noModulesDetected n => ⟨11, info n, 0, 0, 0, []⟩
  | .channelMismatch ch a b => ⟨12, info ch, info a, info b, 0, []⟩
  | .unsupportedVersion v l => ⟨13, info v, info l, 0, 0, []⟩
  | .stateError b r => ⟨14, info b, info r, 0, 0, []⟩
  | .cancelled => ⟨15, 0, 0, 0, 0, []⟩

/-- The result of an operation that ends without an error: `Ok(out)` (code 0), or `NotReady` (code 16, rule R276). -/
def okResult : Option (List Byte) → Result
  | some out => ⟨0, 0, 0, 0, 0, out⟩
  | none => ⟨16, 0, 0, 0, 0, []⟩

/-- The errors that write `bus_state <- Faulted` (rule R280). -/
def Err.faults : Err → Bool
  | .timeout _ _ _ _ => true
  | .failure _ _ _ => true
  | _ => false

/-! ### Operations of the CORE -/

/-- Why an operation does not go on. -/
inductive Stop where
  /-- `raise E(info)` (00_scope.md rule R9). -/
  | raise (e : Err)
  /-- The next oracle answer is not there yet. -/
  | wait (n : Need)
  /-- The state is one the spec excludes. -/
  | fault (f : Fault)
deriving DecidableEq, Repr

/-- A step of an operation: it acts on the context and answers a value, or stops; what it has written stays written
either way (00_scope.md rule R9, 60_exceptions.md rule R279 (b)). -/
abbrev Op (α : Type) := EStateM Stop Ctx α

/-! The writes of single session registers. -/

def Session.setBusState (r : Session) (b : BusState) : Session := { r with busState := b }
def Session.setStash (r : Session) (b : List Byte) : Session := { r with stash := b }
def Session.setLastSrq (r : Session) (rec : Option (List Byte)) : Session := { r with lastSrq := rec }
def Session.setCookie (r : Session) (ck : Byte) : Session := { r with cookieCtr := ck }
def Session.setNch (r : Session) (n : Nat) : Session := { r with nch := some n }
def Session.setWide16 (r : Session) (w : Bool) : Session := { r with wide16 := w }

/-- A loaded configuration is valid (40_device_ops.md rule R154). -/
def Session.setCfg (r : Session) (cfg : CfgRecord) : Session := { r with cfg := cfg, cfgValid := true }

/-- `raise E(info)`: the one way an error is taken. `Timeout` and `Failure` write `bus_state <- Faulted`, no other
error writes anything (60_exceptions.md rules R279, R280). -/
def raise {α : Type} (e : Err) : Op α := fun c =>
  .error (.raise e) (if e.faults then { c with sess := c.sess.setBusState .faulted } else c)

/-- `require c else E(info)` (00_scope.md rule R9). -/
def require (p : Prop) [Decidable p] (e : Err) : Op Unit := if p then pure () else raise e

/-- The session registers. -/
def getSess : Op Session := fun c => .ok c.sess c

/-- Write session registers. -/
def modifySess (f : Session → Session) : Op Unit := fun c => .ok () { c with sess := f c.sess }

/-- The registers a bus reset writes (10_state.md rule R40): the way back from `Faulted` (60_exceptions.md rule
R281). -/
def Session.busReset (r : Session) : Session :=
  { r with stash := [], lastSrq := none, busState := .initializing, chain := none, modules := none, modVersion := none }

/-- The code of a bus state in `StateError` (41_bus_ops.md rule R180). -/
def BusState.code : BusState → Nat
  | .uninitialized => 0
  | .initializing => 1
  | .ready => 2
  | .faulted => 3

/-- `nch`, whose every use while it is `none` raises `StateError` (10_state.md rule R42). -/
def needNch : Op Nat := do
  let r ← getSess
  match r.nch with
  | some n => pure n
  | none => raise (.stateError r.busState.code 3)

/-- `chain` of an initialised session (log entry 8). -/
def needChain : Op Nat := fun c =>
  match c.sess.chain with
  | some n => .ok n.toNat c
  | none => .error (.fault .sessionUnset) c

/-- `mod_version` of an initialised session (log entry 8). -/
def needVersion : Op Nat := fun c =>
  match c.sess.modVersion with
  | some v => .ok v.toNat c
  | none => .error (.fault .sessionUnset) c

/-! ### The Register Access Port -/

/-- The transmit length in force, `none` while `REG_TX_CTL` has no value (10_state.md rules R34, R41). -/
def txLength (win : Memory) : Option Nat :=
  match Memory.known win (4 * params.regTxCtl) 2 with
  | [b0, b1] => some (half b0 b1).toNat
  | _ => none

/-- How many bytes the start after `k` transactions sends: what `REG_TX_CTL.length` says, and any number while that
word has no value (10_state.md rules R36, R41, log entry 16). -/
def sentLength (win : Memory) (k : Nat) : Nat := (txLength win).getD (Config.sentLength k).toNat

/-- The byte at position `p` of what the start after `k` transactions sends: that of `CMD_BUF`, and any byte where it
has no value or past its end (10_state.md rule R36, 93_implementation_defined.md U1, U15, log entry 16). -/
def sentByte (win : Memory) (k p : Nat) : Byte :=
  if p < params.wordBytes * params.cmdWords then (Memory.read win (4 * params.cmdBuf + p)).getD (Config.sentByte k p)
  else Config.sentByte k p

/-- The bytes the start after `k` transactions sends, as many as `REG_TX_CTL.length` says (10_state.md rule R36,
20_memory.md rule R82). -/
def sentBytes (win : Memory) (k : Nat) : List Byte := (List.range (sentLength win k)).map (sentByte win k)

/-- What the link engine sends to the modules on the trigger word `v` written after `k` transactions (10_state.md rule
R28). That a start sends the command buffer, and a strobe reaches the modules, whatever the loopback flags, the divider
and idle intervals of `REG_CLK_CTL` and the other control fields are, is the model's choice (40_device_ops.md rule R144,
93_implementation_defined.md U18, log entry 30). A stop ends a receive and sends
nothing (log entry 29). Of a reset and of `auto` the spec gives no effect on the modules (70_reset_and_hazards.md rule
R301, 93_implementation_defined.md U9): the model lets them have any (log entry 28). -/
def sentOn (win : Memory) (k : Nat) (v : Word) : List Wire :=
  if v = trgStart then [.command (sentBytes win k)]
  else if v = trgSrq then [.strobe]
  else if v = trgStop then []
  else [.unspecified]

/-- The link engine's side of `RegWrite(i, v)`: a write of the trigger is an action (rule R28; a reset leaves no word
of the window with a value, 70_reset_and_hazards.md rule R301), any other a store (20_memory.md rule R77). What a reset
does to the modules and to what is still on the wire is the model's choice (log entry 28). -/
def Link.write (l : Link) (i : Nat) (v : Word) : Link :=
  if i = params.regTrigger then
    { win := if v = trgReset then [] else l.win, log := .write i v :: l.log
      wire := l.wire ++ sentOn l.win l.log.length v }
  else { l with win := Memory.writeBytes l.win (4 * i) (le32 v), log := .write i v :: l.log }

/-- The link engine's side of `RegWrite16(i, h, v)`: the other half is unchanged (20_memory.md rule R71). -/
def Link.write16 (l : Link) (i : Nat) (upper : Bool) (v : Half) : Link :=
  { l with win := Memory.writeBytes l.win (4 * i + (if upper then 2 else 0)) (le16 v), log := .write16 i upper v :: l.log }

/-- The record of `RegRead(i)` answered `v`. -/
def Link.noteRead (l : Link) (i : Nat) (v : Word) : Link := { l with log := .read i v :: l.log }

/-- `RegWrite(i, v)` (20_memory.md rule R71). -/
def regWrite (i : Nat) (v : Word) : Op Unit := fun c => .ok () { c with link := c.link.write i v }

/-- `RegWrite16(i, h, v)` (20_memory.md rule R71). -/
def regWrite16 (i : Nat) (upper : Bool) (v : Half) : Op Unit := fun c =>
  .ok () { c with link := c.link.write16 i upper v }

/-- `RegRead(i)`: the value is the link engine's next answer (20_memory.md rules R71, R76). -/
def regRead (i : Nat) : Op Word := fun c =>
  match c.env.reads with
  | v :: rest => .ok v { c with link := c.link.noteRead i v, env := { c.env with reads := rest } }
  | [] => .error (.wait .read) c

/-- `RegWrite(i, w_0)`, `RegWrite(i + 1, w_1)`, ... in increasing order (20_memory.md rule R73). -/
def writeWords (i : Nat) : List Word → Op Unit
  | [] => pure ()
  | w :: ws => do
    regWrite i w
    writeWords (i + 1) ws

/-- `RegWrite16(i + j/2, j mod 2, h_j)` in increasing order; `upper` is `j mod 2 = 1` (20_memory.md rule R73). -/
def writeHalves (i : Nat) (upper : Bool) : List Half → Op Unit
  | [] => pure ()
  | h :: hs => do
    regWrite16 i upper h
    writeHalves (if upper then i + 1 else i) (!upper) hs

/-- `BulkWrite(i, b)` (20_memory.md rule R73). -/
def bulkWrite (i : Nat) (b : List Byte) : Op Unit := writeWords i (wordsOf b)

/-- `BulkWrite16(i, b)` (20_memory.md rule R73). -/
def bulkWrite16 (i : Nat) (b : List Byte) : Op Unit := writeHalves i false (halvesOf b)

/-- `n` reads of the words `i(k), i(k+1), ...` in increasing order. -/
def readWords (index : Nat → Nat) (k : Nat) : Nat → Op (List Word)
  | 0 => pure []
  | n + 1 => do
    let w ← regRead (index k)
    let ws ← readWords index (k + 1) n
    pure (w :: ws)

/-- `BulkRead(i, n)` with `n` a multiple of 4 (20_memory.md rule R74). -/
def bulkRead (i n : Nat) : Op (List Byte) := do
  let ws ← readWords (fun k => i + k) 0 (n / params.wordBytes)
  pure (bytesOf ws)

/-! ### The time base and the host -/

/-- `Now()`: the time base never goes back (60_exceptions.md rule R284). -/
def now : Op Nat := fun c =>
  match c.env.ticks with
  | d :: rest => .ok (c.env.now + d) { c with env := { c.env with now := c.env.now + d, ticks := rest } }
  | [] => .error (.wait .tick) c

/-- `IdlePoint()`: `true` is `Continue`, `false` is `Abort` (40_device_ops.md rule R153). -/
def idlePoint : Op Bool := fun c =>
  match c.env.idles with
  | a :: rest => .ok a { c with env := { c.env with idles := rest } }
  | [] => .error (.wait .idle) c

/-! ### Running an operation -/

/-- The end of an operation: the result is delivered and `busy` cleared (30_encoding.md rule R100). -/
def State.deliver (s : State) (r : Result) (c : Ctx) : State :=
  { s with ctx := c, busy := false, inflight := none, result := some r }

/-- The operation is in progress: `busy` is true and no result is delivered (10_state.md rule R44). -/
def State.suspend (s : State) (f : InFlight) (c : Ctx) : State :=
  { s with ctx := c, busy := true, inflight := some f, result := none }

/-- What the state becomes when the operation `i`, started in `s`, has run. -/
def conclude (i : Instr) (s : State) : EStateM.Result Stop Ctx (Option (List Byte)) → Host.Outcome State Fault Refusal
  | .ok out c => .next (s.deliver (okResult out) c)
  | .error (.raise e) c => .next (s.deliver e.toResult c)
  | .error (.wait n) c => .next (s.suspend { instr := i, start := s.ctx, need := n } c)
  | .error (.fault f) _ => .fault f

/-- The operation port runs the operation `i`, whose sequence is `body`. A descriptor presented while `busy` is true
is not accepted and has no effect (30_encoding.md rule R100). -/
def operate (i : Instr) (body : Op (Option (List Byte))) (s : State) : Host.Outcome State Fault Refusal :=
  if s.busy then .next s else conclude i s (body s.ctx)

/-- A sub-operation whose result is discarded. -/
def ignoring {α : Type} (body : Op α) : Op Unit := do
  let _ ← body
  pure ()

/-- An operation whose result carries no bytes. -/
def silently (body : Op Unit) : Op (Option (List Byte)) := do
  body
  pure (some [])

/-- An operation whose result carries bytes. -/
def answering (body : Op (List Byte)) : Op (Option (List Byte)) := do
  let out ← body
  pure (some out)

/-- A descriptor that presents no operation: `InvalidCommand(1, w)`, no transaction, no state change (30_encoding.md
rule R113 (a)). -/
def State.illegalDescriptor (s : State) (d : Descriptor) : State :=
  s.deliver (Err.invalidCommand 1 d.w0.toNat).toResult s.ctx

/-- The context with one oracle answer more, a free value (log entry 1). -/
def Ctx.feed (c : Ctx) (need : Need) (k : Nat) : Ctx :=
  match need with
  | .read => { c with env := { c.env with reads := c.env.reads ++ [Config.linkAnswer k] } }
  | .tick => { c with env := { c.env with ticks := c.env.ticks ++ [Config.tickAdvance k] } }
  | .idle => { c with env := { c.env with idles := c.env.idles ++ [Config.hostContinues k] } }

/-- The state in which an operation in progress starts over with one answer more (log entry 2). -/
def State.refill (s : State) (f : InFlight) : State :=
  { s with ctx := f.start.feed f.need s.fed, busy := false, inflight := none, fed := s.fed + 1 }

end Sys2Proof.Machine
end

