-- ==== Sys2Proof/Machine/Command.lean ====
section
/-! DEFINITION. What a T-BUS command does at the modules (20_memory.md rule R78, 30_encoding.md rule R104), and the
meaning of each command code. It reaches the modules of every configured channel at once. Nothing the CORE reads is
computed from it: what the link engine answers stays an oracle (log entry 10). -/

namespace Sys2Proof.Machine

open Config (params)

/-- The configured channels: those `REG_CH_CTL` was last given (20_memory.md rule R78, 10_state.md rule R42), and
none while there is no such count (log entry 13). -/
def State.channels (s : State) : List Nat := List.range (s.ctx.sess.nch.getD 0)

/-- How many modules the channel `c` has (log entry 13). -/
def Modules.count (m : Modules) (c : Nat) : Nat := m.chains.getD c 0

/-- The size of module memory (20_memory.md rule R70). -/
def moduleBytes : Nat := 65536

/-- Where the known bytes of channel `c` keep address `addr` (log entry 11). -/
def cellOf (c addr : Nat) : Nat := moduleBytes * c + addr

/-- The byte at `addr` of the modules of channel `c` that a modelled command fixed. No address passes 0xFFFF. -/
def Memory.readAt (m : Memory) (c addr : Nat) : Option Byte :=
  if addr < moduleBytes then Memory.read m (cellOf c addr) else none

/-- Store a byte string in the modules of the given channels. -/
def Memory.writeAll (m : Memory) (addr : Nat) (bytes : List Byte) : List Nat → Memory
  | [] => m
  | c :: cs => Memory.writeAll (Memory.writeBytes m (cellOf c addr) bytes) addr bytes cs

/-- `MemRead(addr, 1)` in the module at place `pos` of channel `c`: a byte that a modelled command fixed, else a free
value (20_memory.md rule R78, log entry 11). -/
def Modules.memByte (m : Modules) (c pos addr : Nat) : Byte :=
  (Memory.readAt m.mem c addr).getD (Config.moduleByte m.epoch c pos addr)

/-- `MemRead(addr, n)` (20_memory.md rule R78). -/
def Modules.memBytes (m : Modules) (c pos addr n : Nat) : List Byte :=
  (List.range n).map fun i => m.memByte c pos (addr + i)

/-- Module memory and flash may hold anything after this: what the modules did is not in the spec (log entries 14 to
16, 28). -/
def Modules.forget (m : Modules) : Modules := { m with mem := [], flash := [], epoch := m.epoch + 1 }

/-- `MemWrite(addr, n, v)` in every module of the given channels. Past 0xFFFF the modules' reaction is any value
(93_implementation_defined.md U19, log entry 15); that an unaligned address is like any other is the model's choice (log
entry 31). -/
def Modules.memWrite (m : Modules) (channels : List Nat) (addr : Nat) (bytes : List Byte) : Modules :=
  if addr + bytes.length ≤ moduleBytes then { m with mem := Memory.writeAll m.mem addr bytes channels } else m.forget

/-- One OR/AND pair passing the modules `pos`, `pos + 1`, ... of a chain: both are folded with the same sample of the
memory byte (20_memory.md rule R78). -/
def foldPair (sample : Nat → Byte) (pos : Nat) (o a : Byte) : Nat → Byte × Byte
  | 0 => (o, a)
  | k + 1 => foldPair sample (pos + 1) (o ||| sample pos) (a &&& sample pos) k

/-- The pairs of a `POLL` payload, the first of them for address `addr`, after the `k` modules of channel `c`. A last
byte without a partner has no defined content; that it is one free byte for the epoch, the channel and the address, the
same in every such response, is the model's choice (log entry 12). -/
def Modules.foldPairs (m : Modules) (c k addr : Nat) : List Byte → List Byte
  | [] => []
  | [_] => [Config.bodyByte m.epoch c addr]
  | o :: a :: rest =>
    let p := foldPair (fun pos => m.memByte c pos addr) 0 o a k
    p.1 :: p.2 :: m.foldPairs c k (addr + 1) rest

/-- One block of `n` bytes per module, in the order on the wire (20_memory.md rule R78). -/
def Modules.blocks (m : Modules) (c addr n : Nat) : List Byte :=
  (List.range (m.count c)).flatMap fun pos => m.memBytes c pos addr n

/-- `n` bytes whose content the spec does not define (30_encoding.md rule R104). That each is one free byte for the
epoch, the channel and the offset, the same in every response of one epoch, is the model's choice (log entry 12). -/
def Modules.undefinedBody (m : Modules) (c n : Nat) : List Byte := (List.range n).map (Config.bodyByte m.epoch c)

/-- The modules have executed a command: `reply` is the response body of each configured channel. -/
def State.answer (s : State) (body : Nat → List Byte) : State :=
  { s with mods := { s.mods with reply := s.channels.map body } }

/-- `CODE_ENUM`: no data (20_memory.md rule R78). No memory access is described; that module memory and flash stay as
they are is the model's choice (log entry 33). -/
def execCodeEnum (_h : CmdHeader) (s : State) : Host.Outcome State Fault Refusal :=
  .next (s.answer fun _ => [])

/-- `CODE_WAIT`: no data (20_memory.md rule R78). What else the modules do is not in the source (41_bus_ops.md rule
R186); that module memory and flash stay as they are is the model's choice (log entry 33). -/
def execCodeWait (_h : CmdHeader) (s : State) : Host.Outcome State Fault Refusal :=
  .next (s.answer fun _ => [])

/-- `CODE_TEST`: no memory access, the payload returns unchanged (20_memory.md rule R78). -/
def execCodeTest (_h : CmdHeader) (payload : List Byte) (s : State) : Host.Outcome State Fault Refusal :=
  .next (s.answer fun _ => payload)

/-- `CODE_WRITE`: in every module of every configured channel `MemWrite(A, n, P)`; the content of the response body is
not defined (20_memory.md rule R78, 30_encoding.md rule R104). -/
def execCodeWrite (h : CmdHeader) (payload : List Byte) (s : State) : Host.Outcome State Fault Refusal :=
  .next (State.answer { s with mods := s.mods.memWrite s.channels h.address.toNat payload } fun c =>
    s.mods.undefinedBody c payload.length)

/-- `CODE_POLL`: the payload's pairs folded over every module of the channel (20_memory.md rule R78). -/
def execCodePoll (h : CmdHeader) (payload : List Byte) (s : State) : Host.Outcome State Fault Refusal :=
  .next (s.answer fun c => s.mods.foldPairs c (s.mods.count c) h.address.toNat payload)

/-- `CODE_READ`: every module contributes `MemRead(A, n)` (20_memory.md rule R78). -/
def execCodeRead (h : CmdHeader) (s : State) : Host.Outcome State Fault Refusal :=
  .next (s.answer fun c => s.mods.blocks c h.address.toNat (h.lm1.toNat + 1))

end Sys2Proof.Machine
end

