-- ==== Sys2Proof/Machine/Request.lean ====
section
/-! DEFINITION. What an SRQ request does at the modules when the strobe fires (30_encoding.md rules R110, R111;
42_srq_ops.md rule R236 for what a flash request means). The CORE gives a request no further meaning, and nothing it
reads is computed from here (log entries 10, 14). -/

namespace Sys2Proof.Machine

open Config (params)

/-- The flash bytes of a request: `param` carries their number minus one (92_eei_decisions.md D29). -/
def flashBytes (r : SrqFields) : List Byte := r.payload.take (r.param.toNat + 1)

/-- The request has all its bytes and stays inside the 16-bit flash address space. -/
def flashFits (r : SrqFields) : Bool :=
  decide (r.param.toNat + 1 ≤ r.payload.length) && decide (r.address.toNat + (flashBytes r).length ≤ moduleBytes)

/-- The modules act on a record. -/
def State.acted (s : State) (record : List Byte) (m : Modules) : State :=
  { s with mods := { m with request := some record } }

/-- `SRQ_ERASE_WRITE`: the flash is erased and the payload written at the address, in the modules of every configured
channel. How far the erase reaches is not in the spec, so of the other flash bytes nothing is known after it (log entry
14). -/
def execSrqEraseWrite (r : SrqFields) (s : State) : Host.Outcome State Fault Refusal :=
  .next (s.acted (recordBytes params.srqEraseWrite r)
    (if flashFits r then { s.mods with
        flash := Memory.writeAll [] r.address.toNat (flashBytes r) s.channels, epoch := s.mods.epoch + 1 }
     else s.mods.forget))

/-- `SRQ_WRITE`: the payload is written at the address in the modules of every configured channel, the other flash
bytes stay (log entry 14). -/
def execSrqWrite (r : SrqFields) (s : State) : Host.Outcome State Fault Refusal :=
  .next (s.acted (recordBytes params.srqWrite r)
    (if flashFits r then { s.mods with flash := Memory.writeAll s.mods.flash r.address.toNat (flashBytes r) s.channels }
     else s.mods.forget))

/-- `SRQ_RUN_PROC`: the modules run a procedure of their firmware, which may leave anything in their memory and flash
(log entry 14). -/
def execSrqRunProc (r : SrqFields) (s : State) : Host.Outcome State Fault Refusal :=
  .next (s.acted (recordBytes params.srqRunProc r) s.mods.forget)

/-- The record in the mailbox of the modules of channel `c`, up to the first byte that has no value (10_state.md rule
R43, log entry 16). -/
def Modules.mailbox (m : Modules) (c : Nat) : List Byte :=
  Memory.known m.mem (cellOf c params.srqMboxAddr) params.maxDataLen

/-- The record the strobe finds: that of channel 0 when every configured channel has the same one, else none (log entry
16). -/
def State.strobedRecord (s : State) : List Byte :=
  if s.channels.all fun c => s.mods.mailbox c == s.mods.mailbox 0 then s.mods.mailbox 0 else []

/-- What the link engine sent has been taken by the modules. -/
def State.taken (s : State) (rest : List Wire) : State :=
  { s with ctx := { s.ctx with link := { s.ctx.link with wire := rest } } }

/-- The spec gives it no meaning at the modules: an unknown command or request, a trigger without a stated effect. What
the modules do is any value (20_memory.md rule R78, log entries 16, 28). -/
def State.unknownAtModules (s : State) : State := { s with mods := s.mods.forget }

end Sys2Proof.Machine
end

