-- ==== Sys2Proof/Machine/Operands.lean ====
section
/-! DEFINITION. The operand forms of a descriptor and their checks: ranges (40_device_ops.md rule R140), booleans
(30_encoding.md rule R117), timeouts (rule R116), addresses, and the configuration record (10_state.md rule R26,
40_device_ops.md rule R154). -/

namespace Sys2Proof.Machine

open Config (params)

/-- An operand of a device operation in its range, else `InvalidConfig(operand, value, least, greatest)`
(40_device_ops.md rule R140 (c)). -/
def checkRange (operand value least greatest : Nat) : Op Unit :=
  require (least ≤ value ∧ value ≤ greatest) (.invalidConfig operand value least greatest)

/-- A boolean operand of a `CFG_` operation (30_encoding.md rule R117). -/
def checkBool (operand value : Nat) : Op Unit := checkRange operand value 0 1

/-- A module address (41_bus_ops.md rules R181, R187). -/
def checkAddress (address : Nat) : Op Unit := require (address ≤ 0xFFFF) (.invalidCommand 3 address)

/-- An SRQ operand (42_srq_ops.md rule R230). -/
def checkSrqOperand (value greatest : Nat) : Op Unit := require (value ≤ greatest) (.invalidCommand 10 value)

/-- The deadline of a wait has passed at time `t`: never with NO_TIMEOUT, else when `t >= t0 + timeout` in exact
arithmetic (30_encoding.md rule R116, 60_exceptions.md rule R284). -/
def expired (t0 : Nat) (timeout : Word) (t : Nat) : Bool := decide (t0 + timeout.toNat ≤ t)

/-- The deadline test of a wait: `timeout != NO_TIMEOUT and Now() >= t0 + timeout`. `Now()` is called only when there
is a deadline (40_device_ops.md rules R142, R153). -/
def deadlinePassed (t0 : Nat) (timeout : Word) : Op Bool :=
  if timeout = params.noTimeout then pure false
  else do
    let t ← now
    pure (expired t0 timeout t)

/-- The bytes of the configuration record (40_device_ops.md rule R154). -/
def cfgBytes : Nat := 72

/-- The largest u32. -/
def maxWord : Nat := 0xFFFFFFFF

/-- The legal range of each configuration field, in the order of 10_state.md rule R26. -/
def cfgRanges : List (Nat × Nat) :=
  [(1, params.nchMax), (0, 255), (0, 255), (0, 255), (0, 65535), (0, 65535), (0, 1), (0, 1), (0, 1), (0, 1), (0, 1),
   (0, 255), (0, 1), (0, 1), (0, maxWord), (0, maxWord), (0, 65535), (0, maxWord)]

/-- The fields from number `f` on, in order, each in its range, else `InvalidConfig(16 + f, ...)` (40_device_ops.md
rule R154). -/
def checkFields (b : List Byte) (f : Nat) : List (Nat × Nat) → Op Unit
  | [] => pure ()
  | (lo, hi) :: rest => do
    checkRange (16 + f) (wordAt b (4 * f)).toNat lo hi
    checkFields b (f + 1) rest

/-- The record held by 72 bytes, each field a `le32` (40_device_ops.md rule R154). -/
def cfgOfBytes (b : List Byte) : CfgRecord where
  channels := wordAt b 0
  divider := wordAt b 4
  txIdle := wordAt b 8
  turboIdle := wordAt b 12
  resetTime := wordAt b 16
  holdTime := wordAt b 20
  skipCookie := wordAt b 24
  skipStatusCheck := wordAt b 28
  fast := wordAt b 32
  cfgWide16 := wordAt b 36
  loopbackSelfTest := wordAt b 40
  rxSkipWords := wordAt b 44
  rxWaitNonzero := wordAt b 48
  rxLoopback := wordAt b 52
  busTimeout := wordAt b 56
  srqTimeout := wordAt b 60
  streamSkipBudget := wordAt b 64
  legacyDelay := wordAt b 68

end Sys2Proof.Machine
end

