-- ==== Sys2Proof/Machine/Device.lean ====
section
/-! DEFINITION. The Controller Device operations (40_device_ops.md): the sequences `Trigger`, `WaitStatus`, the five
configuration writes, `WriteCommand`, the bounded and the streaming reads and `LoadConfig`, and the meaning of each
operation. Every operation of this family is accepted in every bus state (rule R140). -/

namespace Sys2Proof.Machine

open Config (params)

/-! ### TRIGGER -/

/-- The session registers after the CORE decides on a trigger: `reset` writes those of 10_state.md rule R40, any other
none (rule R141). -/
def Session.onTrigger (r : Session) (action : Nat) : Session := if action = 0 then r.busReset else r

/-- `Trigger(action)` (rule R141). -/
def trigger (action : Nat) : Op Unit := do
  checkRange 0 action 0 4
  modifySess fun r => r.onTrigger action
  regWrite params.regTrigger (triggerWord action)

/-- `TRIGGER action` (rule R141). -/
def execTrigger (action : Word) (s : State) : Host.Outcome State Fault Refusal :=
  operate (.trigger action) (silently (trigger action.toNat)) s

/-! ### WAIT_STATUS -/

/-- The polls of `WaitStatus`, at most `fuel` of them, where `fuel` is how many answers the link engine has listed:
when it is used up the next `RegRead` waits for its answer. In each: failure, success, deadline (rule R142). -/
def pollStatus (set clr timeout : Word) (t0 : Nat) : Nat → Op Word
  | 0 => fun c => .error (.wait .read) c
  | fuel + 1 => do
    let s ← regRead params.regStatus
    if hasFailed s then raise (.failure s set clr)
    else if holds s set clr then pure s
    else
      let late ← deadlinePassed t0 timeout
      if late then raise (.timeout set clr s false)
      else pollStatus set clr timeout t0 fuel

/-- How many answers to `RegRead` the link engine has listed. -/
def readsLeft : Op Nat := fun c => .ok c.env.reads.length c

/-- `WaitStatus(set, clr, timeout)`: reserved bits of the masks are ignored (rule R142). -/
def waitStatus (set clr timeout : Word) : Op Word := do
  let t0 ← now
  let fuel ← readsLeft
  pollStatus (set &&& statusBits) (clr &&& statusBits) timeout t0 fuel

/-- `WAIT_STATUS set_mask, clear_mask, timeout`: `out` is the satisfying snapshot (rule R142). -/
def execWaitStatus (set clr timeout : Word) (s : State) : Host.Outcome State Fault Refusal :=
  operate (.waitStatus set clr timeout)
    (answering do
      let w ← waitStatus set clr timeout
      pure (le32 w)) s

/-! ### The five configuration writes -/

/-- `CfgChannels(n)` (rule R143). -/
def cfgChannels (n : Nat) : Op Unit := do
  checkRange 0 n 1 params.nchMax
  regWrite params.regChCtl (BitVec.ofNat 32 n)
  modifySess fun r => r.setNch n

/-- `CFG_CHANNELS n` (rule R143). -/
def execCfgChannels (n : Word) (s : State) : Host.Outcome State Fault Refusal :=
  operate (.cfgChannels n) (silently (cfgChannels n.toNat)) s

/-- The word of `REG_CLK_CTL` (10_state.md rule R32). -/
def clockWord (divider txIdle turboIdle : Nat) : Word := BitVec.ofNat 32 (divider + 256 * txIdle + 65536 * turboIdle)

/-- `CfgClock(d, ti, tu)` (rule R144). -/
def cfgClock (divider txIdle turboIdle : Nat) : Op Unit := do
  checkRange 0 divider 0 255
  checkRange 1 txIdle 0 255
  checkRange 2 turboIdle 0 255
  regWrite params.regClkCtl (clockWord divider txIdle turboIdle)

/-- `CFG_CLOCK divider, tx_idle, turbo_idle` (rule R144). -/
def execCfgClock (divider txIdle turboIdle : Word) (s : State) : Host.Outcome State Fault Refusal :=
  operate (.cfgClock divider txIdle turboIdle) (silently (cfgClock divider.toNat txIdle.toNat turboIdle.toNat)) s

/-- The word of `REG_RST_CTL` (10_state.md rule R33). -/
def resetWord (resetTime holdTime : Nat) : Word := BitVec.ofNat 32 (resetTime + 65536 * holdTime)

/-- `CfgReset(rt, ht)` (rule R145). -/
def cfgReset (resetTime holdTime : Nat) : Op Unit := do
  checkRange 0 resetTime 0 65535
  checkRange 1 holdTime 0 65535
  regWrite params.regRstCtl (resetWord resetTime holdTime)

/-- `CFG_RESET reset_time, hold_time` (rule R145). -/
def execCfgReset (resetTime holdTime : Word) (s : State) : Host.Outcome State Fault Refusal :=
  operate (.cfgReset resetTime holdTime) (silently (cfgReset resetTime.toNat holdTime.toNat)) s

/-- The word of `REG_TX_CTL` (10_state.md rule R34). -/
def txWord (length fast wide lb : Nat) : Word := BitVec.ofNat 32 (length + 65536 * fast + 131072 * wide + 262144 * lb)

/-- `CfgTransmit(len, f, w, lb)` (rule R146). -/
def cfgTransmit (length fast wide lb : Nat) : Op Unit := do
  checkRange 0 length 0 65535
  checkBool 1 fast
  checkBool 2 wide
  checkBool 3 lb
  regWrite params.regTxCtl (txWord length fast wide lb)
  modifySess fun r => r.setWide16 (wide == 1)

/-- `CFG_TRANSMIT length, fast, wide16, lb_self_test` (rule R146). -/
def execCfgTransmit (length fast wide lb : Word) (s : State) : Host.Outcome State Fault Refusal :=
  operate (.cfgTransmit length fast wide lb) (silently (cfgTransmit length.toNat fast.toNat wide.toNat lb.toNat)) s

/-- The word of `REG_RX_CTL` (10_state.md rule R35). -/
def rxWord (length skip wnz lb : Nat) : Word := BitVec.ofNat 32 (length + 65536 * skip + 16777216 * wnz + 33554432 * lb)

/-- `CfgReceive(len, sk, wnz, lb)` (rule R147). -/
def cfgReceive (length skip wnz lb : Nat) : Op Unit := do
  checkRange 0 length 0 65535
  checkRange 1 skip 0 255
  checkBool 2 wnz
  checkBool 3 lb
  regWrite params.regRxCtl (rxWord length skip wnz lb)

/-- `CFG_RECEIVE length, skip_words, wait_nonzero, loopback` (rule R147). -/
def execCfgReceive (length skip wnz lb : Word) (s : State) : Host.Outcome State Fault Refusal :=
  operate (.cfgReceive length skip wnz lb) (silently (cfgReceive length.toNat skip.toNat wnz.toNat lb.toNat)) s

/-! ### WRITE_COMMAND -/

/-- `WriteCommand(b)`: 16-bit writes when `wide16` is set, else 32-bit writes (rule R148). -/
def writeCommand (b : List Byte) : Op Unit := do
  checkRange 4 b.length 0 params.maxCmdLen
  let r ← getSess
  if r.wide16 then bulkWrite16 params.cmdBuf b else bulkWrite params.cmdBuf b

/-- `WRITE_COMMAND ; data` (rule R148). -/
def execWriteCommand (data : List Byte) (s : State) : Host.Outcome State Fault Refusal :=
  operate (.writeCommand data) (silently (writeCommand data)) s

/-! ### Bounded reads -/

/-- `ReadRx(size)` (rule R149). -/
def readRx (size : Nat) : Op (List Byte) := do
  checkRange 0 size 0 params.rxCap
  let b ← bulkRead params.rxBuf (up4 size)
  pure (b.take size)

/-- `READ_RX size` (rule R149). -/
def execReadRx (size : Word) (s : State) : Host.Outcome State Fault Refusal :=
  operate (.readRx size) (answering (readRx size.toNat)) s

/-- The checks of an operation that reads `size` bytes of each of `n` channels: the channel operand first (rules
R150, R152, R153, log entry 19). -/
def checkSlices (size n : Nat) : Op Unit := do
  checkRange 1 n 1 params.nchMax
  require (size * n ≤ params.rxCap) (.invalidConfig 0 size 0 (params.rxCap / n))

/-- `ReadRxAll(size, n)`: one slice per channel (rule R150). -/
def readRxAll (size n : Nat) : Op (List (List Byte)) := do
  checkSlices size n
  let b ← bulkRead params.rxBuf (up4 (size * n))
  pure (channelSlices b size n)

/-- `READ_RX_ALL size, channels` (rule R150). -/
def execReadRxAll (size n : Word) (s : State) : Host.Outcome State Fault Refusal :=
  operate (.readRxAll size n)
    (answering do
      let r ← readRxAll size.toNat n.toNat
      pure r.flatten) s

/-! ### Streaming reads -/

/-- The index of the read number `k` of a pull: `RX_BUF + (k mod RXW)` (rule R151). -/
def streamIndex (k : Nat) : Nat := params.rxBuf + k % (params.rxCap / 4)

/-- Phase 1 of a pull, from read number `k` on: the first non-zero word and the number of the read after it, or
`none` when the zero word after `budget` others has come (rule R151). -/
def skipZeros (k : Nat) : Nat → Op (Option (Word × Nat))
  | 0 => do
    let w ← regRead (streamIndex k)
    if w ≠ 0 then pure (some (w, k + 1)) else pure none
  | budget + 1 => do
    let w ← regRead (streamIndex k)
    if w ≠ 0 then pure (some (w, k + 1)) else skipZeros (k + 1) budget

/-- `ReadSkip(total, budget)`, the pull: `none` is `NotReady` (rule R151). -/
def readSkip (total budget : Nat) : Op (Option (List Byte)) := do
  let r ← getSess
  if total ≤ r.stash.length then do
    modifySess fun r => r.setStash (r.stash.drop total)
    pure (some (r.stash.take total))
  else do
    let need := ceilDiv (total - r.stash.length) 4
    match ← skipZeros 0 budget with
    | none => pure none
    | some (w, k) => do
      let ws ← readWords streamIndex k (need - 1)
      let buf := r.stash ++ bytesOf (w :: ws)
      modifySess fun r => r.setStash (buf.drop total)
      pure (some (buf.take total))

/-- `ReadRxStream(size, n, budget)`: `none` is `NotReady` (rule R152). -/
def readRxStream (size n budget : Nat) : Op (Option (List (List Byte))) := do
  checkSlices size n
  match ← readSkip (size * n) budget with
  | none => pure none
  | some b => pure (some (channelSlices b size n))

/-- `READ_RX_STREAM size, channels, budget` (rule R152). -/
def execReadRxStream (size n budget : Word) (s : State) : Host.Outcome State Fault Refusal :=
  operate (.readRxStream size n budget)
    (do
      let r ← readRxStream size.toNat n.toNat budget.toNat
      pure (r.map List.flatten)) s

/-- The attempts of `ReadRxStreamBlk`. Every attempt that is not ready has used an answer of the link engine, so
`fuel`, one more than there are answers, is never used up (lemma `pullUntil_fuel`). In each: attempt, deadline, idle
point (rule R153). -/
def pullUntil (total : Nat) (timeout : Word) (budget t0 : Nat) : Nat → Op (List Byte)
  | 0 => fun c => .error (.wait .read) c
  | fuel + 1 => do
    match ← readSkip total budget with
    | some b => pure b
    | none => do
      let late ← deadlinePassed t0 timeout
      if late then raise (.timeout 0 0 0 true)
      else do
        let go ← idlePoint
        if go then pullUntil total timeout budget t0 fuel else raise .cancelled

/-- `ReadRxStreamBlk(size, n, timeout, budget)` (rule R153). -/
def readRxStreamBlk (size n : Nat) (timeout : Word) (budget : Nat) : Op (List (List Byte)) := do
  checkSlices size n
  let t0 ← now
  let left ← readsLeft
  let b ← pullUntil (size * n) timeout budget t0 (left + 1)
  pure (channelSlices b size n)

/-- `READ_RX_STREAM_BLK size, channels, timeout, budget` (rule R153). -/
def execReadRxStreamBlk (size n timeout budget : Word) (s : State) : Host.Outcome State Fault Refusal :=
  operate (.readRxStreamBlk size n timeout budget)
    (answering do
      let r ← readRxStreamBlk size.toNat n.toNat timeout budget.toNat
      pure r.flatten) s

/-! ### LOAD_CONFIG -/

/-- `LoadConfig(b)` (rule R154). -/
def loadConfig (b : List Byte) : Op Unit := do
  checkRange 4 b.length cfgBytes cfgBytes
  checkFields b 0 cfgRanges
  modifySess fun r => r.setCfg (cfgOfBytes b)

/-- `LOAD_CONFIG ; data` (rule R154). -/
def execLoadConfig (data : List Byte) (s : State) : Host.Outcome State Fault Refusal :=
  operate (.loadConfig data) (silently (loadConfig data)) s

end Sys2Proof.Machine
end

