-- ==== Sys2Proof/Machine/Frames.lean ====
section
/-! DEFINITION. The sequences the bus and SRQ families share (41_bus_ops.md): the gate, building a command, the
transport half of a transaction, the validation of a response frame, and the coherency check. -/

namespace Sys2Proof.Machine

open Config (params)

/-- `Gate()`: configuration, then `Ready`, then `nch` (rule R180). -/
def gate : Op Unit := do
  let r ← getSess
  require (r.cfgValid = true) (.stateError r.busState.code 2)
  require (r.busState = .ready) (.stateError r.busState.code 1)
  require (r.nch.isSome = true) (.stateError r.busState.code 3)

/-- The request a response is checked against: `{code, lm1, address, ck}` (rule R181). -/
structure Request where
  code : Byte
  lm1 : Byte
  address : Half
  cookie : Byte
deriving DecidableEq, Repr

/-- The six command codes as operand values (30_encoding.md rule R104). -/
def commandCodes : List Nat :=
  [params.codeEnum, params.codeWait, params.codeTest, params.codeWrite, params.codePoll, params.codeRead].map BitVec.toNat

/-- The code carries a payload (30_encoding.md rule R104). -/
def hasPayload (code : Byte) : Bool := code &&& params.flagPayload != 0

/-- The code expects one response per module (30_encoding.md rule R104). -/
def isMulti (code : Byte) : Bool := code &&& params.flagMulti != 0

/-- `header ++ payload` of a request (30_encoding.md rules R103, R106). -/
def requestBytes (req : Request) (payload : List Byte) : List Byte :=
  [req.code, req.lm1] ++ le16 req.address ++ [req.cookie, 0x00] ++ le16 0 ++ payload

/-- `len_minus_one`, with the payload and length checks (30_encoding.md rule R105, 41_bus_ops.md rule R181). -/
def buildLength (code : Byte) (payload : List Byte) (rdlen : Nat) : Op Nat :=
  if hasPayload code then do
    require (1 ≤ payload.length) (.invalidCommand 5 code.toNat)
    require (payload.length ≤ params.maxDataLen) (.invalidCommand 6 payload.length)
    pure (payload.length - 1)
  else do
    require (payload.length = 0) (.invalidCommand 4 code.toNat)
    if code = params.codeRead then do
      require (1 ≤ rdlen ∧ rdlen ≤ params.maxDataLen) (.invalidCommand 6 rdlen)
      pure (rdlen - 1)
    else pure 0

/-- The cookie of a request, and the counter's advance (30_encoding.md rule R107). -/
def takeCookie : Op Byte := do
  let r ← getSess
  if r.cfg.skipCookie = 1 then pure 0
  else do
    modifySess fun r => r.setCookie (r.cookieCtr + 1)
    pure r.cookieCtr

/-- `Build(code, address, payload, rdlen)` (rule R181). -/
def build (code address : Nat) (payload : List Byte) (rdlen : Nat) : Op (List Byte × Request) := do
  require (code ∈ commandCodes) (.invalidCommand 2 code)
  checkAddress address
  let lm1 ← buildLength (byte code) payload rdlen
  let ck ← takeCookie
  let req : Request := { code := byte code, lm1 := byte lm1, address := BitVec.ofNat 16 address, cookie := ck }
  pure (requestBytes req payload, req)

/-- What a response header says (rule R193). -/
structure Header where
  code : Byte
  lm1 : Byte
  address : Half
  cookie : Byte
  status : Byte
  count : Half
deriving DecidableEq, Repr

/-- `ParseHeader(b)` (rule R193). -/
def parseHeader (b : List Byte) : Header where
  code := byteAt b 0
  lm1 := byteAt b 1
  address := halfAt b 2
  cookie := byteAt b 4
  status := byteAt b 5
  count := halfAt b 6

/-- `Transact(cmd, Lt, Lr)`: framing, command, start, completion wait, one frame of `Lr` bytes per channel (rule
R182). -/
def transact (cmd : List Byte) (lt lr : Nat) : Op (List (List Byte)) := do
  let r ← getSess
  cfgTransmit lt r.cfg.fast.toNat r.cfg.cfgWide16.toNat r.cfg.loopbackSelfTest.toNat
  cfgReceive lr r.cfg.rxSkipWords.toNat r.cfg.rxWaitNonzero.toNat r.cfg.rxLoopback.toNat
  writeCommand cmd
  trigger 2
  ignoring (waitStatus doneSet doneClr r.cfg.busTimeout)
  let n ← needNch
  readRxAll lr n

/-- The body bytes of a response (30_encoding.md rule R108, 41_bus_ops.md rule R183). -/
def bodyLength (code : Byte) (n count : Nat) : Nat :=
  if hasPayload code then n else if isMulti code then count * n else 0

/-- The header echo, field by field in the order code, length, address, cookie (rule R183 (a)). -/
def checkHeader (c : Nat) (h : Header) (req : Request) : Op Unit := do
  require (h.code = req.code) (.protocolError c 1 req.code.toNat h.code.toNat)
  require (h.lm1 = req.lm1) (.protocolError c 2 req.lm1.toNat h.lm1.toNat)
  require (h.address = req.address) (.protocolError c 3 req.address.toNat h.address.toNat)
  require (h.cookie = req.cookie) (.protocolError c 4 req.cookie.toNat h.cookie.toNat)

/-- The response count against `chain` (rule R183). -/
def checkCount (c : Nat) (h : Header) (wanted : Bool) : Op Unit :=
  if wanted then do
    let chain ← needChain
    require (h.count.toNat = chain) (.protocolError c 5 chain h.count.toNat)
  else pure ()

/-- The offsets below `n` at which body and payload differ, in increasing order (rule R183 (c)). -/
def differing (body payload : List Byte) (n : Nat) : List Nat :=
  (List.range n).filter fun i => byteAt body i != byteAt payload i

/-- The data echo (rule R183 (c)). -/
def checkEcho (c : Nat) (body payload : List Byte) (n : Nat) (wanted : Bool) : Op Unit :=
  if wanted then
    match differing body payload n with
    | [] => pure ()
    | i :: rest => raise (.dataMismatch c i (rest.length + 1))
  else pure ()

/-- The idle bytes, from offset `i` on, in increasing order (rule R183 (d)). -/
def checkIdle (c i : Nat) (f : List Byte) : Op Unit :=
  match firstNonzero i (f.drop i) with
  | some (j, v) => raise (.protocolError c 6 j v.toNat)
  | none => pure ()

/-- `Validate(c, f, req, payload, verify, check_count)`: the response count and the body (rule R183). -/
def validate (c : Nat) (f : List Byte) (req : Request) (payload : List Byte) (verify count : Bool) :
    Op (Half × List Byte) := do
  let h := parseHeader f
  checkHeader c h req
  require (h.status = 0) (.moduleError c h.status.toNat h.count.toNat)
  checkCount c h count
  let n := req.lm1.toNat + 1
  let len := bodyLength req.code n h.count.toNat
  require (params.headerBytes + len ≤ f.length) (.protocolError c 7 f.length (params.headerBytes + len))
  let body := slice f params.headerBytes (params.headerBytes + len)
  checkEcho c body payload n (verify && hasPayload req.code)
  checkIdle c (params.headerBytes + len) f
  pure (h.count, body)

/-- The frames of the channels from `c` on, in increasing order (rules R184, R278 (e)). -/
def validateFrom (req : Request) (payload : List Byte) (verify count : Bool) (c : Nat) :
    List (List Byte) → Op (List (Half × List Byte))
  | [] => pure []
  | f :: fs => do
    let r ← validate c f req payload verify count
    let rs ← validateFrom req payload verify count (c + 1) fs
    pure (r :: rs)

/-- The OR byte of offset `i` of channel `c` (rule R189: even-indexed). -/
def orByte (bodies : List (List Byte)) (c i : Nat) : Byte := byteAt (bodies.getD c []) (2 * i)

/-- The AND byte of offset `i` of channel `c` (rule R189: odd-indexed). -/
def andByte (bodies : List (List Byte)) (c i : Nat) : Byte := byteAt (bodies.getD c []) (2 * i + 1)

/-- `CoherenceCheck(body, n, dlen)`: first OR against AND in every channel, then every channel against channel 0
(rule R190). -/
def coherenceCheck (bodies : List (List Byte)) (n dlen : Nat) : Op (List Byte) :=
  match (pairs n dlen).find? fun p => orByte bodies p.1 p.2 != andByte bodies p.1 p.2 with
  | some (c, i) => raise (.coherenceError c i (orByte bodies c i).toNat (andByte bodies c i).toNat)
  | none =>
    match (pairs n dlen).find? fun p => orByte bodies p.1 p.2 != orByte bodies 0 p.2 with
    | some (c, i) => raise (.coherenceError c i (orByte bodies 0 i).toNat (256 + (orByte bodies c i).toNat))
    | none => pure ((List.range dlen).map fun i => orByte bodies 0 i)

/-- The `n` mask pairs `00 FF` of a poll (rule R189). -/
def pollMasks : Nat → List Byte
  | 0 => []
  | n + 1 => 0x00 :: 0xFF :: pollMasks n

end Sys2Proof.Machine
end

