-- ==== Sys2Proof/Machine/Bus.lean ====
section
/-! DEFINITION. The Bus Protocol Controller operations (41_bus_ops.md rules R184 to R191). -/

namespace Sys2Proof.Machine

open Config (params)

/-! ### SEND, BUS_WRITE, BUS_WAIT -/

/-- `Send(code, address, verify, payload)`: the response count and the body of every channel (rule R184). -/
def send (code address verify : Nat) (payload : List Byte) : Op (List (Half × List Byte)) := do
  gate
  require (code ≠ params.codeRead.toNat) (.invalidCommand 2 code)
  require (verify ≤ 1) (.invalidCommand 9 verify)
  let (cmd, req) ← build code address payload 0
  let len := frameLen cmd.length
  let frames ← transact cmd len len
  validateFrom req payload (verify == 1) true 0 frames

/-- `le16(cnt[0]) ++ body[0] ++ ...` (rule R184). -/
def countedBodies (rs : List (Half × List Byte)) : List Byte := rs.flatMap fun r => le16 r.1 ++ r.2

/-- `SEND code, address, verify ; data` (rule R184). -/
def execSend (code address verify : Word) (data : List Byte) (s : State) : Host.Outcome State Fault Refusal :=
  operate (.send code address verify data)
    (answering do
      let rs ← send code.toNat address.toNat verify.toNat data
      pure (countedBodies rs)) s

/-- `BUS_WRITE address ; data`: the result of the `SEND` is discarded (rule R185). -/
def execBusWrite (address : Word) (data : List Byte) (s : State) : Host.Outcome State Fault Refusal :=
  operate (.busWrite address data)
    (silently (ignoring (send params.codeWrite.toNat address.toNat 0 data))) s

/-- `BUS_WAIT`: the address sent is 0 and the result is discarded (rule R186). -/
def execBusWait (s : State) : Host.Outcome State Fault Refusal :=
  operate .busWait (silently (ignoring (send params.codeWait.toNat 0 0 []))) s

/-! ### Reads -/

/-- The operand checks of the two `READ` operations (rules R187, R188). -/
def checkRead (address dlen : Nat) : Op Unit := do
  checkAddress address
  require (1 ≤ dlen ∧ dlen ≤ params.maxDataLen) (.invalidCommand 6 dlen)

/-- `ReadBounded(address, dlen)` (rule R187). -/
def readBounded (address dlen : Nat) : Op (List Byte) := do
  gate
  checkRead address dlen
  let chain ← needChain
  let n ← needNch
  let len := frameLen (params.headerBytes + chain * dlen)
  require (len * n ≤ params.rxCap) (.invalidCommand 8 (len * n))
  let (cmd, req) ← build params.codeRead.toNat address [] dlen
  let frames ← transact cmd len len
  let rs ← validateFrom req [] false true 0 frames
  pure (rs.flatMap fun r => r.2)

/-- `READ_BOUNDED address, data_len` (rule R187). -/
def execReadBounded (address dlen : Word) (s : State) : Host.Outcome State Fault Refusal :=
  operate (.readBounded address dlen) (answering (readBounded address.toNat dlen.toNat)) s

/-- `K` pulls of `CHUNK_SIZE` bytes per channel, appended to the frames so far (rule R188). -/
def pullChunks (n : Nat) (timeout : Word) (budget : Nat) : Nat → List (List Byte) → Op (List (List Byte))
  | 0, frames => pure frames
  | k + 1, frames => do
    let s ← readRxStreamBlk params.chunkSize n timeout budget
    pullChunks n timeout budget k (List.zipWith (· ++ ·) frames s)

/-- `ReadStreaming(address, dlen)` (rule R188). -/
def readStreaming (address dlen : Nat) : Op (List Byte) := do
  gate
  checkRead address dlen
  let (cmd, req) ← build params.codeRead.toNat address [] dlen
  let chain ← needChain
  let n ← needNch
  let pulls := ceilDiv (frameLen (params.headerBytes + chain * dlen)) params.chunkSize
  let r ← getSess
  cfgTransmit (frameLen params.headerBytes) r.cfg.fast.toNat r.cfg.cfgWide16.toNat r.cfg.loopbackSelfTest.toNat
  cfgReceive 0 r.cfg.rxSkipWords.toNat r.cfg.rxWaitNonzero.toNat r.cfg.rxLoopback.toNat
  writeCommand cmd
  trigger 2
  let frames ← pullChunks n r.cfg.busTimeout r.cfg.streamSkipBudget.toNat pulls (List.replicate n [])
  trigger 3
  ignoring (waitStatus params.stReady (params.stActive ||| params.stStopping) r.cfg.busTimeout)
  let rs ← validateFrom req [] false true 0 frames
  pure (rs.flatMap fun r => r.2)

/-- `READ_STREAMING address, data_len` (rule R188). -/
def execReadStreaming (address dlen : Word) (s : State) : Host.Outcome State Fault Refusal :=
  operate (.readStreaming address dlen) (answering (readStreaming address.toNat dlen.toNat)) s

/-- The sum of the response counts (rule R189). -/
def countSum (rs : List (Half × List Byte)) : Nat := (rs.map fun r => r.1.toNat).sum

/-- `ReadCoherent(address, dlen)` (rule R189). -/
def readCoherent (address dlen : Nat) : Op (List Byte) := do
  gate
  checkAddress address
  require (1 ≤ dlen ∧ 2 * dlen ≤ params.maxDataLen) (.invalidCommand 6 dlen)
  let masks := pollMasks dlen
  let (cmd, req) ← build params.codePoll.toNat address masks 0
  let len := frameLen cmd.length
  let frames ← transact cmd len len
  let rs ← validateFrom req masks false true 0 frames
  let n ← needNch
  let v ← coherenceCheck (rs.map fun r => r.2) n dlen
  pure (le32 (info (countSum rs)) ++ v)

/-- `READ_COHERENT address, data_len` (rule R189). -/
def execReadCoherent (address dlen : Word) (s : State) : Host.Outcome State Fault Refusal :=
  operate (.readCoherent address dlen) (answering (readCoherent address.toNat dlen.toNat)) s

/-! ### INITIALIZE -/

/-- The response count of channel `c`. -/
def countOf (rs : List (Half × List Byte)) (c : Nat) : Half := ((rs.map fun r => r.1).getD c 0)

/-- The lowest channel whose response count is not channel 0's raises `ChannelMismatch` (rule R191). -/
def checkCounts (rs : List (Half × List Byte)) (n : Nat) : Op Unit :=
  match (List.range n).find? fun c => countOf rs c != countOf rs 0 with
  | some c => raise (.channelMismatch c (countOf rs 0).toNat (countOf rs c).toNat)
  | none => pure ()

/-- The registers a successful `INITIALIZE` writes last (rule R191). -/
def Session.initialised (r : Session) (chain : Half) (n : Nat) (version : Byte) : Session :=
  { r with chain := some chain, modules := some (chain.toNat * n), modVersion := some version, busState := .ready }

/-- `Initialize()` (rule R191). -/
def initializeBus : Op (List Byte) := do
  let r ← getSess
  require (r.cfgValid = true) (.stateError r.busState.code 2)
  trigger 0
  ignoring (waitStatus params.stReady params.stResetActive r.cfg.busTimeout)
  cfgChannels r.cfg.channels.toNat
  cfgClock r.cfg.divider.toNat r.cfg.txIdle.toNat r.cfg.turboIdle.toNat
  cfgReset r.cfg.resetTime.toNat r.cfg.holdTime.toNat
  let masks := pollMasks 1
  let (cmd, req) ← build params.codePoll.toNat params.modStatusAddr masks 0
  let len := frameLen cmd.length
  let frames ← transact cmd len len
  let rs ← validateFrom req masks false false 0 frames
  let n ← needNch
  checkCounts rs n
  require (countOf rs 0 ≠ 0) (.noModulesDetected n)
  let v ← coherenceCheck (rs.map fun r => r.2) n 1
  let version := byteAt v 0
  require (params.minVersion ≤ version.toNat) (.unsupportedVersion version.toNat params.minVersion)
  modifySess fun r => r.initialised (countOf rs 0) n version
  pure (le16 (countOf rs 0) ++ [version])

/-- `INITIALIZE` (rule R191). -/
def execInitialize (s : State) : Host.Outcome State Fault Refusal :=
  operate .initBus (answering initializeBus) s

end Sys2Proof.Machine
end

