-- ==== Sys2Proof/Machine/Srq.lean ====
section
/-! DEFINITION. The Module SRQ Protocol operations (42_srq_ops.md rules R230 to R236). -/

namespace Sys2Proof.Machine

open Config (params)

/-! ### SRQ -/

/-- `SrqRecord(code, param, address, payload)` (30_encoding.md rule R110). -/
def srqRecord (code param address : Nat) (payload : List Byte) : List Byte :=
  [byte code, byte param] ++ le16 (BitVec.ofNat 16 address) ++ payload

/-- The mailbox write of a record that is not the last one written: `last_srq` is cleared before it and set only after
it has validated (rule R232). -/
def postRecord (rec : List Byte) : Op Unit := do
  let r ← getSess
  if r.lastSrq ≠ some rec then do
    modifySess fun r => r.setLastSrq none
    ignoring (send params.codeWrite.toNat params.srqMboxAddr 0 rec)
    modifySess fun r => r.setLastSrq (some rec)
  else pure ()

/-- `Srq(code, param, address, payload)` (rule R232). -/
def srq (code param address : Nat) (payload : List Byte) : Op Unit := do
  gate
  checkSrqOperand code 0xFF
  checkSrqOperand param 0xFF
  checkAddress address
  checkSrqOperand payload.length (params.maxDataLen - params.srqHdrBytes)
  postRecord (srqRecord code param address payload)
  trigger 1
  let r ← getSess
  ignoring (waitStatus params.stReady 0 r.cfg.srqTimeout)

/-- `SRQ request_code, param, address ; data` (rule R232). -/
def execSrq (code param address : Word) (data : List Byte) (s : State) : Host.Outcome State Fault Refusal :=
  operate (.srq code param address data) (silently (srq code.toNat param.toNat address.toNat data)) s

/-! ### READ_MODULE_STATUS -/

/-- `ReadModuleStatus()`: the bounded read where it fits, else the streaming read (rule R234). -/
def readModuleStatus : Op (List Byte) := do
  gate
  let chain ← needChain
  let n ← needNch
  if frameLen (params.headerBytes + chain * params.statusLen) * n ≤ params.rxCap
  then readBounded params.modStatusAddr params.statusLen
  else readStreaming params.modStatusAddr params.statusLen

/-- `READ_MODULE_STATUS` (rule R234). -/
def execReadModuleStatus (s : State) : Host.Outcome State Fault Refusal :=
  operate .readModuleStatus (answering readModuleStatus) s

/-- The module status record (30_encoding.md rule R112). -/
structure StatusRecord where
  version : Byte
  hardwareId : Byte
  flags : Byte
  srqStatus : Byte
  codeChecksum : Word
deriving DecidableEq, Repr

/-- The record of module `m` of channel `c` in the bytes `ReadModuleStatus` returned (rule R234). -/
def statusRecord (out : List Byte) (chain c m : Nat) : StatusRecord :=
  let i := (c * chain + m) * params.statusLen
  { version := byteAt out i, hardwareId := byteAt out (i + 1), flags := byteAt out (i + 2),
    srqStatus := byteAt out (i + 3), codeChecksum := wordAt out (i + 4) }

/-! ### SRQ_SYNC -/

/-- `wait until Now() >= target`, at most `fuel` readings of the time base, where `fuel` is how many of its advances
are listed (rule R233). -/
def waitUntil (target : Nat) : Nat → Op Unit
  | 0 => fun c => .error (.wait .tick) c
  | fuel + 1 => do
    let t ← now
    if target ≤ t then pure () else waitUntil target fuel

/-- How many advances of the time base are listed. -/
def ticksLeft : Op Nat := fun c => .ok c.env.ticks.length c

/-- The delay of legacy mode: no port transaction, no way out before its time (rule R233). -/
def legacyWait (delay : Nat) : Op Unit :=
  if 0 < delay then do
    let t0 ← now
    let fuel ← ticksLeft
    waitUntil (t0 + delay) fuel
  else pure ()

/-- The test of every module's `srq_status`, the first one that is not SRQ_OK reported, unless `skip_status_check`
is set (rule R233). -/
def checkSrqStatus : Op Unit := do
  let r ← getSess
  if r.cfg.skipStatusCheck = 0 then do
    let out ← readModuleStatus
    let chain ← needChain
    let n ← needNch
    match (pairs n chain).find? fun p => (statusRecord out chain p.1 p.2).srqStatus != params.srqOk with
    | some (c, m) => raise (.srqFailed (statusRecord out chain c m).srqStatus.toNat c m)
    | none => pure ()
  else pure ()

/-- `SrqSync(code, param, address, delay, payload)` (rule R233). -/
def srqSync (code param address delay : Nat) (payload : List Byte) : Op Unit := do
  gate
  checkSrqOperand code 0x7F
  let version ← needVersion
  if params.syncVersionThreshold < version then srq (code ||| params.srqSyncFlag.toNat) param address payload
  else do
    srq code param address payload
    legacyWait delay
    if code = params.srqRunProc.toNat then ignoring (send params.codeWait.toNat 0 0 [])
    else pure ()
  checkSrqStatus

/-- `SRQ_SYNC request_code, param, address, delay ; data` (rule R233). -/
def execSrqSync (code param address delay : Word) (data : List Byte) (s : State) : Host.Outcome State Fault Refusal :=
  operate (.srqSync code param address delay data)
    (silently (srqSync code.toNat param.toNat address.toNat delay.toNat data)) s

/-! ### PROGRAM -/

/-- The chunks from number `i` on, each sent and finished before the next (rule R236). -/
def programChunks (address delay i : Nat) : List (List Byte) → Op Unit
  | [] => pure ()
  | chunk :: rest => do
    srqSync (if i = 0 then params.srqEraseWrite.toNat else params.srqWrite.toNat) (chunk.length - 1)
      (address + i * params.srqChunk) delay chunk
    programChunks address delay (i + 1) rest

/-- The test of every module's `code_checksum` against `expected` (rule R236). -/
def checkChecksums (expected : Word) : Op Unit := do
  let out ← readModuleStatus
  let chain ← needChain
  let n ← needNch
  match (pairs n chain).find? fun p => (statusRecord out chain p.1 p.2).codeChecksum != expected with
  | some (c, m) => raise (.checksumMismatch expected (statusRecord out chain c m).codeChecksum c m)
  | none => pure ()

/-- `Program(address, data)` (rule R236). -/
def program (address : Nat) (data : List Byte) : Op (List Byte) := do
  gate
  checkAddress address
  require (1 ≤ data.length ∧ address + data.length ≤ 65536) (.invalidCommand 7 data.length)
  let r ← getSess
  programChunks address r.cfg.legacyDelay.toNat 0 (chunksOf params.srqChunk data.length data)
  checkChecksums (params.cksum data)
  pure (le32 (params.cksum data))

/-- `PROGRAM address ; data` (rule R236). -/
def execProgram (address : Word) (data : List Byte) (s : State) : Host.Outcome State Fault Refusal :=
  operate (.program address data) (answering (program address.toNat data)) s

end Sys2Proof.Machine
end

