-- ==== Sys2Proof/Machine/Dispatch.lean ====
section
/-! DEFINITION. One arm per constructor of Instr. -/

namespace Sys2Proof.Machine

def exec (i : Instr) (s : State) : Host.Outcome State Fault Refusal :=
  match i with
  | .trigger a => Sys2Proof.Machine.execTrigger a s
  | .waitStatus st cl t => Sys2Proof.Machine.execWaitStatus st cl t s
  | .cfgChannels n => Sys2Proof.Machine.execCfgChannels n s
  | .cfgClock d ti tu => Sys2Proof.Machine.execCfgClock d ti tu s
  | .cfgReset rt ht => Sys2Proof.Machine.execCfgReset rt ht s
  | .cfgTransmit len f w lb => Sys2Proof.Machine.execCfgTransmit len f w lb s
  | .cfgReceive len sk wnz lb => Sys2Proof.Machine.execCfgReceive len sk wnz lb s
  | .writeCommand data => Sys2Proof.Machine.execWriteCommand data s
  | .readRx size => Sys2Proof.Machine.execReadRx size s
  | .readRxAll size n => Sys2Proof.Machine.execReadRxAll size n s
  | .readRxStream size n budget => Sys2Proof.Machine.execReadRxStream size n budget s
  | .readRxStreamBlk size n timeout budget => Sys2Proof.Machine.execReadRxStreamBlk size n timeout budget s
  | .loadConfig data => Sys2Proof.Machine.execLoadConfig data s
  | .send code address verify data => Sys2Proof.Machine.execSend code address verify data s
  | .busWrite address data => Sys2Proof.Machine.execBusWrite address data s
  | .busWait => Sys2Proof.Machine.execBusWait s
  | .readBounded address dlen => Sys2Proof.Machine.execReadBounded address dlen s
  | .readStreaming address dlen => Sys2Proof.Machine.execReadStreaming address dlen s
  | .readCoherent address dlen => Sys2Proof.Machine.execReadCoherent address dlen s
  | .initBus => Sys2Proof.Machine.execInitialize s
  | .srq code param address data => Sys2Proof.Machine.execSrq code param address data s
  | .srqSync code param address delay data => Sys2Proof.Machine.execSrqSync code param address delay data s
  | .program address data => Sys2Proof.Machine.execProgram address data s
  | .readModuleStatus => Sys2Proof.Machine.execReadModuleStatus s
  | .codeEnum h => Sys2Proof.Machine.execCodeEnum h s
  | .codeWait h => Sys2Proof.Machine.execCodeWait h s
  | .codeTest h payload => Sys2Proof.Machine.execCodeTest h payload s
  | .codeWrite h payload => Sys2Proof.Machine.execCodeWrite h payload s
  | .codePoll h payload => Sys2Proof.Machine.execCodePoll h payload s
  | .codeRead h => Sys2Proof.Machine.execCodeRead h s
  | .srqEraseWrite r => Sys2Proof.Machine.execSrqEraseWrite r s
  | .srqWrite r => Sys2Proof.Machine.execSrqWrite r s
  | .srqRunProc r => Sys2Proof.Machine.execSrqRunProc r s

end Sys2Proof.Machine
end

