-- ==== Sys2Proof/Machine/Fetch.lean ====
section
/-! DEFINITION. Which instruction the machine runs next and from which state. One step is one turn: an operation in
progress goes on; else the modules execute what the link engine has sent; else the next descriptor is accepted; else
the CORE is idle (00_scope.md rule R4, 70_reset_and_hazards.md rule R300, log entries 2, 7, 10). -/

namespace Sys2Proof.Machine

open Config (params)

/-- What one step does. -/
inductive Turn where
  /-- The instruction `i` runs in the state `s`. -/
  | run (i : Instr) (s : State)
  /-- No instruction runs; the next state is `s`. -/
  | settle (s : State)
deriving DecidableEq, Repr

/-- The instruction the modules find in what the link engine sent: a command, or, on the strobe, the record in the
mailbox; `none` where the spec gives it no meaning. -/
def Wire.fetch (w : Wire) (s : State) : Option Instr :=
  match w with
  | .command bytes => (decode .command bytes).toOption
  | .strobe => (decode .srqRecord s.strobedRecord).toOption
  | .unspecified => none

/-- The modules take `w` off the wire, leaving `rest`. A command is executed however the operation that sent it has
ended: the model's choice (log entry 32). -/
def State.moduleTurn (s : State) (w : Wire) (rest : List Wire) : Turn :=
  match w.fetch s with
  | some i => .run i (s.taken rest)
  | none => .settle (s.taken rest).unknownAtModules

/-- The descriptor `d` leaves the host's queue, of which `rest` remains. -/
def State.accepted (s : State) (rest : List Descriptor) : State := { s with queue := rest }

/-- The CORE accepts the descriptor `d` (30_encoding.md rules R100, R113). -/
def State.hostTurn (s : State) (d : Descriptor) (rest : List Descriptor) : Turn :=
  match decodeDescriptor d with
  | .ok i => .run i (s.accepted rest)
  | .error _ => .settle ((s.accepted rest).illegalDescriptor d)

/-- What the machine does next. While `busy` is true nothing is accepted (30_encoding.md rule R100); with nothing to
do the CORE waits (70_reset_and_hazards.md rule R300). -/
def State.turn (s : State) : Turn :=
  match s.inflight with
  | some f => .run f.instr (s.refill f)
  | none =>
    if s.busy then .settle s
    else match s.ctx.link.wire with
      | w :: rest => s.moduleTurn w rest
      | [] => match s.queue with
        | d :: rest => s.hostTurn d rest
        | [] => .settle s

/-- The machine with nothing in progress and nothing on the wire. -/
def State.quiet (s : State) : State :=
  { s with busy := false, inflight := none, ctx := { s.ctx with link := { s.ctx.link with wire := [] } } }

/-- The host presents `d` next. -/
def State.present (s : State) (d : Descriptor) : State := { s.quiet with queue := d :: s.queue }

/-- The link engine has sent a command. -/
def State.sendCommand (s : State) (bytes : List Byte) : State :=
  { s.quiet with ctx := { s.quiet.ctx with link := { s.quiet.ctx.link with wire := [.command bytes] } } }

/-- The strobe has fired and the mailbox of the modules of every configured channel, and of channel 0, holds
`bytes`. -/
def State.strobeRecord (s : State) (bytes : List Byte) : State :=
  { s.quiet with
    ctx := { s.quiet.ctx with link := { s.quiet.ctx.link with wire := [.strobe] } }
    mods := { s.mods with mem := Memory.writeAll s.mods.mem params.srqMboxAddr bytes (0 :: s.channels) } }

/-- The instruction of a word of spec/opcode_table.json stands where the next step fetches it (log entries 7, 9). -/
def State.placeWord (s : State) (nbits w : Nat) : State :=
  if nbits ≤ 8 then
    match decode .command (tableCommand w) with
    | .ok _ => s.sendCommand (tableCommand w)
    | .error _ => s.strobeRecord (tableRecord w)
  else s.present (tableDescriptor w)

end Sys2Proof.Machine
end

