-- ==== Sys2Proof/Safety.lean ====
section
/-! DEFINITION. What a safe run of the T-BUS CORE is: the states the spec allows (`State.ok`), the port discipline of
10_state.md rule R38 (`Txn.legal`), and the words the statements are made of. All of it is decidable. -/

namespace Sys2Proof.Machine

open Config (params)

/-! ### The states the spec allows -/

/-- The fields of the configuration, in the order of 10_state.md rule R26. -/
def CfgRecord.fields (c : CfgRecord) : List Word :=
  [c.channels, c.divider, c.txIdle, c.turboIdle, c.resetTime, c.holdTime, c.skipCookie, c.skipStatusCheck, c.fast,
   c.cfgWide16, c.loopbackSelfTest, c.rxSkipWords, c.rxWaitNonzero, c.rxLoopback, c.busTimeout, c.srqTimeout,
   c.streamSkipBudget, c.legacyDelay]

/-- Every field in its range (10_state.md rule R26). -/
def CfgRecord.inRange (c : CfgRecord) : Bool :=
  (c.fields.zip cfgRanges).all fun p => decide (p.2.1 ≤ p.1.toNat) && decide (p.1.toNat ≤ p.2.2)

/-- A channel count is 1..NCH_MAX (10_state.md rule R20). -/
def channelCount (n : Nat) : Bool := decide (1 ≤ n) && decide (n ≤ params.nchMax)

/-- What holds of the registers whenever `bus_state = Ready` (10_state.md rule R22): none of the three is `none`,
`chain >= 1`, `modules = chain * n0` for a channel count `n0`, `mod_version >= MIN_VERSION`; and `nch` is set
(41_bus_ops.md rule R180). -/
def Session.initialisedOk (r : Session) : Bool :=
  match r.chain, r.modules, r.modVersion, r.nch with
  | some c, some m, some v, some _ =>
    decide (1 ≤ c.toNat) && (List.range (params.nchMax + 1)).any (fun n0 => channelCount n0 && m == c.toNat * n0)
      && decide (params.minVersion ≤ v.toNat)
  | _, _, _, _ => false

/-- `chain`, `modules` and `mod_version` are `none` (10_state.md rule R40). -/
def Session.notInitialised (r : Session) : Bool := r.chain.isNone && r.modules.isNone && r.modVersion.isNone

/-- The session registers are in a state the spec allows: `len(stash) <= 3` (10_state.md rule R23), `nch` a channel
count or `none` (rule R20), a loaded configuration in range (rule R26), `last_srq` a record or `none` (rule R24), and
the three derived registers as rules R22 and R40 say for each bus state. -/
def Session.ok (r : Session) : Bool :=
  decide (r.stash.length ≤ 3) && r.nch.all channelCount && (!r.cfgValid || r.cfg.inRange)
  && r.lastSrq.all (fun rec => decide (params.srqHdrBytes ≤ rec.length) && decide (rec.length ≤ params.maxDataLen))
  && match r.busState with
    | .uninitialized => r.notInitialised
    | .initializing => r.notInitialised
    | .ready => r.initialisedOk
    | .faulted => true

/-- A word of the command buffer (10_state.md rule R27). -/
def inCmdBuf (i : Nat) : Bool := decide (params.cmdBuf ≤ i) && decide (i < params.cmdBuf + params.cmdWords)

/-- A word of the receive buffer (10_state.md rule R27). -/
def inRxBuf (i : Nat) : Bool := decide (params.rxBuf ≤ i) && decide (i < params.rxBuf + params.rxCap / 4)

/-- The five trigger words: exactly one of bits 4..0 (10_state.md rule R28). -/
def triggerWords : List Word := [trgReset, trgSrq, trgStart, trgStop, trgAuto]

/-- The transaction is one the CORE may issue: only the status word and the receive buffer are read, only the trigger,
the five control words and the command buffer are written, and every reserved bit is written as zero (10_state.md
rules R27, R28, R31 to R38). -/
def Txn.legal : Txn → Bool
  | .read i _ => i == params.regStatus || inRxBuf i
  | .write i v =>
    (i == params.regTrigger && triggerWords.contains v)
    || (i == params.regChCtl && channelCount v.toNat)
    || (i == params.regClkCtl && decide (v.toNat < 2 ^ 24))
    || i == params.regRstCtl
    || (i == params.regTxCtl && decide (v.toNat < 2 ^ 19))
    || (i == params.regRxCtl && decide (v.toNat < 2 ^ 26))
    || inCmdBuf i
  | .write16 i _ _ => inCmdBuf i

/-- The addresses of the window the CORE stores to: control words and command buffer (10_state.md rule R27). -/
def storable (a : Nat) : Bool := (decide (params.regChCtl ≤ a / 4) && decide (a / 4 ≤ params.regRxCtl)) || inCmdBuf (a / 4)

/-- What the CORE has done to the link engine keeps the port discipline, and the window is in canonical form. -/
def Link.ok (l : Link) : Bool :=
  l.log.all Txn.legal && decide (Memory.wf l.win) && l.win.all (fun cell => storable cell.1)

/-- Everything an operation acts on is in a state the spec allows. -/
def Ctx.ok (c : Ctx) : Bool := c.sess.ok && c.link.ok

/-- Both memories of the module side are in canonical form. -/
def Modules.ok (m : Modules) : Bool := decide (Memory.wf m.mem) && decide (Memory.wf m.flash)

/-- The machine is in a state the spec allows: besides the above, `busy` says that an operation is in progress and no
result is delivered while it is (10_state.md rule R44). -/
def State.ok (s : State) : Bool :=
  s.ctx.ok && s.mods.ok && (s.busy == s.inflight.isSome) && s.inflight.all (fun f => f.start.ok)
  && (!s.busy || s.result.isNone)

/-! ### Words of the statements -/

/-- The gate of the bus and SRQ families lets an operation in (41_bus_ops.md rule R180). -/
def Session.admits (r : Session) : Bool := r.cfgValid && r.busState == .ready && r.nch.isSome

/-- What the gate raises when it does not (41_bus_ops.md rule R180). -/
def Session.gateError (r : Session) : Err :=
  .stateError r.busState.code (if r.cfgValid then (if r.busState = .ready then 3 else 1) else 2)

/-- `Ok(out)` with the context `c`. -/
def State.finishedOk (s : State) (out : List Byte) (c : Ctx) : State := s.deliver (okResult (some out)) c

/-- The error `e` with the context `c`. -/
def State.finishedErr (s : State) (e : Err) (c : Ctx) : State := s.deliver e.toResult c

/-- The error code of the result delivered (30_encoding.md rule R101), `none` while there is none. -/
def State.err (s : State) : Option Byte := s.result.map Result.err

/-- The operation numbers of 30_encoding.md rule R102. -/
def operationNumbers : List Nat :=
  [0x01, 0x02, 0x03, 0x04, 0x05, 0x06, 0x07, 0x08, 0x09, 0x0A, 0x0B, 0x0C, 0x0D, 0x10, 0x11, 0x12, 0x13, 0x14, 0x15,
   0x16, 0x20, 0x21, 0x22, 0x23]

/-- The bytes of the command buffer that a command of `n` bytes stores to (20_memory.md rule R73). -/
def commandRegion (wide : Bool) (n a : Nat) : Bool :=
  decide (4 * params.cmdBuf ≤ a) && decide (a < 4 * params.cmdBuf + if wide then even n else up4 n)

/-- The bytes of the window that a transaction with a command of `n` bytes stores to (41_bus_ops.md rule R182). -/
def transactRegion (r : Session) (n a : Nat) : Bool :=
  a / 4 == params.regTxCtl || a / 4 == params.regRxCtl || commandRegion (r.cfg.cfgWide16 == 1) n a

/-- Nothing but the module side has changed, and the chains are as they were. -/
def State.onlyModulesChange (s t : State) : Prop :=
  t.ctx = s.ctx ∧ t.busy = s.busy ∧ t.inflight = s.inflight ∧ t.result = s.result ∧ t.queue = s.queue ∧ t.fed = s.fed
  ∧ t.mods.chains = s.mods.chains

/-- The transactions of a context in the order issued (20_memory.md rule R80). -/
def Ctx.trace (c : Ctx) : List Txn := c.link.log.reverse

end Sys2Proof.Machine

namespace Sys2Proof

open Config (params)
open Machine (Session commandRegion transactRegion)

/-! ### Families of instructions -/

/-- The instructions of the bus and SRQ families but `INITIALIZE` (41_bus_ops.md rule R180, 42_srq_ops.md rule
R230). -/
def Instr.gated : Instr → Bool
  | .send _ _ _ _ => true
  | .busWrite _ _ => true
  | .busWait => true
  | .readBounded _ _ => true
  | .readStreaming _ _ => true
  | .readCoherent _ _ => true
  | .srq _ _ _ _ => true
  | .srqSync _ _ _ _ _ => true
  | .program _ _ => true
  | .readModuleStatus => true
  | _ => false

/-- The instruction writes `TRG_RESET` (10_state.md rule R40). -/
def Instr.resets : Instr → Bool
  | .trigger action => action == 0
  | .initBus => true
  | _ => false

/-- The instruction may pull from the stream (10_state.md rule R23): the streaming reads, and what reads the module
status. -/
def Instr.pulls : Instr → Bool
  | .readRxStream _ _ _ => true
  | .readRxStreamBlk _ _ _ _ => true
  | .readStreaming _ _ => true
  | .readModuleStatus => true
  | .srqSync _ _ _ _ _ => true
  | .program _ _ => true
  | _ => false

/-- The instruction may write an SRQ record to the modules (10_state.md rule R24). -/
def Instr.posts : Instr → Bool
  | .srq _ _ _ _ => true
  | .srqSync _ _ _ _ _ => true
  | .program _ _ => true
  | _ => false

/-- The bytes of the window that an instruction other than a bus reset stores to, at most. -/
def Instr.stores (i : Instr) (r : Session) (a : Nat) : Bool :=
  match i with
  | .cfgChannels _ => a / 4 == params.regChCtl
  | .cfgClock _ _ _ => a / 4 == params.regClkCtl
  | .cfgReset _ _ => a / 4 == params.regRstCtl
  | .cfgTransmit _ _ _ _ => a / 4 == params.regTxCtl
  | .cfgReceive _ _ _ _ => a / 4 == params.regRxCtl
  | .writeCommand data => commandRegion r.wide16 data.length a
  | .send _ _ _ data => transactRegion r (params.headerBytes + data.length) a
  | .busWrite _ data => transactRegion r (params.headerBytes + data.length) a
  | .busWait => transactRegion r params.headerBytes a
  | .readBounded _ _ => transactRegion r params.headerBytes a
  | .readStreaming _ _ => transactRegion r params.headerBytes a
  | .readCoherent _ dlen => transactRegion r (params.headerBytes + 2 * dlen.toNat) a
  | .srq _ _ _ data => transactRegion r (params.headerBytes + params.srqHdrBytes + data.length) a
  | .srqSync _ _ _ _ data => transactRegion r (params.headerBytes + params.srqHdrBytes + data.length) a
  | .program _ data => transactRegion r (params.headerBytes + params.srqHdrBytes + min data.length params.srqChunk) a
  | .readModuleStatus => transactRegion r params.headerBytes a
  | _ => false

end Sys2Proof

namespace Sys2Proof.Machine

open Config (params)

/-! ### When an operation completes

An operation ends `Ok` when its operands are good and the link engine, the time base and the host give the answers it
waits for. The structures below name such answers, the `can…` tests say that they stand next in the oracle inputs and
are good, and the functions beside them give the context and the bytes the operation then ends with. Together they are
the rules of 40_device_ops.md, 41_bus_ops.md and 42_srq_ops.md read without their errors. -/

/-- Answers of the three oracles, next one first. -/
structure Answers where
  reads : List Word
  ticks : List Nat
  idles : List Bool
deriving DecidableEq, Repr

/-- First the answers `a`, then the answers `b`. -/
def Answers.followedBy (a b : Answers) : Answers :=
  { reads := a.reads ++ b.reads, ticks := a.ticks ++ b.ticks, idles := a.idles ++ b.idles }

/-- The answers `a` come next. -/
def Env.offers (e : Env) (a : Answers) : Bool :=
  a.reads.isPrefixOf e.reads && a.ticks.isPrefixOf e.ticks && a.idles.isPrefixOf e.idles

/-- The oracles after the answers `a` have been given. -/
def Env.used (e : Env) (a : Answers) : Env where
  now := e.now + a.ticks.sum
  reads := e.reads.drop a.reads.length
  ticks := e.ticks.drop a.ticks.length
  idles := e.idles.drop a.idles.length

/-- The record of several reads, the first of them first. -/
def Link.noteReads (l : Link) : List (Nat × Word) → Link
  | [] => l
  | (i, v) :: rest => (l.noteRead i v).noteReads rest

/-- The words read at `index k`, `index (k + 1)`, ... -/
def numbered (index : Nat → Nat) (k : Nat) : List Word → List (Nat × Word)
  | [] => []
  | w :: ws => (index k, w) :: numbered index (k + 1) ws

/-- The window after `BulkWrite` (20_memory.md rule R73). -/
def Link.writeWords (l : Link) (i : Nat) : List Word → Link
  | [] => l
  | w :: ws => (l.write i w).writeWords (i + 1) ws

/-- The window after `BulkWrite16` (20_memory.md rule R73). -/
def Link.writeHalves (l : Link) (i : Nat) (upper : Bool) : List Half → Link
  | [] => l
  | h :: hs => (l.write16 i upper h).writeHalves (if upper then i + 1 else i) (!upper) hs

/-- The window after a command has been written (40_device_ops.md rule R148). -/
def Link.writeCommand (l : Link) (wide : Bool) (b : List Byte) : Link :=
  if wide then l.writeHalves params.cmdBuf false (halvesOf b) else l.writeWords params.cmdBuf (wordsOf b)

/-- The context after the words `ws` have been read at `index 0`, `index 1`, ... -/
def Ctx.readAll (c : Ctx) (index : Nat → Nat) (ws : List Word) : Ctx :=
  { c with link := c.link.noteReads (numbered index 0 ws), env := c.env.used { reads := ws, ticks := [], idles := [] } }

/-! #### Status waits -/

/-- A wait on the status word: the words polled before the last one, the last one, and by how much the time base
advances at the first call of `Now()` and at each later one. -/
structure Polling where
  polls : List Word
  last : Word
  first : Nat
  later : List Nat
deriving DecidableEq, Repr

def Polling.answers (x : Polling) : Answers := { reads := x.polls ++ [x.last], ticks := x.first :: x.later, idles := [] }

/-- A status word that neither fails nor satisfies the wait; reserved mask bits are ignored (40_device_ops.md rule
R142). -/
def pending (set clr w : Word) : Bool := !hasFailed w && !holds w (set &&& statusBits) (clr &&& statusBits)

/-- The deadline has passed at none of the `later` readings of the time base: with NO_TIMEOUT it is not read
(40_device_ops.md rule R142). -/
def inTime (timeout : Word) (polls : Nat) (later : List Nat) : Bool :=
  if timeout = params.noTimeout then later == []
  else later.length == polls && (polls == 0 || decide (later.sum < timeout.toNat))

/-- Nothing ends the wait before the last word. -/
def Polling.goesOn (x : Polling) (set clr timeout : Word) : Bool :=
  x.polls.all (pending set clr) && inTime timeout x.polls.length x.later

/-- The last word satisfies the wait. -/
def Polling.succeeds (x : Polling) (set clr timeout : Word) : Bool :=
  x.goesOn set clr timeout && !hasFailed x.last && holds x.last (set &&& statusBits) (clr &&& statusBits)

/-- The last word has a failure bit. -/
def Polling.fails (x : Polling) (set clr timeout : Word) : Bool := x.goesOn set clr timeout && hasFailed x.last

/-- The deadline has passed after the last word: `late` is the advance of the time base at that test. -/
def Polling.expires (x : Polling) (late : Nat) (set clr timeout : Word) : Bool :=
  timeout != params.noTimeout && x.goesOn set clr timeout && pending set clr x.last
  && decide (timeout.toNat ≤ x.later.sum + late)

/-- The context after the words of a wait have been polled. -/
def Ctx.polled (c : Ctx) (x : Polling) : Ctx :=
  { c with
    link := c.link.noteReads ((x.polls ++ [x.last]).map fun w => (params.regStatus, w))
    env := c.env.used x.answers }

/-! #### Pulls of a stream -/

/-- One pull that is ready: how many zero words come first, and the words it takes. -/
structure Pull where
  zeros : Nat
  words : List Word
deriving DecidableEq, Repr

def Pull.reads (p : Pull) : List Word := List.replicate p.zeros 0 ++ p.words

/-- A pull of `need` words succeeds within the budget (40_device_ops.md rule R151). -/
def Pull.good (p : Pull) (need budget : Nat) : Bool :=
  decide (p.zeros ≤ budget) && p.words.length == need && (match p.words with | [] => false | w :: _ => w != 0)

/-- The reads of one pull (40_device_ops.md rule R151): it starts again at the first word of the receive buffer. -/
def Link.notePull (l : Link) (ws : List Word) : Link := l.noteReads (numbered streamIndex 0 ws)

/-- Several pulls. -/
def Link.notePulls (l : Link) (pulls : List (List Word)) : Link := pulls.foldl Link.notePull l

/-! #### Requests and transactions -/

/-- The cookie of the next request (30_encoding.md rule R107). -/
def Session.nextCookie (r : Session) : Byte := if r.cfg.skipCookie = 1 then 0 else r.cookieCtr

/-- The session after a cookie has been taken (30_encoding.md rule R107). -/
def Session.cookieTaken (r : Session) : Session := if r.cfg.skipCookie = 1 then r else r.setCookie (r.cookieCtr + 1)

/-- The operands make a request (41_bus_ops.md rule R181). -/
def buildable (code address : Nat) (payload : List Byte) (rdlen : Nat) : Bool :=
  commandCodes.contains code && decide (address ≤ 0xFFFF)
  && if hasPayload (byte code) then decide (1 ≤ payload.length) && decide (payload.length ≤ params.maxDataLen)
     else payload == [] && (code != params.codeRead.toNat || (decide (1 ≤ rdlen) && decide (rdlen ≤ params.maxDataLen)))

/-- The data length a request states: `len_minus_one + 1` (30_encoding.md rule R105). -/
def dataLength (code : Nat) (payload : List Byte) (rdlen : Nat) : Nat :=
  if hasPayload (byte code) then payload.length else if code = params.codeRead.toNat then rdlen else 1

/-- The request built from good operands (41_bus_ops.md rule R181). -/
def Session.request (r : Session) (code address : Nat) (payload : List Byte) (rdlen : Nat) : Request where
  code := byte code
  lm1 := byte (dataLength code payload rdlen - 1)
  address := BitVec.ofNat 16 address
  cookie := r.nextCookie

/-- A response frame that passes every check of `Validate` (41_bus_ops.md rule R183); with `chain = none` the response
count is not checked. -/
def Request.accepts (req : Request) (chain : Option Half) (payload : List Byte) (verify : Bool) (f : List Byte) : Bool :=
  let h := parseHeader f
  let len := bodyLength req.code (req.lm1.toNat + 1) h.count.toNat
  h.code == req.code && h.lm1 == req.lm1 && h.address == req.address && h.cookie == req.cookie
  && h.status == 0 && chain.all (· == h.count) && decide (params.headerBytes + len ≤ f.length)
  && (!(verify && hasPayload req.code) || slice f params.headerBytes (params.headerBytes + len) == payload)
  && (f.drop (params.headerBytes + len)).all (· == 0)

/-- What `Validate` answers for such a frame: the response count and the body. -/
def Request.answer (req : Request) (f : List Byte) : Half × List Byte :=
  let h := parseHeader f
  (h.count, slice f params.headerBytes (params.headerBytes + bodyLength req.code (req.lm1.toNat + 1) h.count.toNat))

/-- The answers of one transaction: its completion wait, then the words of the receive buffer (41_bus_ops.md rule
R182). -/
structure Exchange where
  wait : Polling
  words : List Word
deriving DecidableEq, Repr

def Exchange.answers (e : Exchange) : Answers :=
  e.wait.answers.followedBy { reads := e.words, ticks := [], idles := [] }

/-- The channel count in force, 0 while there is none. -/
def Session.channels (r : Session) : Nat := r.nch.getD 0

/-- The transaction completes with frames of `lr` bytes. -/
def Ctx.canTransact (c : Ctx) (lr : Nat) (e : Exchange) : Bool :=
  e.wait.succeeds doneSet doneClr c.sess.cfg.busTimeout && e.words.length == up4 (lr * c.sess.channels) / 4
  && c.env.offers e.answers

/-- The frames of a transaction, one per channel (20_memory.md rule R83). -/
def Ctx.frames (c : Ctx) (lr : Nat) (e : Exchange) : List (List Byte) :=
  channelSlices (bytesOf e.words) lr c.sess.channels

/-- The link engine's side after the framing words, the command and the start of a transaction (41_bus_ops.md rule
R182). -/
def Link.started (l : Link) (g : CfgRecord) (cmd : List Byte) (lt lr : Nat) : Link :=
  (((l.write params.regTxCtl (txWord lt g.fast.toNat g.cfgWide16.toNat g.loopbackSelfTest.toNat)).write params.regRxCtl
    (rxWord lr g.rxSkipWords.toNat g.rxWaitNonzero.toNat g.rxLoopback.toNat)).writeCommand (g.cfgWide16 == 1) cmd).write
    params.regTrigger trgStart

/-- The context after a transaction (41_bus_ops.md rule R182). -/
def Ctx.transacted (c : Ctx) (cmd : List Byte) (lt lr : Nat) (e : Exchange) : Ctx where
  sess := c.sess.setWide16 (c.sess.cfg.cfgWide16 == 1)
  link := ((c.link.started c.sess.cfg cmd lt lr).noteReads
    ((e.wait.polls ++ [e.wait.last]).map fun w => (params.regStatus, w))).noteReads
    (numbered (fun k => params.rxBuf + k) 0 e.words)
  env := c.env.used e.answers

/-- The context after a cookie has been taken. -/
def Ctx.cookieTaken (c : Ctx) : Ctx := { c with sess := c.sess.cookieTaken }

/-- What `Build` raises on bad operands, the first failing check (41_bus_ops.md rule R181). -/
def buildError (code address : Nat) (payload : List Byte) (rdlen : Nat) : Option Err :=
  if !commandCodes.contains code then some (.invalidCommand 2 code)
  else if 0xFFFF < address then some (.invalidCommand 3 address)
  else if hasPayload (byte code) then
    if payload.length = 0 then some (.invalidCommand 5 code)
    else if params.maxDataLen < payload.length then some (.invalidCommand 6 payload.length)
    else none
  else if payload.length ≠ 0 then some (.invalidCommand 4 code)
  else if code = params.codeRead.toNat ∧ ¬ (1 ≤ rdlen ∧ rdlen ≤ params.maxDataLen) then some (.invalidCommand 6 rdlen)
  else none

/-- What `Send` raises on bad operands, the first failing check (41_bus_ops.md rule R184). -/
def sendError (code address verify : Nat) (payload : List Byte) : Option Err :=
  if code = params.codeRead.toNat then some (.invalidCommand 2 code)
  else if 1 < verify then some (.invalidCommand 9 verify)
  else buildError code address payload 0

/-! #### `Send` -/

/-- `Send` completes (41_bus_ops.md rule R184). -/
def Ctx.canSend (c : Ctx) (code address verify : Nat) (payload : List Byte) (e : Exchange) : Bool :=
  let len := frameLen (params.headerBytes + payload.length)
  c.sess.admits && buildable code address payload 0 && code != params.codeRead.toNat && decide (verify ≤ 1)
  && c.canTransact len e
  && (c.frames len e).all ((c.sess.request code address payload 0).accepts c.sess.chain payload (verify == 1))

/-- The context after `Send`. -/
def Ctx.sent (c : Ctx) (code address : Nat) (payload : List Byte) (e : Exchange) : Ctx :=
  let len := frameLen (params.headerBytes + payload.length)
  c.cookieTaken.transacted (requestBytes (c.sess.request code address payload 0) payload) len len e

/-- The response count and the body of every channel after `Send`. -/
def Ctx.sendAnswer (c : Ctx) (code address : Nat) (payload : List Byte) (e : Exchange) : List (Half × List Byte) :=
  (c.frames (frameLen (params.headerBytes + payload.length)) e).map (c.sess.request code address payload 0).answer

/-! #### The reads -/

/-- `chain`, 0 while there is none. -/
def Session.chainLength (r : Session) : Nat := (r.chain.map BitVec.toNat).getD 0

/-- The receive length of a bounded read (30_encoding.md rule R109). -/
def Session.readLength (r : Session) (dlen : Nat) : Nat := frameLen (params.headerBytes + r.chainLength * dlen)

/-- The operands of the two `READ` operations are in range (41_bus_ops.md rules R187, R188). -/
def readable (address dlen : Nat) : Bool := decide (address ≤ 0xFFFF) && decide (1 ≤ dlen) && decide (dlen ≤ params.maxDataLen)

/-- What the two `READ` operations raise on bad operands (41_bus_ops.md rules R187, R188). -/
def readError (address dlen : Nat) : Option Err :=
  if 0xFFFF < address then some (.invalidCommand 3 address)
  else if ¬ (1 ≤ dlen ∧ dlen ≤ params.maxDataLen) then some (.invalidCommand 6 dlen)
  else none

/-- What `ReadBounded` raises on bad operands (41_bus_ops.md rule R187). -/
def Session.boundedError (r : Session) (address dlen : Nat) : Option Err :=
  match readError address dlen with
  | some e => some e
  | none =>
    if params.rxCap < r.readLength dlen * r.channels then some (.invalidCommand 8 (r.readLength dlen * r.channels)) else none

/-- What `ReadCoherent` raises on bad operands (41_bus_ops.md rule R189). -/
def coherentError (address dlen : Nat) : Option Err :=
  if 0xFFFF < address then some (.invalidCommand 3 address)
  else if ¬ (1 ≤ dlen ∧ 2 * dlen ≤ params.maxDataLen) then some (.invalidCommand 6 dlen)
  else none

/-- What `Srq` raises on bad operands (42_srq_ops.md rule R232). -/
def srqError (code param address : Nat) (payload : List Byte) : Option Err :=
  if 0xFF < code then some (.invalidCommand 10 code)
  else if 0xFF < param then some (.invalidCommand 10 param)
  else if 0xFFFF < address then some (.invalidCommand 3 address)
  else if params.maxDataLen - params.srqHdrBytes < payload.length then some (.invalidCommand 10 payload.length)
  else none

/-- What `SrqSync` raises on bad operands (42_srq_ops.md rule R233). -/
def syncError (code param address : Nat) (payload : List Byte) : Option Err :=
  if 0x7F < code then some (.invalidCommand 10 code) else srqError code param address payload

/-- What `Program` raises on bad operands (42_srq_ops.md rule R236). -/
def programError (address : Nat) (data : List Byte) : Option Err :=
  if 0xFFFF < address then some (.invalidCommand 3 address)
  else if ¬ (1 ≤ data.length ∧ address + data.length ≤ 65536) then some (.invalidCommand 7 data.length)
  else none

/-- The request of a read. -/
def Session.readRequest (r : Session) (address dlen : Nat) : Request := r.request params.codeRead.toNat address [] dlen

/-- `ReadBounded` completes (41_bus_ops.md rule R187). -/
def Ctx.canReadBounded (c : Ctx) (address dlen : Nat) (e : Exchange) : Bool :=
  let len := c.sess.readLength dlen
  c.sess.admits && readable address dlen && decide (len * c.sess.channels ≤ params.rxCap) && c.canTransact len e
  && (c.frames len e).all ((c.sess.readRequest address dlen).accepts c.sess.chain [] false)

/-- The context after `ReadBounded`. -/
def Ctx.boundedRead (c : Ctx) (address dlen : Nat) (e : Exchange) : Ctx :=
  let len := c.sess.readLength dlen
  c.cookieTaken.transacted (requestBytes (c.sess.readRequest address dlen) []) len len e

/-- The bytes `ReadBounded` answers. -/
def Ctx.boundedAnswer (c : Ctx) (address dlen : Nat) (e : Exchange) : List Byte :=
  (c.frames (c.sess.readLength dlen) e).flatMap fun f => ((c.sess.readRequest address dlen).answer f).2

/-- The answers of a streaming read whose pulls are all ready at the first attempt: the pulls, the advance of the time
base at the start of each, and the wait for the stop. -/
structure Streaming where
  pulls : List Pull
  starts : List Nat
  stop : Polling
deriving DecidableEq, Repr

def Streaming.answers (x : Streaming) : Answers :=
  Answers.followedBy { reads := x.pulls.flatMap Pull.reads, ticks := x.starts, idles := [] } x.stop.answers

/-- The frames the pulls make, one per channel (20_memory.md rule R84). -/
def Streaming.frames (x : Streaming) (n : Nat) : List (List Byte) :=
  x.pulls.foldl (fun fr p => List.zipWith (· ++ ·) fr (channelSlices (bytesOf p.words) params.chunkSize n))
    (List.replicate n [])

/-- `ReadStreaming` completes, with `stash` empty at entry (41_bus_ops.md rule R188). -/
def Ctx.canReadStreaming (c : Ctx) (address dlen : Nat) (x : Streaming) : Bool :=
  c.sess.admits && readable address dlen && c.sess.stash == []
  && x.pulls.length == ceilDiv (c.sess.readLength dlen) params.chunkSize && x.starts.length == x.pulls.length
  && x.pulls.all (fun p => p.good (params.chunkSize * c.sess.channels / 4) c.sess.cfg.streamSkipBudget.toNat)
  && x.stop.succeeds params.stReady (params.stActive ||| params.stStopping) c.sess.cfg.busTimeout
  && c.env.offers x.answers
  && (x.frames c.sess.channels).all ((c.sess.readRequest address dlen).accepts c.sess.chain [] false)

/-- The context after `ReadStreaming`. -/
def Ctx.streamingRead (c : Ctx) (address dlen : Nat) (x : Streaming) : Ctx where
  sess := c.sess.cookieTaken.setWide16 (c.sess.cfg.cfgWide16 == 1)
  link := ((((c.link.started c.sess.cfg (requestBytes (c.sess.readRequest address dlen) []) (frameLen params.headerBytes)
    0).notePulls (x.pulls.map Pull.reads)).write params.regTrigger trgStop).noteReads
    ((x.stop.polls ++ [x.stop.last]).map fun w => (params.regStatus, w)))
  env := c.env.used x.answers

/-- The bytes `ReadStreaming` answers. -/
def Ctx.streamingAnswer (c : Ctx) (address dlen : Nat) (x : Streaming) : List Byte :=
  (x.frames c.sess.channels).flatMap fun f => ((c.sess.readRequest address dlen).answer f).2

/-- OR equals AND in every channel, and every channel equals channel 0 (41_bus_ops.md rule R190). -/
def coherent (bodies : List (List Byte)) (n dlen : Nat) : Bool :=
  (pairs n dlen).all fun p => orByte bodies p.1 p.2 == andByte bodies p.1 p.2 && orByte bodies p.1 p.2 == orByte bodies 0 p.2

/-- The request of a poll of `dlen` bytes. -/
def Session.pollRequest (r : Session) (address dlen : Nat) : Request :=
  r.request params.codePoll.toNat address (pollMasks dlen) 0

/-- The frame length of a poll of `dlen` bytes (41_bus_ops.md rule R189). -/
def pollLength (dlen : Nat) : Nat := frameLen (params.headerBytes + 2 * dlen)

/-- The response counts and bodies of a poll. -/
def Ctx.pollAnswer (c : Ctx) (address dlen : Nat) (e : Exchange) : List (Half × List Byte) :=
  (c.frames (pollLength dlen) e).map (c.sess.pollRequest address dlen).answer

/-- The context after a poll. -/
def Ctx.polledModules (c : Ctx) (address dlen : Nat) (e : Exchange) : Ctx :=
  c.cookieTaken.transacted (requestBytes (c.sess.pollRequest address dlen) (pollMasks dlen)) (pollLength dlen)
    (pollLength dlen) e

/-- The poll of `ReadCoherent` is answered with good frames (41_bus_ops.md rule R189). -/
def Ctx.canPoll (c : Ctx) (address dlen : Nat) (e : Exchange) : Bool :=
  c.sess.admits && decide (address ≤ 0xFFFF) && decide (1 ≤ dlen) && decide (2 * dlen ≤ params.maxDataLen)
  && c.canTransact (pollLength dlen) e
  && (c.frames (pollLength dlen) e).all ((c.sess.pollRequest address dlen).accepts c.sess.chain [] false)

/-! #### `Initialize` -/

/-- The answers of `Initialize`: the wait after the reset trigger, then the probe (41_bus_ops.md rule R191). -/
structure Startup where
  wait : Polling
  probe : Exchange
deriving DecidableEq, Repr

/-- The link engine's side after the reset trigger, the wait, and the three configuration writes. -/
def Link.startedUp (l : Link) (g : CfgRecord) (x : Startup) : Link :=
  ((((l.write params.regTrigger trgReset).noteReads
    ((x.wait.polls ++ [x.wait.last]).map fun w => (params.regStatus, w))).write params.regChCtl g.channels).write
    params.regClkCtl (clockWord g.divider.toNat g.txIdle.toNat g.turboIdle.toNat)).write
    params.regRstCtl (resetWord g.resetTime.toNat g.holdTime.toNat)

/-- The context in which `Initialize` probes the modules. -/
def Ctx.startedUp (c : Ctx) (x : Startup) : Ctx where
  sess := c.sess.busReset.setNch c.sess.cfg.channels.toNat
  link := c.link.startedUp c.sess.cfg x
  env := c.env.used x.wait.answers

/-- The version byte of the probe. -/
def probedVersion (rs : List (Half × List Byte)) : Byte := orByte (rs.map fun r => r.2) 0 0

/-- The reset wait and the probe of `Initialize` are answered with good frames (41_bus_ops.md rule R191). -/
def Ctx.canProbe (c : Ctx) (x : Startup) : Bool :=
  let d := c.startedUp x
  c.sess.cfgValid && x.wait.succeeds params.stReady params.stResetActive c.sess.cfg.busTimeout
  && c.env.offers (x.wait.answers.followedBy x.probe.answers) && d.canTransact (pollLength 1) x.probe
  && (d.frames (pollLength 1) x.probe).all ((d.sess.pollRequest params.modStatusAddr 1).accepts none [] false)

/-- The answer of the probe: response count and body of every channel. -/
def Ctx.probeAnswer (c : Ctx) (x : Startup) : List (Half × List Byte) :=
  (c.startedUp x).pollAnswer params.modStatusAddr 1 x.probe

/-- `Initialize` completes (41_bus_ops.md rule R191): all counts are that of channel 0 and not 0, the probe is coherent,
and the version is supported. -/
def Ctx.canInitialize (c : Ctx) (x : Startup) : Bool :=
  let rs := c.probeAnswer x
  c.canProbe x && rs.all (fun r => r.1 == countOf rs 0) && countOf rs 0 != 0
  && coherent (rs.map fun r => r.2) c.sess.cfg.channels.toNat 1 && decide (params.minVersion ≤ (probedVersion rs).toNat)

/-- The context after `Initialize`. -/
def Ctx.initialised (c : Ctx) (x : Startup) : Ctx :=
  let d := (c.startedUp x).polledModules params.modStatusAddr 1 x.probe
  let rs := c.probeAnswer x
  { d with sess := d.sess.initialised (countOf rs 0) c.sess.cfg.channels.toNat (probedVersion rs) }

/-! #### `Srq`, `SrqSync`, `ReadModuleStatus`, `Program` -/

/-- The answers of `Srq`: those of the mailbox write, used when the record is new, and the wait after the strobe
(42_srq_ops.md rule R232). -/
structure SrqAnswers where
  post : Exchange
  strobe : Polling
deriving DecidableEq, Repr

/-- The record is the last one written (42_srq_ops.md rule R232). -/
def Session.repeats (r : Session) (rec : List Byte) : Bool := r.lastSrq == some rec

/-- The context after the mailbox write, if there is one. -/
def Ctx.posted (c : Ctx) (rec : List Byte) (x : SrqAnswers) : Ctx :=
  if c.sess.repeats rec then c
  else
    let d := ({ c with sess := c.sess.setLastSrq none } : Ctx).sent params.codeWrite.toNat params.srqMboxAddr rec x.post
    { d with sess := d.sess.setLastSrq (some rec) }

/-- The context after the strobe and its wait. -/
def Ctx.strobed (c : Ctx) (x : Polling) : Ctx := ({ c with link := c.link.write params.regTrigger trgSrq } : Ctx).polled x

/-- The operands of `Srq` are in range (42_srq_ops.md rule R232). -/
def srqOperands (code param address : Nat) (payload : List Byte) : Bool :=
  decide (code ≤ 0xFF) && decide (param ≤ 0xFF) && decide (address ≤ 0xFFFF)
  && decide (payload.length ≤ params.maxDataLen - params.srqHdrBytes)

/-- `Srq` completes (42_srq_ops.md rule R232). -/
def Ctx.canSrq (c : Ctx) (code param address : Nat) (payload : List Byte) (x : SrqAnswers) : Bool :=
  let rec' := srqRecord code param address payload
  c.sess.admits && srqOperands code param address payload
  && (c.sess.repeats rec' || c.canSend params.codeWrite.toNat params.srqMboxAddr 0 rec' x.post)
  && x.strobe.succeeds params.stReady 0 c.sess.cfg.srqTimeout && (c.posted rec' x).env.offers x.strobe.answers

/-- The context after `Srq`. -/
def Ctx.afterSrq (c : Ctx) (code param address : Nat) (payload : List Byte) (x : SrqAnswers) : Ctx :=
  (c.posted (srqRecord code param address payload) x).strobed x.strobe

/-- The answers of `ReadModuleStatus`: those of the read it chooses (42_srq_ops.md rule R234). -/
structure StatusAnswers where
  bounded : Exchange
  streamed : Streaming
deriving DecidableEq, Repr

/-- The module status fits a bounded read (42_srq_ops.md rule R234). -/
def Session.statusFits (r : Session) : Bool := decide (r.readLength params.statusLen * r.channels ≤ params.rxCap)

/-- `ReadModuleStatus` completes (42_srq_ops.md rule R234). -/
def Ctx.canReadStatus (c : Ctx) (x : StatusAnswers) : Bool :=
  if c.sess.statusFits then c.canReadBounded params.modStatusAddr params.statusLen x.bounded
  else c.canReadStreaming params.modStatusAddr params.statusLen x.streamed

/-- The context after `ReadModuleStatus`. -/
def Ctx.afterStatus (c : Ctx) (x : StatusAnswers) : Ctx :=
  if c.sess.statusFits then c.boundedRead params.modStatusAddr params.statusLen x.bounded
  else c.streamingRead params.modStatusAddr params.statusLen x.streamed

/-- The bytes `ReadModuleStatus` answers. -/
def Ctx.statusAnswer (c : Ctx) (x : StatusAnswers) : List Byte :=
  if c.sess.statusFits then c.boundedAnswer params.modStatusAddr params.statusLen x.bounded
  else c.streamingAnswer params.modStatusAddr params.statusLen x.streamed

/-- The status record of module `m` of channel `k`. -/
def Ctx.statusOf (c : Ctx) (x : StatusAnswers) (k m : Nat) : StatusRecord :=
  statusRecord (c.statusAnswer x) c.sess.chainLength k m

/-- A test of every module's status record (42_srq_ops.md rules R233, R236). -/
def Ctx.everyModule (c : Ctx) (x : StatusAnswers) (test : StatusRecord → Bool) : Bool :=
  (pairs c.sess.channels c.sess.chainLength).all fun p =>
    test (c.statusOf x p.1 p.2)

/-- The first module, in channel-then-wire order, that does not pass a test (60_exceptions.md rule R278 (h)). -/
def Ctx.firstModule (c : Ctx) (x : StatusAnswers) (test : StatusRecord → Bool) : Option (Nat × Nat) :=
  (pairs c.sess.channels c.sess.chainLength).find? fun p => !test (c.statusOf x p.1 p.2)

/-- The answers of `SrqSync`: those of its `Srq`, the advances of the time base in the legacy delay, the exchange of
the explicit `WAIT`, and the status read (42_srq_ops.md rule R233). -/
structure SyncAnswers where
  srq : SrqAnswers
  delay : List Nat
  wait : Exchange
  status : StatusAnswers
deriving DecidableEq, Repr

/-- Synchronous mode (42_srq_ops.md rule R233). -/
def Session.synchronous (r : Session) : Bool :=
  decide (params.syncVersionThreshold < (r.modVersion.map BitVec.toNat).getD 0)

/-- The legacy delay ends with the last of these advances: none without a delay; else the first starts it, the last
reaches it and no earlier one does (42_srq_ops.md rule R233). -/
def delayOver (delay : Nat) (ticks : List Nat) : Bool :=
  if delay = 0 then ticks == []
  else match ticks with
    | [] => false
    | _ :: later => later != [] && decide (later.dropLast.sum < delay) && decide (delay ≤ later.sum)

/-- The time base has advanced. -/
def Ctx.waitedOut (c : Ctx) (ticks : List Nat) : Ctx := { c with env := c.env.used { reads := [], ticks := ticks, idles := [] } }

/-- The request code that `SrqSync` sends (42_srq_ops.md rule R233). -/
def Session.syncCode (r : Session) (code : Nat) : Nat := if r.synchronous then code ||| params.srqSyncFlag.toNat else code

/-- `SrqSync` sends an explicit `WAIT` (42_srq_ops.md rule R233). -/
def Session.sendsWait (r : Session) (code : Nat) : Bool := !r.synchronous && code == params.srqRunProc.toNat

/-- The context of `SrqSync` after its `Srq` and the legacy delay. -/
def Ctx.syncDelayed (c : Ctx) (code param address : Nat) (payload : List Byte) (x : SyncAnswers) : Ctx :=
  let d := c.afterSrq (c.sess.syncCode code) param address payload x.srq
  if c.sess.synchronous then d else d.waitedOut x.delay

/-- The context of `SrqSync` before its status read. -/
def Ctx.syncRequested (c : Ctx) (code param address : Nat) (payload : List Byte) (x : SyncAnswers) : Ctx :=
  let d := c.syncDelayed code param address payload x
  if c.sess.sendsWait code then d.sent params.codeWait.toNat 0 [] x.wait else d

/-- Everything `SrqSync` does before its status test ends without an error (42_srq_ops.md rule R233). -/
def Ctx.canSyncRequest (c : Ctx) (code param address delay : Nat) (payload : List Byte) (x : SyncAnswers) : Bool :=
  decide (code ≤ 0x7F) && c.canSrq (c.sess.syncCode code) param address payload x.srq
  && (c.sess.synchronous || (delayOver delay x.delay
    && (c.afterSrq (c.sess.syncCode code) param address payload x.srq).env.offers { reads := [], ticks := x.delay, idles := [] }))
  && (!c.sess.sendsWait code || (c.syncDelayed code param address payload x).canSend params.codeWait.toNat 0 0 [] x.wait)
  && (c.sess.cfg.skipStatusCheck != 0 || (c.syncRequested code param address payload x).canReadStatus x.status)

/-- A module status that is success (42_srq_ops.md rule R233). -/
def srqSucceeded (m : StatusRecord) : Bool := m.srqStatus == params.srqOk

/-- `SrqSync` completes (42_srq_ops.md rule R233). -/
def Ctx.canSync (c : Ctx) (code param address delay : Nat) (payload : List Byte) (x : SyncAnswers) : Bool :=
  c.canSyncRequest code param address delay payload x
  && (c.sess.cfg.skipStatusCheck != 0 || (c.syncRequested code param address payload x).everyModule x.status srqSucceeded)

/-- The context after `SrqSync`. -/
def Ctx.afterSync (c : Ctx) (code param address : Nat) (payload : List Byte) (x : SyncAnswers) : Ctx :=
  let d := c.syncRequested code param address payload x
  if c.sess.cfg.skipStatusCheck = 0 then d.afterStatus x.status else d

/-- The request code of chunk number `i` of a flash image (42_srq_ops.md rule R236). -/
def chunkCode (i : Nat) : Nat := if i = 0 then params.srqEraseWrite.toNat else params.srqWrite.toNat

/-- Every chunk of `Program`, from number `i` on, completes, each after the one before it (42_srq_ops.md rule R236). -/
def Ctx.canProgramChunks (c : Ctx) (address delay i : Nat) : List (List Byte) → List SyncAnswers → Bool
  | [], [] => true
  | chunk :: chunks, x :: xs =>
    c.canSync (chunkCode i) (chunk.length - 1) (address + i * params.srqChunk) delay chunk x
    && (c.afterSync (chunkCode i) (chunk.length - 1) (address + i * params.srqChunk) chunk x).canProgramChunks address
      delay (i + 1) chunks xs
  | _, _ => false

/-- The context after the chunks of `Program`. -/
def Ctx.afterChunks (c : Ctx) (address i : Nat) : List (List Byte) → List SyncAnswers → Ctx
  | chunk :: chunks, x :: xs =>
    (c.afterSync (chunkCode i) (chunk.length - 1) (address + i * params.srqChunk) chunk x).afterChunks address (i + 1)
      chunks xs
  | _, _ => c

/-- The chunks of a flash image (42_srq_ops.md rule R236). -/
def imageChunks (data : List Byte) : List (List Byte) := chunksOf params.srqChunk data.length data

/-- Everything `Program` does before its checksum test ends without an error (42_srq_ops.md rule R236). -/
def Ctx.canProgramChunksOf (c : Ctx) (address : Nat) (data : List Byte) (xs : List SyncAnswers) (st : StatusAnswers) : Bool :=
  c.sess.admits && decide (1 ≤ data.length) && decide (address + data.length ≤ 65536)
  && c.canProgramChunks address c.sess.cfg.legacyDelay.toNat 0 (imageChunks data) xs
  && (c.afterChunks address 0 (imageChunks data) xs).canReadStatus st

/-- A module that reports the checksum `expected` (42_srq_ops.md rule R236). -/
def programmedWith (expected : Word) (m : StatusRecord) : Bool := m.codeChecksum == expected

/-- `Program` completes (42_srq_ops.md rule R236). -/
def Ctx.canProgram (c : Ctx) (address : Nat) (data : List Byte) (xs : List SyncAnswers) (st : StatusAnswers) : Bool :=
  c.canProgramChunksOf address data xs st
  && (c.afterChunks address 0 (imageChunks data) xs).everyModule st (programmedWith (params.cksum data))

/-- The context after `Program`. -/
def Ctx.programmed (c : Ctx) (address : Nat) (data : List Byte) (xs : List SyncAnswers) (st : StatusAnswers) : Ctx :=
  (c.afterChunks address 0 (imageChunks data) xs).afterStatus st

end Sys2Proof.Machine
end

