-- ==== Sys2Proof/Certificates/Slice0/Obligations.lean ====
section
/-! DEFINITION. The statements for the provers. Where an operation is said to complete, the words `can…` and the
contexts after it are those of Safety.lean. -/

open Sys2Proof Sys2Proof.Machine
open Sys2Proof.Config (params)

/-! ### Encoding -/

/-- Decoding what `encode` writes gives the instruction back, with every operand (30_encoding.md rules R100, R102 to
R106, R110, R111). -/
def Obligations.DecodeEncodeAgree : Prop :=
  ∀ i : Instr, i.wf = true → decode i.format (encode i) = .ok i

/-- The other direction: a record holds nothing but its instruction, a command is followed by idle bytes only, and of
a descriptor only operands the operation does not use are lost (rules R100, R110, R114). -/
def Obligations.EncodeDecodedAgree : Prop :=
  ∀ (f : Format) (bytes : List Byte) (i : Instr), decode f bytes = .ok i →
    i.format = f
    ∧ (f = .srqRecord → i.wf = true ∧ encode i = bytes)
    ∧ (f = .command → i.wf = true ∧ encode i <+: bytes)
    ∧ (f = .descriptor → decode .descriptor (encode i) = .ok i)

/-- A few words written out from the encoding tables decode to their instructions (rules R102, R103, R110). -/
def Obligations.WordsDecode : Prop :=
  decode .descriptor [0x01, 0, 0, 0, 0x02, 0, 0, 0, 0, 0, 0, 0, 0, 0, 0, 0, 0, 0, 0, 0] = .ok (.trigger 2)
  ∧ decode .descriptor [0x13, 0, 0, 0, 0x10, 0, 0, 0, 0x04, 0, 0, 0, 0, 0, 0, 0, 0, 0, 0, 0] = .ok (.readBounded 0x10 4)
  ∧ decode .descriptor [0x20, 0, 0, 0, 0x03, 0, 0, 0, 0, 0, 0, 0, 0x00, 0x20, 0, 0, 0, 0, 0, 0, 0xAA] =
      .ok (.srq 3 0 0x2000 [0xAA])
  ∧ decode .command [0x44, 0x01, 0x34, 0x12, 0x05, 0, 0, 0, 0xAA, 0xBB] =
      .ok (.codeWrite { lm1 := 1, address := 0x1234, cookie := 5 } [0xAA, 0xBB])
  ∧ decode .srqRecord [0x83, 0x00, 0x00, 0x20] =
      .ok (.srqRunProc { sync := true, param := 0, address := 0x2000, payload := [] })

/-! ### One step -/

/-- With nothing in progress, a step runs exactly the instruction it fetches, from the state in which only that
instruction has left its place. First what the link engine has sent runs at the modules: the command, or, on the SRQ
strobe, the record that the mailboxes of the configured channels hold (20_memory.md rule R78, 30_encoding.md rule R110;
that the modules take their turn here, and that the record is the mailbox's bytes up to the first that nothing has
written, the same on every configured channel, is the model's choice, log entries 10, 14 and 16). With nothing on the
wire, the descriptor presented next runs (rule R100; the queue is the model's form of the port, log entry 7). -/
def Obligations.StepRunsFetched : Prop :=
  ∀ (s : State) (i : Instr), s.inflight = none → s.busy = false →
    (∀ bytes rest, s.ctx.link.wire = .command bytes :: rest → decode .command bytes = .ok i →
      step s = exec i { s with ctx := { s.ctx with link := { s.ctx.link with wire := rest } } })
    ∧ (∀ rest, s.ctx.link.wire = .strobe :: rest →
      (∀ c, c < s.ctx.sess.nch.getD 0 →
        Memory.known s.mods.mem (65536 * c + 0x0100) 256 = Memory.known s.mods.mem 0x0100 256) →
      decode .srqRecord (Memory.known s.mods.mem 0x0100 256) = .ok i →
      step s = exec i { s with ctx := { s.ctx with link := { s.ctx.link with wire := rest } } })
    ∧ ∀ d rest, s.ctx.link.wire = [] → s.queue = d :: rest → decodeDescriptor d = .ok i →
      step s = exec i { s with queue := rest }

/-- An operation that lacks an answer is in progress: `busy` is true, no result is delivered, and what is kept is the
instruction and the context it started in. The next step runs it from there, with one answer more of the kind it waits
for (10_state.md rule R44; the form of the resumption is the model's choice, log entries 1 and 2). -/
def Obligations.UnfinishedGoesOn : Prop :=
  (∀ (i : Instr) (s t : State), i.format = .descriptor → s.busy = false → exec i s = .next t → t.busy = true →
    t.result = none ∧ (∃ n, t.inflight = some { instr := i, start := s.ctx, need := n })
    ∧ t.queue = s.queue ∧ t.mods = s.mods ∧ t.fed = s.fed)
  ∧ ∀ (s : State) (f : InFlight), s.inflight = some f →
      step s = exec f.instr { s with
        ctx := f.start.feed f.need s.fed, busy := false, inflight := none, fed := s.fed + 1 }

/-- While `busy` is true no operation runs and no step takes a descriptor (30_encoding.md rule R100, 10_state.md rule
R44). -/
def Obligations.BusyAcceptsNothing : Prop :=
  (∀ (i : Instr) (s : State), i.format = .descriptor → s.busy = true → exec i s = .next s)
  ∧ ∀ s t : State, s.busy = true → step s = .next t → t.queue = s.queue

/-- The first words that present an operation are the numbers of rule R102; a descriptor with any other first word
delivers `InvalidCommand(1, w)`, issues no transaction and changes no register (30_encoding.md rule R113 (a)). -/
def Obligations.IllegalDescriptorRefused : Prop :=
  (∀ d : Descriptor, d.w0.toNat ∈ operationNumbers → ∃ i, decodeDescriptor d = .ok i)
  ∧ ∀ (s : State) (d : Descriptor) (rest : List Descriptor),
      s.inflight = none → s.busy = false → s.ctx.link.wire = [] → s.queue = d :: rest → d.w0.toNat ∉ operationNumbers →
      step s = .next { s with queue := rest, result := some ⟨2, 1, d.w0, 0, 0, []⟩ }

/-! ### Reset -/

/-- The session registers after power-on; and, since the fields of `cfg` are unspecified then, no operation depends on
them while `cfg_valid` is false: run from two states that differ only in `cfg`, it delivers the same result, issues the
same transactions, uses the same answers and leaves the same registers but `cfg` (10_state.md rule R39). -/
def Obligations.PowerOnReset : Prop :=
  (State.reset.ctx.sess.busState = .uninitialized ∧ State.reset.ctx.sess.chain = none
    ∧ State.reset.ctx.sess.modules = none ∧ State.reset.ctx.sess.modVersion = none ∧ State.reset.ctx.sess.stash = []
    ∧ State.reset.ctx.sess.lastSrq = none ∧ State.reset.ctx.sess.cookieCtr = 0 ∧ State.reset.ctx.sess.cfgValid = false
    ∧ State.reset.ctx.sess.nch = none ∧ State.reset.ctx.sess.wide16 = false ∧ State.reset.busy = false)
  ∧ ∀ (i : Instr) (s t : State) (g : CfgRecord),
      i.format = .descriptor → s.busy = false → s.ctx.sess.cfgValid = false → exec i s = .next t →
      ∃ u, exec i { s with ctx := { s.ctx with sess := { s.ctx.sess with cfg := g } } } = .next u
        ∧ u.result = t.result ∧ u.busy = t.busy ∧ u.ctx.link = t.ctx.link ∧ u.ctx.env = t.ctx.env
        ∧ { u.ctx.sess with cfg := g } = { t.ctx.sess with cfg := g }

/-- After reset the machine is in a state the spec allows, and, with no descriptor presented, it waits
(70_reset_and_hazards.md rule R300). -/
def Obligations.ResetAllowedAndIdle : Prop := State.reset.ok = true ∧ step State.reset = .next State.reset

/-! ### Invariants -/

/-- Every step keeps the allowed states: the relations between the session registers of rules R20, R22, R23, R26, R40,
the port discipline of rule R38, and the canonical form of the memories. -/
def Obligations.StepKeepsAllowed : Prop :=
  ∀ s t : State, s.ok = true → step s = .next t → t.ok = true

/-- From an allowed state every step answers a next state: no fault and no refusal. -/
def Obligations.StepAlwaysAnswers : Prop :=
  ∀ s : State, s.ok = true → ∃ t, step s = .next t

/-- Transactions are only added, and every one an operation issues keeps to the indexes and the reserved bits of rules
R27 to R38. -/
def Obligations.PortDisciplineKept : Prop :=
  ∀ (i : Instr) (s t : State), s.ok = true → exec i s = .next t →
    ∃ new, t.ctx.link.log = new ++ s.ctx.link.log ∧ new.all Txn.legal = true

/-- The transitions of `bus_state`, complete (41_bus_ops.md rule R192). Error codes: 3 `Timeout`, 4 `Failure`, 14
`StateError` (60_exceptions.md rule R260). -/
def Obligations.BusStateTransitions : Prop :=
  ∀ (i : Instr) (s t : State), i.format = .descriptor → s.busy = false → exec i s = .next t →
    (i.resets = false ∧ t.err ≠ some 3 ∧ t.err ≠ some 4 → t.ctx.sess.busState = s.ctx.sess.busState)
    ∧ (t.err = some 3 ∨ t.err = some 4 → t.ctx.sess.busState = .faulted)
    ∧ (i = .trigger 0 → t.ctx.sess.busState = .initializing)
    ∧ (i = .initBus ∧ t.err = some 0 → t.ctx.sess.busState = .ready)
    ∧ (i = .initBus ∧ t.err = some 14 → t.ctx.sess.busState = s.ctx.sess.busState)
    ∧ (i = .initBus ∧ t.err ≠ some 0 ∧ t.err ≠ some 3 ∧ t.err ≠ some 4 ∧ t.err ≠ some 14 →
        t.ctx.sess.busState = .initializing)

/-- Which operations write which session register (10_state.md rule R20, column "written by"). -/
def Obligations.SessionWriters : Prop :=
  ∀ (i : Instr) (s t : State), exec i s = .next t →
    ((∀ data, i ≠ .loadConfig data) → t.ctx.sess.cfg = s.ctx.sess.cfg ∧ t.ctx.sess.cfgValid = s.ctx.sess.cfgValid)
    ∧ (i.resets = false → t.ctx.sess.chain = s.ctx.sess.chain ∧ t.ctx.sess.modules = s.ctx.sess.modules
        ∧ t.ctx.sess.modVersion = s.ctx.sess.modVersion)
    ∧ ((∀ n, i ≠ .cfgChannels n) → i ≠ .initBus → t.ctx.sess.nch = s.ctx.sess.nch)
    ∧ ((∀ len f w lb, i ≠ .cfgTransmit len f w lb) → i.gated = false → i ≠ .initBus →
        t.ctx.sess.wide16 = s.ctx.sess.wide16)
    ∧ (i.gated = false → i ≠ .initBus → t.ctx.sess.cookieCtr = s.ctx.sess.cookieCtr)
    ∧ (i.resets = false → i.pulls = false → t.ctx.sess.stash = s.ctx.sess.stash)
    ∧ (i.resets = false → i.posts = false → t.ctx.sess.lastSrq = s.ctx.sess.lastSrq)

/-- The time base never goes back (60_exceptions.md rule R284). -/
def Obligations.TimeNeverGoesBack : Prop :=
  ∀ (i : Instr) (s t : State), exec i s = .next t → s.ctx.env.now ≤ t.ctx.env.now

/-- An instruction other than a bus reset changes no byte of the window outside those it stores to: its control word,
or the framing words and the bytes of its command (20_memory.md rule R77, 10_state.md rule R36). -/
def Obligations.WindowFrame : Prop :=
  ∀ (i : Instr) (s t : State) (a : Nat), exec i s = .next t → i.resets = false → i.stores s.ctx.sess a = false →
    Memory.read t.ctx.link.win a = Memory.read s.ctx.link.win a

/-! ### Errors -/

/-- `InvalidConfig` changes nothing and is delivered by device operations other than `WAIT_STATUS` only
(60_exceptions.md rule R261, 41_bus_ops.md rules R182, R191). -/
def Obligations.InvalidConfigChangesNothing : Prop :=
  ∀ (i : Instr) (s t : State), i.format = .descriptor → s.ok = true → s.busy = false → exec i s = .next t →
    t.err = some 1 → t.ctx = s.ctx ∧ i.gated = false ∧ i ≠ .initBus ∧ ∀ set clr timeout, i ≠ .waitStatus set clr timeout

/-- `InvalidCommand` changes nothing, in particular not `cookie_ctr`, and is delivered by the bus and SRQ families only
(60_exceptions.md rule R262). -/
def Obligations.InvalidCommandChangesNothing : Prop :=
  ∀ (i : Instr) (s t : State), i.format = .descriptor → s.ok = true → s.busy = false → exec i s = .next t →
    t.err = some 2 → t.ctx = s.ctx ∧ i.gated = true

/-- The gate: without a configuration, outside `Ready`, or without a channel count, an operation of the bus or SRQ
family delivers `StateError` with the reason, tested in this order, whatever its operands are, and nothing else happens;
`INITIALIZE` asks for the configuration only (41_bus_ops.md rule R180, 42_srq_ops.md rule R230). -/
def Obligations.GateRefuses : Prop :=
  (∀ (i : Instr) (s : State), i.gated = true → s.busy = false →
    ¬ (s.ctx.sess.cfgValid = true ∧ s.ctx.sess.busState = .ready ∧ s.ctx.sess.nch ≠ none) →
    exec i s = .next (s.finishedErr
      (.stateError s.ctx.sess.busState.code
        (if s.ctx.sess.cfgValid = false then 2 else if s.ctx.sess.busState = .ready then 3 else 1)) s.ctx))
  ∧ ∀ s : State, s.busy = false → s.ctx.sess.cfgValid = false →
      exec .initBus s = .next (s.finishedErr (.stateError s.ctx.sess.busState.code 2) s.ctx)

/-- The operand checks of the bus and SRQ families behind the gate: the first that fails is delivered, and nothing else
happens (41_bus_ops.md rules R181, R184 to R189; 42_srq_ops.md rules R230 to R236). -/
def Obligations.OperandChecks : Prop :=
  ∀ (s : State) (e : Err), s.busy = false → s.ctx.sess.ok = true → s.ctx.sess.admits = true →
    (∀ code address verify data, sendError code.toNat address.toNat verify.toNat data = some e →
      exec (.send code address verify data) s = .next (s.finishedErr e s.ctx))
    ∧ (∀ address data, buildError 0x44 address.toNat data 0 = some e →
      exec (.busWrite address data) s = .next (s.finishedErr e s.ctx))
    ∧ (∀ address dlen, s.ctx.sess.boundedError address.toNat dlen.toNat = some e →
      exec (.readBounded address dlen) s = .next (s.finishedErr e s.ctx))
    ∧ (∀ address dlen, readError address.toNat dlen.toNat = some e →
      exec (.readStreaming address dlen) s = .next (s.finishedErr e s.ctx))
    ∧ (∀ address dlen, coherentError address.toNat dlen.toNat = some e →
      exec (.readCoherent address dlen) s = .next (s.finishedErr e s.ctx))
    ∧ (∀ code param address data, srqError code.toNat param.toNat address.toNat data = some e →
      exec (.srq code param address data) s = .next (s.finishedErr e s.ctx))
    ∧ (∀ code param address delay data, syncError code.toNat param.toNat address.toNat data = some e →
      exec (.srqSync code param address delay data) s = .next (s.finishedErr e s.ctx))
    ∧ (∀ address data, programError address.toNat data = some e →
      exec (.program address data) s = .next (s.finishedErr e s.ctx))

/-! ### Controller Device operations -/

/-- `TRIGGER` (40_device_ops.md rule R141). What the write makes the link engine send to the modules is the model's
choice (`Link.write`; log entries 10, 16 and 28 to 30). -/
def Obligations.TriggerStrobes : Prop :=
  ∀ (s : State) (action : Word), s.busy = false →
    exec (.trigger action) s = .next (
      if 4 < action.toNat then s.finishedErr (.invalidConfig 0 action.toNat 0 4) s.ctx
      else s.finishedOk [] { s.ctx with
        sess := if action = 0 then
            { s.ctx.sess with
              stash := [], lastSrq := none, busState := .initializing, chain := none, modules := none, modVersion := none }
          else s.ctx.sess
        link := s.ctx.link.write 0 (1 <<< action.toNat) })

/-- `WAIT_STATUS` ends `Ok` with the first status word that satisfies it, when no earlier word has a failure bit or
comes with the deadline passed (40_device_ops.md rule R142). -/
def Obligations.WaitStatusSucceeds : Prop :=
  ∀ (s : State) (set clr timeout : Word) (x : Polling), s.busy = false →
    x.succeeds set clr timeout = true → s.ctx.env.offers x.answers = true →
    exec (.waitStatus set clr timeout) s = .next (s.finishedOk (le32 x.last) (s.ctx.polled x))

/-- `WAIT_STATUS` ends with `Failure` at the first status word with a failure bit, also when that word satisfies the
wait, and with `Timeout` when the deadline has passed after a word that ends nothing; both write `Faulted`
(40_device_ops.md rule R142, 60_exceptions.md rules R263, R264, R280). -/
def Obligations.WaitStatusFails : Prop :=
  ∀ (s : State) (set clr timeout : Word) (x : Polling) (late : Nat), s.busy = false →
    (x.fails set clr timeout = true → s.ctx.env.offers x.answers = true →
      exec (.waitStatus set clr timeout) s = .next (s.finishedErr (.failure x.last (set &&& 0xFFF) (clr &&& 0xFFF))
        { s.ctx.polled x with sess := s.ctx.sess.setBusState .faulted }))
    ∧ (x.expires late set clr timeout = true →
      s.ctx.env.offers ({ x with later := x.later ++ [late] } : Polling).answers = true →
      exec (.waitStatus set clr timeout) s = .next (s.finishedErr (.timeout (set &&& 0xFFF) (clr &&& 0xFFF) x.last false)
        { s.ctx.polled { x with later := x.later ++ [late] } with sess := s.ctx.sess.setBusState .faulted }))

/-- With NO_TIMEOUT, status words that end nothing never end the wait: `busy` stays true, and the operation asks for
one more (70_reset_and_hazards.md rule R308, 30_encoding.md rule R116). -/
def Obligations.WaitWithoutDeadlineGoesOn : Prop :=
  ∀ (s : State) (set clr : Word) (d : Nat) (ts : List Nat), s.busy = false → s.ctx.env.ticks = d :: ts →
    s.ctx.env.reads.all (pending set clr) = true →
    ∃ t, exec (.waitStatus set clr 0xFFFFFFFF) s = .next t ∧ t.busy = true ∧ t.result = none
      ∧ t.inflight = some { instr := .waitStatus set clr 0xFFFFFFFF, start := s.ctx, need := .read }
      ∧ t.ctx.sess = s.ctx.sess ∧ t.ctx.trace = s.ctx.trace ++ s.ctx.env.reads.map (fun w => Txn.read 1 w)

/-- `CFG_CHANNELS` (40_device_ops.md rule R143). -/
def Obligations.CfgChannelsRule : Prop :=
  ∀ (s : State) (n : Word), s.busy = false →
    exec (.cfgChannels n) s = .next (
      if n.toNat < 1 ∨ 8 < n.toNat then s.finishedErr (.invalidConfig 0 n.toNat 1 8) s.ctx
      else s.finishedOk [] { s.ctx with
        sess := { s.ctx.sess with nch := some n.toNat }, link := s.ctx.link.write 2 n })

/-- `CFG_CLOCK` and `CFG_RESET` (40_device_ops.md rules R144, R145). -/
def Obligations.CfgClockAndResetRule : Prop :=
  ∀ (s : State) (d ti tu rt ht : Word), s.busy = false →
    exec (.cfgClock d ti tu) s = .next (
      if 255 < d.toNat then s.finishedErr (.invalidConfig 0 d.toNat 0 255) s.ctx
      else if 255 < ti.toNat then s.finishedErr (.invalidConfig 1 ti.toNat 0 255) s.ctx
      else if 255 < tu.toNat then s.finishedErr (.invalidConfig 2 tu.toNat 0 255) s.ctx
      else s.finishedOk [] { s.ctx with link := s.ctx.link.write 3 (d + 256 * ti + 65536 * tu) })
    ∧ exec (.cfgReset rt ht) s = .next (
      if 65535 < rt.toNat then s.finishedErr (.invalidConfig 0 rt.toNat 0 65535) s.ctx
      else if 65535 < ht.toNat then s.finishedErr (.invalidConfig 1 ht.toNat 0 65535) s.ctx
      else s.finishedOk [] { s.ctx with link := s.ctx.link.write 4 (rt + 65536 * ht) })

/-- `CFG_TRANSMIT` (40_device_ops.md rule R146). -/
def Obligations.CfgTransmitRule : Prop :=
  ∀ (s : State) (len f w lb : Word), s.busy = false →
    exec (.cfgTransmit len f w lb) s = .next (
      if 65535 < len.toNat then s.finishedErr (.invalidConfig 0 len.toNat 0 65535) s.ctx
      else if 1 < f.toNat then s.finishedErr (.invalidConfig 1 f.toNat 0 1) s.ctx
      else if 1 < w.toNat then s.finishedErr (.invalidConfig 2 w.toNat 0 1) s.ctx
      else if 1 < lb.toNat then s.finishedErr (.invalidConfig 3 lb.toNat 0 1) s.ctx
      else s.finishedOk [] { s.ctx with
        sess := { s.ctx.sess with wide16 := w == 1 }
        link := s.ctx.link.write 5 (len + 65536 * f + 131072 * w + 262144 * lb) })

/-- `CFG_RECEIVE` (40_device_ops.md rule R147). -/
def Obligations.CfgReceiveRule : Prop :=
  ∀ (s : State) (len sk wnz lb : Word), s.busy = false →
    exec (.cfgReceive len sk wnz lb) s = .next (
      if 65535 < len.toNat then s.finishedErr (.invalidConfig 0 len.toNat 0 65535) s.ctx
      else if 255 < sk.toNat then s.finishedErr (.invalidConfig 1 sk.toNat 0 255) s.ctx
      else if 1 < wnz.toNat then s.finishedErr (.invalidConfig 2 wnz.toNat 0 1) s.ctx
      else if 1 < lb.toNat then s.finishedErr (.invalidConfig 3 lb.toNat 0 1) s.ctx
      else s.finishedOk [] { s.ctx with
        link := s.ctx.link.write 6 (len + 65536 * sk + 16777216 * wnz + 33554432 * lb) })

/-- `WRITE_COMMAND`: the bytes go to the command buffer, in rising order, in half-word writes when `wide16` is set, else
in word writes, padded with 0x00 to a whole half-word or word (40_device_ops.md rule R148, 20_memory.md rule R73). -/
def Obligations.WriteCommandRule : Prop :=
  ∀ (s : State) (data : List Byte), s.busy = false →
    (264 < data.length →
      exec (.writeCommand data) s = .next (s.finishedErr (.invalidConfig 4 data.length 0 264) s.ctx))
    ∧ (data.length ≤ 264 →
      let c : Ctx := { s.ctx with link := s.ctx.link.writeCommand s.ctx.sess.wide16 data }
      exec (.writeCommand data) s = .next (s.finishedOk [] c)
      ∧ c.link.wire = s.ctx.link.wire
      ∧ c.trace = s.ctx.trace ++ (
          if s.ctx.sess.wide16 then
            (halvesOf data).zipIdx.map fun p => Txn.write16 (0x100 + p.2 / 2) (p.2 % 2 == 1) p.1
          else (wordsOf data).zipIdx.map fun p => Txn.write (0x100 + p.2) p.1)
      ∧ (halvesOf data).flatMap le16 = data ++ zeros (even data.length - data.length)
      ∧ (wordsOf data).flatMap le32 = data ++ zeros (up4 data.length - data.length)
      ∧ (∀ k, k < data.length → Memory.read c.link.win (4 * 0x100 + k) = data[k]?)
      ∧ (∀ k, data.length ≤ k → k < (if s.ctx.sess.wide16 then even data.length else up4 data.length) →
          Memory.read c.link.win (4 * 0x100 + k) = some 0)
      ∧ ∀ a, a < 4 * 0x100 ∨ 4 * 0x100 + (if s.ctx.sess.wide16 then even data.length else up4 data.length) ≤ a →
          Memory.read c.link.win a = Memory.read s.ctx.link.win a)

/-- `READ_RX` (40_device_ops.md rule R149). -/
def Obligations.ReadRxRule : Prop :=
  ∀ (s : State) (size : Word) (ws : List Word), s.busy = false →
    (4096 < size.toNat →
      exec (.readRx size) s = .next (s.finishedErr (.invalidConfig 0 size.toNat 0 4096) s.ctx))
    ∧ (size.toNat ≤ 4096 → ws.length = up4 size.toNat / 4 →
      s.ctx.env.offers ⟨ws, [], []⟩ = true →
      exec (.readRx size) s =
        .next (s.finishedOk ((bytesOf ws).take size.toNat) (s.ctx.readAll (fun k => 0x400 + k) ws)))

/-- `READ_RX_ALL`: the rounding to words is made once, on the total; `out` is the first `size * n` bytes
(40_device_ops.md rule R150). That the channel count is checked first, whatever the size is, is the model's reading of
that rule's pseudocode against rule R140 (b) (log entry 19). -/
def Obligations.ReadRxAllRule : Prop :=
  ∀ (s : State) (size n : Word) (ws : List Word), s.busy = false →
    (n.toNat < 1 ∨ 8 < n.toNat →
      exec (.readRxAll size n) s = .next (s.finishedErr (.invalidConfig 1 n.toNat 1 8) s.ctx))
    ∧ (1 ≤ n.toNat ∧ n.toNat ≤ 8 ∧ 4096 < size.toNat * n.toNat →
      exec (.readRxAll size n) s = .next (s.finishedErr (.invalidConfig 0 size.toNat 0 (4096 / n.toNat)) s.ctx))
    ∧ (1 ≤ n.toNat ∧ n.toNat ≤ 8 ∧ size.toNat * n.toNat ≤ 4096 → ws.length = up4 (size.toNat * n.toNat) / 4 →
      s.ctx.env.offers ⟨ws, [], []⟩ = true →
      exec (.readRxAll size n) s = .next (s.finishedOk ((bytesOf ws).take (size.toNat * n.toNat))
        (s.ctx.readAll (fun k => 0x400 + k) ws)))

/-- `READ_RX_STREAM`, the pull: served from the stash alone; or, after at most `budget` zero words, from the stash and
the words that follow, the rest of the last word going to the stash; or `NotReady` after `budget + 1` zero words, which
are gone while the stash is not (40_device_ops.md rules R151, R152). -/
def Obligations.ReadRxStreamRule : Prop :=
  ∀ (s : State) (size n budget : Word) (p : Pull), s.busy = false →
    1 ≤ n.toNat ∧ n.toNat ≤ 8 ∧ size.toNat * n.toNat ≤ 4096 →
    (size.toNat * n.toNat ≤ s.ctx.sess.stash.length →
      exec (.readRxStream size n budget) s = .next (s.finishedOk (s.ctx.sess.stash.take (size.toNat * n.toNat))
        { s.ctx with sess := { s.ctx.sess with stash := s.ctx.sess.stash.drop (size.toNat * n.toNat) } }))
    ∧ (s.ctx.sess.stash.length < size.toNat * n.toNat →
      p.good (ceilDiv (size.toNat * n.toNat - s.ctx.sess.stash.length) 4) budget.toNat = true →
      s.ctx.env.offers ⟨p.reads, [], []⟩ = true →
      exec (.readRxStream size n budget) s =
        .next (s.finishedOk ((s.ctx.sess.stash ++ bytesOf p.words).take (size.toNat * n.toNat))
          { s.ctx.readAll streamIndex p.reads with
            sess := { s.ctx.sess with
              stash := (s.ctx.sess.stash ++ bytesOf p.words).drop (size.toNat * n.toNat) } }))
    ∧ (s.ctx.sess.stash.length < size.toNat * n.toNat →
      s.ctx.env.offers ⟨List.replicate (budget.toNat + 1) 0, [], []⟩ = true →
      exec (.readRxStream size n budget) s =
        .next (s.deliver ⟨16, 0, 0, 0, 0, []⟩ (s.ctx.readAll streamIndex (List.replicate (budget.toNat + 1) 0))))

/-- The operand checks of the two streaming reads (40_device_ops.md rules R152, R153). That the channel count comes first,
then the total size, is the model's reading of their pseudocode against rule R140 (b) (log entry 19). -/
def Obligations.StreamOperandChecks : Prop :=
  ∀ (s : State) (size n timeout budget : Word), s.busy = false →
    (n.toNat < 1 ∨ 8 < n.toNat →
      exec (.readRxStream size n budget) s = .next (s.finishedErr (.invalidConfig 1 n.toNat 1 8) s.ctx)
      ∧ exec (.readRxStreamBlk size n timeout budget) s = .next (s.finishedErr (.invalidConfig 1 n.toNat 1 8) s.ctx))
    ∧ (1 ≤ n.toNat ∧ n.toNat ≤ 8 ∧ 4096 < size.toNat * n.toNat →
      exec (.readRxStream size n budget) s =
        .next (s.finishedErr (.invalidConfig 0 size.toNat 0 (4096 / n.toNat)) s.ctx)
      ∧ exec (.readRxStreamBlk size n timeout budget) s =
        .next (s.finishedErr (.invalidConfig 0 size.toNat 0 (4096 / n.toNat)) s.ctx))

/-- `READ_RX_STREAM_BLK`: served by the stash alone with one reading of the time base and no transaction; else, after
`m` attempts that were not ready, each with the deadline not passed and the host continuing, an attempt that is ready
ends the operation (40_device_ops.md rules R151, R153). -/
def Obligations.StreamBlockingCompletes : Prop :=
  ∀ (s : State) (size n timeout budget : Word) (m d0 : Nat) (later : List Nat) (p : Pull), s.busy = false →
    1 ≤ n.toNat ∧ n.toNat ≤ 8 ∧ size.toNat * n.toNat ≤ 4096 →
    (size.toNat * n.toNat ≤ s.ctx.sess.stash.length →
      s.ctx.env.offers ⟨[], [d0], []⟩ = true →
      exec (.readRxStreamBlk size n timeout budget) s =
        .next (s.finishedOk (s.ctx.sess.stash.take (size.toNat * n.toNat))
          { s.ctx with
            sess := { s.ctx.sess with stash := s.ctx.sess.stash.drop (size.toNat * n.toNat) }
            env := s.ctx.env.used ⟨[], [d0], []⟩ }))
    ∧ (s.ctx.sess.stash.length < size.toNat * n.toNat →
      inTime timeout m later = true →
      p.good (ceilDiv (size.toNat * n.toNat - s.ctx.sess.stash.length) 4) budget.toNat = true →
      s.ctx.env.offers ⟨List.replicate (m * (budget.toNat + 1)) 0 ++ p.reads, d0 :: later, List.replicate m true⟩ = true →
      exec (.readRxStreamBlk size n timeout budget) s =
        .next (s.finishedOk ((s.ctx.sess.stash ++ bytesOf p.words).take (size.toNat * n.toNat))
          { sess := { s.ctx.sess with stash := (s.ctx.sess.stash ++ bytesOf p.words).drop (size.toNat * n.toNat) }
            link := s.ctx.link.notePulls (List.replicate m (List.replicate (budget.toNat + 1) 0) ++ [p.reads])
            env := s.ctx.env.used ⟨List.replicate (m * (budget.toNat + 1)) 0 ++ p.reads, d0 :: later, List.replicate m true⟩ }))

/-- `READ_RX_STREAM_BLK` that is not ready, after `m` attempts from which it went on, ends with `Timeout` and `Faulted`
when the deadline has passed, else, when the host aborts, with `Cancelled`, which changes neither `bus_state` nor the
stash (40_device_ops.md rule R153, 60_exceptions.md rules R263, R275, R280). -/
def Obligations.StreamBlockingEndsEarly : Prop :=
  ∀ (s : State) (size n timeout budget : Word) (m d0 : Nat) (later : List Nat), s.busy = false →
    1 ≤ n.toNat ∧ n.toNat ≤ 8 ∧ size.toNat * n.toNat ≤ 4096 →
    s.ctx.sess.stash.length < size.toNat * n.toNat →
    (∀ late, timeout ≠ 0xFFFFFFFF → inTime timeout m later = true → timeout.toNat ≤ later.sum + late →
      s.ctx.env.offers
        ⟨List.replicate ((m + 1) * (budget.toNat + 1)) 0, d0 :: (later ++ [late]), List.replicate m true⟩ = true →
      exec (.readRxStreamBlk size n timeout budget) s = .next (s.finishedErr (.timeout 0 0 0 true)
        { sess := s.ctx.sess.setBusState .faulted
          link := s.ctx.link.notePulls (List.replicate (m + 1) (List.replicate (budget.toNat + 1) 0))
          env := s.ctx.env.used
            ⟨List.replicate ((m + 1) * (budget.toNat + 1)) 0, d0 :: (later ++ [late]), List.replicate m true⟩ }))
    ∧ (inTime timeout (m + 1) later = true →
      s.ctx.env.offers
        ⟨List.replicate ((m + 1) * (budget.toNat + 1)) 0, d0 :: later, List.replicate m true ++ [false]⟩ = true →
      exec (.readRxStreamBlk size n timeout budget) s = .next (s.finishedErr .cancelled
        { sess := s.ctx.sess
          link := s.ctx.link.notePulls (List.replicate (m + 1) (List.replicate (budget.toNat + 1) 0))
          env := s.ctx.env.used
            ⟨List.replicate ((m + 1) * (budget.toNat + 1)) 0, d0 :: later, List.replicate m true ++ [false]⟩ }))

/-- `LOAD_CONFIG`: 72 bytes are asked for; the lowest field out of its range is reported with number 16 + f; a good
record is loaded field by field, no transaction is issued (40_device_ops.md rule R154). -/
def Obligations.LoadConfigRule : Prop :=
  ∀ (s : State) (b : List Byte), s.busy = false →
    (b.length ≠ 72 → exec (.loadConfig b) s = .next (s.finishedErr (.invalidConfig 4 b.length 72 72) s.ctx))
    ∧ (b.length = 72 → ∀ f lo hi, cfgRanges[f]? = some (lo, hi) →
      ¬ (lo ≤ (wordAt b (4 * f)).toNat ∧ (wordAt b (4 * f)).toNat ≤ hi) →
      (∀ g lo' hi', g < f → cfgRanges[g]? = some (lo', hi') →
        lo' ≤ (wordAt b (4 * g)).toNat ∧ (wordAt b (4 * g)).toNat ≤ hi') →
      exec (.loadConfig b) s =
        .next (s.finishedErr (.invalidConfig (16 + f) (wordAt b (4 * f)).toNat lo hi) s.ctx))
    ∧ (b.length = 72 → (∀ f lo hi, cfgRanges[f]? = some (lo, hi) →
        lo ≤ (wordAt b (4 * f)).toNat ∧ (wordAt b (4 * f)).toNat ≤ hi) →
      ∃ g : CfgRecord, exec (.loadConfig b) s =
          .next (s.finishedOk [] { s.ctx with sess := { s.ctx.sess with cfg := g, cfgValid := true } })
        ∧ g.inRange = true ∧ bytesOf g.fields = b)

/-! ### Building, sending and validating -/

/-- `Build` makes a command whose parsed header gives back code, address, length and cookie, with status and count 0,
and whose bytes from 8 on are the payload (41_bus_ops.md rule R193). -/
def Obligations.BuildParseRoundTrip : Prop :=
  ∀ (code address : Nat) (payload : List Byte) (rdlen : Nat) (cmd : List Byte) (req : Request) (c c' : Ctx),
    build code address payload rdlen c = .ok (cmd, req) c' →
    (parseHeader cmd).code.toNat = code ∧ (parseHeader cmd).code = req.code
    ∧ (parseHeader cmd).address.toNat = address ∧ (parseHeader cmd).address = req.address
    ∧ (parseHeader cmd).lm1 = req.lm1 ∧ (hasPayload req.code = true → payload.length = req.lm1.toNat + 1)
    ∧ (parseHeader cmd).cookie = req.cookie ∧ (parseHeader cmd).status = 0 ∧ (parseHeader cmd).count = 0
    ∧ cmd.drop 8 = payload

/-- `Build`: the first failing check is raised and nothing changes; otherwise the cookie is 0 and the counter stays
when `skip_cookie` is 1, else the cookie is the counter, which advances modulo 256 (41_bus_ops.md rule R181,
30_encoding.md rule R107). -/
def Obligations.BuildRule : Prop :=
  ∀ (code address : Nat) (payload : List Byte) (rdlen : Nat) (c : Ctx),
    match buildError code address payload rdlen with
    | some e => build code address payload rdlen c = .error (.raise e) c
    | none => ∃ cmd req c', build code address payload rdlen c = .ok (cmd, req) c'
        ∧ c'.link = c.link ∧ c'.env = c.env
        ∧ (c.sess.cfg.skipCookie = 1 → req.cookie = 0 ∧ c'.sess = c.sess)
        ∧ (c.sess.cfg.skipCookie ≠ 1 → req.cookie = c.sess.cookieCtr
            ∧ c'.sess = { c.sess with cookieCtr := BitVec.ofNat 8 ((c.sess.cookieCtr.toNat + 1) % 256) })
        ∧ req.lm1.toNat + 1 = dataLength code payload rdlen
        ∧ cmd = [req.code, req.lm1] ++ le16 req.address ++ [req.cookie, 0x00, 0x00, 0x00] ++ payload

/-- `Transact` issues, in order: the two framing words, the command, the start, the polls of the completion wait, and
the reads of the receive buffer (41_bus_ops.md rule R182). -/
def Obligations.TransactOrder : Prop :=
  ∀ (cmd : List Byte) (lt lr : Nat) (e : Exchange) (c : Ctx), c.ok = true → c.sess.cfgValid = true →
    c.sess.nch ≠ none → cmd.length ≤ 264 → lt ≤ 65535 → lr ≤ 65535 → lr * c.sess.channels ≤ 4096 →
    c.canTransact lr e = true →
    ∃ c' writes, transact cmd lt lr c = .ok (c.frames lr e) c'
      ∧ c'.sess = { c.sess with wide16 := c.sess.cfg.cfgWide16 == 1 }
      ∧ c'.trace = c.trace
          ++ [.write 5 (txWord lt c.sess.cfg.fast.toNat c.sess.cfg.cfgWide16.toNat c.sess.cfg.loopbackSelfTest.toNat),
              .write 6 (rxWord lr c.sess.cfg.rxSkipWords.toNat c.sess.cfg.rxWaitNonzero.toNat c.sess.cfg.rxLoopback.toNat)]
          ++ writes ++ [.write 0 0x4] ++ (e.wait.polls ++ [e.wait.last]).map (fun w => Txn.read 1 w)
          ++ (numbered (fun k => 0x400 + k) 0 e.words).map (fun p => Txn.read p.1 p.2)
      ∧ writes.length = (if c.sess.cfg.cfgWide16 = 1 then (cmd.length + 1) / 2 else (cmd.length + 3) / 4)
      ∧ writes.all (fun t => match t with
          | .read _ _ => false
          | .write i _ => inCmdBuf i && c.sess.cfg.cfgWide16 != 1
          | .write16 i _ _ => inCmdBuf i && c.sess.cfg.cfgWide16 == 1) = true

/-- `Validate` makes its checks in this order and reports the first that fails: header echo (code, length, address,
cookie), module status, response count when asked for, frame length, data echo, idle bytes (41_bus_ops.md rule R183).
`chain` is needed for the response count only: `INITIALIZE` validates its probe without it (rule R191). -/
def Obligations.ValidateOrder : Prop :=
  ∀ (k : Nat) (f : List Byte) (req : Request) (payload : List Byte) (verify count : Bool) (c : Ctx) (chain : Half),
    (count = true → c.sess.chain = some chain) →
    let h := parseHeader f
    let n := req.lm1.toNat + 1
    let len := if hasPayload req.code then n else if isMulti req.code then h.count.toNat * n else 0
    let body := (f.drop 8).take len
    let off := (List.range n).filter fun i => byteAt body i != byteAt payload i
    let fail : Err → EStateM.Result Stop Ctx (Half × List Byte) := fun e => .error (.raise e) c
    validate k f req payload verify count c =
      if h.code ≠ req.code then fail (.protocolError k 1 req.code.toNat h.code.toNat)
      else if h.lm1 ≠ req.lm1 then fail (.protocolError k 2 req.lm1.toNat h.lm1.toNat)
      else if h.address ≠ req.address then fail (.protocolError k 3 req.address.toNat h.address.toNat)
      else if h.cookie ≠ req.cookie then fail (.protocolError k 4 req.cookie.toNat h.cookie.toNat)
      else if h.status ≠ 0 then fail (.moduleError k h.status.toNat h.count.toNat)
      else if count = true ∧ h.count ≠ chain then fail (.protocolError k 5 chain.toNat h.count.toNat)
      else if f.length < 8 + len then fail (.protocolError k 7 f.length (8 + len))
      else if verify = true ∧ hasPayload req.code = true ∧ off ≠ [] then fail (.dataMismatch k (off.headD 0) off.length)
      else match ((List.range f.length).drop (8 + len)).find? fun i => byteAt f i != 0 with
        | some i => fail (.protocolError k 6 i (byteAt f i).toNat)
        | none => .ok (h.count, body) c

/-- `SEND`, `BUS_WRITE` and `BUS_WAIT` complete; the last two are sends whose result is discarded (41_bus_ops.md rules
R184 to R186). -/
def Obligations.SendFamilyCompletes : Prop :=
  ∀ (s : State) (e : Exchange), s.busy = false → s.ctx.ok = true →
    (∀ code address verify data,
      s.ctx.canSend code.toNat address.toNat verify.toNat data e = true →
      exec (.send code address verify data) s =
        .next (s.finishedOk ((s.ctx.sendAnswer code.toNat address.toNat data e).flatMap fun r => le16 r.1 ++ r.2)
          (s.ctx.sent code.toNat address.toNat data e)))
    ∧ (∀ address data, s.ctx.canSend 0x44 address.toNat 0 data e = true →
      exec (.busWrite address data) s = .next (s.finishedOk [] (s.ctx.sent 0x44 address.toNat data e)))
    ∧ (s.ctx.canSend 0x02 0 0 [] e = true → exec .busWait s = .next (s.finishedOk [] (s.ctx.sent 0x02 0 [] e)))

/-- Fail-fast: when the completion wait of a `SEND` sees a failure bit, the operation ends there with `Failure`. The
receive buffer is not read, nothing is undone, the cookie and `wide16` stay written, `bus_state` is `Faulted`
(60_exceptions.md rules R279, R280). The same for the mailbox write of an `SRQ` whose record is new: there is no strobe,
and `last_srq` stays `none` (42_srq_ops.md rule R232). -/
def Obligations.SendFailsFast : Prop :=
  ∀ (s : State) (x : Polling), s.busy = false → s.ctx.ok = true → s.ctx.sess.admits = true →
    x.fails 0x191 0x008 s.ctx.sess.cfg.busTimeout = true → s.ctx.env.offers x.answers = true →
    (∀ code address verify data, sendError code.toNat address.toNat verify.toNat data = none →
      exec (.send code address verify data) s =
        .next (s.finishedErr (.failure x.last 0x191 0x008)
          { sess := (s.ctx.sess.cookieTaken.setWide16 (s.ctx.sess.cfg.cfgWide16 == 1)).setBusState .faulted
            link := (s.ctx.link.started s.ctx.sess.cfg
              (requestBytes (s.ctx.sess.request code.toNat address.toNat data 0) data) (frameLen (8 + data.length))
              (frameLen (8 + data.length))).noteReads ((x.polls ++ [x.last]).map fun w => (1, w))
            env := s.ctx.env.used x.answers }))
    ∧ ∀ (code param address : Word) (data rec : List Byte),
      srqError code.toNat param.toNat address.toNat data = none →
      rec = [byte code.toNat, byte param.toNat] ++ le16 (BitVec.ofNat 16 address.toNat) ++ data →
      s.ctx.sess.lastSrq ≠ some rec →
      exec (.srq code param address data) s =
        .next (s.finishedErr (.failure x.last 0x191 0x008)
          { sess := (({ s.ctx.sess with lastSrq := none }.cookieTaken).setWide16
              (s.ctx.sess.cfg.cfgWide16 == 1)).setBusState .faulted
            link := (s.ctx.link.started s.ctx.sess.cfg
              (requestBytes (s.ctx.sess.request 0x44 0x0100 rec 0) rec) (frameLen (8 + rec.length))
              (frameLen (8 + rec.length))).noteReads ((x.polls ++ [x.last]).map fun w => (1, w))
            env := s.ctx.env.used x.answers })

/-- `READ_BOUNDED` completes with the blocks of every module of every channel (41_bus_ops.md rule R187). -/
def Obligations.ReadBoundedCompletes : Prop :=
  ∀ (s : State) (address dlen : Word) (e : Exchange), s.busy = false → s.ctx.ok = true →
    s.ctx.canReadBounded address.toNat dlen.toNat e = true →
    exec (.readBounded address dlen) s =
        .next (s.finishedOk (s.ctx.boundedAnswer address.toNat dlen.toNat e) (s.ctx.boundedRead address.toNat dlen.toNat e))
    ∧ (s.ctx.boundedAnswer address.toNat dlen.toNat e).length = s.ctx.sess.channels * s.ctx.sess.chainLength * dlen.toNat

/-- `READ_STREAMING` completes: `K` pulls, the stop and its wait, then validation; the stash, empty at entry, is empty
at the end (41_bus_ops.md rule R188). -/
def Obligations.ReadStreamingCompletes : Prop :=
  ∀ (s : State) (address dlen : Word) (x : Streaming), s.busy = false → s.ctx.ok = true →
    s.ctx.canReadStreaming address.toNat dlen.toNat x = true →
    exec (.readStreaming address dlen) s =
        .next (s.finishedOk (s.ctx.streamingAnswer address.toNat dlen.toNat x)
          (s.ctx.streamingRead address.toNat dlen.toNat x))
    ∧ (s.ctx.streamingRead address.toNat dlen.toNat x).sess.stash = []

/-- `READ_COHERENT` completes when the OR and AND streams agree and so do the channels, with the sum of the response
counts and the OR stream of channel 0; the sum is `chain * nch` (41_bus_ops.md rule R189). -/
def Obligations.ReadCoherentCompletes : Prop :=
  ∀ (s : State) (address dlen : Word) (e : Exchange), s.busy = false → s.ctx.ok = true →
    s.ctx.canPoll address.toNat dlen.toNat e = true →
    coherent ((s.ctx.pollAnswer address.toNat dlen.toNat e).map fun r => r.2) s.ctx.sess.channels dlen.toNat = true →
    exec (.readCoherent address dlen) s =
      .next (s.finishedOk
        (le32 (BitVec.ofNat 32 (s.ctx.sess.chainLength * s.ctx.sess.channels))
          ++ (List.range dlen.toNat).map fun i => orByte ((s.ctx.pollAnswer address.toNat dlen.toNat e).map fun r => r.2) 0 i)
        (s.ctx.polledModules address.toNat dlen.toNat e))

/-- `CoherenceCheck` reports the first offset, channel by channel, at which OR and AND differ; only when there is none,
the first at which a channel differs from channel 0; and answers the OR stream of channel 0 when there is none either
(41_bus_ops.md rule R190). -/
def Obligations.CoherenceCheckRule : Prop :=
  ∀ (bodies : List (List Byte)) (n dlen : Nat) (c : Ctx),
    (∀ k i, k < n → i < dlen → orByte bodies k i ≠ andByte bodies k i →
      (∀ k' i', k' < n → i' < dlen → k' < k ∨ (k' = k ∧ i' < i) → orByte bodies k' i' = andByte bodies k' i') →
      coherenceCheck bodies n dlen c =
        .error (.raise (.coherenceError k i (orByte bodies k i).toNat (andByte bodies k i).toNat)) c)
    ∧ (∀ k i, (∀ k' i', k' < n → i' < dlen → orByte bodies k' i' = andByte bodies k' i') →
      k < n → i < dlen → orByte bodies k i ≠ orByte bodies 0 i →
      (∀ k' i', k' < n → i' < dlen → k' < k ∨ (k' = k ∧ i' < i) → orByte bodies k' i' = orByte bodies 0 i') →
      coherenceCheck bodies n dlen c =
        .error (.raise (.coherenceError k i (orByte bodies 0 i).toNat (256 + (orByte bodies k i).toNat))) c)
    ∧ ((∀ k i, k < n → i < dlen → orByte bodies k i = andByte bodies k i ∧ orByte bodies k i = orByte bodies 0 i) →
      coherenceCheck bodies n dlen c = .ok ((List.range dlen).map fun i => orByte bodies 0 i) c)

/-- `INITIALIZE` completes: the session it leaves is `Ready` with the chain and the version of the probe, `modules` is
`chain * nch`, and `nch` is the configured channel count (41_bus_ops.md rule R191). -/
def Obligations.InitializeCompletes : Prop :=
  ∀ (s : State) (x : Startup), s.busy = false → s.ctx.ok = true → s.ctx.canInitialize x = true →
    ∃ (chain : Half) (version : Byte),
      exec .initBus s = .next (s.finishedOk (le16 chain ++ [version]) (s.ctx.initialised x))
      ∧ (s.ctx.initialised x).sess = { s.ctx.sess with
          busState := .ready
          chain := some chain
          modules := some (chain.toNat * s.ctx.sess.cfg.channels.toNat)
          modVersion := some version
          stash := []
          lastSrq := none
          cookieCtr := if s.ctx.sess.cfg.skipCookie = 1 then s.ctx.sess.cookieCtr else s.ctx.sess.cookieCtr + 1
          nch := some s.ctx.sess.cfg.channels.toNat
          wide16 := s.ctx.sess.cfg.cfgWide16 == 1 }
      ∧ 1 ≤ chain.toNat ∧ 1 ≤ version.toNat
      ∧ ∀ r ∈ s.ctx.probeAnswer x, r.1 = chain

/-- The tests `INITIALIZE` makes on a probe with good frames, in this order: the lowest channel whose count differs, no
modules, incoherent versions (within a channel before across the channels), an unsupported version; `bus_state` stays `Initializing` (41_bus_ops.md rule R191,
60_exceptions.md rule R278 (g)). -/
def Obligations.InitializeTestsInOrder : Prop :=
  ∀ (s : State) (x : Startup), s.busy = false → s.ctx.ok = true → s.ctx.canProbe x = true →
    let rs := s.ctx.probeAnswer x
    let bodies := rs.map fun r => r.2
    let n := s.ctx.sess.cfg.channels.toNat
    let d := (s.ctx.startedUp x).polledModules 0 1 x.probe
    d.sess.busState = .initializing
    ∧ (∀ k, k < n → countOf rs k ≠ countOf rs 0 → (∀ k', k' < k → countOf rs k' = countOf rs 0) →
      exec .initBus s = .next (s.finishedErr (.channelMismatch k (countOf rs 0).toNat (countOf rs k).toNat) d))
    ∧ ((∀ k, k < n → countOf rs k = 0) → exec .initBus s = .next (s.finishedErr (.noModulesDetected n) d))
    ∧ ((∀ k, k < n → countOf rs k = countOf rs 0) → countOf rs 0 ≠ 0 →
      (∀ k, k < n → orByte bodies k 0 ≠ andByte bodies k 0 →
        (∀ k', k' < k → orByte bodies k' 0 = andByte bodies k' 0) →
        exec .initBus s = .next (s.finishedErr
          (.coherenceError k 0 (orByte bodies k 0).toNat (andByte bodies k 0).toNat) d))
      ∧ ∀ k, k < n → (∀ k', k' < n → orByte bodies k' 0 = andByte bodies k' 0) →
        orByte bodies k 0 ≠ orByte bodies 0 0 → (∀ k', k' < k → orByte bodies k' 0 = orByte bodies 0 0) →
        exec .initBus s = .next (s.finishedErr
          (.coherenceError k 0 (orByte bodies 0 0).toNat (256 + (orByte bodies k 0).toNat)) d))
    ∧ ((∀ k, k < n → countOf rs k = countOf rs 0) → countOf rs 0 ≠ 0 → coherent bodies n 1 = true →
      (orByte bodies 0 0).toNat < 1 → exec .initBus s = .next (s.finishedErr (.unsupportedVersion 0 1) d))

/-! ### Module SRQ Protocol operations -/

/-- `SRQ` completes. A new record is written to the mailbox by one `CODE_WRITE` and remembered; a record equal to the
last one is not sent again, the cookie does not advance, and the only transactions are the strobe and the polls. When
the mailbox write of a new record ends with an error, the operation ends with it: `last_srq` is `none`, and the strobe
is not issued (42_srq_ops.md rule R232). -/
def Obligations.SrqCompletes : Prop :=
  ∀ (s : State) (code param address : Word) (data rec : List Byte), s.busy = false → s.ctx.ok = true →
    rec = [byte code.toNat, byte param.toNat] ++ le16 (BitVec.ofNat 16 address.toNat) ++ data →
    (∀ x : SrqAnswers, s.ctx.canSrq code.toNat param.toNat address.toNat data x = true →
      exec (.srq code param address data) s =
          .next (s.finishedOk [] (s.ctx.afterSrq code.toNat param.toNat address.toNat data x))
      ∧ (s.ctx.afterSrq code.toNat param.toNat address.toNat data x).sess.lastSrq = some rec
      ∧ (s.ctx.sess.lastSrq = some rec →
        (s.ctx.afterSrq code.toNat param.toNat address.toNat data x).sess = s.ctx.sess
        ∧ (s.ctx.afterSrq code.toNat param.toNat address.toNat data x).trace =
            s.ctx.trace ++ [.write 0 0x2] ++ (x.strobe.polls ++ [x.strobe.last]).map (fun w => Txn.read 1 w)))
    ∧ ∀ (e : Err) (c : Ctx), s.ctx.sess.admits = true → srqError code.toNat param.toNat address.toNat data = none →
      s.ctx.sess.lastSrq ≠ some rec →
      send 0x44 0x0100 0 rec { s.ctx with sess := { s.ctx.sess with lastSrq := none } } = .error (.raise e) c →
      exec (.srq code param address data) s = .next (s.finishedErr e c)
      ∧ c.sess.lastSrq = none
      ∧ ∃ new, c.trace = s.ctx.trace ++ new ∧ Txn.write 0 0x2 ∉ new

/-- `SRQ_SYNC` completes: in synchronous mode the record carries the flag bit; in legacy mode the delay is waited out
and the run-procedure request is followed by a `WAIT`; then, unless skipped, every module reports success
(42_srq_ops.md rule R233). -/
def Obligations.SrqSyncCompletes : Prop :=
  ∀ (s : State) (code param address delay : Word) (data : List Byte) (x : SyncAnswers), s.busy = false → s.ctx.ok = true →
    s.ctx.canSync code.toNat param.toNat address.toNat delay.toNat data x = true →
    exec (.srqSync code param address delay data) s =
      .next (s.finishedOk [] (s.ctx.afterSync code.toNat param.toNat address.toNat data x))

/-- `SRQ_SYNC` reports the first module, in channel-then-wire order, whose `srq_status` is not success, and `PROGRAM`
the first whose `code_checksum` is not that of the image; nothing is undone and `bus_state` stays `Ready`
(42_srq_ops.md rules R233, R236; 60_exceptions.md rules R269, R270, R278 (h)). -/
def Obligations.FirstBadModuleReported : Prop :=
  ∀ (s : State) (k m : Nat), s.busy = false → s.ctx.ok = true →
    (∀ (code param address delay : Word) (data : List Byte) (x : SyncAnswers),
      s.ctx.sess.admits = true → s.ctx.sess.cfg.skipStatusCheck = 0 →
      s.ctx.canSyncRequest code.toNat param.toNat address.toNat delay.toNat data x = true →
      (s.ctx.syncRequested code.toNat param.toNat address.toNat data x).firstModule x.status srqSucceeded = some (k, m) →
      exec (.srqSync code param address delay data) s =
        .next (s.finishedErr
          (.srqFailed ((s.ctx.syncRequested code.toNat param.toNat address.toNat data x).statusOf x.status k m).srqStatus.toNat
            k m)
          (s.ctx.afterSync code.toNat param.toNat address.toNat data x))
      ∧ (s.ctx.afterSync code.toNat param.toNat address.toNat data x).sess.busState = .ready)
    ∧ (∀ (address : Word) (data : List Byte) (xs : List SyncAnswers) (st : StatusAnswers),
      s.ctx.canProgramChunksOf address.toNat data xs st = true →
      (s.ctx.afterChunks address.toNat 0 (imageChunks data) xs).firstModule st (programmedWith (params.cksum data)) =
        some (k, m) →
      exec (.program address data) s =
        .next (s.finishedErr
          (.checksumMismatch (params.cksum data)
            ((s.ctx.afterChunks address.toNat 0 (imageChunks data) xs).statusOf st k m).codeChecksum k m)
          (s.ctx.programmed address.toNat data xs st))
      ∧ (s.ctx.programmed address.toNat data xs st).sess.busState = .ready)

/-- `PROGRAM` completes: the chunks of the image, 128 bytes each but the last, are sent one after the other, the first
as erase-and-write and the others as write-only, and every module then reports the checksum (42_srq_ops.md rule
R236). -/
def Obligations.ProgramCompletes : Prop :=
  ∀ (s : State) (address : Word) (data : List Byte) (xs : List SyncAnswers) (st : StatusAnswers), s.busy = false →
    s.ctx.ok = true → s.ctx.canProgram address.toNat data xs st = true →
    exec (.program address data) s =
        .next (s.finishedOk (le32 (params.cksum data)) (s.ctx.programmed address.toNat data xs st))
    ∧ (imageChunks data).flatten = data ∧ (imageChunks data).length = ceilDiv data.length 128
    ∧ (∀ ch ∈ (imageChunks data).dropLast, ch.length = 128) ∧ ∀ ch ∈ imageChunks data, 1 ≤ ch.length ∧ ch.length ≤ 128

/-- `READ_MODULE_STATUS` completes, by the bounded read where the response fits the receive buffer and by the streaming
read where it does not, with 8 bytes for every module of every channel (42_srq_ops.md rule R234). -/
def Obligations.ReadModuleStatusCompletes : Prop :=
  ∀ (s : State) (x : StatusAnswers), s.busy = false → s.ctx.ok = true → s.ctx.canReadStatus x = true →
    exec .readModuleStatus s = .next (s.finishedOk (s.ctx.statusAnswer x) (s.ctx.afterStatus x))
    ∧ (s.ctx.statusAnswer x).length = s.ctx.sess.channels * s.ctx.sess.chainLength * 8

/-- The checksum: its formula, that an appended 0xFF does not change it, and that it depends on the order of the bytes
(42_srq_ops.md rule R235). -/
def Obligations.ChecksumRule : Prop :=
  (∀ data : List Byte, (params.cksum data).toNat =
    (5381 + ((List.range data.length).map fun i => (255 - (byteAt data i).toNat) * 33 ^ i).sum) % 4294967296)
  ∧ (∀ data : List Byte, params.cksum (data ++ [0xFF]) = params.cksum data)
  ∧ params.cksum [] = 5381 ∧ params.cksum [0x00] = 5636 ∧ params.cksum [0xFE, 0xFF] = 5382
  ∧ params.cksum [0xFF, 0xFE] = 5414

/-! ### The modules -/

/-- `CODE_ENUM`, `CODE_WAIT` and `CODE_TEST` touch no memory; the first two answer with empty bodies, the third with the
payload unchanged, on every configured channel (20_memory.md rule R78). That `CODE_ENUM` and `CODE_WAIT`, of which the
spec says only that they carry no data and describes no memory access, leave module memory and flash unchanged is the
model's choice (log entry 33); so is that the bodies are kept as the last reply, one for each channel of `nch`, none
while it is `none` (log entries 12, 13). -/
def Obligations.PlainCodesComplete : Prop :=
  ∀ (s : State) (h : CmdHeader) (payload : List Byte),
    exec (.codeEnum h) s =
      .next { s with mods := { s.mods with reply := List.replicate (s.ctx.sess.nch.getD 0) [] } }
    ∧ exec (.codeWait h) s =
      .next { s with mods := { s.mods with reply := List.replicate (s.ctx.sess.nch.getD 0) [] } }
    ∧ exec (.codeTest h payload) s =
      .next { s with mods := { s.mods with reply := List.replicate (s.ctx.sess.nch.getD 0) payload } }

/-- `CODE_WRITE` stores its payload from the address on in every module of every configured channel and leaves every
other byte of module memory alone; the response body of a channel is as long as the payload (20_memory.md rule R78). The
model's choice: bytes that nothing has fixed are free constants (log entry 11), the bodies are kept as the last reply,
their content free (entry 12), one for each channel of `nch`, none while it is `none` (entry 13), an unaligned address is
like any other (entry 31), and past 0xFFFF, where the modules' reaction is any value, nothing is kept of what was known
of them (entry 15). -/
def Obligations.CodeWriteCompletes : Prop :=
  ∀ (s : State) (h : CmdHeader) (payload : List Byte), ∃ t, exec (.codeWrite h payload) s = .next t
    ∧ s.onlyModulesChange t ∧ t.mods.request = s.mods.request
    ∧ t.mods.reply.map List.length = List.replicate (s.ctx.sess.nch.getD 0) payload.length
    ∧ (h.address.toNat + payload.length ≤ 65536 →
      t.mods.flash = s.mods.flash ∧ t.mods.epoch = s.mods.epoch
      ∧ (∀ c pos i, c < s.ctx.sess.nch.getD 0 → i < payload.length →
          t.mods.memByte c pos (h.address.toNat + i) = byteAt payload i)
      ∧ ∀ c pos a, s.ctx.sess.nch.getD 0 ≤ c ∨ a < h.address.toNat ∨ h.address.toNat + payload.length ≤ a →
          t.mods.memByte c pos a = s.mods.memByte c pos a)
    ∧ (65536 < h.address.toNat + payload.length →
      t.mods.mem = [] ∧ t.mods.flash = [] ∧ t.mods.epoch = s.mods.epoch + 1)

/-- `CODE_READ` touches no memory and answers, on every configured channel, with one block of `len_minus_one + 1` bytes
of memory per module, in the order on the wire (20_memory.md rule R78). The model's choice: bytes
that nothing has fixed are free constants (log entry 11), the bodies are kept as the last reply (entry 12), and the
channels are those of `nch`, with as many modules as `mods.chains` says (entry 13). -/
def Obligations.CodeReadCompletes : Prop :=
  ∀ (s : State) (h : CmdHeader), ∃ reply,
    exec (.codeRead h) s = .next { s with mods := { s.mods with reply := reply } }
    ∧ reply.length = s.ctx.sess.nch.getD 0
    ∧ ∀ c, c < s.ctx.sess.nch.getD 0 →
        (reply.getD c []).length = s.mods.chains.getD c 0 * (h.lm1.toNat + 1)
        ∧ ∀ pos i, pos < s.mods.chains.getD c 0 → i < h.lm1.toNat + 1 →
            byteAt (reply.getD c []) (pos * (h.lm1.toNat + 1) + i) = s.mods.memByte c pos (h.address.toNat + i)

/-- `CODE_POLL` touches no memory and folds each OR/AND pair of the payload with the same sample of the same byte of
every module of the channel (20_memory.md rule R78). The model's choice: bytes that nothing has fixed are free constants
(log entry 11), the bodies are kept as the last reply, with a free byte where a last one has no partner (entry 12), and
the channels are those of `nch`, with as many modules as `mods.chains` says (entry 13). -/
def Obligations.CodePollCompletes : Prop :=
  ∀ (s : State) (h : CmdHeader) (payload : List Byte), ∃ reply,
    exec (.codePoll h payload) s = .next { s with mods := { s.mods with reply := reply } }
    ∧ reply.length = s.ctx.sess.nch.getD 0
    ∧ ∀ c, c < s.ctx.sess.nch.getD 0 →
        (reply.getD c []).length = payload.length
        ∧ ∀ j, 2 * j + 1 < payload.length →
            byteAt (reply.getD c []) (2 * j) =
              (List.range (s.mods.chains.getD c 0)).foldl
                (fun v pos => v ||| s.mods.memByte c pos (h.address.toNat + j)) (byteAt payload (2 * j))
            ∧ byteAt (reply.getD c []) (2 * j + 1) =
              (List.range (s.mods.chains.getD c 0)).foldl
                (fun v pos => v &&& s.mods.memByte c pos (h.address.toNat + j)) (byteAt payload (2 * j + 1))

/-- Why the coherent read works: with the masks `00 FF` and at least one module, the OR and the AND byte of an offset
are equal exactly when every module's sample is the same (20_memory.md rule R86, 41_bus_ops.md rule R190; that a byte which nothing has fixed
is a free constant is the model's choice, log entry 11). -/
def Obligations.PollDetectsDifference : Prop :=
  ∀ (m : Modules) (c k addr dlen i : Nat), 1 ≤ k → i < dlen →
    (byteAt (m.foldPairs c k addr (pollMasks dlen)) (2 * i) = byteAt (m.foldPairs c k addr (pollMasks dlen)) (2 * i + 1)
      ↔ ∀ pos, pos < k → m.memByte c pos (addr + i) = m.memByte c 0 (addr + i))

/-- The three SRQ requests at the modules. Erase-and-write and write store the payload's first `param + 1` bytes at the
address of the flash of every configured channel; write leaves every other known flash byte alone. The record is kept as
the last request. What the spec does not say of them is the model's choice (log entries 11, 13 and 14). -/
def Obligations.SrqRequestsComplete : Prop :=
  ∀ (s : State) (r : SrqFields),
    (∃ t, exec (.srqEraseWrite r) s = .next t ∧ s.onlyModulesChange t ∧ t.mods.reply = s.mods.reply
      ∧ t.mods.request = some (encode (.srqEraseWrite r))
      ∧ (r.param.toNat + 1 ≤ r.payload.length → r.address.toNat + r.param.toNat + 1 ≤ 65536 →
        t.mods.mem = s.mods.mem
        ∧ ∀ c i, c < s.ctx.sess.nch.getD 0 → i < r.param.toNat + 1 →
            Memory.readAt t.mods.flash c (r.address.toNat + i) = r.payload[i]?))
    ∧ (∃ t, exec (.srqWrite r) s = .next t ∧ s.onlyModulesChange t ∧ t.mods.reply = s.mods.reply
      ∧ t.mods.request = some (encode (.srqWrite r))
      ∧ (r.param.toNat + 1 ≤ r.payload.length → r.address.toNat + r.param.toNat + 1 ≤ 65536 →
        t.mods.mem = s.mods.mem ∧ t.mods.epoch = s.mods.epoch
        ∧ (∀ c i, c < s.ctx.sess.nch.getD 0 → i < r.param.toNat + 1 →
            Memory.readAt t.mods.flash c (r.address.toNat + i) = r.payload[i]?)
        ∧ ∀ c a, s.ctx.sess.nch.getD 0 ≤ c ∨ a < r.address.toNat ∨ r.address.toNat + r.param.toNat + 1 ≤ a →
            Memory.readAt t.mods.flash c a = Memory.readAt s.mods.flash c a))
    ∧ ∃ t, exec (.srqRunProc r) s = .next t ∧ s.onlyModulesChange t ∧ t.mods.reply = s.mods.reply
      ∧ t.mods.request = some (encode (.srqRunProc r))
      ∧ t.mods.mem = [] ∧ t.mods.flash = [] ∧ t.mods.epoch = s.mods.epoch + 1
end

