-- ==== Sys2Proof/Laws/Bytes.lean ====
section
/-! SUPPORT. Little-endian quantities and the length helpers (00_scope.md rule R6, 20_memory.md rule R72). -/

namespace Sys2Proof.Machine

@[simp] theorem byte_toNat (n : Nat) : (byte n).toNat = n % 256 := by simp [byte]

@[simp] theorem le32_length (v : Word) : (le32 v).length = 4 := rfl
@[simp] theorem le16_length (v : Half) : (le16 v).length = 2 := rfl

theorem half_toNat (a b : Byte) : (half a b).toNat = a.toNat + 256 * b.toNat := by
  have := a.isLt; have := b.isLt
  simp [half]; omega

theorem word_toNat (a b c d : Byte) :
    (word a b c d).toNat = a.toNat + 256 * b.toNat + 65536 * c.toNat + 16777216 * d.toNat := by
  have := a.isLt; have := b.isLt; have := c.isLt; have := d.isLt
  simp [word]; omega

/-- Reading back the bytes of a half-word gives it. -/
@[simp] theorem half_of_le16 (v : Half) : half (byte v.toNat) (byte (v.toNat / 256)) = v := by
  apply BitVec.eq_of_toNat_eq
  have := v.isLt
  rw [half_toNat]; simp; omega

/-- Reading back the bytes of a word gives it. -/
@[simp] theorem word_of_le32 (v : Word) :
    word (byte v.toNat) (byte (v.toNat / 256)) (byte (v.toNat / 65536)) (byte (v.toNat / 16777216)) = v := by
  apply BitVec.eq_of_toNat_eq
  have := v.isLt
  rw [word_toNat]; simp; omega

/-- The bytes of a half-word put together are those it was made of. -/
@[simp] theorem le16_of_half (a b : Byte) : le16 (half a b) = [a, b] := by
  have := a.isLt; have := b.isLt
  simp only [le16, half_toNat, List.cons.injEq, and_true]
  constructor <;> apply BitVec.eq_of_toNat_eq <;> simp <;> omega

/-- The bytes of a word put together are those it was made of. -/
@[simp] theorem le32_of_word (a b c d : Byte) : le32 (word a b c d) = [a, b, c, d] := by
  have := a.isLt; have := b.isLt; have := c.isLt; have := d.isLt
  simp only [le32, word_toNat, List.cons.injEq, and_true]
  refine ⟨?_, ?_, ?_, ?_⟩ <;> apply BitVec.eq_of_toNat_eq <;> simp <;> omega

@[simp] theorem bytesOf_length (ws : List Word) : (bytesOf ws).length = 4 * ws.length := by
  induction ws with
  | nil => rfl
  | cons w ws ih => simp [bytesOf, ih]; omega

@[simp] theorem bytesOf_append (a b : List Word) : bytesOf (a ++ b) = bytesOf a ++ bytesOf b := by
  induction a with
  | nil => rfl
  | cons w ws ih => simp [bytesOf, ih]

theorem up4_eq (n : Nat) : up4 n = 4 * ((n + 3) / 4) := rfl
theorem le_up4 (n : Nat) : n ≤ up4 n := by rw [up4_eq]; omega
theorem up4_div (n : Nat) : up4 n / 4 = (n + 3) / 4 := by rw [up4_eq]; omega
theorem frameLen_eq (m : Nat) : frameLen m = m + m % 2 + 2 := rfl

/-- The words of a byte string hold the string and then 0x00 up to a whole word (20_memory.md rule R73). -/
theorem bytesOf_wordsOf (b : List Byte) : bytesOf (wordsOf b) = b ++ zeros (up4 b.length - b.length) := by
  induction b using wordsOf.induct with
  | case1 => rfl
  | case2 a => simp [wordsOf, bytesOf, up4_eq, zeros, List.replicate]
  | case3 a b => simp [wordsOf, bytesOf, up4_eq, zeros, List.replicate]
  | case4 a b c => simp [wordsOf, bytesOf, up4_eq, zeros]
  | case5 a b c d rest ih =>
    simp only [wordsOf, bytesOf, le32_of_word, ih, List.cons_append, List.nil_append, List.length_cons]
    congr 6
    rw [up4_eq, up4_eq]; omega

theorem wordsOf_length (b : List Byte) : (wordsOf b).length = (b.length + 3) / 4 := by
  induction b using wordsOf.induct with
  | case1 => rfl
  | case2 a => simp [wordsOf]
  | case3 a b => simp [wordsOf]
  | case4 a b c => simp [wordsOf]
  | case5 a b c d rest ih => simp [wordsOf, ih]; omega

theorem halvesOf_length (b : List Byte) : (halvesOf b).length = (b.length + 1) / 2 := by
  induction b using halvesOf.induct with
  | case1 => rfl
  | case2 a => simp [halvesOf]
  | case3 a b rest ih => simp [halvesOf, ih]; omega

/-- The half-words of a byte string hold the string and then 0x00 up to a whole half-word (20_memory.md rule R73). -/
theorem flatten_halvesOf (b : List Byte) :
    ((halvesOf b).map le16).flatten = b ++ zeros (even b.length - b.length) := by
  induction b using halvesOf.induct with
  | case1 => rfl
  | case2 a => simp [halvesOf, even, zeros]
  | case3 a b rest ih =>
    simp only [halvesOf, List.map_cons, List.flatten_cons, le16_of_half, ih, List.cons_append, List.nil_append,
      List.length_cons]
    congr 4
    unfold even; omega

@[simp] theorem pairs_length (n m : Nat) : (pairs n m).length = n * m := by
  simp [pairs, List.length_flatMap]

theorem mem_pairs (n m c i : Nat) : (c, i) ∈ pairs n m ↔ c < n ∧ i < m := by
  simp [pairs]

theorem channelSlices_length (b : List Byte) (size n : Nat) : (channelSlices b size n).length = n := by
  simp [channelSlices]

/-- The slices put together are the first `size * n` bytes (40_device_ops.md rule R150). -/
theorem flatten_channelSlices (b : List Byte) (size n : Nat) (h : size * n ≤ b.length) :
    (channelSlices b size n).flatten = b.take (size * n) := by
  induction n with
  | zero => simp [channelSlices]
  | succ n ih =>
    have h1 : size * n ≤ b.length := by
      have : size * n ≤ size * (n + 1) := Nat.mul_le_mul_left _ (Nat.le_succ n)
      omega
    have ih := ih h1
    simp only [channelSlices] at ih ⊢
    rw [List.range_succ, List.map_append, List.flatten_append, ih]
    simp only [List.map_cons, List.map_nil, List.flatten_cons, List.flatten_nil, List.append_nil, slice]
    have e : (n + 1) * size - n * size = size := by rw [Nat.succ_mul]; omega
    rw [e, Nat.mul_comm n size, Nat.mul_succ]
    exact (List.take_add ..).symm

end Sys2Proof.Machine
end

