-- ==== Sys2Proof/Laws/Memory.lean ====
section
/-! SUPPORT. The memory laws: read after write, and every memory operation keeps the canonical form. -/

namespace Sys2Proof.Machine

/-- A byte just written reads back. -/
@[simp] theorem Memory.read_write_self (m : Memory) (a : Nat) (v : Byte) :
    Memory.read (Memory.write m a v) a = some v := by
  induction m with
  | nil => simp [Memory.write, Memory.read]
  | cons kb m ih =>
    obtain ⟨k, b⟩ := kb
    simp only [Memory.write]
    split
    · simp [Memory.read]
    · split
      · simp [Memory.read]
      · simp only [Memory.read, ih]; split
        · next h => simp at *; omega
        · rfl

/-- A write leaves every other address alone. -/
theorem Memory.read_write_other (m : Memory) (a k : Nat) (v : Byte) (h : k ≠ a) :
    Memory.read (Memory.write m a v) k = Memory.read m k := by
  induction m with
  | nil => simp [Memory.write, Memory.read, h]
  | cons jb m ih =>
    obtain ⟨j, b⟩ := jb
    simp only [Memory.write]
    split
    · simp [Memory.read, h]
    · split
      · next h2 => subst h2; simp [Memory.read, h]
      · simp only [Memory.read, ih]

/-- Every address listed after a write is the one written or was listed before. -/
theorem Memory.mem_write (m : Memory) (a : Nat) (v : Byte) (x : Host.Cell) (h : x ∈ Memory.write m a v) :
    x.1 = a ∨ x ∈ m := by
  induction m with
  | nil => simp [Memory.write] at h; exact .inl (by rw [h])
  | cons kb m ih =>
    obtain ⟨k, b⟩ := kb
    simp only [Memory.write] at h
    split at h
    · simp only [List.mem_cons] at h ⊢
      rcases h with h | h | h
      · exact .inl (by rw [h])
      · exact .inr (.inl h)
      · exact .inr (.inr h)
    · split at h
      · simp only [List.mem_cons] at h ⊢
        rcases h with h | h
        · exact .inl (by rw [h])
        · exact .inr (.inr h)
      · simp only [List.mem_cons] at h ⊢
        rcases h with h | h
        · exact .inr (.inl h)
        · exact (ih h).imp_right .inr

/-- A write keeps the canonical form. -/
theorem Memory.write_wf (m : Memory) (a : Nat) (v : Byte) (h : Memory.wf m) : Memory.wf (Memory.write m a v) := by
  induction m with
  | nil => simp [Memory.write, Memory.wf]
  | cons kb m ih =>
    obtain ⟨k, b⟩ := kb
    simp only [Memory.wf, List.pairwise_cons] at h
    simp only [Memory.write]
    split
    · next h1 =>
      simp only [Memory.wf, List.pairwise_cons, List.mem_cons]
      refine ⟨?_, h.1, h.2⟩
      rintro x (rfl | hx)
      · exact h1
      · exact Nat.lt_trans h1 (h.1 x hx)
    · split
      · next h1 h2 =>
        subst h2
        simp only [Memory.wf, List.pairwise_cons]
        exact ⟨fun x hx => h.1 x hx, h.2⟩
      · next h1 h2 =>
        simp only [Memory.wf, List.pairwise_cons]
        refine ⟨fun x hx => ?_, ih h.2⟩
        rcases Memory.mem_write m a v x hx with e | hm
        · rw [e]; omega
        · exact h.1 x hm

/-- Storing a byte string keeps the canonical form. -/
theorem Memory.writeBytes_wf (b : List Byte) (m : Memory) (a : Nat) (h : Memory.wf m) :
    Memory.wf (Memory.writeBytes m a b) := by
  induction b generalizing m a with
  | nil => exact h
  | cons x xs ih => exact ih _ _ (Memory.write_wf m a x h)

/-- Every address listed after storing a byte string lies in it or was listed before. -/
theorem Memory.mem_writeBytes (b : List Byte) (m : Memory) (a : Nat) (x : Host.Cell)
    (h : x ∈ Memory.writeBytes m a b) : (a ≤ x.1 ∧ x.1 < a + b.length) ∨ x ∈ m := by
  induction b generalizing m a with
  | nil => exact .inr h
  | cons y ys ih =>
    rcases ih _ _ h with h | h
    · exact .inl (by simp only [List.length_cons]; omega)
    · rcases Memory.mem_write m a y x h with e | hm
      · exact .inl (by simp only [List.length_cons]; omega)
      · exact .inr hm

/-- Storing a byte string leaves the addresses outside it alone. -/
theorem Memory.read_writeBytes_outside (b : List Byte) (m : Memory) (a k : Nat) (h : k < a ∨ a + b.length ≤ k) :
    Memory.read (Memory.writeBytes m a b) k = Memory.read m k := by
  induction b generalizing m a with
  | nil => rfl
  | cons x xs ih =>
    simp only [List.length_cons] at h
    rw [Memory.writeBytes, ih _ _ (by omega), Memory.read_write_other _ _ _ _ (by omega)]

/-- A stored byte string reads back. -/
theorem Memory.read_writeBytes_inside (b : List Byte) (m : Memory) (a i : Nat) (h : i < b.length) :
    Memory.read (Memory.writeBytes m a b) (a + i) = b[i]? := by
  induction b generalizing m a i with
  | nil => simp at h
  | cons x xs ih =>
    simp only [Memory.writeBytes]
    cases i with
    | zero => rw [Memory.read_writeBytes_outside _ _ _ _ (by omega)]; simp
    | succ i =>
      have := ih (Memory.write m a x) (a + 1) i (by simpa using h)
      rw [show a + (i + 1) = a + 1 + i by omega, this]; simp

/-- Storing one string after another is storing them together. -/
theorem Memory.writeBytes_append (b c : List Byte) (m : Memory) (a : Nat) :
    Memory.writeBytes m a (b ++ c) = Memory.writeBytes (Memory.writeBytes m a b) (a + b.length) c := by
  induction b generalizing m a with
  | nil => rfl
  | cons x xs ih =>
    simp only [List.cons_append, Memory.writeBytes, ih, List.length_cons]
    congr 1; omega

/-- Bytes that all have a value are all known. -/
theorem Memory.known_length_le (m : Memory) (n a : Nat) : (Memory.known m a n).length ≤ n := by
  induction n generalizing a with
  | zero => simp [Memory.known]
  | succ n ih =>
    simp only [Memory.known]
    split
    · have := ih (a + 1); simp; omega
    · simp

/-- After reset no byte of any of the three memories is listed. -/
theorem Memory.reset_wf :
    Memory.wf State.reset.ctx.link.win ∧ Memory.wf State.reset.mods.mem ∧ Memory.wf State.reset.mods.flash :=
  ⟨List.Pairwise.nil, List.Pairwise.nil, List.Pairwise.nil⟩

end Sys2Proof.Machine
end

