-- ==== Sys2Proof/Laws/Config.lean ====
section
/-! SUPPORT. The value of each parameter of the reference configuration (00_scope.md rule R5), as rewriting rules. -/

namespace Sys2Proof.Config

@[simp] theorem params_wordBytes : params.wordBytes = 4 := rfl
@[simp] theorem params_headerBytes : params.headerBytes = 8 := rfl
@[simp] theorem params_flagPayload : params.flagPayload = 0x40 := rfl
@[simp] theorem params_flagMulti : params.flagMulti = 0x80 := rfl
@[simp] theorem params_codeEnum : params.codeEnum = 0x01 := rfl
@[simp] theorem params_codeWait : params.codeWait = 0x02 := rfl
@[simp] theorem params_codeTest : params.codeTest = 0x43 := rfl
@[simp] theorem params_codeWrite : params.codeWrite = 0x44 := rfl
@[simp] theorem params_codePoll : params.codePoll = 0x45 := rfl
@[simp] theorem params_codeRead : params.codeRead = 0x86 := rfl
@[simp] theorem params_maxDataLen : params.maxDataLen = 256 := rfl
@[simp] theorem params_maxCmdLen : params.maxCmdLen = 264 := rfl
@[simp] theorem params_srqSyncFlag : params.srqSyncFlag = 0x80 := rfl
@[simp] theorem params_srqEraseWrite : params.srqEraseWrite = 0x01 := rfl
@[simp] theorem params_srqWrite : params.srqWrite = 0x02 := rfl
@[simp] theorem params_srqRunProc : params.srqRunProc = 0x03 := rfl
@[simp] theorem params_srqOk : params.srqOk = 0x00 := rfl
@[simp] theorem params_srqHdrBytes : params.srqHdrBytes = 4 := rfl
@[simp] theorem params_srqChunk : params.srqChunk = 128 := rfl
@[simp] theorem params_srqMboxAddr : params.srqMboxAddr = 0x0100 := rfl
@[simp] theorem params_modStatusAddr : params.modStatusAddr = 0x0000 := rfl
@[simp] theorem params_statusLen : params.statusLen = 8 := rfl
@[simp] theorem params_minVersion : params.minVersion = 1 := rfl
@[simp] theorem params_syncVersionThreshold : params.syncVersionThreshold = 1 := rfl
@[simp] theorem params_nchMax : params.nchMax = 8 := rfl
@[simp] theorem params_regTrigger : params.regTrigger = 0 := rfl
@[simp] theorem params_regStatus : params.regStatus = 1 := rfl
@[simp] theorem params_regChCtl : params.regChCtl = 2 := rfl
@[simp] theorem params_regClkCtl : params.regClkCtl = 3 := rfl
@[simp] theorem params_regRstCtl : params.regRstCtl = 4 := rfl
@[simp] theorem params_regTxCtl : params.regTxCtl = 5 := rfl
@[simp] theorem params_regRxCtl : params.regRxCtl = 6 := rfl
@[simp] theorem params_cmdBuf : params.cmdBuf = 0x100 := rfl
@[simp] theorem params_cmdWords : params.cmdWords = 66 := rfl
@[simp] theorem params_rxBuf : params.rxBuf = 0x400 := rfl
@[simp] theorem params_rxCap : params.rxCap = 4096 := rfl
@[simp] theorem params_winWords : params.winWords = 0x800 := rfl
@[simp] theorem params_chunkSize : params.chunkSize = 256 := rfl
@[simp] theorem params_noTimeout : params.noTimeout = 0xFFFFFFFF := rfl
@[simp] theorem params_stReady : params.stReady = 0x001 := rfl
@[simp] theorem params_stResetActive : params.stResetActive = 0x002 := rfl
@[simp] theorem params_stHold : params.stHold = 0x004 := rfl
@[simp] theorem params_stActive : params.stActive = 0x008 := rfl
@[simp] theorem params_stTxDone : params.stTxDone = 0x010 := rfl
@[simp] theorem params_stStopping : params.stStopping = 0x020 := rfl
@[simp] theorem params_stError : params.stError = 0x040 := rfl
@[simp] theorem params_stDataRdy : params.stDataRdy = 0x080 := rfl
@[simp] theorem params_stCompleted : params.stCompleted = 0x100 := rfl
@[simp] theorem params_stPaused : params.stPaused = 0x200 := rfl
@[simp] theorem params_stRdMisaligned : params.stRdMisaligned = 0x400 := rfl
@[simp] theorem params_stUnderrun : params.stUnderrun = 0x800 := rfl
@[simp] theorem params_cksum : params.cksum = Machine.refCksum := rfl

end Sys2Proof.Config
end

