-- ==== Sys2Proof/Laws/State.lean ====
section
/-! SUPPORT. One lemma per field per update of the state: what each named update leaves and what it writes. -/

namespace Sys2Proof.Machine

/-! `Session.setBusState` -/

@[simp] theorem Session.setBusState_busState (r : Session) (b : BusState) : (r.setBusState b).busState = b := rfl
@[simp] theorem Session.setBusState_chain (r : Session) (b : BusState) : (r.setBusState b).chain = r.chain := rfl
@[simp] theorem Session.setBusState_modules (r : Session) (b : BusState) : (r.setBusState b).modules = r.modules := rfl
@[simp] theorem Session.setBusState_modVersion (r : Session) (b : BusState) : (r.setBusState b).modVersion = r.modVersion := rfl
@[simp] theorem Session.setBusState_stash (r : Session) (b : BusState) : (r.setBusState b).stash = r.stash := rfl
@[simp] theorem Session.setBusState_lastSrq (r : Session) (b : BusState) : (r.setBusState b).lastSrq = r.lastSrq := rfl
@[simp] theorem Session.setBusState_cookieCtr (r : Session) (b : BusState) : (r.setBusState b).cookieCtr = r.cookieCtr := rfl
@[simp] theorem Session.setBusState_cfg (r : Session) (b : BusState) : (r.setBusState b).cfg = r.cfg := rfl
@[simp] theorem Session.setBusState_cfgValid (r : Session) (b : BusState) : (r.setBusState b).cfgValid = r.cfgValid := rfl
@[simp] theorem Session.setBusState_nch (r : Session) (b : BusState) : (r.setBusState b).nch = r.nch := rfl
@[simp] theorem Session.setBusState_wide16 (r : Session) (b : BusState) : (r.setBusState b).wide16 = r.wide16 := rfl

/-! `Session.setStash` -/

@[simp] theorem Session.setStash_busState (r : Session) (b : List Byte) : (r.setStash b).busState = r.busState := rfl
@[simp] theorem Session.setStash_chain (r : Session) (b : List Byte) : (r.setStash b).chain = r.chain := rfl
@[simp] theorem Session.setStash_modules (r : Session) (b : List Byte) : (r.setStash b).modules = r.modules := rfl
@[simp] theorem Session.setStash_modVersion (r : Session) (b : List Byte) : (r.setStash b).modVersion = r.modVersion := rfl
@[simp] theorem Session.setStash_stash (r : Session) (b : List Byte) : (r.setStash b).stash = b := rfl
@[simp] theorem Session.setStash_lastSrq (r : Session) (b : List Byte) : (r.setStash b).lastSrq = r.lastSrq := rfl
@[simp] theorem Session.setStash_cookieCtr (r : Session) (b : List Byte) : (r.setStash b).cookieCtr = r.cookieCtr := rfl
@[simp] theorem Session.setStash_cfg (r : Session) (b : List Byte) : (r.setStash b).cfg = r.cfg := rfl
@[simp] theorem Session.setStash_cfgValid (r : Session) (b : List Byte) : (r.setStash b).cfgValid = r.cfgValid := rfl
@[simp] theorem Session.setStash_nch (r : Session) (b : List Byte) : (r.setStash b).nch = r.nch := rfl
@[simp] theorem Session.setStash_wide16 (r : Session) (b : List Byte) : (r.setStash b).wide16 = r.wide16 := rfl

/-! `Session.setLastSrq` -/

@[simp] theorem Session.setLastSrq_busState (r : Session) (x : Option (List Byte)) : (r.setLastSrq x).busState = r.busState := rfl
@[simp] theorem Session.setLastSrq_chain (r : Session) (x : Option (List Byte)) : (r.setLastSrq x).chain = r.chain := rfl
@[simp] theorem Session.setLastSrq_modules (r : Session) (x : Option (List Byte)) : (r.setLastSrq x).modules = r.modules := rfl
@[simp] theorem Session.setLastSrq_modVersion (r : Session) (x : Option (List Byte)) : (r.setLastSrq x).modVersion = r.modVersion := rfl
@[simp] theorem Session.setLastSrq_stash (r : Session) (x : Option (List Byte)) : (r.setLastSrq x).stash = r.stash := rfl
@[simp] theorem Session.setLastSrq_lastSrq (r : Session) (x : Option (List Byte)) : (r.setLastSrq x).lastSrq = x := rfl
@[simp] theorem Session.setLastSrq_cookieCtr (r : Session) (x : Option (List Byte)) : (r.setLastSrq x).cookieCtr = r.cookieCtr := rfl
@[simp] theorem Session.setLastSrq_cfg (r : Session) (x : Option (List Byte)) : (r.setLastSrq x).cfg = r.cfg := rfl
@[simp] theorem Session.setLastSrq_cfgValid (r : Session) (x : Option (List Byte)) : (r.setLastSrq x).cfgValid = r.cfgValid := rfl
@[simp] theorem Session.setLastSrq_nch (r : Session) (x : Option (List Byte)) : (r.setLastSrq x).nch = r.nch := rfl
@[simp] theorem Session.setLastSrq_wide16 (r : Session) (x : Option (List Byte)) : (r.setLastSrq x).wide16 = r.wide16 := rfl

/-! `Session.setCookie` -/

@[simp] theorem Session.setCookie_busState (r : Session) (k : Byte) : (r.setCookie k).busState = r.busState := rfl
@[simp] theorem Session.setCookie_chain (r : Session) (k : Byte) : (r.setCookie k).chain = r.chain := rfl
@[simp] theorem Session.setCookie_modules (r : Session) (k : Byte) : (r.setCookie k).modules = r.modules := rfl
@[simp] theorem Session.setCookie_modVersion (r : Session) (k : Byte) : (r.setCookie k).modVersion = r.modVersion := rfl
@[simp] theorem Session.setCookie_stash (r : Session) (k : Byte) : (r.setCookie k).stash = r.stash := rfl
@[simp] theorem Session.setCookie_lastSrq (r : Session) (k : Byte) : (r.setCookie k).lastSrq = r.lastSrq := rfl
@[simp] theorem Session.setCookie_cookieCtr (r : Session) (k : Byte) : (r.setCookie k).cookieCtr = k := rfl
@[simp] theorem Session.setCookie_cfg (r : Session) (k : Byte) : (r.setCookie k).cfg = r.cfg := rfl
@[simp] theorem Session.setCookie_cfgValid (r : Session) (k : Byte) : (r.setCookie k).cfgValid = r.cfgValid := rfl
@[simp] theorem Session.setCookie_nch (r : Session) (k : Byte) : (r.setCookie k).nch = r.nch := rfl
@[simp] theorem Session.setCookie_wide16 (r : Session) (k : Byte) : (r.setCookie k).wide16 = r.wide16 := rfl

/-! `Session.setNch` -/

@[simp] theorem Session.setNch_busState (r : Session) (n : Nat) : (r.setNch n).busState = r.busState := rfl
@[simp] theorem Session.setNch_chain (r : Session) (n : Nat) : (r.setNch n).chain = r.chain := rfl
@[simp] theorem Session.setNch_modules (r : Session) (n : Nat) : (r.setNch n).modules = r.modules := rfl
@[simp] theorem Session.setNch_modVersion (r : Session) (n : Nat) : (r.setNch n).modVersion = r.modVersion := rfl
@[simp] theorem Session.setNch_stash (r : Session) (n : Nat) : (r.setNch n).stash = r.stash := rfl
@[simp] theorem Session.setNch_lastSrq (r : Session) (n : Nat) : (r.setNch n).lastSrq = r.lastSrq := rfl
@[simp] theorem Session.setNch_cookieCtr (r : Session) (n : Nat) : (r.setNch n).cookieCtr = r.cookieCtr := rfl
@[simp] theorem Session.setNch_cfg (r : Session) (n : Nat) : (r.setNch n).cfg = r.cfg := rfl
@[simp] theorem Session.setNch_cfgValid (r : Session) (n : Nat) : (r.setNch n).cfgValid = r.cfgValid := rfl
@[simp] theorem Session.setNch_nch (r : Session) (n : Nat) : (r.setNch n).nch = some n := rfl
@[simp] theorem Session.setNch_wide16 (r : Session) (n : Nat) : (r.setNch n).wide16 = r.wide16 := rfl

/-! `Session.setWide16` -/

@[simp] theorem Session.setWide16_busState (r : Session) (w : Bool) : (r.setWide16 w).busState = r.busState := rfl
@[simp] theorem Session.setWide16_chain (r : Session) (w : Bool) : (r.setWide16 w).chain = r.chain := rfl
@[simp] theorem Session.setWide16_modules (r : Session) (w : Bool) : (r.setWide16 w).modules = r.modules := rfl
@[simp] theorem Session.setWide16_modVersion (r : Session) (w : Bool) : (r.setWide16 w).modVersion = r.modVersion := rfl
@[simp] theorem Session.setWide16_stash (r : Session) (w : Bool) : (r.setWide16 w).stash = r.stash := rfl
@[simp] theorem Session.setWide16_lastSrq (r : Session) (w : Bool) : (r.setWide16 w).lastSrq = r.lastSrq := rfl
@[simp] theorem Session.setWide16_cookieCtr (r : Session) (w : Bool) : (r.setWide16 w).cookieCtr = r.cookieCtr := rfl
@[simp] theorem Session.setWide16_cfg (r : Session) (w : Bool) : (r.setWide16 w).cfg = r.cfg := rfl
@[simp] theorem Session.setWide16_cfgValid (r : Session) (w : Bool) : (r.setWide16 w).cfgValid = r.cfgValid := rfl
@[simp] theorem Session.setWide16_nch (r : Session) (w : Bool) : (r.setWide16 w).nch = r.nch := rfl
@[simp] theorem Session.setWide16_wide16 (r : Session) (w : Bool) : (r.setWide16 w).wide16 = w := rfl

/-! `Session.setCfg` -/

@[simp] theorem Session.setCfg_busState (r : Session) (g : CfgRecord) : (r.setCfg g).busState = r.busState := rfl
@[simp] theorem Session.setCfg_chain (r : Session) (g : CfgRecord) : (r.setCfg g).chain = r.chain := rfl
@[simp] theorem Session.setCfg_modules (r : Session) (g : CfgRecord) : (r.setCfg g).modules = r.modules := rfl
@[simp] theorem Session.setCfg_modVersion (r : Session) (g : CfgRecord) : (r.setCfg g).modVersion = r.modVersion := rfl
@[simp] theorem Session.setCfg_stash (r : Session) (g : CfgRecord) : (r.setCfg g).stash = r.stash := rfl
@[simp] theorem Session.setCfg_lastSrq (r : Session) (g : CfgRecord) : (r.setCfg g).lastSrq = r.lastSrq := rfl
@[simp] theorem Session.setCfg_cookieCtr (r : Session) (g : CfgRecord) : (r.setCfg g).cookieCtr = r.cookieCtr := rfl
@[simp] theorem Session.setCfg_cfg (r : Session) (g : CfgRecord) : (r.setCfg g).cfg = g := rfl
@[simp] theorem Session.setCfg_cfgValid (r : Session) (g : CfgRecord) : (r.setCfg g).cfgValid = true := rfl
@[simp] theorem Session.setCfg_nch (r : Session) (g : CfgRecord) : (r.setCfg g).nch = r.nch := rfl
@[simp] theorem Session.setCfg_wide16 (r : Session) (g : CfgRecord) : (r.setCfg g).wide16 = r.wide16 := rfl

/-! `Session.busReset` -/

@[simp] theorem Session.busReset_busState (r : Session) : (r.busReset).busState = .initializing := rfl
@[simp] theorem Session.busReset_chain (r : Session) : (r.busReset).chain = none := rfl
@[simp] theorem Session.busReset_modules (r : Session) : (r.busReset).modules = none := rfl
@[simp] theorem Session.busReset_modVersion (r : Session) : (r.busReset).modVersion = none := rfl
@[simp] theorem Session.busReset_stash (r : Session) : (r.busReset).stash = [] := rfl
@[simp] theorem Session.busReset_lastSrq (r : Session) : (r.busReset).lastSrq = none := rfl
@[simp] theorem Session.busReset_cookieCtr (r : Session) : (r.busReset).cookieCtr = r.cookieCtr := rfl
@[simp] theorem Session.busReset_cfg (r : Session) : (r.busReset).cfg = r.cfg := rfl
@[simp] theorem Session.busReset_cfgValid (r : Session) : (r.busReset).cfgValid = r.cfgValid := rfl
@[simp] theorem Session.busReset_nch (r : Session) : (r.busReset).nch = r.nch := rfl
@[simp] theorem Session.busReset_wide16 (r : Session) : (r.busReset).wide16 = r.wide16 := rfl

/-! `Session.initialised` -/

@[simp] theorem Session.initialised_busState (r : Session) (c : Half) (n : Nat) (v : Byte) : (r.initialised c n v).busState = .ready := rfl
@[simp] theorem Session.initialised_chain (r : Session) (c : Half) (n : Nat) (v : Byte) : (r.initialised c n v).chain = some c := rfl
@[simp] theorem Session.initialised_modules (r : Session) (c : Half) (n : Nat) (v : Byte) : (r.initialised c n v).modules = some (c.toNat * n) := rfl
@[simp] theorem Session.initialised_modVersion (r : Session) (c : Half) (n : Nat) (v : Byte) : (r.initialised c n v).modVersion = some v := rfl
@[simp] theorem Session.initialised_stash (r : Session) (c : Half) (n : Nat) (v : Byte) : (r.initialised c n v).stash = r.stash := rfl
@[simp] theorem Session.initialised_lastSrq (r : Session) (c : Half) (n : Nat) (v : Byte) : (r.initialised c n v).lastSrq = r.lastSrq := rfl
@[simp] theorem Session.initialised_cookieCtr (r : Session) (c : Half) (n : Nat) (v : Byte) : (r.initialised c n v).cookieCtr = r.cookieCtr := rfl
@[simp] theorem Session.initialised_cfg (r : Session) (c : Half) (n : Nat) (v : Byte) : (r.initialised c n v).cfg = r.cfg := rfl
@[simp] theorem Session.initialised_cfgValid (r : Session) (c : Half) (n : Nat) (v : Byte) : (r.initialised c n v).cfgValid = r.cfgValid := rfl
@[simp] theorem Session.initialised_nch (r : Session) (c : Half) (n : Nat) (v : Byte) : (r.initialised c n v).nch = r.nch := rfl
@[simp] theorem Session.initialised_wide16 (r : Session) (c : Half) (n : Nat) (v : Byte) : (r.initialised c n v).wide16 = r.wide16 := rfl

/-! `Link.noteRead` -/

@[simp] theorem Link.noteRead_win (r : Link) (i : Nat) (v : Word) : (r.noteRead i v).win = r.win := rfl
@[simp] theorem Link.noteRead_log (r : Link) (i : Nat) (v : Word) : (r.noteRead i v).log = .read i v :: r.log := rfl
@[simp] theorem Link.noteRead_wire (r : Link) (i : Nat) (v : Word) : (r.noteRead i v).wire = r.wire := rfl

/-! `Link.write16` -/

@[simp] theorem Link.write16_win (r : Link) (i : Nat) (u : Bool) (v : Half) : (r.write16 i u v).win = Memory.writeBytes r.win (4 * i + (if u then 2 else 0)) (le16 v) := rfl
@[simp] theorem Link.write16_log (r : Link) (i : Nat) (u : Bool) (v : Half) : (r.write16 i u v).log = .write16 i u v :: r.log := rfl
@[simp] theorem Link.write16_wire (r : Link) (i : Nat) (u : Bool) (v : Half) : (r.write16 i u v).wire = r.wire := rfl

/-! `State.deliver` -/

@[simp] theorem State.deliver_ctx (r : State) (x : Result) (c : Ctx) : (r.deliver x c).ctx = c := rfl
@[simp] theorem State.deliver_busy (r : State) (x : Result) (c : Ctx) : (r.deliver x c).busy = false := rfl
@[simp] theorem State.deliver_inflight (r : State) (x : Result) (c : Ctx) : (r.deliver x c).inflight = none := rfl
@[simp] theorem State.deliver_result (r : State) (x : Result) (c : Ctx) : (r.deliver x c).result = some x := rfl
@[simp] theorem State.deliver_queue (r : State) (x : Result) (c : Ctx) : (r.deliver x c).queue = r.queue := rfl
@[simp] theorem State.deliver_mods (r : State) (x : Result) (c : Ctx) : (r.deliver x c).mods = r.mods := rfl
@[simp] theorem State.deliver_fed (r : State) (x : Result) (c : Ctx) : (r.deliver x c).fed = r.fed := rfl

/-! `State.suspend` -/

@[simp] theorem State.suspend_ctx (r : State) (f : InFlight) (c : Ctx) : (r.suspend f c).ctx = c := rfl
@[simp] theorem State.suspend_busy (r : State) (f : InFlight) (c : Ctx) : (r.suspend f c).busy = true := rfl
@[simp] theorem State.suspend_inflight (r : State) (f : InFlight) (c : Ctx) : (r.suspend f c).inflight = some f := rfl
@[simp] theorem State.suspend_result (r : State) (f : InFlight) (c : Ctx) : (r.suspend f c).result = none := rfl
@[simp] theorem State.suspend_queue (r : State) (f : InFlight) (c : Ctx) : (r.suspend f c).queue = r.queue := rfl
@[simp] theorem State.suspend_mods (r : State) (f : InFlight) (c : Ctx) : (r.suspend f c).mods = r.mods := rfl
@[simp] theorem State.suspend_fed (r : State) (f : InFlight) (c : Ctx) : (r.suspend f c).fed = r.fed := rfl

/-! `State.refill` -/

@[simp] theorem State.refill_ctx (r : State) (f : InFlight) : (r.refill f).ctx = f.start.feed f.need r.fed := rfl
@[simp] theorem State.refill_busy (r : State) (f : InFlight) : (r.refill f).busy = false := rfl
@[simp] theorem State.refill_inflight (r : State) (f : InFlight) : (r.refill f).inflight = none := rfl
@[simp] theorem State.refill_result (r : State) (f : InFlight) : (r.refill f).result = r.result := rfl
@[simp] theorem State.refill_queue (r : State) (f : InFlight) : (r.refill f).queue = r.queue := rfl
@[simp] theorem State.refill_mods (r : State) (f : InFlight) : (r.refill f).mods = r.mods := rfl
@[simp] theorem State.refill_fed (r : State) (f : InFlight) : (r.refill f).fed = r.fed + 1 := rfl

/-! `State.accepted` -/

@[simp] theorem State.accepted_ctx (r : State) (q : List Descriptor) : (r.accepted q).ctx = r.ctx := rfl
@[simp] theorem State.accepted_busy (r : State) (q : List Descriptor) : (r.accepted q).busy = r.busy := rfl
@[simp] theorem State.accepted_inflight (r : State) (q : List Descriptor) : (r.accepted q).inflight = r.inflight := rfl
@[simp] theorem State.accepted_result (r : State) (q : List Descriptor) : (r.accepted q).result = r.result := rfl
@[simp] theorem State.accepted_queue (r : State) (q : List Descriptor) : (r.accepted q).queue = q := rfl
@[simp] theorem State.accepted_mods (r : State) (q : List Descriptor) : (r.accepted q).mods = r.mods := rfl
@[simp] theorem State.accepted_fed (r : State) (q : List Descriptor) : (r.accepted q).fed = r.fed := rfl

/-! `State.taken` -/

@[simp] theorem State.taken_ctx (r : State) (w : List Wire) : (r.taken w).ctx = { r.ctx with link := { r.ctx.link with wire := w } } := rfl
@[simp] theorem State.taken_busy (r : State) (w : List Wire) : (r.taken w).busy = r.busy := rfl
@[simp] theorem State.taken_inflight (r : State) (w : List Wire) : (r.taken w).inflight = r.inflight := rfl
@[simp] theorem State.taken_result (r : State) (w : List Wire) : (r.taken w).result = r.result := rfl
@[simp] theorem State.taken_queue (r : State) (w : List Wire) : (r.taken w).queue = r.queue := rfl
@[simp] theorem State.taken_mods (r : State) (w : List Wire) : (r.taken w).mods = r.mods := rfl
@[simp] theorem State.taken_fed (r : State) (w : List Wire) : (r.taken w).fed = r.fed := rfl

/-! `State.unknownAtModules` -/

@[simp] theorem State.unknownAtModules_ctx (r : State) : (r.unknownAtModules).ctx = r.ctx := rfl
@[simp] theorem State.unknownAtModules_busy (r : State) : (r.unknownAtModules).busy = r.busy := rfl
@[simp] theorem State.unknownAtModules_inflight (r : State) : (r.unknownAtModules).inflight = r.inflight := rfl
@[simp] theorem State.unknownAtModules_result (r : State) : (r.unknownAtModules).result = r.result := rfl
@[simp] theorem State.unknownAtModules_queue (r : State) : (r.unknownAtModules).queue = r.queue := rfl
@[simp] theorem State.unknownAtModules_mods (r : State) : (r.unknownAtModules).mods = r.mods.forget := rfl
@[simp] theorem State.unknownAtModules_fed (r : State) : (r.unknownAtModules).fed = r.fed := rfl

/-! `State.answer` -/

@[simp] theorem State.answer_ctx (r : State) (f : Nat → List Byte) : (r.answer f).ctx = r.ctx := rfl
@[simp] theorem State.answer_busy (r : State) (f : Nat → List Byte) : (r.answer f).busy = r.busy := rfl
@[simp] theorem State.answer_inflight (r : State) (f : Nat → List Byte) : (r.answer f).inflight = r.inflight := rfl
@[simp] theorem State.answer_result (r : State) (f : Nat → List Byte) : (r.answer f).result = r.result := rfl
@[simp] theorem State.answer_queue (r : State) (f : Nat → List Byte) : (r.answer f).queue = r.queue := rfl
@[simp] theorem State.answer_mods (r : State) (f : Nat → List Byte) : (r.answer f).mods = { r.mods with reply := r.channels.map f } := rfl
@[simp] theorem State.answer_fed (r : State) (f : Nat → List Byte) : (r.answer f).fed = r.fed := rfl

/-! `State.acted` -/

@[simp] theorem State.acted_ctx (r : State) (x : List Byte) (m : Modules) : (r.acted x m).ctx = r.ctx := rfl
@[simp] theorem State.acted_busy (r : State) (x : List Byte) (m : Modules) : (r.acted x m).busy = r.busy := rfl
@[simp] theorem State.acted_inflight (r : State) (x : List Byte) (m : Modules) : (r.acted x m).inflight = r.inflight := rfl
@[simp] theorem State.acted_result (r : State) (x : List Byte) (m : Modules) : (r.acted x m).result = r.result := rfl
@[simp] theorem State.acted_queue (r : State) (x : List Byte) (m : Modules) : (r.acted x m).queue = r.queue := rfl
@[simp] theorem State.acted_mods (r : State) (x : List Byte) (m : Modules) : (r.acted x m).mods = { m with request := some x } := rfl
@[simp] theorem State.acted_fed (r : State) (x : List Byte) (m : Modules) : (r.acted x m).fed = r.fed := rfl

/-! `Modules.forget` -/

@[simp] theorem Modules.forget_chains (r : Modules) : (r.forget).chains = r.chains := rfl
@[simp] theorem Modules.forget_mem (r : Modules) : (r.forget).mem = [] := rfl
@[simp] theorem Modules.forget_flash (r : Modules) : (r.forget).flash = [] := rfl
@[simp] theorem Modules.forget_epoch (r : Modules) : (r.forget).epoch = r.epoch + 1 := rfl
@[simp] theorem Modules.forget_reply (r : Modules) : (r.forget).reply = r.reply := rfl
@[simp] theorem Modules.forget_request (r : Modules) : (r.forget).request = r.request := rfl

/-! `Ctx.feed` -/

@[simp] theorem Ctx.feed_sess (c : Ctx) (n : Need) (k : Nat) : (c.feed n k).sess = c.sess := by cases n <;> rfl
@[simp] theorem Ctx.feed_link (c : Ctx) (n : Need) (k : Nat) : (c.feed n k).link = c.link := by cases n <;> rfl
@[simp] theorem Ctx.feed_now (c : Ctx) (n : Need) (k : Nat) : (c.feed n k).env.now = c.env.now := by cases n <;> rfl

/-! `Link.write`: the trigger word is an action, any other a store. -/

@[simp] theorem Link.write_log (l : Link) (i : Nat) (v : Word) : (l.write i v).log = .write i v :: l.log := by
  unfold Link.write; split <;> rfl

theorem Link.write_store (l : Link) (i : Nat) (v : Word) (h : i ≠ Config.params.regTrigger) :
    l.write i v = { l with win := Memory.writeBytes l.win (4 * i) (le32 v), log := .write i v :: l.log } :=
  if_neg h

theorem Link.write_trigger (l : Link) (v : Word) :
    l.write Config.params.regTrigger v =
      { win := if v = trgReset then [] else l.win, log := .write Config.params.regTrigger v :: l.log,
        wire := l.wire ++ sentOn l.win l.log.length v } :=
  if_pos rfl

end Sys2Proof.Machine
end

