-- ==== Sys2Proof/Laws/Ops.lean ====
section
/-! SUPPORT. How operations run: what each primitive answers, and a small program logic (`Sat`) in which the later
lemmas say once what each shared operation can do. -/

namespace Sys2Proof.Machine

open Config (params)

/-! ### Running -/

theorem run_bind {α β : Type} (x : Op α) (f : α → Op β) (c : Ctx) :
    (x >>= f) c = match x c with
      | .ok a c' => f a c'
      | .error e c' => .error e c' := by
  simp only [bind, EStateM.bind]
  cases x c <;> rfl

@[simp] theorem run_pure {α : Type} (a : α) (c : Ctx) : (pure a : Op α) c = .ok a c := rfl

theorem run_bind_ok {α β : Type} {x : Op α} {f : α → Op β} {c c' : Ctx} {a : α} (h : x c = .ok a c') :
    (x >>= f) c = f a c' := by rw [run_bind, h]

theorem run_bind_error {α β : Type} {x : Op α} {f : α → Op β} {c c' : Ctx} {e : Stop} (h : x c = .error e c') :
    (x >>= f) c = .error e c' := by rw [run_bind, h]

@[simp] theorem run_getSess (c : Ctx) : getSess c = .ok c.sess c := rfl
@[simp] theorem run_modifySess (f : Session → Session) (c : Ctx) :
    modifySess f c = .ok () { c with sess := f c.sess } := rfl
@[simp] theorem run_readsLeft (c : Ctx) : readsLeft c = .ok c.env.reads.length c := rfl
@[simp] theorem run_ticksLeft (c : Ctx) : ticksLeft c = .ok c.env.ticks.length c := rfl
@[simp] theorem run_regWrite (i : Nat) (v : Word) (c : Ctx) :
    regWrite i v c = .ok () { c with link := c.link.write i v } := rfl
@[simp] theorem run_regWrite16 (i : Nat) (u : Bool) (v : Half) (c : Ctx) :
    regWrite16 i u v c = .ok () { c with link := c.link.write16 i u v } := rfl

theorem run_raise {α : Type} (e : Err) (c : Ctx) :
    (raise e : Op α) c = .error (.raise e) (if e.faults then { c with sess := c.sess.setBusState .faulted } else c) := rfl

theorem run_require_true (p : Prop) [Decidable p] (e : Err) (c : Ctx) (h : p) : require p e c = .ok () c := by
  simp [require, h]

theorem run_require_false (p : Prop) [Decidable p] (e : Err) (c : Ctx) (h : ¬ p) : require p e c = raise e c := by
  simp [require, h]

theorem run_regRead_cons (i : Nat) (c : Ctx) (v : Word) (rest : List Word) (h : c.env.reads = v :: rest) :
    regRead i c = .ok v { c with link := c.link.noteRead i v, env := { c.env with reads := rest } } := by
  simp [regRead, h]

theorem run_regRead_nil (i : Nat) (c : Ctx) (h : c.env.reads = []) : regRead i c = .error (.wait .read) c := by
  simp [regRead, h]

theorem run_now_cons (c : Ctx) (d : Nat) (rest : List Nat) (h : c.env.ticks = d :: rest) :
    now c = .ok (c.env.now + d) { c with env := { c.env with now := c.env.now + d, ticks := rest } } := by
  simp [now, h]

theorem run_now_nil (c : Ctx) (h : c.env.ticks = []) : now c = .error (.wait .tick) c := by simp [now, h]

theorem run_idle_cons (c : Ctx) (a : Bool) (rest : List Bool) (h : c.env.idles = a :: rest) :
    idlePoint c = .ok a { c with env := { c.env with idles := rest } } := by
  simp [idlePoint, h]

theorem run_idle_nil (c : Ctx) (h : c.env.idles = []) : idlePoint c = .error (.wait .idle) c := by
  simp [idlePoint, h]

theorem run_needNch (c : Ctx) (n : Nat) (h : c.sess.nch = some n) : needNch c = .ok n c := by
  simp [needNch, run_bind, h]

theorem run_needChain (c : Ctx) (n : Half) (h : c.sess.chain = some n) : needChain c = .ok n.toNat c := by
  simp [needChain, h]

theorem run_needVersion (c : Ctx) (v : Byte) (h : c.sess.modVersion = some v) : needVersion c = .ok v.toNat c := by
  simp [needVersion, h]

/-! ### One operation at the port -/

/-- What an operation presented while `busy` is false does: it delivers a result, is suspended, or meets the fault. -/
theorem operate_idle {i : Instr} {body : Op (Option (List Byte))} {s : State} (h : s.busy = false) :
    operate i body s = conclude i s (body s.ctx) := by simp [operate, h]

/-- All that `operate` can answer, if it answers a next state. -/
theorem operate_cases {i : Instr} {body : Op (Option (List Byte))} {s t : State} (h : operate i body s = .next t) :
    (s.busy = true ∧ t = s)
    ∨ (s.busy = false ∧ ∃ out c, body s.ctx = .ok out c ∧ t = s.deliver (okResult out) c)
    ∨ (s.busy = false ∧ ∃ e c, body s.ctx = .error (.raise e) c ∧ t = s.deliver e.toResult c)
    ∨ (s.busy = false ∧ ∃ n c, body s.ctx = .error (.wait n) c
        ∧ t = s.suspend { instr := i, start := s.ctx, need := n } c) := by
  by_cases hb : s.busy = true
  · simp only [operate, hb, if_true] at h
    exact .inl ⟨hb, by injection h with h; exact h.symm⟩
  · have hb : s.busy = false := by simpa using hb
    rw [operate_idle hb] at h
    refine .inr ?_
    cases hr : body s.ctx with
    | ok out c =>
      rw [hr] at h; injection h with h
      exact .inl ⟨hb, out, c, rfl, h.symm⟩
    | error e c =>
      rw [hr] at h
      cases e with
      | raise e => injection h with h; exact .inr (.inl ⟨hb, e, c, rfl, h.symm⟩)
      | wait n => injection h with h; exact .inr (.inr ⟨hb, n, c, rfl, h.symm⟩)
      | fault f => simp [conclude] at h

/-! ### A program logic -/

/-- From every context with `P`, the operation ends in a value and a context with `Q`, or stops in a way and a context
with `E`. -/
def Sat {α : Type} (P : Ctx → Prop) (m : Op α) (Q : α → Ctx → Prop) (E : Stop → Ctx → Prop) : Prop :=
  ∀ c, P c → match m c with
    | .ok a c' => Q a c'
    | .error e c' => E e c'

theorem Sat.bind {α β : Type} {P : Ctx → Prop} {m : Op α} {f : α → Op β} {Q : α → Ctx → Prop} {R : β → Ctx → Prop}
    {E : Stop → Ctx → Prop} (hm : Sat P m Q E) (hf : ∀ a, Sat (Q a) (f a) R E) : Sat P (m >>= f) R E := by
  intro c hc
  have h1 := hm c hc
  rw [run_bind]
  cases h : m c with
  | ok a c' => rw [h] at h1; exact hf a c' h1
  | error e c' => rw [h] at h1; exact h1

theorem Sat.pure {α : Type} {P : Ctx → Prop} {a : α} {Q : α → Ctx → Prop} {E : Stop → Ctx → Prop}
    (h : ∀ c, P c → Q a c) : Sat P (Pure.pure a : Op α) Q E := fun c hc => h c hc

theorem Sat.conseq {α : Type} {P P' : Ctx → Prop} {m : Op α} {Q Q' : α → Ctx → Prop} {E E' : Stop → Ctx → Prop}
    (h : Sat P m Q E) (hP : ∀ c, P' c → P c) (hQ : ∀ a c, Q a c → Q' a c) (hE : ∀ e c, E e c → E' e c) :
    Sat P' m Q' E' := by
  intro c hc
  have h1 := h c (hP c hc)
  cases hm : m c with
  | ok a c' => rw [hm] at h1; exact hQ a c' h1
  | error e c' => rw [hm] at h1; exact hE e c' h1

/-- A precondition that does not depend on the context may be used as a hypothesis. -/
theorem Sat.given {α : Type} {p : Prop} {P : Ctx → Prop} {m : Op α} {Q : α → Ctx → Prop} {E : Stop → Ctx → Prop}
    (h : p → Sat P m Q E) : Sat (fun c => p ∧ P c) m Q E := fun c hc => h hc.1 c hc.2

theorem Sat.ite {α : Type} {p : Prop} [Decidable p] {P : Ctx → Prop} {m k : Op α} {Q : α → Ctx → Prop}
    {E : Stop → Ctx → Prop} (h1 : p → Sat P m Q E) (h2 : ¬ p → Sat P k Q E) : Sat P (if p then m else k) Q E := by
  by_cases hp : p
  · rw [if_pos hp]; exact h1 hp
  · rw [if_neg hp]; exact h2 hp

theorem Sat.raise {α : Type} {P : Ctx → Prop} {e : Err} {Q : α → Ctx → Prop} {E : Stop → Ctx → Prop}
    (h : ∀ c, P c → E (.raise e) (if e.faults then { c with sess := c.sess.setBusState .faulted } else c)) :
    Sat P (Machine.raise e : Op α) Q E := fun c hc => h c hc

theorem Sat.require {p : Prop} [Decidable p] {P : Ctx → Prop} {e : Err} {E : Stop → Ctx → Prop}
    (h : ∀ c, P c → ¬ p → E (.raise e) (if e.faults then { c with sess := c.sess.setBusState .faulted } else c)) :
    Sat P (Machine.require p e) (fun _ c => p ∧ P c) E := by
  intro c hc
  by_cases hp : p
  · rw [run_require_true _ _ _ hp]; exact ⟨hp, hc⟩
  · rw [run_require_false _ _ _ hp]; exact h c hc hp

theorem Sat.getSess {P : Ctx → Prop} {E : Stop → Ctx → Prop} :
    Sat P Machine.getSess (fun r c => c.sess = r ∧ P c) E := fun _ hc => ⟨rfl, hc⟩

theorem Sat.ignoring {α : Type} {P : Ctx → Prop} {m : Op α} {Q : Ctx → Prop} {E : Stop → Ctx → Prop}
    (h : Sat P m (fun _ => Q) E) : Sat P (Machine.ignoring m) (fun _ => Q) E :=
  Sat.bind h fun _ => Sat.pure fun _ hc => hc

/-- `P` holds before and after, however the operation ends. -/
abbrev Keeps {α : Type} (P : Ctx → Prop) (m : Op α) : Prop := Sat P m (fun _ => P) (fun _ => P)

end Sys2Proof.Machine
end

