-- ==== Sys2Proof/Laws/Changes.lean ====
section
/-! SUPPORT. What the shared operations leave unchanged: for each, one lemma that says that it stays within a scope,
the registers and the bytes of the window it may write, however it ends. -/

namespace Sys2Proof.Machine

open Config

/-- What an operation may write. A bus reset may write all that 10_state.md rule R40 and 70_reset_and_hazards.md rule
R301 name. -/
structure Scope where
  config : Bool := false
  reset : Bool := false
  channels : Bool := false
  wide : Bool := false
  cookie : Bool := false
  stash : Bool := false
  record : Bool := false
  strobes : Bool := false
  stores : Nat → Bool := fun _ => false

/-- The context `c`, reached from `d`, differs from it within the scope only. -/
structure Within (w : Scope) (d c : Ctx) : Prop where
  time : d.env.now ≤ c.env.now
  log : ∃ new, c.link.log = new ++ d.link.log ∧ (w.strobes = false → .write params.regTrigger trgSrq ∉ new)
  config : w.config = false → c.sess.cfg = d.sess.cfg ∧ c.sess.cfgValid = d.sess.cfgValid
  derived : w.reset = false →
    c.sess.chain = d.sess.chain ∧ c.sess.modules = d.sess.modules ∧ c.sess.modVersion = d.sess.modVersion
  bus : w.reset = false → c.sess.busState = d.sess.busState
  channels : w.channels = false → c.sess.nch = d.sess.nch
  wide : w.wide = false → c.sess.wide16 = d.sess.wide16
  cookie : w.cookie = false → c.sess.cookieCtr = d.sess.cookieCtr
  stash : w.reset = false → w.stash = false → c.sess.stash = d.sess.stash
  record : w.reset = false → w.record = false → c.sess.lastSrq = d.sess.lastSrq
  window : w.reset = false → ∀ a, w.stores a = false → Memory.read c.link.win a = Memory.read d.link.win a

/-- One transaction more, which is not the SRQ strobe or may be it. -/
theorem Within.logged {w : Scope} {d c : Ctx} (h : Within w d c) (t : Txn)
    (ht : w.strobes = false → t ≠ .write params.regTrigger trgSrq) :
    ∃ new, t :: c.link.log = new ++ d.link.log ∧ (w.strobes = false → .write params.regTrigger trgSrq ∉ new) := by
  obtain ⟨new, hn, hs⟩ := h.log
  refine ⟨t :: new, by simp [hn], fun hw hm => ?_⟩
  rcases List.mem_cons.mp hm with e | e
  · exact ht hw e.symm
  · exact hs hw e

/-- The context an operation leaves when it stops with `e` in the context `c` (60_exceptions.md rule R280). -/
def stoppedAt (e : Stop) (c : Ctx) : Ctx :=
  match e with
  | .raise x => if x.faults then { c with sess := c.sess.setBusState .faulted } else c
  | _ => c

/-- The operation stopped within the scope. -/
def Ended (w : Scope) (d : Ctx) (e : Stop) (c : Ctx) : Prop := ∃ b, Within w d b ∧ c = stoppedAt e b

/-- From every context within the scope of `d` the operation ends within it. -/
abbrev Stays {α : Type} (w : Scope) (d : Ctx) (m : Op α) : Prop := Sat (Within w d) m (fun _ => Within w d) (Ended w d)

theorem Within.refl (w : Scope) (d : Ctx) : Within w d d := by constructor <;> simp

theorem stays_pure {α : Type} {w : Scope} {d : Ctx} (a : α) : Stays w d (pure a : Op α) := Sat.pure fun _ h => h

theorem stays_raise {α : Type} {w : Scope} {d : Ctx} (e : Err) : Stays w d (raise e : Op α) :=
  Sat.raise fun c h => ⟨c, h, rfl⟩

theorem stays_wait {α : Type} {w : Scope} {d : Ctx} (n : Need) : Stays w d (fun c => .error (.wait n) c : Op α) :=
  fun c h => ⟨c, h, rfl⟩

theorem stays_bind {α β : Type} {w : Scope} {d : Ctx} {m : Op α} {f : α → Op β} (hm : Stays w d m)
    (hf : ∀ a, Stays w d (f a)) : Stays w d (m >>= f) := Sat.bind hm hf

theorem stays_ignoring {α : Type} {w : Scope} {d : Ctx} {m : Op α} (h : Stays w d m) : Stays w d (ignoring m) :=
  Sat.ignoring h

theorem stays_silently {w : Scope} {d : Ctx} {m : Op Unit} (h : Stays w d m) : Stays w d (silently m) :=
  stays_bind h fun _ => stays_pure _

theorem stays_answering {w : Scope} {d : Ctx} {m : Op (List Byte)} (h : Stays w d m) : Stays w d (answering m) :=
  stays_bind h fun _ => stays_pure _

theorem stays_require {p : Prop} [Decidable p] {w : Scope} {d : Ctx} (e : Err) : Stays w d (require p e) :=
  Sat.ite (fun _ => stays_pure _) fun _ => stays_raise _

theorem stays_require_bind {α : Type} {p : Prop} [Decidable p] {w : Scope} {d : Ctx} {e : Err} {k : Op α}
    (h : p → Stays w d k) : Stays w d (require p e >>= fun _ => k) := by
  intro c hc
  rw [run_bind]
  by_cases hp : p
  · rw [run_require_true _ _ _ hp]; exact h hp c hc
  · rw [run_require_false _ _ _ hp]; exact ⟨c, hc, rfl⟩

theorem stays_getSess_bind {α : Type} {w : Scope} {d : Ctx} {k : Session → Op α}
    (h : ∀ r, (w.config = false → r.cfg = d.sess.cfg) → Stays w d (k r)) : Stays w d (getSess >>= k) :=
  fun c hc => h c.sess (fun hw => (hc.config hw).1) c hc

/-! ### The primitives -/

theorem stays_readsLeft {w : Scope} {d : Ctx} : Stays w d readsLeft := fun _ h => h
theorem stays_ticksLeft {w : Scope} {d : Ctx} : Stays w d ticksLeft := fun _ h => h

theorem stays_regRead {w : Scope} {d : Ctx} (i : Nat) : Stays w d (regRead i) := by
  intro c hc
  cases hr : c.env.reads with
  | nil => rw [run_regRead_nil i c hr]; exact ⟨c, hc, rfl⟩
  | cons v rest =>
    rw [run_regRead_cons i c v rest hr]
    exact { hc with log := hc.logged (.read i v) fun _ e => by cases e }

theorem stays_now {w : Scope} {d : Ctx} : Stays w d now := by
  intro c hc
  cases hr : c.env.ticks with
  | nil => rw [run_now_nil c hr]; exact ⟨c, hc, rfl⟩
  | cons t rest =>
    rw [run_now_cons c t rest hr]
    exact { hc with time := Nat.le_trans hc.time (Nat.le_add_right _ _) }

theorem stays_idlePoint {w : Scope} {d : Ctx} : Stays w d idlePoint := by
  intro c hc
  cases hr : c.env.idles with
  | nil => rw [run_idle_nil c hr]; exact ⟨c, hc, rfl⟩
  | cons a rest => rw [run_idle_cons c a rest hr]; exact { hc with }

theorem stays_needNch {w : Scope} {d : Ctx} : Stays w d needNch :=
  stays_getSess_bind fun r _ => by split <;> first | exact stays_pure _ | exact stays_raise _

theorem stays_needChain {w : Scope} {d : Ctx} : Stays w d needChain := by
  intro c hc
  unfold needChain
  cases c.sess.chain with
  | some k => exact hc
  | none => exact ⟨c, hc, rfl⟩

theorem stays_needVersion {w : Scope} {d : Ctx} : Stays w d needVersion := by
  intro c hc
  unfold needVersion
  cases c.sess.modVersion with
  | some k => exact hc
  | none => exact ⟨c, hc, rfl⟩

/-- A store to a word of the window, the trigger apart. -/
theorem Within.store {w : Scope} {d c : Ctx} {i a : Nat} {b : List Byte} {t : Txn} (h : Within w d c)
    (ht : t ≠ .write params.regTrigger trgSrq) (hs : ∀ k, k / 4 = i → w.stores k = true) (h1 : 4 * i ≤ a)
    (h2 : a + b.length ≤ 4 * i + 4) :
    Within w d { c with link := { c.link with win := Memory.writeBytes c.link.win a b, log := t :: c.link.log } } := by
  refine { h with log := h.logged t fun _ => ht, window := fun hr k hk => ?_ }
  rw [← h.window hr k hk]
  refine Memory.read_writeBytes_outside _ _ _ _ ?_
  have : k / 4 ≠ i := fun e => by rw [hs k e] at hk; exact Bool.noConfusion hk
  omega

theorem stays_regWrite {w : Scope} {d : Ctx} {i : Nat} (v : Word) (h0 : i ≠ params.regTrigger)
    (hs : ∀ k, k / 4 = i → w.stores k = true) : Stays w d (regWrite i v) := by
  intro c hc
  simp only [run_regWrite, Link.write_store _ _ _ h0]
  exact hc.store (fun e => h0 (by injection e)) hs (Nat.le_refl _) (by simp)

theorem stays_regWrite16 {w : Scope} {d : Ctx} {i : Nat} (u : Bool) (v : Half)
    (hs : ∀ k, k / 4 = i → w.stores k = true) : Stays w d (regWrite16 i u v) := by
  intro c hc
  simp only [run_regWrite16, Link.write16]
  exact hc.store (fun e => by cases e) hs (by omega) (by rw [le16_length]; split <;> omega)

/-! ### Sequences of primitives -/

theorem stays_readWords {w : Scope} {d : Ctx} (index : Nat → Nat) (n k : Nat) : Stays w d (readWords index k n) := by
  induction n generalizing k with
  | zero => exact stays_pure _
  | succ n ih => exact stays_bind (stays_regRead _) fun _ => stays_bind (ih _) fun _ => stays_pure _

theorem stays_bulkRead {w : Scope} {d : Ctx} (i n : Nat) : Stays w d (bulkRead i n) :=
  stays_bind (stays_readWords _ _ _) fun _ => stays_pure _

theorem stays_writeWords {w : Scope} {d : Ctx} (ws : List Word) (i : Nat) (h0 : params.cmdBuf ≤ i)
    (hs : ∀ a, 4 * i ≤ a → a < 4 * (i + ws.length) → w.stores a = true) : Stays w d (writeWords i ws) := by
  induction ws generalizing i with
  | nil => exact stays_pure _
  | cons x ws ih =>
    simp only [List.length_cons] at hs
    refine stays_bind (stays_regWrite _ (by simp at h0 ⊢; omega) fun k hk => hs k (by omega) (by omega)) fun _ => ?_
    exact ih (i + 1) (by omega) fun a h1 h2 => hs a (by omega) (by omega)

theorem stays_writeHalves {w : Scope} {d : Ctx} (hs : List Half) (i : Nat) (u : Bool)
    (h : ∀ a, 4 * i ≤ a → a < 4 * i + (if u then 2 else 0) + 2 * hs.length → w.stores a = true) :
    Stays w d (writeHalves i u hs) := by
  induction hs generalizing i u with
  | nil => exact stays_pure _
  | cons x hs ih =>
    simp only [List.length_cons] at h
    have hw : Stays w d (regWrite16 i u x) := by
      intro c hc
      simp only [run_regWrite16, Link.write16]
      refine { hc with log := hc.logged _ (fun _ e => by cases e), window := fun hr k hk => ?_ }
      rw [← hc.window hr k hk]
      refine Memory.read_writeBytes_outside _ _ _ _ ?_
      rw [le16_length]
      have : ¬ (4 * i ≤ k ∧ k < 4 * i + (if u then 2 else 0) + 2 * (hs.length + 1)) := fun e => by
        rw [h k e.1 e.2] at hk; exact Bool.noConfusion hk
      omega
    refine stays_bind hw fun _ => ?_
    cases u
    · exact ih i true fun a h1 h2 => h a h1 (by simp at h2 ⊢; omega)
    · exact ih (i + 1) false fun a h1 h2 => h a (by omega) (by simp at h2 ⊢; omega)

theorem stays_deadlinePassed {w : Scope} {d : Ctx} (t0 : Nat) (timeout : Word) : Stays w d (deadlinePassed t0 timeout) :=
  Sat.ite (fun _ => stays_pure _) fun _ => stays_bind stays_now fun _ => stays_pure _

theorem stays_waitStatus {w : Scope} {d : Ctx} (set clr timeout : Word) : Stays w d (waitStatus set clr timeout) := by
  have key : ∀ set clr t0 fuel, Stays w d (pollStatus set clr timeout t0 fuel) := by
    intro set clr t0 fuel
    induction fuel with
    | zero => exact stays_wait .read
    | succ fuel ih =>
      refine stays_bind (stays_regRead _) fun s => ?_
      refine Sat.ite (fun _ => stays_raise _) fun _ => Sat.ite (fun _ => stays_pure _) fun _ => ?_
      exact stays_bind (stays_deadlinePassed _ _) fun late => Sat.ite (fun _ => stays_raise _) fun _ => ih
  exact stays_bind stays_now fun _ => stays_bind stays_readsLeft fun _ => key _ _ _ _

/-- A trigger other than the reset changes no register and stores nothing (40_device_ops.md rule R141). -/
theorem stays_trigger {w : Scope} {d : Ctx} (action : Nat) (h0 : action ≠ 0) (h1 : action = 1 → w.strobes = true) :
    Stays w d (trigger action) := by
  refine stays_require_bind fun h => ?_
  have hw : triggerWord action ≠ trgReset ∧ (action ≠ 1 → triggerWord action ≠ trgSrq) := by
    obtain ⟨-, h4⟩ := h
    have : action = 1 ∨ action = 2 ∨ action = 3 ∨ action = 4 := by omega
    rcases this with rfl | rfl | rfl | rfl <;> decide
  intro c hc
  simp only [run_bind, run_modifySess, run_regWrite, Session.onTrigger, h0, if_false, Link.write_trigger, hw.1]
  refine { hc with log := hc.logged _ fun hs e => ?_ }
  injection e with _ e
  exact hw.2 (fun ha => by rw [h1 ha] at hs; exact Bool.noConfusion hs) e

/-- The reset trigger writes the registers of 10_state.md rule R40 only. -/
theorem stays_trigger_reset {w : Scope} {d : Ctx} (h : w.reset = true) (action : Nat)
    (h1 : action = 1 → w.strobes = true) : Stays w d (trigger action) := by
  by_cases h0 : action = 0
  · refine stays_require_bind fun _ c hc => ?_
    simp only [run_bind, run_modifySess, run_regWrite, Session.onTrigger, h0, if_true, Link.write_trigger]
    constructor <;> simp only [h, Bool.true_eq_false, false_implies]
    · exact hc.time
    · exact hc.logged _ fun _ e => by injection e with _ e; exact absurd e (by decide)
    · exact hc.config
    · exact hc.channels
    · exact hc.wide
    · exact hc.cookie
  · exact stays_trigger action h0 h1

theorem stays_cfgChannels {w : Scope} {d : Ctx} (n : Nat) (h : w.channels = true)
    (hs : ∀ a, a / 4 = params.regChCtl → w.stores a = true) : Stays w d (cfgChannels n) := by
  refine stays_require_bind fun _ => stays_bind (stays_regWrite _ (by decide) hs) fun _ c hc => ?_
  exact { hc with channels := fun e => by rw [h] at e; exact Bool.noConfusion e }

theorem stays_cfgClock {w : Scope} {d : Ctx} (v ti tu : Nat) (hs : ∀ a, a / 4 = params.regClkCtl → w.stores a = true) :
    Stays w d (cfgClock v ti tu) :=
  stays_require_bind fun _ => stays_require_bind fun _ => stays_require_bind fun _ => stays_regWrite _ (by decide) hs

theorem stays_cfgReset {w : Scope} {d : Ctx} (rt ht : Nat) (hs : ∀ a, a / 4 = params.regRstCtl → w.stores a = true) :
    Stays w d (cfgReset rt ht) :=
  stays_require_bind fun _ => stays_require_bind fun _ => stays_regWrite _ (by decide) hs

/-- Besides staying within the scope, `CfgTransmit` leaves `wide16` as it was told (40_device_ops.md rule R146). -/
theorem sat_cfgTransmit {w : Scope} {d : Ctx} (len f wide lb : Nat) (h : w.wide = true)
    (hs : ∀ a, a / 4 = params.regTxCtl → w.stores a = true) :
    Sat (Within w d) (cfgTransmit len f wide lb) (fun _ c => c.sess.wide16 = (wide == 1) ∧ Within w d c) (Ended w d) := by
  have hq : ∀ {p : Prop} [Decidable p] {e : Err} {k : Op Unit},
      Sat (Within w d) k (fun _ c => c.sess.wide16 = (wide == 1) ∧ Within w d c) (Ended w d) →
      Sat (Within w d) (require p e >>= fun _ => k) (fun _ c => c.sess.wide16 = (wide == 1) ∧ Within w d c) (Ended w d) :=
    fun hk => Sat.bind (stays_require _) fun _ => hk
  refine hq <| hq <| hq <| hq <| Sat.bind (stays_regWrite _ (by decide) hs) fun _ c hc => ⟨rfl, ?_⟩
  exact { hc with wide := fun e => by rw [h] at e; exact Bool.noConfusion e }

theorem stays_cfgReceive {w : Scope} {d : Ctx} (len sk wnz lb : Nat)
    (hs : ∀ a, a / 4 = params.regRxCtl → w.stores a = true) : Stays w d (cfgReceive len sk wnz lb) :=
  stays_require_bind fun _ => stays_require_bind fun _ => stays_require_bind fun _ => stays_require_bind fun _ =>
    stays_regWrite _ (by decide) hs

/-- `WriteCommand` stores to its command's bytes of the command buffer only (20_memory.md rule R73). -/
theorem sat_writeCommand {w : Scope} {d : Ctx} (wide : Bool) (b : List Byte)
    (hs : ∀ a, commandRegion wide b.length a = true → w.stores a = true) :
    Sat (fun c => c.sess.wide16 = wide ∧ Within w d c) (writeCommand b) (fun _ => Within w d) (Ended w d) := by
  refine Sat.bind (Q := fun _ c => c.sess.wide16 = wide ∧ Within w d c)
    ((Sat.require fun c h _ => ⟨c, h.2, rfl⟩).conseq (fun _ h => h) (fun _ _ h => h.2) fun _ _ h => h) fun _ c hc => ?_
  simp only [run_bind, run_getSess, hc.1]
  cases wide
  · refine stays_writeWords _ _ (Nat.le_refl _) (fun a h1 h2 => hs a ?_) c hc.2
    rw [wordsOf_length] at h2
    simp only [commandRegion, Bool.and_eq_true, decide_eq_true_eq, Bool.false_eq_true, if_false, up4_eq]
    omega
  · refine stays_writeHalves _ _ _ (fun a h1 h2 => hs a ?_) c hc.2
    rw [halvesOf_length] at h2
    simp only [commandRegion, Bool.and_eq_true, decide_eq_true_eq, if_true, even]
    simp only [Bool.false_eq_true, if_false] at h2
    omega

/-! ### Pulls -/

theorem stays_readSkip {w : Scope} {d : Ctx} (h : w.stash = true) (total budget : Nat) : Stays w d (readSkip total budget) := by
  have hset : ∀ f : Session → List Byte, Stays w d (modifySess fun r => r.setStash (f r)) := fun f c hc =>
    { hc with stash := fun _ e => by rw [h] at e; exact Bool.noConfusion e }
  have hz : ∀ budget k, Stays w d (skipZeros k budget) := by
    intro budget
    induction budget with
    | zero => exact fun k => stays_bind (stays_regRead _) fun _ => Sat.ite (fun _ => stays_pure _) fun _ => stays_pure _
    | succ b ih => exact fun k => stays_bind (stays_regRead _) fun _ => Sat.ite (fun _ => stays_pure _) fun _ => ih _
  refine stays_getSess_bind fun r _ => Sat.ite (fun _ => stays_bind (hset _) fun _ => stays_pure _) fun _ => ?_
  refine stays_bind (hz _ _) fun x => ?_
  split
  · exact stays_pure _
  · exact stays_bind (stays_readWords _ _ _) fun ws => stays_bind (hset _) fun _ => stays_pure _

theorem stays_checkSlices {w : Scope} {d : Ctx} (size n : Nat) : Stays w d (checkSlices size n) :=
  stays_require_bind fun _ => stays_require _

theorem stays_readRx {w : Scope} {d : Ctx} (size : Nat) : Stays w d (readRx size) :=
  stays_require_bind fun _ => stays_bind (stays_bulkRead _ _) fun _ => stays_pure _

theorem stays_readRxAll {w : Scope} {d : Ctx} (size n : Nat) : Stays w d (readRxAll size n) :=
  stays_bind (stays_checkSlices _ _) fun _ => stays_bind (stays_bulkRead _ _) fun _ => stays_pure _

theorem stays_readRxStream {w : Scope} {d : Ctx} (h : w.stash = true) (size n budget : Nat) :
    Stays w d (readRxStream size n budget) :=
  stays_bind (stays_checkSlices _ _) fun _ => stays_bind (stays_readSkip h _ _) fun x => by
    split <;> exact stays_pure _

theorem stays_readRxStreamBlk {w : Scope} {d : Ctx} (h : w.stash = true) (size n : Nat) (timeout : Word) (budget : Nat) :
    Stays w d (readRxStreamBlk size n timeout budget) := by
  have key : ∀ t0 fuel, Stays w d (pullUntil (size * n) timeout budget t0 fuel) := by
    intro t0 fuel
    induction fuel with
    | zero => exact stays_wait .read
    | succ fuel ih =>
      refine stays_bind (stays_readSkip h _ _) fun x => ?_
      split
      · exact stays_pure _
      · refine stays_bind (stays_deadlinePassed _ _) fun late => Sat.ite (fun _ => stays_raise _) fun _ => ?_
        exact stays_bind stays_idlePoint fun go => Sat.ite (fun _ => ih) fun _ => stays_raise _
  exact stays_bind (stays_checkSlices _ _) fun _ => stays_bind stays_now fun _ => stays_bind stays_readsLeft fun _ =>
    stays_bind (key _ _) fun _ => stays_pure _

/-! ### Building, sending, validating -/

theorem stays_gate {w : Scope} {d : Ctx} : Stays w d gate :=
  stays_getSess_bind fun _ _ => stays_require_bind fun _ => stays_require_bind fun _ => stays_require _

/-- `Build` advances the cookie only; its command is eight bytes and the payload (41_bus_ops.md rule R181). -/
theorem sat_build {w : Scope} {d : Ctx} (h : w.cookie = true) (code address : Nat) (payload : List Byte) (rdlen : Nat) :
    Sat (Within w d) (build code address payload rdlen)
      (fun a c => a.1.length = params.headerBytes + payload.length ∧ Within w d c) (Ended w d) := by
  have hl : Stays w d (buildLength (byte code) payload rdlen) :=
    Sat.ite (fun _ => stays_require_bind fun _ => stays_require_bind fun _ => stays_pure _) fun _ =>
      stays_require_bind fun _ => Sat.ite (fun _ => stays_require_bind fun _ => stays_pure _) fun _ => stays_pure _
  have hc : Stays w d takeCookie :=
    stays_getSess_bind fun r _ => Sat.ite (fun _ => stays_pure _) fun _ => stays_bind
      (fun c hc => { hc with cookie := fun e => by rw [h] at e; exact Bool.noConfusion e }) fun _ => stays_pure _
  refine Sat.bind (stays_require _) fun _ => Sat.bind (stays_require _) fun _ => Sat.bind hl fun _ => Sat.bind hc fun _ => ?_
  exact Sat.pure fun c hc => ⟨by simp [requestBytes, le16]; omega, hc⟩

/-- The scope allows the framing words and a command of `n` bytes (41_bus_ops.md rule R182). -/
structure Scope.Sends (w : Scope) (d : Ctx) (n : Nat) : Prop where
  config : w.config = false
  wide : w.wide = true
  cookie : w.cookie = true
  stores : ∀ a, transactRegion d.sess n a = true → w.stores a = true

theorem stays_framing {w : Scope} {d : Ctx} {n : Nat} (h : w.Sends d n) (r : Session) (hr : r.cfg = d.sess.cfg)
    (cmd : List Byte) (hn : cmd.length ≤ n) (lt lr : Nat) {α : Type} {k : Op α} (hk : Stays w d k) :
    Stays w d (do
      cfgTransmit lt r.cfg.fast.toNat r.cfg.cfgWide16.toNat r.cfg.loopbackSelfTest.toNat
      cfgReceive lr r.cfg.rxSkipWords.toNat r.cfg.rxWaitNonzero.toNat r.cfg.rxLoopback.toNat
      writeCommand cmd
      trigger 2
      k) := by
  have e : (r.cfg.cfgWide16.toNat == 1) = (d.sess.cfg.cfgWide16 == 1) := by
    rw [hr, Bool.eq_iff_iff, beq_iff_eq, beq_iff_eq]
    exact ⟨fun e => BitVec.eq_of_toNat_eq (by rw [e]; rfl), fun e => by rw [e]; rfl⟩
  have h5 : ∀ a, a / 4 = params.regTxCtl → w.stores a = true := fun a ha => h.stores a (by simp [transactRegion, ha])
  have h6 : ∀ a, a / 4 = params.regRxCtl → w.stores a = true := fun a ha => h.stores a (by simp [transactRegion, ha])
  have hb : ∀ a, commandRegion (d.sess.cfg.cfgWide16 == 1) cmd.length a = true → w.stores a = true := by
    intro a ha
    refine h.stores a ?_
    have : commandRegion (d.sess.cfg.cfgWide16 == 1) n a = true := by
      simp only [commandRegion, Bool.and_eq_true, even, up4_eq] at ha ⊢
      refine ⟨ha.1, decide_eq_true (Nat.lt_of_lt_of_le (of_decide_eq_true ha.2) (Nat.add_le_add_left ?_ _))⟩
      split <;> omega
    simp only [transactRegion, this, Bool.or_true]
  refine Sat.bind (sat_cfgTransmit _ _ _ _ h.wide h5) fun _ => ?_
  have hrx : Sat (fun c => c.sess.wide16 = (r.cfg.cfgWide16.toNat == 1) ∧ Within w d c)
      (cfgReceive lr r.cfg.rxSkipWords.toNat r.cfg.rxWaitNonzero.toNat r.cfg.rxLoopback.toNat)
      (fun _ c => c.sess.wide16 = (d.sess.cfg.cfgWide16 == 1) ∧ Within w d c) (Ended w d) := by
    have hq : ∀ {p : Prop} [Decidable p] {e : Err} {k : Op Unit} {Q : Unit → Ctx → Prop} {P : Ctx → Prop},
        Sat (fun c => P c ∧ Within w d c) k Q (Ended w d) →
        Sat (fun c => P c ∧ Within w d c) (require p e >>= fun _ => k) Q (Ended w d) := fun hk =>
      Sat.bind ((Sat.require fun c h _ => ⟨c, h.2, rfl⟩).conseq (fun _ h => h) (fun _ _ h => h.2) fun _ _ h => h)
        fun _ => hk
    refine hq <| hq <| hq <| hq <| fun c hc => ?_
    have := stays_regWrite (rxWord lr r.cfg.rxSkipWords.toNat r.cfg.rxWaitNonzero.toNat r.cfg.rxLoopback.toNat)
      (by decide) h6 c hc.2
    exact ⟨hc.1.trans e, this⟩
  exact Sat.bind hrx fun _ => Sat.bind (sat_writeCommand _ _ hb) fun _ =>
    stays_bind (stays_trigger 2 (by decide) (by simp)) fun _ => hk

theorem stays_transact {w : Scope} {d : Ctx} {n : Nat} (h : w.Sends d n) (cmd : List Byte) (hn : cmd.length ≤ n)
    (lt lr : Nat) : Stays w d (transact cmd lt lr) :=
  stays_getSess_bind fun r hr => stays_framing h r (hr h.config) cmd hn lt lr <|
    stays_bind (stays_ignoring (stays_waitStatus _ _ _)) fun _ => stays_bind stays_needNch fun _ => stays_readRxAll _ _

theorem stays_validate {w : Scope} {d : Ctx} (c : Nat) (f : List Byte) (req : Request) (payload : List Byte)
    (verify count : Bool) : Stays w d (validate c f req payload verify count) := by
  have h1 : Stays w d (checkHeader c (parseHeader f) req) :=
    stays_require_bind fun _ => stays_require_bind fun _ => stays_require_bind fun _ => stays_require _
  have h2 : Stays w d (checkCount c (parseHeader f) count) :=
    Sat.ite (fun _ => stays_bind stays_needChain fun _ => stays_require _) fun _ => stays_pure _
  refine stays_bind h1 fun _ => stays_require_bind fun _ => stays_bind h2 fun _ => stays_require_bind fun _ => ?_
  refine stays_bind (Sat.ite (fun _ => ?_) fun _ => stays_pure _) fun _ => stays_bind ?_ fun _ => stays_pure _
  · split <;> first | exact stays_pure _ | exact stays_raise _
  · unfold checkIdle
    split <;> first | exact stays_pure _ | exact stays_raise _

theorem stays_validateFrom {w : Scope} {d : Ctx} (req : Request) (payload : List Byte) (verify count : Bool)
    (fs : List (List Byte)) (c : Nat) : Stays w d (validateFrom req payload verify count c fs) := by
  induction fs generalizing c with
  | nil => exact stays_pure _
  | cons f fs ih => exact stays_bind (stays_validate _ _ _ _ _ _) fun _ => stays_bind (ih _) fun _ => stays_pure _

theorem stays_coherenceCheck {w : Scope} {d : Ctx} (bodies : List (List Byte)) (n dlen : Nat) :
    Stays w d (coherenceCheck bodies n dlen) := by
  unfold coherenceCheck
  split
  · exact stays_raise _
  · split <;> first | exact stays_pure _ | exact stays_raise _

/-- A request built and sent: the command has the length its payload gives it. -/
theorem stays_build_bind {α : Type} {w : Scope} {d : Ctx} {n : Nat} (h : w.Sends d n) (code address : Nat)
    (payload : List Byte) (rdlen : Nat) (hn : params.headerBytes + payload.length ≤ n) {k : List Byte × Request → Op α}
    (hk : ∀ a, a.1.length ≤ n → Stays w d (k a)) : Stays w d (build code address payload rdlen >>= k) :=
  Sat.bind (sat_build h.cookie _ _ _ _) fun a c hc => hk a (by rw [hc.1]; exact hn) c hc.2

/-! ### Operations of the bus and SRQ families -/

theorem stays_send {w : Scope} {d : Ctx} {n : Nat} (h : w.Sends d n) (code address verify : Nat) (payload : List Byte)
    (hn : params.headerBytes + payload.length ≤ n) : Stays w d (send code address verify payload) :=
  stays_bind stays_gate fun _ => stays_require_bind fun _ => stays_require_bind fun _ =>
    stays_build_bind h _ _ _ _ hn fun _ ha => stays_bind (stays_transact h _ ha _ _) fun _ => stays_validateFrom _ _ _ _ _ _

theorem stays_checkRead {w : Scope} {d : Ctx} (address dlen : Nat) : Stays w d (checkRead address dlen) :=
  stays_require_bind fun _ => stays_require _

theorem stays_readBounded {w : Scope} {d : Ctx} {n : Nat} (h : w.Sends d n) (hn : params.headerBytes ≤ n)
    (address dlen : Nat) : Stays w d (readBounded address dlen) :=
  stays_bind stays_gate fun _ => stays_bind (stays_checkRead _ _) fun _ => stays_bind stays_needChain fun _ =>
    stays_bind stays_needNch fun _ => stays_require_bind fun _ => stays_build_bind h _ _ [] _ hn fun _ ha =>
      stays_bind (stays_transact h _ ha _ _) fun _ => stays_bind (stays_validateFrom _ _ _ _ _ _) fun _ => stays_pure _

theorem stays_pullChunks {w : Scope} {d : Ctx} (h : w.stash = true) (n : Nat) (timeout : Word) (budget k : Nat)
    (frames : List (List Byte)) : Stays w d (pullChunks n timeout budget k frames) := by
  induction k generalizing frames with
  | zero => exact stays_pure _
  | succ k ih => exact stays_bind (stays_readRxStreamBlk h _ _ _ _) fun _ => ih _

theorem stays_readStreaming {w : Scope} {d : Ctx} {n : Nat} (h : w.Sends d n) (hn : params.headerBytes ≤ n)
    (hst : w.stash = true) (address dlen : Nat) : Stays w d (readStreaming address dlen) :=
  stays_bind stays_gate fun _ => stays_bind (stays_checkRead _ _) fun _ => stays_build_bind h _ _ [] _ hn fun _ ha =>
    stays_bind stays_needChain fun _ => stays_bind stays_needNch fun _ => stays_getSess_bind fun r hr =>
      stays_framing h r (hr h.config) _ ha _ _ <| stays_bind (stays_pullChunks hst _ _ _ _ _) fun _ =>
        stays_bind (stays_trigger 3 (by decide) (by simp)) fun _ =>
          stays_bind (stays_ignoring (stays_waitStatus _ _ _)) fun _ =>
            stays_bind (stays_validateFrom _ _ _ _ _ _) fun _ => stays_pure _

theorem stays_readModuleStatus {w : Scope} {d : Ctx} {n : Nat} (h : w.Sends d n) (hn : params.headerBytes ≤ n)
    (hst : w.stash = true) : Stays w d readModuleStatus :=
  stays_bind stays_gate fun _ => stays_bind stays_needChain fun _ => stays_bind stays_needNch fun _ =>
    Sat.ite (fun _ => stays_readBounded h hn _ _) fun _ => stays_readStreaming h hn hst _ _

theorem stays_srq {w : Scope} {d : Ctx} {n : Nat} (h : w.Sends d n) (hrec : w.record = true)
    (hstr : w.strobes = true) (code param address : Nat)
    (payload : List Byte) (hn : params.headerBytes + params.srqHdrBytes + payload.length ≤ n) :
    Stays w d (srq code param address payload) := by
  have hset : ∀ x, Stays w d (modifySess fun r => r.setLastSrq x) := fun x c hc =>
    { hc with record := fun _ e => by rw [hrec] at e; exact Bool.noConfusion e }
  have hl : (srqRecord code param address payload).length = params.srqHdrBytes + payload.length := by
    simp [srqRecord, le16]; omega
  have hp : Stays w d (postRecord (srqRecord code param address payload)) :=
    stays_getSess_bind fun _ _ => Sat.ite (fun _ => stays_bind (hset _) fun _ =>
      stays_bind (stays_ignoring (stays_send h _ _ _ _ (by rw [hl]; omega))) fun _ => hset _) fun _ => stays_pure _
  exact stays_bind stays_gate fun _ => stays_require_bind fun _ => stays_require_bind fun _ => stays_require_bind fun _ =>
    stays_require_bind fun _ => stays_bind hp fun _ => stays_bind (stays_trigger 1 (by decide) fun _ => hstr) fun _ =>
      stays_getSess_bind fun _ _ => stays_ignoring (stays_waitStatus _ _ _)

theorem stays_legacyWait {w : Scope} {d : Ctx} (delay : Nat) : Stays w d (legacyWait delay) := by
  have key : ∀ target fuel, Stays w d (waitUntil target fuel) := by
    intro target fuel
    induction fuel with
    | zero => exact stays_wait .tick
    | succ fuel ih => exact stays_bind stays_now fun _ => Sat.ite (fun _ => stays_pure _) fun _ => ih
  exact Sat.ite (fun _ => stays_bind stays_now fun _ => stays_bind stays_ticksLeft fun _ => key _ _) fun _ => stays_pure _

theorem stays_srqSync {w : Scope} {d : Ctx} {n : Nat} (h : w.Sends d n) (hrec : w.record = true) (hst : w.stash = true)
    (hstr : w.strobes = true) (code param address delay : Nat) (payload : List Byte)
    (hn : params.headerBytes + params.srqHdrBytes + payload.length ≤ n) :
    Stays w d (srqSync code param address delay payload) := by
  have hs : Stays w d checkSrqStatus := by
    refine stays_getSess_bind fun _ _ => Sat.ite (fun _ => ?_) fun _ => stays_pure _
    refine stays_bind (stays_readModuleStatus h (by omega) hst) fun _ => stays_bind stays_needChain fun _ =>
      stays_bind stays_needNch fun _ => ?_
    split <;> first | exact stays_pure _ | exact stays_raise _
  refine stays_bind stays_gate fun _ => stays_require_bind fun _ => stays_bind stays_needVersion fun _ => ?_
  refine Sat.ite (fun _ => stays_bind (stays_srq h hrec hstr _ _ _ _ hn) fun _ => hs) fun _ => ?_
  refine stays_bind (stays_srq h hrec hstr _ _ _ _ hn) fun _ => stays_bind (stays_legacyWait _) fun _ => ?_
  exact Sat.ite (fun _ => stays_bind (stays_ignoring (stays_send h _ _ _ [] (by simp at hn ⊢; omega))) fun _ => hs)
    fun _ => hs

end Sys2Proof.Machine
end

