-- ==== Sys2Proof/Laws/Modules.lean ====
section
/-! SUPPORT. The known bytes of the modules, by channel and address: what a store to all configured channels writes and
what it leaves, and that it keeps the canonical form. -/

namespace Sys2Proof.Machine

/-- Two bytes of the modules stand in one place only when channel and address agree. -/
theorem cellOf_eq {c d a b : Nat} (ha : a < moduleBytes) (hb : b < moduleBytes) (h : cellOf c a = cellOf d b) :
    c = d ∧ a = b := by
  simp only [cellOf, moduleBytes] at *
  omega

theorem Memory.writeAll_wf (m : Memory) (addr : Nat) (bytes : List Byte) (cs : List Nat) (h : Memory.wf m) :
    Memory.wf (Memory.writeAll m addr bytes cs) := by
  induction cs generalizing m with
  | nil => exact h
  | cons c cs ih => exact ih _ (Memory.writeBytes_wf _ _ _ h)

/-- A store to the modules of some channels leaves every other channel, and every address outside it, alone. -/
theorem Memory.readAt_writeAll_outside (m : Memory) (addr : Nat) (bytes : List Byte) (cs : List Nat) (d a : Nat)
    (hfit : addr + bytes.length ≤ moduleBytes) (h : d ∉ cs ∨ a < addr ∨ addr + bytes.length ≤ a) :
    Memory.readAt (Memory.writeAll m addr bytes cs) d a = Memory.readAt m d a := by
  induction cs generalizing m with
  | nil => rfl
  | cons c cs ih =>
    rw [Memory.writeAll, ih _ (h.imp_left fun h hm => h (List.mem_cons_of_mem _ hm))]
    unfold Memory.readAt
    split
    · next ha =>
      refine Memory.read_writeBytes_outside _ _ _ _ ?_
      simp only [cellOf, moduleBytes] at *
      rcases h with h | h
      · have : d ≠ c := fun e => h (e ▸ List.mem_cons_self ..)
        omega
      · by_cases e : d = c
        · subst e; omega
        · omega
    · rfl

/-- What is stored to the modules of a channel reads back. -/
theorem Memory.readAt_writeAll_inside (m : Memory) (addr : Nat) (bytes : List Byte) (cs : List Nat) (d i : Nat)
    (hfit : addr + bytes.length ≤ moduleBytes) (hd : d ∈ cs) (hi : i < bytes.length) :
    Memory.readAt (Memory.writeAll m addr bytes cs) d (addr + i) = bytes[i]? := by
  induction cs generalizing m with
  | nil => cases hd
  | cons c cs ih =>
    rw [Memory.writeAll]
    by_cases hm : d ∈ cs
    · exact ih _ hm
    · obtain rfl : d = c := (List.mem_cons.mp hd).resolve_right hm
      rw [Memory.readAt_writeAll_outside _ _ _ _ _ _ hfit (.inl hm), Memory.readAt,
        if_pos (by omega), show cellOf d (addr + i) = cellOf d addr + i by simp only [cellOf]; omega]
      exact Memory.read_writeBytes_inside _ _ _ _ hi

/-- The bytes a start sends are as many as its length says. -/
theorem sentBytes_length (win : Memory) (k : Nat) : (sentBytes win k).length = sentLength win k := by simp [sentBytes]

end Sys2Proof.Machine
end

