-- ==== Sys2Proof/Laws/PerInstr.lean ====
section
/-! SUPPORT. Laws stated per instruction. `EncodedLength`: how many bytes the encoding of an instruction takes
(30_encoding.md rules R100, R103, R110). -/

namespace Sys2Proof.Laws

open Config (params)

/-- The bytes of `data`, of a payload, or none. -/
def variablePart : Instr → Nat
  | .trigger _ => 0
  | .waitStatus _ _ _ => 0
  | .cfgChannels _ => 0
  | .cfgClock _ _ _ => 0
  | .cfgReset _ _ => 0
  | .cfgTransmit _ _ _ _ => 0
  | .cfgReceive _ _ _ _ => 0
  | .writeCommand data => data.length
  | .readRx _ => 0
  | .readRxAll _ _ => 0
  | .readRxStream _ _ _ => 0
  | .readRxStreamBlk _ _ _ _ => 0
  | .loadConfig data => data.length
  | .send _ _ _ data => data.length
  | .busWrite _ data => data.length
  | .busWait => 0
  | .readBounded _ _ => 0
  | .readStreaming _ _ => 0
  | .readCoherent _ _ => 0
  | .initBus => 0
  | .srq _ _ _ data => data.length
  | .srqSync _ _ _ _ data => data.length
  | .program _ data => data.length
  | .readModuleStatus => 0
  | .codeEnum _ => 0
  | .codeWait _ => 0
  | .codeTest _ payload => payload.length
  | .codeWrite _ payload => payload.length
  | .codePoll _ payload => payload.length
  | .codeRead _ => 0
  | .srqEraseWrite r => r.payload.length
  | .srqWrite r => r.payload.length
  | .srqRunProc r => r.payload.length

/-- The bytes before it: five words of a descriptor, the header of a command, the first four bytes of a record. -/
def fixedPart : Format → Nat
  | .descriptor => 5 * params.wordBytes
  | .command => params.headerBytes
  | .srqRecord => params.srqHdrBytes

/-- The encoding of the instruction has its fixed part and its variable part and nothing more. -/
def EncodedLength.Statement (i : Instr) : Prop := (encode i).length = fixedPart i.format + variablePart i

theorem descriptor_length (op : Nat) (a0 a1 a2 a3 : Word) (data : List Byte) :
    (descriptor op a0 a1 a2 a3 data).length = fixedPart .descriptor + data.length := by
  simp [descriptor, bytesOfDescriptor, Machine.le32, fixedPart, params]; omega

theorem commandBytes_length (code : Byte) (h : CmdHeader) (payload : List Byte) :
    (commandBytes code h payload).length = fixedPart .command + payload.length := by
  simp [commandBytes, Machine.le16, fixedPart, params]; omega

theorem recordBytes_length (request : Byte) (r : SrqFields) :
    (recordBytes request r).length = fixedPart .srqRecord + r.payload.length := by
  simp [recordBytes, Machine.le16, fixedPart, params]; omega

theorem EncodedLength.trigger (a : Word) : EncodedLength.Statement (.trigger a) :=
  descriptor_length _ _ _ _ _ _

theorem EncodedLength.waitStatus (st cl t : Word) : EncodedLength.Statement (.waitStatus st cl t) :=
  descriptor_length _ _ _ _ _ _

theorem EncodedLength.cfgChannels (n : Word) : EncodedLength.Statement (.cfgChannels n) :=
  descriptor_length _ _ _ _ _ _

theorem EncodedLength.cfgClock (d ti tu : Word) : EncodedLength.Statement (.cfgClock d ti tu) :=
  descriptor_length _ _ _ _ _ _

theorem EncodedLength.cfgReset (rt ht : Word) : EncodedLength.Statement (.cfgReset rt ht) :=
  descriptor_length _ _ _ _ _ _

theorem EncodedLength.cfgTransmit (len f w lb : Word) : EncodedLength.Statement (.cfgTransmit len f w lb) :=
  descriptor_length _ _ _ _ _ _

theorem EncodedLength.cfgReceive (len sk wnz lb : Word) :
    EncodedLength.Statement (.cfgReceive len sk wnz lb) :=
  descriptor_length _ _ _ _ _ _

theorem EncodedLength.writeCommand (data : List Byte) : EncodedLength.Statement (.writeCommand data) :=
  descriptor_length _ _ _ _ _ _

theorem EncodedLength.readRx (size : Word) : EncodedLength.Statement (.readRx size) :=
  descriptor_length _ _ _ _ _ _

theorem EncodedLength.readRxAll (size n : Word) : EncodedLength.Statement (.readRxAll size n) :=
  descriptor_length _ _ _ _ _ _

theorem EncodedLength.readRxStream (size n budget : Word) :
    EncodedLength.Statement (.readRxStream size n budget) :=
  descriptor_length _ _ _ _ _ _

theorem EncodedLength.readRxStreamBlk (size n timeout budget : Word) :
    EncodedLength.Statement (.readRxStreamBlk size n timeout budget) :=
  descriptor_length _ _ _ _ _ _

theorem EncodedLength.loadConfig (data : List Byte) : EncodedLength.Statement (.loadConfig data) :=
  descriptor_length _ _ _ _ _ _

theorem EncodedLength.send (code address verify : Word) (data : List Byte) :
    EncodedLength.Statement (.send code address verify data) :=
  descriptor_length _ _ _ _ _ _

theorem EncodedLength.busWrite (address : Word) (data : List Byte) :
    EncodedLength.Statement (.busWrite address data) :=
  descriptor_length _ _ _ _ _ _

theorem EncodedLength.busWait : EncodedLength.Statement .busWait :=
  descriptor_length _ _ _ _ _ _

theorem EncodedLength.readBounded (address dlen : Word) :
    EncodedLength.Statement (.readBounded address dlen) :=
  descriptor_length _ _ _ _ _ _

theorem EncodedLength.readStreaming (address dlen : Word) :
    EncodedLength.Statement (.readStreaming address dlen) :=
  descriptor_length _ _ _ _ _ _

theorem EncodedLength.readCoherent (address dlen : Word) :
    EncodedLength.Statement (.readCoherent address dlen) :=
  descriptor_length _ _ _ _ _ _

theorem EncodedLength.initBus : EncodedLength.Statement .initBus :=
  descriptor_length _ _ _ _ _ _

theorem EncodedLength.srq (code param address : Word) (data : List Byte) :
    EncodedLength.Statement (.srq code param address data) :=
  descriptor_length _ _ _ _ _ _

theorem EncodedLength.srqSync (code param address delay : Word) (data : List Byte) :
    EncodedLength.Statement (.srqSync code param address delay data) :=
  descriptor_length _ _ _ _ _ _

theorem EncodedLength.program (address : Word) (data : List Byte) :
    EncodedLength.Statement (.program address data) :=
  descriptor_length _ _ _ _ _ _

theorem EncodedLength.readModuleStatus : EncodedLength.Statement .readModuleStatus :=
  descriptor_length _ _ _ _ _ _

theorem EncodedLength.codeEnum (h : CmdHeader) : EncodedLength.Statement (.codeEnum h) :=
  commandBytes_length _ _ _

theorem EncodedLength.codeWait (h : CmdHeader) : EncodedLength.Statement (.codeWait h) :=
  commandBytes_length _ _ _

theorem EncodedLength.codeTest (h : CmdHeader) (payload : List Byte) :
    EncodedLength.Statement (.codeTest h payload) :=
  commandBytes_length _ _ _

theorem EncodedLength.codeWrite (h : CmdHeader) (payload : List Byte) :
    EncodedLength.Statement (.codeWrite h payload) :=
  commandBytes_length _ _ _

theorem EncodedLength.codePoll (h : CmdHeader) (payload : List Byte) :
    EncodedLength.Statement (.codePoll h payload) :=
  commandBytes_length _ _ _

theorem EncodedLength.codeRead (h : CmdHeader) : EncodedLength.Statement (.codeRead h) :=
  commandBytes_length _ _ _

theorem EncodedLength.srqEraseWrite (r : SrqFields) : EncodedLength.Statement (.srqEraseWrite r) :=
  recordBytes_length _ _

theorem EncodedLength.srqWrite (r : SrqFields) : EncodedLength.Statement (.srqWrite r) :=
  recordBytes_length _ _

theorem EncodedLength.srqRunProc (r : SrqFields) : EncodedLength.Statement (.srqRunProc r) :=
  recordBytes_length _ _

end Sys2Proof.Laws
end

