-- ==== Sys2Proof/Laws/Runs.lean ====
section
/-! SUPPORT. How the shared sequences run when the answers they wait for stand next in the oracle inputs: for each, one
lemma that says what it answers and in which context it ends. -/

namespace Sys2Proof.Machine

open Config

/-! ### Answers -/

/-- What `offers` says of the three lists. -/
theorem Env.offers_iff (e : Env) (a : Answers) : e.offers a = true ↔
    e.reads = a.reads ++ e.reads.drop a.reads.length ∧ e.ticks = a.ticks ++ e.ticks.drop a.ticks.length
    ∧ e.idles = a.idles ++ e.idles.drop a.idles.length := by
  have key : ∀ {α : Type} [BEq α] [LawfulBEq α] (p l : List α), p.isPrefixOf l = true ↔ l = p ++ l.drop p.length := by
    intro α _ _ p l
    rw [List.isPrefixOf_iff_prefix, List.prefix_iff_eq_append]
    exact eq_comm
  simp only [Env.offers, Bool.and_eq_true, key, and_assoc]

@[simp] theorem Env.used_now (e : Env) (a : Answers) : (e.used a).now = e.now + a.ticks.sum := rfl
@[simp] theorem Env.used_reads (e : Env) (a : Answers) : (e.used a).reads = e.reads.drop a.reads.length := rfl
@[simp] theorem Env.used_ticks (e : Env) (a : Answers) : (e.used a).ticks = e.ticks.drop a.ticks.length := rfl
@[simp] theorem Env.used_idles (e : Env) (a : Answers) : (e.used a).idles = e.idles.drop a.idles.length := rfl

@[simp] theorem Answers.followedBy_reads (a b : Answers) : (a.followedBy b).reads = a.reads ++ b.reads := rfl
@[simp] theorem Answers.followedBy_ticks (a b : Answers) : (a.followedBy b).ticks = a.ticks ++ b.ticks := rfl
@[simp] theorem Answers.followedBy_idles (a b : Answers) : (a.followedBy b).idles = a.idles ++ b.idles := rfl

/-- Using answers one after the other. -/
theorem Env.used_used (e : Env) (a b : Answers) : (e.used a).used b = e.used (a.followedBy b) := by
  simp [Env.used, List.drop_drop, List.length_append, Nat.add_assoc]

/-- Offering answers one after the other. -/
theorem Env.offers_followedBy (e : Env) (a b : Answers) :
    e.offers (a.followedBy b) = (e.offers a && (e.used a).offers b) := by
  have key : ∀ {α : Type} [BEq α] [LawfulBEq α] (p q l : List α),
      (p ++ q).isPrefixOf l = (p.isPrefixOf l && q.isPrefixOf (l.drop p.length)) := by
    intro α _ _ p
    induction p with
    | nil => intro q l; simp
    | cons x p ih =>
      intro q l
      cases l with
      | nil => simp
      | cons y l => simp [List.isPrefixOf, ih, Bool.and_assoc]
  simp only [Env.offers, Answers.followedBy, Env.used, key]
  cases a.reads.isPrefixOf e.reads <;> cases a.ticks.isPrefixOf e.ticks <;> cases a.idles.isPrefixOf e.idles <;> simp

/-! ### Reads and writes of the window -/

@[simp] theorem Link.noteReads_nil (l : Link) : l.noteReads [] = l := rfl
@[simp] theorem Link.noteReads_cons (l : Link) (i : Nat) (v : Word) (rest : List (Nat × Word)) :
    l.noteReads ((i, v) :: rest) = (l.noteRead i v).noteReads rest := rfl

theorem Link.noteReads_append (l : Link) (a b : List (Nat × Word)) : l.noteReads (a ++ b) = (l.noteReads a).noteReads b := by
  induction a generalizing l with
  | nil => rfl
  | cons p a ih => exact ih _

/-- Reads change the record of transactions only. -/
theorem Link.noteReads_eq (l : Link) (a : List (Nat × Word)) :
    l.noteReads a = { l with log := (a.map fun p => Txn.read p.1 p.2).reverse ++ l.log } := by
  induction a generalizing l with
  | nil => rfl
  | cons p a ih =>
    obtain ⟨i, v⟩ := p
    rw [Link.noteReads_cons, ih]
    simp [Link.noteRead]

theorem numbered_append (index : Nat → Nat) (k : Nat) (a b : List Word) :
    numbered index k (a ++ b) = numbered index k a ++ numbered index (k + a.length) b := by
  induction a generalizing k with
  | nil => rfl
  | cons w a ih =>
    simp only [List.cons_append, numbered, ih, List.length_cons]
    rw [show k + (a.length + 1) = k + 1 + a.length by omega]

/-- The context after the words `ws` have been read at `index k`, `index (k + 1)`, ... -/
def Ctx.readOn (c : Ctx) (index : Nat → Nat) (k : Nat) (ws rest : List Word) : Ctx :=
  { c with link := c.link.noteReads (numbered index k ws), env := { c.env with reads := rest } }

/-- Reading words whose answers stand next. -/
theorem run_readWords (index : Nat → Nat) (ws rest : List Word) (k : Nat) (c : Ctx) (h : c.env.reads = ws ++ rest) :
    readWords index k ws.length c = .ok ws (c.readOn index k ws rest) := by
  induction ws generalizing k c with
  | nil => simp at h; simp [readWords, Ctx.readOn, numbered, ← h]
  | cons w ws ih =>
    rw [List.cons_append] at h
    simp only [List.length_cons, readWords]
    rw [run_bind, run_regRead_cons _ c w (ws ++ rest) h]
    simp only []
    rw [run_bind, ih (k + 1) _ rfl]
    rfl

/-- `BulkWrite` issues one word write per word, in rising order of the indexes (20_memory.md rule R73). -/
theorem Link.writeWords_log (l : Link) (ws : List Word) (i k : Nat) (h : i ≠ params.regTrigger) :
    (l.writeWords (i + k) ws).log.reverse = l.log.reverse ++ (ws.zipIdx k).map fun p => .write (i + p.2) p.1 := by
  induction ws generalizing l k with
  | nil => simp [Link.writeWords]
  | cons w ws ih =>
    have hi : i + k ≠ params.regTrigger := by simp only [params_regTrigger] at h ⊢; omega
    rw [Link.writeWords, show i + k + 1 = i + (k + 1) by omega, ih, Link.write_store _ _ _ hi]
    simp

/-- `BulkWrite16` issues one half-word write per half-word, the lower half of each word first (20_memory.md rule
R73). -/
theorem Link.writeHalves_log (l : Link) (hs : List Half) (i k : Nat) :
    (l.writeHalves (i + k / 2) (k % 2 == 1) hs).log.reverse =
      l.log.reverse ++ (hs.zipIdx k).map fun p => .write16 (i + p.2 / 2) (p.2 % 2 == 1) p.1 := by
  induction hs generalizing l k with
  | nil => simp [Link.writeHalves]
  | cons x hs ih =>
    have e : (if (k % 2 == 1) = true then i + k / 2 + 1 else i + k / 2) = i + (k + 1) / 2 := by
      rcases Nat.mod_two_eq_zero_or_one k with h | h <;> simp [h] <;> omega
    have e2 : (!(k % 2 == 1)) = ((k + 1) % 2 == 1) := by
      rcases Nat.mod_two_eq_zero_or_one k with h | h <;> simp [h] <;> omega
    rw [Link.writeHalves, e, e2, ih]
    simp [Link.write16]

theorem run_writeWords (ws : List Word) (i : Nat) (c : Ctx) :
    writeWords i ws c = .ok () { c with link := c.link.writeWords i ws } := by
  induction ws generalizing i c with
  | nil => rfl
  | cons w ws ih => simp only [writeWords, run_bind, run_regWrite, ih]; rfl

theorem run_writeHalves (hs : List Half) (i : Nat) (upper : Bool) (c : Ctx) :
    writeHalves i upper hs c = .ok () { c with link := c.link.writeHalves i upper hs } := by
  induction hs generalizing i upper c with
  | nil => rfl
  | cons h hs ih => simp only [writeHalves, run_bind, run_regWrite16, ih]; rfl

/-- `BulkRead` of whole words (20_memory.md rule R74). -/
theorem run_bulkRead (i n : Nat) (ws rest : List Word) (c : Ctx) (h : c.env.reads = ws ++ rest) (hn : ws.length = n / 4) :
    bulkRead i n c = .ok (bytesOf ws) (c.readOn (fun k => i + k) 0 ws rest) := by
  simp only [bulkRead, params_wordBytes, ← hn, run_bind, run_readWords _ ws rest 0 c h, run_pure]

/-- `WriteCommand` (40_device_ops.md rule R148). -/
theorem run_writeCommand (b : List Byte) (c : Ctx) (h : b.length ≤ 264) :
    writeCommand b c = .ok () { c with link := c.link.writeCommand c.sess.wide16 b } := by
  simp only [writeCommand, checkRange]
  rw [run_bind, run_require_true _ _ _ (by simpa using h)]
  simp only [run_bind, run_getSess, Link.writeCommand]
  cases c.sess.wide16
  · exact run_writeWords _ _ _
  · exact run_writeHalves _ _ _ _

/-! ### The control words -/

theorem run_checkRange (o v lo hi : Nat) (c : Ctx) (h : lo ≤ v ∧ v ≤ hi) : checkRange o v lo hi c = .ok () c :=
  run_require_true _ _ _ h

theorem run_checkRange_error (o v lo hi : Nat) (c : Ctx) (h : ¬ (lo ≤ v ∧ v ≤ hi)) :
    checkRange o v lo hi c = .error (.raise (.invalidConfig o v lo hi)) c :=
  run_require_false _ _ _ h

/-- `Trigger` with a legal action (40_device_ops.md rule R141). -/
theorem run_trigger (action : Nat) (c : Ctx) (h : action ≤ 4) :
    trigger action c =
      .ok () { c with sess := c.sess.onTrigger action, link := c.link.write params.regTrigger (triggerWord action) } := by
  simp only [trigger, run_bind, run_checkRange _ _ _ _ c ⟨Nat.zero_le _, h⟩, run_modifySess, run_regWrite]

theorem run_cfgChannels (n : Nat) (c : Ctx) (h1 : 1 ≤ n) (h2 : n ≤ 8) :
    cfgChannels n c =
      .ok () { c with sess := c.sess.setNch n, link := c.link.write params.regChCtl (BitVec.ofNat 32 n) } := by
  simp only [cfgChannels, run_bind, run_checkRange _ _ _ _ c (show 1 ≤ n ∧ n ≤ params.nchMax from ⟨h1, h2⟩),
    run_modifySess, run_regWrite]

theorem run_cfgClock (d ti tu : Nat) (c : Ctx) (h1 : d ≤ 255) (h2 : ti ≤ 255) (h3 : tu ≤ 255) :
    cfgClock d ti tu c = .ok () { c with link := c.link.write params.regClkCtl (clockWord d ti tu) } := by
  simp only [cfgClock, run_bind, run_checkRange _ _ _ _ c (show 0 ≤ d ∧ d ≤ 255 from ⟨Nat.zero_le _, h1⟩),
    run_checkRange _ _ _ _ c (show 0 ≤ ti ∧ ti ≤ 255 from ⟨Nat.zero_le _, h2⟩),
    run_checkRange _ _ _ _ c (show 0 ≤ tu ∧ tu ≤ 255 from ⟨Nat.zero_le _, h3⟩), run_regWrite]

theorem run_cfgReset (rt ht : Nat) (c : Ctx) (h1 : rt ≤ 65535) (h2 : ht ≤ 65535) :
    cfgReset rt ht c = .ok () { c with link := c.link.write params.regRstCtl (resetWord rt ht) } := by
  simp only [cfgReset, run_bind, run_checkRange _ _ _ _ c (show 0 ≤ rt ∧ rt ≤ 65535 from ⟨Nat.zero_le _, h1⟩),
    run_checkRange _ _ _ _ c (show 0 ≤ ht ∧ ht ≤ 65535 from ⟨Nat.zero_le _, h2⟩), run_regWrite]

theorem run_cfgTransmit (len f w lb : Nat) (c : Ctx) (h1 : len ≤ 65535) (h2 : f ≤ 1) (h3 : w ≤ 1) (h4 : lb ≤ 1) :
    cfgTransmit len f w lb c =
      .ok () { c with sess := c.sess.setWide16 (w == 1), link := c.link.write params.regTxCtl (txWord len f w lb) } := by
  simp only [cfgTransmit, checkBool, run_bind,
    run_checkRange _ _ _ _ c (show 0 ≤ len ∧ len ≤ 65535 from ⟨Nat.zero_le _, h1⟩),
    run_checkRange _ _ _ _ c (show 0 ≤ f ∧ f ≤ 1 from ⟨Nat.zero_le _, h2⟩),
    run_checkRange _ _ _ _ c (show 0 ≤ w ∧ w ≤ 1 from ⟨Nat.zero_le _, h3⟩),
    run_checkRange _ _ _ _ c (show 0 ≤ lb ∧ lb ≤ 1 from ⟨Nat.zero_le _, h4⟩), run_modifySess, run_regWrite]

theorem run_cfgReceive (len sk wnz lb : Nat) (c : Ctx) (h1 : len ≤ 65535) (h2 : sk ≤ 255) (h3 : wnz ≤ 1) (h4 : lb ≤ 1) :
    cfgReceive len sk wnz lb c = .ok () { c with link := c.link.write params.regRxCtl (rxWord len sk wnz lb) } := by
  simp only [cfgReceive, checkBool, run_bind,
    run_checkRange _ _ _ _ c (show 0 ≤ len ∧ len ≤ 65535 from ⟨Nat.zero_le _, h1⟩),
    run_checkRange _ _ _ _ c (show 0 ≤ sk ∧ sk ≤ 255 from ⟨Nat.zero_le _, h2⟩),
    run_checkRange _ _ _ _ c (show 0 ≤ wnz ∧ wnz ≤ 1 from ⟨Nat.zero_le _, h3⟩),
    run_checkRange _ _ _ _ c (show 0 ≤ lb ∧ lb ≤ 1 from ⟨Nat.zero_le _, h4⟩), run_regWrite]

/-! ### Status waits -/

/-- The status polls of `ws`, with the advances `ds` of the time base. -/
def Ctx.polledOn (c : Ctx) (ws : List Word) (ds : List Nat) (rest : List Word) (ts : List Nat) : Ctx :=
  { c with
    link := c.link.noteReads (ws.map fun w => (params.regStatus, w))
    env := { c.env with now := c.env.now + ds.sum, reads := rest, ticks := ts } }

/-- A deadline test that does not pass. -/
theorem run_deadlinePassed (t0 : Nat) (timeout : Word) (c : Ctx) (d : Nat) (ts : List Nat)
    (h : timeout ≠ params.noTimeout) (ht : c.env.ticks = d :: ts) :
    deadlinePassed t0 timeout c = .ok (decide (t0 + timeout.toNat ≤ c.env.now + d))
      { c with env := { c.env with now := c.env.now + d, ticks := ts } } := by
  simp only [deadlinePassed, h, if_false, run_bind, run_now_cons c d ts ht, run_pure, expired]

theorem run_deadlinePassed_none (t0 : Nat) (c : Ctx) : deadlinePassed t0 params.noTimeout c = .ok false c := by
  simp [deadlinePassed]

/-- One poll that ends nothing. -/
theorem pollStatus_step (set clr timeout : Word) (t0 fuel : Nat) (c : Ctx) (w : Word) (rest : List Word)
    (hr : c.env.reads = w :: rest) (hf : hasFailed w = false) (hh : holds w set clr = false) :
    pollStatus set clr timeout t0 (fuel + 1) c =
      (deadlinePassed t0 timeout >>= fun late =>
        if late then raise (.timeout set clr w false) else pollStatus set clr timeout t0 fuel)
      { c with link := c.link.noteRead params.regStatus w, env := { c.env with reads := rest } } := by
  rw [pollStatus, run_bind, run_regRead_cons _ c w rest hr]
  simp only [hf, hh, Bool.false_eq_true, if_false]

/-- The polls before the last one are used up, whatever comes then (40_device_ops.md rule R142). -/
theorem pollStatus_pending (set clr timeout : Word) (t0 fuel : Nat) (ws : List Word) (ds : List Nat) (c : Ctx)
    (rest : List Word) (ts : List Nat) (hw : ∀ w ∈ ws, hasFailed w = false ∧ holds w set clr = false)
    (hr : c.env.reads = ws ++ rest) (ht : c.env.ticks = ds ++ ts)
    (hn : timeout = params.noTimeout → ds = [])
    (hd : timeout ≠ params.noTimeout → ds.length = ws.length ∧ (ws = [] ∨ c.env.now + ds.sum < t0 + timeout.toNat)) :
    pollStatus set clr timeout t0 (ws.length + fuel) c =
      pollStatus set clr timeout t0 fuel (c.polledOn ws ds rest ts) := by
  induction ws generalizing c ds with
  | nil =>
    have : ds = [] := by
      by_cases h : timeout = params.noTimeout
      · exact hn h
      · exact List.length_eq_zero_iff.mp (hd h).1
    subst this
    have e : c.polledOn [] [] rest ts = c := by
      obtain ⟨s, l, ⟨n, r, t, i⟩⟩ := c
      simp at hr ht
      simp [Ctx.polledOn, hr, ht]
    rw [e]; simp
  | cons w ws ih =>
    obtain ⟨hf, hh⟩ := hw w (by simp)
    have hw' : ∀ w ∈ ws, hasFailed w = false ∧ holds w set clr = false := fun w h => hw w (by simp [h])
    obtain ⟨sess, link, ⟨nw, reads, ticks, idles⟩⟩ := c
    simp only [] at hr ht hd
    subst hr ht
    rw [List.length_cons, show ws.length + 1 + fuel = (ws.length + fuel) + 1 by omega,
      pollStatus_step _ _ _ _ _ _ w (ws ++ rest) rfl hf hh, run_bind]
    by_cases h : timeout = params.noTimeout
    · have := hn h; subst this; subst h
      rw [run_deadlinePassed_none]
      exact ih [] _ hw' rfl rfl (fun _ => rfl) fun h => absurd rfl h
    · obtain ⟨hl, hs⟩ := hd h
      cases ds with
      | nil => simp at hl
      | cons d ds =>
        simp only [List.length_cons, Nat.add_right_cancel_iff] at hl
        rcases hs with hs | hs
        · simp at hs
        · rw [List.sum_cons] at hs
          rw [run_deadlinePassed t0 timeout _ d (ds ++ ts) h rfl]
          have hlt : ¬ (t0 + timeout.toNat ≤ nw + d) := by omega
          simp only [hlt, decide_false, Bool.false_eq_true, if_false]
          refine (ih ds _ hw' rfl rfl (fun h' => absurd h' h) fun _ => ⟨hl, .inr (by simp only []; omega)⟩).trans ?_
          simp [Ctx.polledOn, Nat.add_assoc]

/-- Everything before the last poll of a wait (40_device_ops.md rule R142). -/
theorem waitStatus_pending (set clr timeout : Word) (x : Polling) (c : Ctx) (rest : List Word) (ts : List Nat)
    (h : x.goesOn set clr timeout = true) (hr : c.env.reads = x.polls ++ x.last :: rest)
    (ht : c.env.ticks = x.first :: (x.later ++ ts)) :
    waitStatus set clr timeout c =
      pollStatus (set &&& statusBits) (clr &&& statusBits) timeout (c.env.now + x.first) (rest.length + 1)
        (({ c with env := { c.env with now := c.env.now + x.first, ticks := x.later ++ ts } } : Ctx).polledOn x.polls
          x.later (x.last :: rest) ts) := by
  simp only [Polling.goesOn, Bool.and_eq_true, List.all_eq_true, pending, inTime, Bool.not_eq_true'] at h
  obtain ⟨hw, hi⟩ := h
  simp only [waitStatus, run_bind, run_now_cons c x.first (x.later ++ ts) ht, run_readsLeft, hr]
  rw [show (x.polls ++ x.last :: rest).length = x.polls.length + (rest.length + 1) by simp]
  refine pollStatus_pending _ _ _ _ _ _ _ _ _ _ hw rfl rfl (fun hn => ?_) fun hn => ?_
  · simpa [hn] using hi
  · simp only [hn, if_false, Bool.and_eq_true, beq_iff_eq, Bool.or_eq_true, decide_eq_true_eq] at hi
    refine ⟨hi.1, hi.2.imp (fun h => List.length_eq_zero_iff.mp h) fun h => ?_⟩
    simp only []; omega

/-- The context of a wait's end, in the terms of `Ctx.polled`. -/
theorem Ctx.polled_eq (c : Ctx) (x : Polling) (rest : List Word) (ts : List Nat)
    (hr : c.env.reads = x.polls ++ x.last :: rest) (ht : c.env.ticks = x.first :: (x.later ++ ts)) :
    c.polled x = { c with
      link := (c.link.noteReads (x.polls.map fun w => (params.regStatus, w))).noteRead params.regStatus x.last
      env := { c.env with now := c.env.now + x.first + x.later.sum, reads := rest, ticks := ts } } := by
  have e1 : c.env.reads.drop (x.polls ++ [x.last]).length = rest := by
    rw [hr, show x.polls ++ x.last :: rest = (x.polls ++ [x.last]) ++ rest by simp, List.drop_left]
  have e2 : c.env.ticks.drop (x.first :: x.later).length = ts := by
    rw [ht, ← List.cons_append, List.drop_left]
  simp only [Ctx.polled, Env.used, Polling.answers, e1, e2, List.drop_zero, List.length_nil, List.sum_cons,
    List.map_append, List.map_cons, List.map_nil, Link.noteReads_append, Link.noteReads_cons, Link.noteReads_nil,
    Nat.add_assoc]

theorem Polling.offered {c : Ctx} {x : Polling} (h : c.env.offers x.answers = true) :
    ∃ rest ts, c.env.reads = x.polls ++ x.last :: rest ∧ c.env.ticks = x.first :: (x.later ++ ts) := by
  rw [Env.offers_iff] at h
  refine ⟨c.env.reads.drop x.answers.reads.length, c.env.ticks.drop x.answers.ticks.length, ?_, h.2.1⟩
  have := h.1
  simp only [Polling.answers, List.append_assoc, List.singleton_append] at this
  exact this

/-- `WaitStatus` that succeeds (40_device_ops.md rule R142). -/
theorem run_waitStatus (set clr timeout : Word) (x : Polling) (c : Ctx) (h : x.succeeds set clr timeout = true)
    (ho : c.env.offers x.answers = true) : waitStatus set clr timeout c = .ok x.last (c.polled x) := by
  obtain ⟨rest, ts, hr, ht⟩ := Polling.offered ho
  simp only [Polling.succeeds, Bool.and_eq_true, Bool.not_eq_true'] at h
  rw [waitStatus_pending _ _ _ x c rest ts h.1.1 hr ht, pollStatus, run_bind,
    run_regRead_cons _ _ x.last rest rfl]
  simp only [h.1.2, h.2, Bool.false_eq_true, if_false, if_true, run_pure]
  rw [Ctx.polled_eq c x rest ts hr ht]
  rfl

/-- `WaitStatus` that sees a failure bit (40_device_ops.md rule R142). -/
theorem run_waitStatus_failure (set clr timeout : Word) (x : Polling) (c : Ctx) (h : x.fails set clr timeout = true)
    (ho : c.env.offers x.answers = true) :
    waitStatus set clr timeout c =
      raise (.failure x.last (set &&& statusBits) (clr &&& statusBits)) (c.polled x) := by
  obtain ⟨rest, ts, hr, ht⟩ := Polling.offered ho
  simp only [Polling.fails, Bool.and_eq_true] at h
  rw [waitStatus_pending _ _ _ x c rest ts h.1 hr ht, pollStatus, run_bind,
    run_regRead_cons _ _ x.last rest rfl]
  simp only [h.2, if_true]
  rw [Ctx.polled_eq c x rest ts hr ht]
  rfl

/-- `WaitStatus` whose deadline passes (40_device_ops.md rule R142). -/
theorem run_waitStatus_timeout (set clr timeout : Word) (x : Polling) (late : Nat) (c : Ctx)
    (h : x.expires late set clr timeout = true)
    (ho : c.env.offers ({ x with later := x.later ++ [late] } : Polling).answers = true) :
    waitStatus set clr timeout c =
      raise (.timeout (set &&& statusBits) (clr &&& statusBits) x.last false)
        (c.polled { x with later := x.later ++ [late] }) := by
  obtain ⟨rest, ts, hr, ht⟩ := Polling.offered ho
  simp only [] at hr ht
  rw [Ctx.polled_eq c { x with later := x.later ++ [late] } rest ts hr ht]
  rw [List.append_assoc, List.singleton_append] at ht
  simp only [Polling.expires, Bool.and_eq_true, pending, Bool.not_eq_true', bne_iff_ne, ne_eq, decide_eq_true_eq] at h
  rw [waitStatus_pending _ _ _ x c rest (late :: ts) h.1.1.2 hr ht,
    pollStatus_step _ _ _ _ _ _ x.last rest rfl h.1.2.1 h.1.2.2, run_bind,
    run_deadlinePassed _ _ _ late ts h.1.1.1 rfl]
  have hd : c.env.now + x.first + timeout.toNat ≤ c.env.now + x.first + x.later.sum + late := by
    have := h.2; omega
  simp only [Ctx.polledOn, hd, decide_true, if_true]
  simp only [List.sum_append, List.sum_cons, List.sum_nil, Nat.add_zero, Nat.add_assoc]

/-- More fuel than there are answers makes no difference. -/
theorem pollStatus_fuel (set clr timeout : Word) (t0 fuel : Nat) (c : Ctx) (h : c.env.reads.length ≤ fuel) :
    pollStatus set clr timeout t0 fuel c = pollStatus set clr timeout t0 c.env.reads.length c := by
  induction fuel generalizing c with
  | zero => simp at h; simp [h]
  | succ fuel ih =>
    cases hr : c.env.reads with
    | nil =>
      rw [pollStatus, run_bind, run_regRead_nil _ c hr]
      rfl
    | cons w rest =>
      rw [hr] at h
      simp only [List.length_cons, Nat.add_le_add_iff_right] at h ⊢
      rw [pollStatus, pollStatus, run_bind, run_bind, run_regRead_cons _ c w rest hr]
      simp only []
      split
      · rfl
      · split
        · rfl
        · rw [run_bind, run_bind]
          cases hd : deadlinePassed t0 timeout
              { c with link := c.link.noteRead params.regStatus w, env := { c.env with reads := rest } } with
          | error e c' => rfl
          | ok late c' =>
            simp only []
            split
            · rfl
            · have hreads : c'.env.reads = rest := by
                unfold deadlinePassed at hd
                split at hd
                · simp at hd; rw [← hd.2]
                · rw [run_bind] at hd
                  cases ht : c.env.ticks with
                  | nil => rw [run_now_nil _ (by exact ht)] at hd; simp at hd
                  | cons d ts => rw [run_now_cons _ d ts (by exact ht)] at hd; simp at hd; rw [← hd.2]
              rw [ih c' (by rw [hreads]; exact h), hreads]

end Sys2Proof.Machine
end

