-- ==== Sys2Proof/Laws/RunsFrames.lean ====
section
/-! SUPPORT. How the shared sequences of Machine/Frames.lean and the pulls of Machine/Device.lean run when they end
without an error. -/

namespace Sys2Proof.Machine

open Config

/-! ### The gate -/

theorem run_gate (c : Ctx) (h : c.sess.admits = true) : gate c = .ok () c := by
  simp only [Session.admits, Bool.and_eq_true, beq_iff_eq] at h
  simp only [gate, run_bind, run_getSess]
  rw [run_require_true _ _ _ h.1.1]
  simp only [run_require_true _ _ _ h.1.2]
  rw [run_require_true _ _ _ h.2]

/-- The gate turns everything else away before anything has happened (41_bus_ops.md rule R180). -/
theorem run_gate_error (c : Ctx) (h : c.sess.admits = false) : gate c = .error (.raise c.sess.gateError) c := by
  simp only [gate, run_bind, run_getSess, Session.gateError]
  by_cases h1 : c.sess.cfgValid = true
  · rw [run_require_true _ _ _ h1]
    by_cases h2 : c.sess.busState = .ready
    · simp only [run_require_true _ _ _ h2]
      have h3 : ¬ c.sess.nch.isSome = true := by
        intro h3
        simp [Session.admits, h1, h2, h3] at h
      rw [run_require_false _ _ _ h3]
      simp [h1, h2, run_raise, Err.faults]
    · simp only [run_require_false _ _ _ h2]
      simp [h1, h2, run_raise, Err.faults]
  · rw [run_require_false _ _ _ h1]
    simp [h1, run_raise, Err.faults]

/-! ### `Build` and `Transact` -/

theorem run_takeCookie (c : Ctx) : takeCookie c = .ok c.sess.nextCookie c.cookieTaken := by
  simp only [takeCookie, run_bind, run_getSess, Session.nextCookie, Ctx.cookieTaken, Session.cookieTaken]
  split <;> simp [run_bind]

/-- `Build` with good operands (41_bus_ops.md rule R181). -/
theorem run_build (code address : Nat) (payload : List Byte) (rdlen : Nat) (c : Ctx)
    (h : buildable code address payload rdlen = true) :
    build code address payload rdlen c =
      .ok (requestBytes (c.sess.request code address payload rdlen) payload, c.sess.request code address payload rdlen)
        c.cookieTaken := by
  simp only [buildable, Bool.and_eq_true, List.contains_iff_mem, decide_eq_true_eq] at h
  obtain ⟨⟨h1, h2⟩, h3⟩ := h
  simp only [build, checkAddress, run_bind]
  rw [run_require_true _ _ _ h1]
  simp only [run_require_true _ _ _ h2]
  have hl : buildLength (byte code) payload rdlen c = .ok (dataLength code payload rdlen - 1) c := by
    unfold buildLength dataLength
    by_cases hp : hasPayload (byte code) = true
    · simp only [hp, if_true, Bool.and_eq_true, decide_eq_true_eq] at h3 ⊢
      rw [run_bind, run_require_true _ _ _ h3.1]
      simp only []
      rw [run_bind, run_require_true _ _ _ h3.2]
      rfl
    · simp only [hp, Bool.false_eq_true, if_false, Bool.and_eq_true, beq_iff_eq, Bool.or_eq_true, bne_iff_ne, ne_eq,
        decide_eq_true_eq] at h3 ⊢
      rw [run_bind, run_require_true _ _ _ (by simp [h3.1])]
      have hb : byte code = params.codeRead ↔ code = params.codeRead.toNat := by
        have : code < 256 := by
          have : ∀ x ∈ commandCodes, x < 256 := by decide
          exact this _ h1
        constructor
        · intro e
          have := congrArg BitVec.toNat e
          rw [byte_toNat] at this
          omega
        · intro e
          apply BitVec.eq_of_toNat_eq
          rw [byte_toNat, e]; rfl
      by_cases hc : code = params.codeRead.toNat
      · simp only [hb.mpr hc, if_true]
        have := h3.2.resolve_left (by simp [hc])
        rw [run_bind, run_require_true _ _ _ ⟨this.1, this.2⟩]
        simp [hc]
      · rw [if_neg fun e => hc (hb.mp e), if_neg hc]
        rfl
  simp only [hl, run_takeCookie, run_pure]
  rfl

/-- The ranges of the configuration fields that a transaction uses (10_state.md rule R26). -/
theorem CfgRecord.ranges {g : CfgRecord} (h : g.inRange = true) :
    (1 ≤ g.channels.toNat ∧ g.channels.toNat ≤ 8) ∧ (g.divider.toNat ≤ 255 ∧ g.txIdle.toNat ≤ 255 ∧ g.turboIdle.toNat ≤ 255)
    ∧ (g.resetTime.toNat ≤ 65535 ∧ g.holdTime.toNat ≤ 65535) ∧ (g.skipCookie.toNat ≤ 1 ∧ g.skipStatusCheck.toNat ≤ 1)
    ∧ (g.fast.toNat ≤ 1 ∧ g.cfgWide16.toNat ≤ 1 ∧ g.loopbackSelfTest.toNat ≤ 1)
    ∧ (g.rxSkipWords.toNat ≤ 255 ∧ g.rxWaitNonzero.toNat ≤ 1 ∧ g.rxLoopback.toNat ≤ 1) := by
  simp only [CfgRecord.inRange, CfgRecord.fields, cfgRanges, List.zip_cons_cons, List.all_cons, Bool.and_eq_true,
    decide_eq_true_eq, params_nchMax] at h
  omega

theorem requestBytes_length (req : Request) (payload : List Byte) : (requestBytes req payload).length = 8 + payload.length := by
  simp [requestBytes, le16]; omega

theorem wide_eq (g : CfgRecord) : (g.cfgWide16.toNat == 1) = (g.cfgWide16 == 1) := by
  rw [Bool.eq_iff_iff, beq_iff_eq, beq_iff_eq]
  constructor
  · intro e; exact BitVec.eq_of_toNat_eq (by rw [e]; rfl)
  · intro e; rw [e]; rfl

theorem run_ignoring {α : Type} (m : Op α) (c c' : Ctx) (a : α) (h : m c = .ok a c') : ignoring m c = .ok () c' := by
  simp [ignoring, run_bind, h]

/-- `ReadRxAll` (40_device_ops.md rule R150). -/
theorem run_readRxAll (size n : Nat) (ws rest : List Word) (c : Ctx) (h1 : 1 ≤ n) (h2 : n ≤ 8) (h3 : size * n ≤ 4096)
    (hr : c.env.reads = ws ++ rest) (hw : ws.length = up4 (size * n) / 4) :
    readRxAll size n c = .ok (channelSlices (bytesOf ws) size n) (c.readOn (fun k => params.rxBuf + k) 0 ws rest) := by
  simp only [readRxAll, checkSlices, run_bind]
  rw [run_checkRange _ _ _ _ c (show 1 ≤ n ∧ n ≤ params.nchMax from ⟨h1, h2⟩)]
  simp only []
  rw [run_require_true _ _ _ (by simpa using h3)]
  simp only [run_bulkRead _ _ ws rest c hr hw, run_pure]

/-- `Transact` (41_bus_ops.md rule R182). -/
theorem run_transact (cmd : List Byte) (lt lr : Nat) (e : Exchange) (c : Ctx) (hg : c.sess.cfg.inRange = true)
    (hn : ∃ n, c.sess.nch = some n ∧ 1 ≤ n ∧ n ≤ 8) (hcmd : cmd.length ≤ 264) (hlt : lt ≤ 65535) (hlr : lr ≤ 65535)
    (hcap : lr * c.sess.channels ≤ 4096) (h : c.canTransact lr e = true) :
    transact cmd lt lr c = .ok (c.frames lr e) (c.transacted cmd lt lr e) := by
  obtain ⟨n, hn, hn1, hn8⟩ := hn
  have hch : c.sess.channels = n := by simp [Session.channels, hn]
  obtain ⟨-, -, -, -, hf, hx⟩ := CfgRecord.ranges hg
  simp only [Ctx.canTransact, Bool.and_eq_true, beq_iff_eq] at h
  obtain ⟨⟨hwait, hwords⟩, hoff⟩ := h
  rw [Exchange.answers, Env.offers_followedBy, Bool.and_eq_true] at hoff
  have hrest := ((Env.offers_iff _ _).mp hoff.2).1
  simp only [] at hrest
  simp only [transact, run_bind, run_getSess]
  rw [run_cfgTransmit _ _ _ _ c hlt hf.1 hf.2.1 hf.2.2]
  simp only []
  rw [run_cfgReceive _ _ _ _ _ hlr hx.1 hx.2.1 hx.2.2]
  simp only []
  rw [run_writeCommand _ _ hcmd]
  simp only [Session.setWide16_wide16, wide_eq]
  rw [run_trigger 2 _ (by decide)]
  simp only []
  rw [run_ignoring _ _ _ _ (run_waitStatus _ _ _ e.wait _ hwait (by exact hoff.1))]
  simp only []
  rw [run_needNch _ n (by exact hn)]
  simp only []
  rw [run_readRxAll lr n e.words _ _ hn1 hn8 (by rw [← hch]; exact hcap) (by exact hrest) (by rw [hwords, hch])]
  simp only [Ctx.frames, hch]
  congr 1
  simp [Ctx.readOn, Ctx.polled, Ctx.transacted, Exchange.answers, Link.started, Session.onTrigger, Env.used, trgStart,
    Polling.answers, Nat.add_assoc, Nat.add_comm 1]

/-! ### `Validate` -/

/-- The OR/AND response of a good frame: `Validate` accepts it (41_bus_ops.md rule R183). -/
theorem run_validate (ch : Nat) (f : List Byte) (req : Request) (payload : List Byte) (verify count : Bool) (c : Ctx)
    (hc : count = true → c.sess.chain.isSome = true)
    (h : req.accepts (if count then c.sess.chain else none) payload verify f = true) :
    validate ch f req payload verify count c = .ok (req.answer f) c := by
  simp only [Request.accepts, Bool.and_eq_true, beq_iff_eq, decide_eq_true_eq, Bool.or_eq_true, Bool.not_eq_true',
    List.all_eq_true] at h
  obtain ⟨⟨⟨⟨⟨⟨⟨⟨h1, h2⟩, h3⟩, h4⟩, h5⟩, h6⟩, h7⟩, h8⟩, h9⟩ := h
  have e1 : checkHeader ch (parseHeader f) req c = .ok () c := by
    simp only [checkHeader, run_bind]
    rw [run_require_true _ _ _ h1]
    simp only [run_require_true _ _ _ h2, run_require_true _ _ _ h3, run_require_true _ _ _ h4]
  have e2 : checkCount ch (parseHeader f) count c = .ok () c := by
    cases count
    · rfl
    · obtain ⟨k, hk⟩ := Option.isSome_iff_exists.mp (hc rfl)
      simp only [if_true, hk, Option.all_some, beq_iff_eq] at h6
      simp only [checkCount, if_true, run_bind, run_needChain c k hk]
      exact run_require_true _ _ _ (by rw [h6])
  have e3 : checkEcho ch (slice f params.headerBytes (params.headerBytes +
      bodyLength req.code (req.lm1.toNat + 1) (parseHeader f).count.toNat)) payload (req.lm1.toNat + 1)
      (verify && hasPayload req.code) c = .ok () c := by
    unfold checkEcho
    split
    · next hv =>
      have e := h8.resolve_left (by simp [hv])
      have : differing payload payload (req.lm1.toNat + 1) = [] := by simp [differing]
      rw [e, this]; rfl
    · rfl
  have e4 : checkIdle ch (params.headerBytes + bodyLength req.code (req.lm1.toNat + 1) (parseHeader f).count.toNat) f c
      = .ok () c := by
    have : ∀ (l : List Byte) (i : Nat), (∀ x ∈ l, x = 0) → firstNonzero i l = none := by
      intro l
      induction l with
      | nil => intros; rfl
      | cons b bs ih =>
        intro i hl
        simp only [firstNonzero, hl b (by simp), ne_eq, not_true_eq_false, if_false]
        exact ih _ fun x hx => hl x (by simp [hx])
    simp only [checkIdle, this _ _ (fun x hx => by simpa using h9 x hx), run_pure]
  simp only [validate, run_bind, e1]
  rw [run_require_true _ _ _ h5]
  simp only [e2]
  rw [run_require_true _ _ _ h7]
  simp only [e3, e4, run_pure]
  rfl

theorem run_validateFrom (req : Request) (payload : List Byte) (verify count : Bool) (fs : List (List Byte)) (k : Nat)
    (c : Ctx) (hc : count = true → c.sess.chain.isSome = true)
    (h : fs.all (req.accepts (if count then c.sess.chain else none) payload verify) = true) :
    validateFrom req payload verify count k fs c = .ok (fs.map req.answer) c := by
  induction fs generalizing k with
  | nil => rfl
  | cons f fs ih =>
    simp only [List.all_cons, Bool.and_eq_true] at h
    simp only [validateFrom, run_bind, run_validate k f req payload verify count c hc h.1, ih (k + 1) h.2, run_pure,
      List.map_cons]

/-! ### The coherency check -/

theorem run_coherenceCheck (bodies : List (List Byte)) (n dlen : Nat) (c : Ctx) (h : coherent bodies n dlen = true) :
    coherenceCheck bodies n dlen c = .ok ((List.range dlen).map fun i => orByte bodies 0 i) c := by
  simp only [coherent, List.all_eq_true, Bool.and_eq_true, beq_iff_eq] at h
  unfold coherenceCheck
  have h1 : ((pairs n dlen).find? fun p => orByte bodies p.1 p.2 != andByte bodies p.1 p.2) = none := by
    rw [List.find?_eq_none]
    intro p hp
    simp [(h p hp).1]
  have h2 : ((pairs n dlen).find? fun p => orByte bodies p.1 p.2 != orByte bodies 0 p.2) = none := by
    rw [List.find?_eq_none]
    intro p hp
    simp [(h p hp).2]
  simp only [h1, h2, run_pure]

/-! ### Pulls -/

/-- Zero words before the data are skipped (40_device_ops.md rule R151). -/
theorem run_skipZeros (z budget k : Nat) (w : Word) (rest : List Word) (c : Ctx) (hz : z ≤ budget) (hw : w ≠ 0)
    (hr : c.env.reads = List.replicate z 0 ++ w :: rest) :
    skipZeros k budget c =
      .ok (some (w, k + z + 1)) (c.readOn streamIndex k (List.replicate z 0 ++ [w]) rest) := by
  induction z generalizing k budget c with
  | zero =>
    simp only [List.replicate_zero, List.nil_append] at hr
    cases budget <;> simp only [skipZeros, run_bind, run_regRead_cons _ c w rest hr, hw, ne_eq, not_false_eq_true, if_true,
      run_pure] <;> rfl
  | succ z ih =>
    cases budget with
    | zero => omega
    | succ budget =>
      simp only [List.replicate_succ, List.cons_append] at hr
      simp only [skipZeros, run_bind, run_regRead_cons _ c 0 _ hr, ne_eq, not_true_eq_false, if_false]
      rw [ih budget (k + 1) _ (by omega) rfl]
      simp only [Ctx.readOn, List.replicate_succ, List.cons_append, numbered, Link.noteReads_cons]
      congr 3; omega

/-- The zero word after `budget` others ends the pull (40_device_ops.md rule R151). -/
theorem run_skipZeros_none (budget k : Nat) (rest : List Word) (c : Ctx)
    (hr : c.env.reads = List.replicate (budget + 1) 0 ++ rest) :
    skipZeros k budget c = .ok none (c.readOn streamIndex k (List.replicate (budget + 1) 0) rest) := by
  induction budget generalizing k c with
  | zero =>
    simp only [List.replicate_succ, List.replicate_zero, List.cons_append, List.nil_append] at hr
    simp only [skipZeros, run_bind, run_regRead_cons _ c 0 _ hr, ne_eq, not_true_eq_false, if_false, run_pure]
    rfl
  | succ budget ih =>
    rw [List.replicate_succ, List.cons_append] at hr
    simp only [skipZeros, run_bind, run_regRead_cons _ c 0 _ hr, ne_eq, not_true_eq_false, if_false]
    rw [ih (k + 1) _ rfl]
    rw [List.replicate_succ (n := budget + 1)]
    rfl

/-- A pull served by the carry-over alone (40_device_ops.md rule R151). -/
theorem run_readSkip_stash (total budget : Nat) (c : Ctx) (h : total ≤ c.sess.stash.length) :
    readSkip total budget c =
      .ok (some (c.sess.stash.take total)) { c with sess := c.sess.setStash (c.sess.stash.drop total) } := by
  simp only [readSkip, run_bind, run_getSess, h, if_true, run_modifySess, run_pure]

/-- A pull that is not ready: the zero words are gone, nothing else has changed (40_device_ops.md rule R151). -/
theorem run_readSkip_none (total budget : Nat) (rest : List Word) (c : Ctx) (h : c.sess.stash.length < total)
    (hr : c.env.reads = List.replicate (budget + 1) 0 ++ rest) :
    readSkip total budget c = .ok none (c.readOn streamIndex 0 (List.replicate (budget + 1) 0) rest) := by
  simp only [readSkip, run_bind, run_getSess, Nat.not_le.mpr h, if_false]
  rw [run_skipZeros_none budget 0 rest c hr]
  rfl

/-- A pull that is ready (40_device_ops.md rule R151). -/
theorem run_readSkip (total budget : Nat) (p : Pull) (rest : List Word) (c : Ctx) (h : c.sess.stash.length < total)
    (hp : p.good (ceilDiv (total - c.sess.stash.length) 4) budget = true) (hr : c.env.reads = p.reads ++ rest) :
    readSkip total budget c =
      .ok (some ((c.sess.stash ++ bytesOf p.words).take total))
        { (c.readOn streamIndex 0 p.reads rest) with
          sess := c.sess.setStash ((c.sess.stash ++ bytesOf p.words).drop total) } := by
  obtain ⟨z, ws⟩ := p
  cases ws with
  | nil => simp [Pull.good] at hp
  | cons w ws =>
    simp only [Pull.good, Bool.and_eq_true, decide_eq_true_eq, beq_iff_eq, bne_iff_ne, ne_eq, List.length_cons] at hp
    obtain ⟨⟨hz, hl⟩, hw⟩ := hp
    simp only [Pull.reads, List.append_assoc, List.cons_append] at hr
    simp only [readSkip, run_bind, run_getSess, Nat.not_le.mpr h, if_false]
    rw [run_skipZeros z budget 0 w (ws ++ rest) c hz hw hr]
    simp only []
    rw [← hl, Nat.add_sub_cancel, run_bind, run_readWords streamIndex ws rest _ _ rfl]
    simp only [run_bind, run_modifySess, run_pure]
    simp [Ctx.readOn, Pull.reads, numbered_append, numbered, Link.noteReads_append]

/-- A pull that is not ready has used an answer of the link engine. -/
theorem readSkip_none_reads (total budget : Nat) (c c' : Ctx) (h : readSkip total budget c = .ok none c') :
    c'.env.reads.length < c.env.reads.length := by
  have key : ∀ (b k : Nat) (c : Ctx) (c' : Ctx), skipZeros k b c = .ok none c' →
      c'.env.reads.length < c.env.reads.length := by
    intro b
    induction b with
    | zero =>
      intro k c c' h
      simp only [skipZeros, run_bind] at h
      cases hr : c.env.reads with
      | nil => rw [run_regRead_nil _ c hr] at h; simp at h
      | cons w rest =>
        rw [run_regRead_cons _ c w rest hr] at h
        simp only [] at h
        split at h
        · simp at h
        · simp at h; rw [← h]; simp
    | succ b ih =>
      intro k c c' h
      simp only [skipZeros, run_bind] at h
      cases hr : c.env.reads with
      | nil => rw [run_regRead_nil _ c hr] at h; simp at h
      | cons w rest =>
        rw [run_regRead_cons _ c w rest hr] at h
        simp only [] at h
        split at h
        · simp at h
        · have := ih _ _ _ h
          simp only [List.length_cons] at this ⊢
          omega
  simp only [readSkip, run_bind, run_getSess] at h
  split at h
  · simp [run_bind] at h
  · rw [run_bind] at h
    cases hs : skipZeros 0 budget c with
    | error e c'' => rw [hs] at h; simp at h
    | ok x c'' =>
      rw [hs] at h
      cases x with
      | none => simp at h; rw [← h]; exact key _ _ _ _ hs
      | some wk =>
        simp only [run_bind] at h
        split at h <;> simp at h

theorem deadlinePassed_reads (t0 : Nat) (timeout : Word) (c c' : Ctx) (b : Bool) (h : deadlinePassed t0 timeout c = .ok b c') :
    c'.env.reads = c.env.reads := by
  unfold deadlinePassed at h
  split at h
  · simp at h; rw [← h.2]
  · rw [run_bind] at h
    cases ht : c.env.ticks with
    | nil => rw [run_now_nil _ ht] at h; simp at h
    | cons d ts => rw [run_now_cons _ d ts ht] at h; simp at h; rw [← h.2]

theorem idlePoint_reads (c c' : Ctx) (b : Bool) (h : idlePoint c = .ok b c') : c'.env.reads = c.env.reads := by
  cases ht : c.env.idles with
  | nil => rw [run_idle_nil _ ht] at h; simp at h
  | cons d ts => rw [run_idle_cons _ d ts ht] at h; simp at h; rw [← h.2]

/-- Fuel above the number of listed answers makes no difference: it is never used up. -/
theorem pullUntil_fuel (total : Nat) (timeout : Word) (budget t0 fuel : Nat) (c : Ctx) (h : c.env.reads.length < fuel) :
    pullUntil total timeout budget t0 fuel c = pullUntil total timeout budget t0 (fuel + 1) c := by
  induction fuel generalizing c with
  | zero => omega
  | succ fuel ih =>
    rw [pullUntil, pullUntil, run_bind, run_bind]
    cases hr : readSkip total budget c with
    | error e c1 => rfl
    | ok x c1 =>
      cases x with
      | some b => rfl
      | none =>
        have h1 := readSkip_none_reads _ _ _ _ hr
        simp only [run_bind]
        cases hd : deadlinePassed t0 timeout c1 with
        | error e c2 => rfl
        | ok late c2 =>
          have h2 := deadlinePassed_reads _ _ _ _ _ hd
          simp only []
          split
          · rfl
          · rw [run_bind, run_bind]
            cases hi : idlePoint c2 with
            | error e c3 => rfl
            | ok go c3 =>
              have h3 := idlePoint_reads _ _ _ hi
              simp only []
              split
              · exact ih c3 (by rw [h3, h2]; omega)
              · rfl

end Sys2Proof.Machine
end

