-- ==== Sys2Proof/Laws/Safe.lean ====
section
/-! SUPPORT. The allowed states are kept: for each shared operation, one lemma that says that from an allowed context
it ends in an allowed context and never in the fault. `Okay true` asks besides that `bus_state` is `Ready`, which is
what the operations behind the gate rely on. -/

namespace Sys2Proof.Machine

open Config

/-- An allowed context; with `q`, one whose `bus_state` is `Ready`. -/
def Okay (q : Bool) (c : Ctx) : Prop := c.ok = true ∧ (q = true → c.sess.busState = .ready)

/-- However an operation stops, the context is allowed, and it does not stop with the fault. -/
def Stopped (e : Stop) (c : Ctx) : Prop := c.ok = true ∧ ∀ f, e ≠ .fault f

/-- The operation keeps `Okay q` and stops only as `Stopped` says. -/
abbrev SafeOp {α : Type} (q : Bool) (m : Op α) : Prop := Sat (Okay q) m (fun _ => Okay q) Stopped

/-! ### Session updates -/

theorem Session.ok_setFaulted {r : Session} (h : r.ok = true) : (r.setBusState .faulted).ok = true := by
  simp only [Session.ok, Bool.and_eq_true] at h ⊢
  exact ⟨h.1, rfl⟩

theorem Session.ok_busReset {r : Session} (h : r.ok = true) : r.busReset.ok = true := by
  simp only [Session.ok, Bool.and_eq_true] at h ⊢
  exact ⟨⟨⟨⟨by simp, h.1.1.1.2⟩, h.1.1.2⟩, by simp⟩, rfl⟩

theorem Session.ok_setStash {r : Session} {b : List Byte} (h : r.ok = true) (hb : b.length ≤ 3) :
    (r.setStash b).ok = true := by
  simp only [Session.ok, Bool.and_eq_true] at h ⊢
  exact ⟨⟨⟨⟨by simp [hb], h.1.1.1.2⟩, h.1.1.2⟩, h.1.2⟩, h.2⟩

theorem Session.ok_setCookie {r : Session} (k : Byte) (h : r.ok = true) : (r.setCookie k).ok = true := h

theorem Session.ok_setWide16 {r : Session} (w : Bool) (h : r.ok = true) : (r.setWide16 w).ok = true := h

theorem Session.ok_setCfg {r : Session} {g : CfgRecord} (h : r.ok = true) (hg : g.inRange = true) :
    (r.setCfg g).ok = true := by
  simp only [Session.ok, Bool.and_eq_true] at h ⊢
  exact ⟨⟨⟨⟨h.1.1.1.1, h.1.1.1.2⟩, by simpa using hg⟩, h.1.2⟩, h.2⟩

theorem Session.ok_setLastSrq_none {r : Session} (h : r.ok = true) : (r.setLastSrq none).ok = true := by
  simp only [Session.ok, Bool.and_eq_true] at h ⊢
  exact ⟨⟨⟨⟨h.1.1.1.1, h.1.1.1.2⟩, h.1.1.2⟩, by simp⟩, h.2⟩

theorem Session.ok_setLastSrq {r : Session} {rec : List Byte} (h : r.ok = true) (h1 : 4 ≤ rec.length)
    (h2 : rec.length ≤ 256) : (r.setLastSrq (some rec)).ok = true := by
  simp only [Session.ok, Bool.and_eq_true] at h ⊢
  exact ⟨⟨⟨⟨h.1.1.1.1, h.1.1.1.2⟩, h.1.1.2⟩, by simp [h1, h2]⟩, h.2⟩

theorem Session.ok_setNch {r : Session} {n : Nat} (h : r.ok = true) (h1 : 1 ≤ n) (h2 : n ≤ 8) :
    (r.setNch n).ok = true := by
  simp only [Session.ok, Bool.and_eq_true] at h ⊢
  refine ⟨⟨⟨⟨h.1.1.1.1, by simp [channelCount, h1, h2]⟩, h.1.1.2⟩, h.1.2⟩, ?_⟩
  have h3 := h.2
  revert h3
  cases hb : r.busState <;> simp only [Session.setNch_busState, hb]
  · exact id
  · exact id
  · simp only [Session.initialisedOk, Session.setNch_chain, Session.setNch_modules, Session.setNch_modVersion,
      Session.setNch_nch]
    cases r.chain <;> cases r.modules <;> cases r.modVersion <;> cases r.nch <;> simp
  · exact id

theorem Session.ok_initialised {r : Session} {c : Half} {n : Nat} {v : Byte} (h : r.ok = true) (hc : c ≠ 0)
    (h1 : 1 ≤ n) (h2 : n ≤ 8) (hv : 1 ≤ v.toNat) (hn : r.nch.isSome = true) : (r.initialised c n v).ok = true := by
  simp only [Session.ok, Bool.and_eq_true] at h ⊢
  refine ⟨⟨⟨⟨h.1.1.1.1, h.1.1.1.2⟩, h.1.1.2⟩, h.1.2⟩, ?_⟩
  have hc1 : 1 ≤ c.toNat := by
    rcases Nat.eq_zero_or_pos c.toNat with h0 | h0
    · exact absurd (BitVec.eq_of_toNat_eq (by simpa using h0)) hc
    · exact h0
  obtain ⟨k, hk⟩ := Option.isSome_iff_exists.mp hn
  simp only [Session.initialisedOk, Session.initialised_busState, Session.initialised_chain,
    Session.initialised_modules, Session.initialised_modVersion, Session.initialised_nch, hk, Bool.and_eq_true,
    decide_eq_true_eq, List.any_eq_true, List.mem_range, beq_iff_eq, params_nchMax, params_minVersion]
  exact ⟨⟨hc1, n, by omega, by simp [channelCount, h1, h2], rfl⟩, decide_eq_true hv⟩

/-- In an allowed session that is `Ready`, the registers of rule R22 are set. -/
theorem Session.ready_set {r : Session} (h : r.ok = true) (hr : r.busState = .ready) :
    ∃ c v n, r.chain = some c ∧ r.modVersion = some v ∧ r.nch = some n := by
  simp only [Session.ok, Bool.and_eq_true, hr] at h
  have h3 := h.2
  simp only [Session.initialisedOk] at h3
  split at h3
  · next c m v n e1 e2 e3 e4 => exact ⟨c, v, n, e1, e3, e4⟩
  · simp at h3

theorem Session.ok_stash {r : Session} (h : r.ok = true) : r.stash.length ≤ 3 := by
  simp only [Session.ok, Bool.and_eq_true, decide_eq_true_eq] at h
  exact h.1.1.1.1

theorem Session.ok_nch {r : Session} {n : Nat} (h : r.ok = true) (hn : r.nch = some n) : 1 ≤ n ∧ n ≤ 8 := by
  simp only [Session.ok, Bool.and_eq_true, hn, Option.all_some, channelCount, decide_eq_true_eq] at h
  exact h.1.1.1.2

/-! ### The port -/

theorem Link.ok_noteRead {l : Link} {i : Nat} {v : Word} (h : l.ok = true) (hi : (Txn.read i v).legal = true) :
    (l.noteRead i v).ok = true := by
  simp only [Link.ok, Bool.and_eq_true] at h ⊢
  exact ⟨⟨by simp only [Link.noteRead_log, List.all_cons, hi, h.1.1]; rfl, h.1.2⟩, h.2⟩

theorem storable_word {i k : Nat} (hi : 2 ≤ i ∧ i ≤ 6 ∨ inCmdBuf i = true) (h1 : 4 * i ≤ k) (h2 : k < 4 * i + 4) :
    storable k = true := by
  have : k / 4 = i := by omega
  rcases hi with hi | hi
  · simp [storable, this, hi]
  · simp [storable, this, hi]

theorem legal_write_index {i : Nat} {v : Word} (h : (Txn.write i v).legal = true) (h0 : i ≠ 0) :
    2 ≤ i ∧ i ≤ 6 ∨ inCmdBuf i = true := by
  simp only [Txn.legal, Bool.or_eq_true, Bool.and_eq_true, beq_iff_eq, params_regTrigger, params_regChCtl,
    params_regClkCtl, params_regRstCtl, params_regTxCtl, params_regRxCtl] at h
  rcases h with (((((h | h) | h) | h) | h) | h) | h
  · exact absurd h.1 h0
  all_goals first | exact .inr h | (left; omega)

theorem Link.ok_store {l : Link} {t : Txn} {i a : Nat} {b : List Byte} (h : l.ok = true) (ht : t.legal = true)
    (hi : 2 ≤ i ∧ i ≤ 6 ∨ inCmdBuf i = true) (h1 : 4 * i ≤ a) (h2 : a + b.length ≤ 4 * i + 4) :
    ({ l with win := Memory.writeBytes l.win a b, log := t :: l.log } : Link).ok = true := by
  simp only [Link.ok, Bool.and_eq_true, decide_eq_true_eq, List.all_eq_true] at h ⊢
  refine ⟨⟨by simpa [ht] using h.1.1, Memory.writeBytes_wf _ _ _ h.1.2⟩, fun x hx => ?_⟩
  rcases Memory.mem_writeBytes _ _ _ _ hx with hx | hx
  · exact storable_word hi (by omega) (by omega)
  · exact h.2 x hx

theorem Link.ok_write {l : Link} {i : Nat} {v : Word} (h : l.ok = true) (hi : (Txn.write i v).legal = true) :
    (l.write i v).ok = true := by
  by_cases h0 : i = 0
  · subst h0
    rw [show (0 : Nat) = params.regTrigger from rfl, Link.write_trigger]
    simp only [Link.ok, Bool.and_eq_true, decide_eq_true_eq, List.all_eq_true] at h ⊢
    refine ⟨⟨?_, ?_⟩, ?_⟩
    · intro t ht
      rcases List.mem_cons.mp ht with rfl | ht
      · exact hi
      · exact h.1.1 t ht
    · split
      · exact List.Pairwise.nil
      · exact h.1.2
    · split
      · simp
      · exact h.2
  · rw [Link.write_store _ _ _ (by simpa using h0)]
    exact Link.ok_store h hi (legal_write_index hi h0) (Nat.le_refl _) (by simp)

theorem Link.ok_write16 {l : Link} {i : Nat} {u : Bool} {v : Half} (h : l.ok = true) (hi : inCmdBuf i = true) :
    (l.write16 i u v).ok = true :=
  Link.ok_store (t := .write16 i u v) h hi (.inr hi) (by split <;> omega) (by rw [le16_length]; split <;> omega)

theorem Okay.session {q : Bool} {c : Ctx} {r : Session} (h : Okay q c) (hr : r.ok = true)
    (hb : r.busState = c.sess.busState) : Okay q { c with sess := r } := by
  obtain ⟨h1, h2⟩ := h
  simp only [Ctx.ok, Bool.and_eq_true] at h1
  exact ⟨by simp [Ctx.ok, hr, h1.2], fun hq => by rw [← h2 hq]; exact hb⟩

theorem Okay.link {q : Bool} {c : Ctx} {l : Link} {e : Env} (h : Okay q c) (hl : l.ok = true) :
    Okay q { c with link := l, env := e } := by
  obtain ⟨h1, h2⟩ := h
  simp only [Ctx.ok, Bool.and_eq_true] at h1
  exact ⟨by simp [Ctx.ok, hl, h1.1], h2⟩

theorem Okay.linkOk {q : Bool} {c : Ctx} (h : Okay q c) : c.link.ok = true := by
  have := h.1; simp only [Ctx.ok, Bool.and_eq_true] at this; exact this.2

theorem Okay.sessOk {q : Bool} {c : Ctx} (h : Okay q c) : c.sess.ok = true := by
  have := h.1; simp only [Ctx.ok, Bool.and_eq_true] at this; exact this.1

/-- Raising an error leaves an allowed context. -/
theorem Okay.stopped {q : Bool} {c : Ctx} (h : Okay q c) (e : Err) :
    Stopped (.raise e) (if e.faults then { c with sess := c.sess.setBusState .faulted } else c) := by
  refine ⟨?_, by simp⟩
  split
  · simp only [Ctx.ok, Bool.and_eq_true]
    exact ⟨Session.ok_setFaulted h.sessOk, h.linkOk⟩
  · exact h.1

theorem Okay.waits {q : Bool} {c : Ctx} (h : Okay q c) (n : Need) : Stopped (.wait n) c := ⟨h.1, by simp⟩

theorem safe_pure {α : Type} {q : Bool} (a : α) : SafeOp q (pure a : Op α) := Sat.pure fun _ h => h

theorem safe_raise {α : Type} {q : Bool} (e : Err) : SafeOp q (raise e : Op α) := Sat.raise fun _ h => h.stopped e

theorem safe_require {q : Bool} {p : Prop} [Decidable p] (e : Err) :
    Sat (Okay q) (require p e) (fun _ c => p ∧ Okay q c) Stopped := Sat.require fun _ h _ => h.stopped e

theorem safe_wait {α : Type} {q : Bool} (n : Need) : SafeOp q (fun c => .error (.wait n) c : Op α) :=
  fun _ h => h.waits n

theorem safe_bind {α β : Type} {q : Bool} {m : Op α} {f : α → Op β} (hm : SafeOp q m) (hf : ∀ a, SafeOp q (f a)) :
    SafeOp q (m >>= f) := Sat.bind hm hf

theorem safe_getSess {q : Bool} : Sat (Okay q) getSess (fun r c => c.sess = r ∧ Okay q c) Stopped := Sat.getSess

theorem safe_readsLeft {q : Bool} : SafeOp q readsLeft := fun _ h => h
theorem safe_ticksLeft {q : Bool} : SafeOp q ticksLeft := fun _ h => h

theorem safe_ignoring {α : Type} {q : Bool} {m : Op α} (h : SafeOp q m) : SafeOp q (ignoring m) := Sat.ignoring h

theorem safe_regWrite {q : Bool} {i : Nat} {v : Word} (h : (Txn.write i v).legal = true) : SafeOp q (regWrite i v) :=
  fun c hc => Okay.link (e := c.env) hc (Link.ok_write hc.linkOk h)

theorem safe_regWrite16 {q : Bool} {i : Nat} {u : Bool} {v : Half} (h : inCmdBuf i = true) :
    SafeOp q (regWrite16 i u v) :=
  fun c hc => Okay.link (e := c.env) hc (Link.ok_write16 hc.linkOk h)

theorem safe_regRead {q : Bool} {i : Nat} (h : i = 1 ∨ inRxBuf i = true) : SafeOp q (regRead i) := by
  intro c hc
  cases hr : c.env.reads with
  | nil => rw [run_regRead_nil i c hr]; exact hc.waits .read
  | cons v rest =>
    rw [run_regRead_cons i c v rest hr]
    exact hc.link (Link.ok_noteRead hc.linkOk (by rcases h with h | h <;> simp [Txn.legal, h]))

theorem safe_now {q : Bool} : SafeOp q now := by
  intro c hc
  cases hr : c.env.ticks with
  | nil => rw [run_now_nil c hr]; exact hc.waits .tick
  | cons d rest => rw [run_now_cons c d rest hr]; exact Okay.link (l := c.link) hc hc.linkOk

theorem safe_idlePoint {q : Bool} : SafeOp q idlePoint := by
  intro c hc
  cases hr : c.env.idles with
  | nil => rw [run_idle_nil c hr]; exact hc.waits .idle
  | cons a rest => rw [run_idle_cons c a rest hr]; exact Okay.link (l := c.link) hc hc.linkOk

theorem safe_needNch {q : Bool} :
    Sat (Okay q) needNch (fun n c => c.sess.nch = some n ∧ Okay q c) Stopped := by
  refine Sat.bind safe_getSess fun r => ?_
  split
  · next n h => exact Sat.pure fun c hc => ⟨by rw [hc.1]; exact h, hc.2⟩
  · exact Sat.raise fun c hc => hc.2.stopped _

theorem safe_needChain : SafeOp true needChain := by
  intro c hc
  obtain ⟨k, v, n, h1, h2, h3⟩ := Session.ready_set hc.sessOk (hc.2 rfl)
  rw [run_needChain c k h1]; exact hc

theorem safe_needVersion : SafeOp true needVersion := by
  intro c hc
  obtain ⟨k, v, n, h1, h2, h3⟩ := Session.ready_set hc.sessOk (hc.2 rfl)
  rw [run_needVersion c v h2]; exact hc

theorem safe_modifySess {q : Bool} {f : Session → Session} (h : ∀ r, r.ok = true → (f r).ok = true)
    (hb : ∀ r, (f r).busState = r.busState) : SafeOp q (modifySess f) :=
  fun _ hc => hc.session (h _ hc.sessOk) (hb _)

end Sys2Proof.Machine
end

