-- ==== Sys2Proof/Laws/SafeOps.lean ====
section
/-! SUPPORT. The sequences of 40_device_ops.md, 41_bus_ops.md and 42_srq_ops.md keep the allowed states, one lemma for
each, in the order of the files under Machine/. -/

namespace Sys2Proof.Machine

open Config

theorem Okay.weaken {q : Bool} {c : Ctx} (h : Okay true c) : Okay q c := ⟨h.1, fun _ => h.2 rfl⟩

/-- A check before the rest of an operation. -/
theorem safe_require_bind {α : Type} {q : Bool} {p : Prop} [Decidable p] {e : Err} {k : Op α}
    (h : p → SafeOp q k) : SafeOp q (require p e >>= fun _ => k) :=
  Sat.bind (safe_require e) fun _ => Sat.given h

/-- Reading the session before the rest of an operation. -/
theorem safe_getSess_bind {α : Type} {q : Bool} {k : Session → Op α} (h : ∀ r, SafeOp q (k r)) :
    SafeOp q (getSess >>= k) :=
  Sat.bind safe_getSess fun r => (h r).conseq (fun _ hc => hc.2) (fun _ _ hc => hc) (fun _ _ hc => hc)

/-- Reading `nch` before the rest of an operation. -/
theorem safe_needNch_bind {α : Type} {q : Bool} {k : Nat → Op α} (h : ∀ n, SafeOp q (k n)) :
    SafeOp q (needNch >>= k) :=
  Sat.bind safe_needNch fun r => (h r).conseq (fun _ hc => hc.2) (fun _ _ hc => hc) (fun _ _ hc => hc)

theorem safe_silently {q : Bool} {m : Op Unit} (h : SafeOp q m) : SafeOp q (silently m) :=
  safe_bind h fun _ => safe_pure _

theorem safe_answering {q : Bool} {m : Op (List Byte)} (h : SafeOp q m) : SafeOp q (answering m) :=
  safe_bind h fun _ => safe_pure _

/-! ### Reads and waits -/

theorem safe_readWords {q : Bool} {index : Nat → Nat} (h : ∀ k, index k = 1 ∨ inRxBuf (index k) = true) (n k : Nat) :
    Sat (Okay q) (readWords index k n) (fun ws c => ws.length = n ∧ Okay q c) Stopped := by
  induction n generalizing k with
  | zero => exact Sat.pure fun _ hc => ⟨rfl, hc⟩
  | succ n ih =>
    refine Sat.bind (safe_regRead (h k)) fun w => Sat.bind (ih (k + 1)) fun ws => Sat.pure fun c hc => ?_
    exact ⟨by simp [hc.1], hc.2⟩

/-- As `safe_readWords`, for indexes that are in range only up to the last one read. -/
theorem safe_readWords_upto {q : Bool} {index : Nat → Nat} (n k : Nat)
    (h : ∀ j, k ≤ j → j < k + n → inRxBuf (index j) = true) : SafeOp q (readWords index k n) := by
  induction n generalizing k with
  | zero => exact safe_pure _
  | succ n ih =>
    refine safe_bind (safe_regRead (.inr (h k (Nat.le_refl _) (by omega)))) fun w => ?_
    exact safe_bind (ih (k + 1) fun j h1 h2 => h j (by omega) (by omega)) fun ws => safe_pure _

theorem inRxBuf_of_lt {k : Nat} (h : k < 1024) : inRxBuf (params.rxBuf + k) = true := by
  simp only [inRxBuf, Bool.and_eq_true, decide_eq_true_eq]
  simp only [params_rxBuf, params_rxCap]
  omega

theorem safe_bulkRead {q : Bool} {n : Nat} (h : n ≤ 4096) : SafeOp q (bulkRead params.rxBuf n) := by
  refine safe_bind (safe_readWords_upto _ _ fun j h1 h2 => inRxBuf_of_lt ?_) fun ws => safe_pure _
  simp only [params_wordBytes] at h2
  omega

theorem safe_deadlinePassed {q : Bool} (t0 : Nat) (timeout : Word) : SafeOp q (deadlinePassed t0 timeout) :=
  Sat.ite (fun _ => safe_pure _) fun _ => safe_bind safe_now fun _ => safe_pure _

theorem safe_pollStatus {q : Bool} (set clr timeout : Word) (t0 fuel : Nat) :
    SafeOp q (pollStatus set clr timeout t0 fuel) := by
  induction fuel with
  | zero => exact safe_wait .read
  | succ fuel ih =>
    refine safe_bind (safe_regRead (.inl rfl)) fun s => ?_
    refine Sat.ite (fun _ => safe_raise _) fun _ => Sat.ite (fun _ => safe_pure _) fun _ => ?_
    exact safe_bind (safe_deadlinePassed _ _) fun late => Sat.ite (fun _ => safe_raise _) fun _ => ih

theorem safe_waitStatus {q : Bool} (set clr timeout : Word) : SafeOp q (waitStatus set clr timeout) :=
  safe_bind safe_now fun _ => safe_bind safe_readsLeft fun _ => safe_pollStatus _ _ _ _ _

/-! ### Writes -/

theorem inCmdBuf_of {i : Nat} (h1 : 256 ≤ i) (h2 : i < 322) : inCmdBuf i = true := by
  simp [inCmdBuf, h1, h2]

theorem safe_writeWords {q : Bool} (ws : List Word) (i : Nat) (h1 : 256 ≤ i) (h2 : i + ws.length ≤ 322) :
    SafeOp q (writeWords i ws) := by
  induction ws generalizing i with
  | nil => exact safe_pure _
  | cons w ws ih =>
    simp only [List.length_cons] at h2
    exact safe_bind (safe_regWrite (by simp [Txn.legal, inCmdBuf_of h1 (by omega : i < 322)])) fun _ =>
      ih (i + 1) (by omega) (by omega)

theorem safe_writeHalves {q : Bool} (hs : List Half) (i : Nat) (upper : Bool) (h1 : 256 ≤ i)
    (h2 : 2 * i + upper.toNat + hs.length ≤ 644) : SafeOp q (writeHalves i upper hs) := by
  induction hs generalizing i upper with
  | nil => exact safe_pure _
  | cons h hs ih =>
    simp only [List.length_cons] at h2
    refine safe_bind (safe_regWrite16 (inCmdBuf_of h1 (by omega))) fun _ => ?_
    cases upper
    · exact ih i true h1 (by simp at h2 ⊢; omega)
    · exact ih (i + 1) false (by omega) (by simp at h2 ⊢; omega)

theorem safe_checkRange_bind {α : Type} {q : Bool} {o v lo hi : Nat} {k : Op α} (h : lo ≤ v → v ≤ hi → SafeOp q k) :
    SafeOp q (checkRange o v lo hi >>= fun _ => k) :=
  safe_require_bind fun hp => h hp.1 hp.2

theorem safe_writeCommand {q : Bool} (b : List Byte) : SafeOp q (writeCommand b) := by
  refine safe_checkRange_bind fun _ hb => safe_getSess_bind fun r => ?_
  simp only [params_maxCmdLen] at hb
  refine Sat.ite (fun _ => ?_) fun _ => ?_
  · exact safe_writeHalves _ _ _ (by simp) (by rw [halvesOf_length]; simp; omega)
  · exact safe_writeWords _ _ (by simp) (by rw [wordsOf_length]; simp; omega)

theorem safe_trigger (action : Nat) : SafeOp false (trigger action) := by
  refine safe_checkRange_bind fun _ h => ?_
  refine safe_bind (fun c hc => ⟨?_, by simp⟩) fun _ => safe_regWrite ?_
  · simp only [Ctx.ok, Bool.and_eq_true]
    refine ⟨?_, hc.linkOk⟩
    simp only [Session.onTrigger]
    split
    · exact Session.ok_busReset hc.sessOk
    · exact hc.sessOk
  · have : action = 0 ∨ action = 1 ∨ action = 2 ∨ action = 3 ∨ action = 4 := by omega
    rcases this with h | h | h | h | h <;> subst h <;> decide

/-- A trigger other than the reset changes no session register. -/
theorem safe_trigger_other {q : Bool} (action : Nat) (h0 : action ≠ 0) : SafeOp q (trigger action) := by
  refine safe_checkRange_bind fun _ h => ?_
  refine safe_bind (safe_modifySess (fun r hr => by simp [Session.onTrigger, h0, hr])
    fun r => by simp [Session.onTrigger, h0]) fun _ => safe_regWrite ?_
  have : action = 1 ∨ action = 2 ∨ action = 3 ∨ action = 4 := by omega
  rcases this with h | h | h | h <;> subst h <;> decide

theorem safe_cfgChannels {q : Bool} (n : Nat) : SafeOp q (cfgChannels n) := by
  refine safe_checkRange_bind fun h1 h2 => ?_
  simp only [params_nchMax] at h2
  refine safe_bind (safe_regWrite ?_) fun _ => safe_modifySess (fun r hr => Session.ok_setNch hr h1 h2) fun _ => rfl
  have : n % 4294967296 = n := by omega
  simp [Txn.legal, channelCount, this, h1, h2]

theorem safe_cfgClock {q : Bool} (d ti tu : Nat) : SafeOp q (cfgClock d ti tu) := by
  refine safe_checkRange_bind fun _ h1 => safe_checkRange_bind fun _ h2 => safe_checkRange_bind fun _ h3 => ?_
  refine safe_regWrite ?_
  have : (clockWord d ti tu).toNat < 2 ^ 24 := by simp [clockWord]; omega
  simp only [Txn.legal, this]; simp

theorem safe_cfgReset {q : Bool} (rt ht : Nat) : SafeOp q (cfgReset rt ht) :=
  safe_checkRange_bind fun _ _ => safe_checkRange_bind fun _ _ => safe_regWrite (by simp [Txn.legal])

theorem safe_cfgTransmit {q : Bool} (len f w lb : Nat) : SafeOp q (cfgTransmit len f w lb) := by
  refine safe_checkRange_bind fun _ h1 => safe_checkRange_bind fun _ h2 => safe_checkRange_bind fun _ h3 =>
    safe_checkRange_bind fun _ h4 => ?_
  have : (txWord len f w lb).toNat < 2 ^ 19 := by simp [txWord]; omega
  refine safe_bind (safe_regWrite (by simp only [Txn.legal, this]; simp)) fun _ => ?_
  exact safe_modifySess (fun r hr => Session.ok_setWide16 _ hr) fun _ => rfl

theorem safe_cfgReceive {q : Bool} (len sk wnz lb : Nat) : SafeOp q (cfgReceive len sk wnz lb) := by
  refine safe_checkRange_bind fun _ h1 => safe_checkRange_bind fun _ h2 => safe_checkRange_bind fun _ h3 =>
    safe_checkRange_bind fun _ h4 => safe_regWrite ?_
  have : (rxWord len sk wnz lb).toNat < 2 ^ 26 := by simp [rxWord]; omega
  simp only [Txn.legal, this]; simp

/-! ### Bounded and streaming reads -/

theorem safe_readRx {q : Bool} (size : Nat) : SafeOp q (readRx size) := by
  refine safe_checkRange_bind fun _ h => safe_bind (safe_bulkRead ?_) fun _ => safe_pure _
  simp only [params_rxCap] at h
  rw [up4_eq]; omega

theorem safe_checkSlices_bind {α : Type} {q : Bool} {size n : Nat} {k : Op α}
    (h : 1 ≤ n → n ≤ 8 → size * n ≤ 4096 → SafeOp q k) : SafeOp q (checkSlices size n >>= fun _ => k) := by
  refine Sat.bind (Q := fun _ c => (1 ≤ n ∧ n ≤ 8 ∧ size * n ≤ 4096) ∧ Okay q c) ?_ fun _ =>
    Sat.given fun hp => h hp.1 hp.2.1 hp.2.2
  refine Sat.bind (safe_require _) fun _ => Sat.given fun h1 => ?_
  exact (safe_require _).conseq (fun _ hc => hc) (fun _ c hc => ⟨⟨h1.1, h1.2, hc.1⟩, hc.2⟩) (fun _ _ hc => hc)

theorem safe_readRxAll {q : Bool} (size n : Nat) : SafeOp q (readRxAll size n) := by
  refine safe_checkSlices_bind fun _ _ h => safe_bind (safe_bulkRead ?_) fun _ => safe_pure _
  rw [up4_eq]; omega

theorem inRxBuf_streamIndex (k : Nat) : inRxBuf (streamIndex k) = true :=
  inRxBuf_of_lt (Nat.mod_lt _ (by decide))

theorem safe_skipZeros {q : Bool} (budget k : Nat) : SafeOp q (skipZeros k budget) := by
  induction budget generalizing k with
  | zero =>
    exact safe_bind (safe_regRead (.inr (inRxBuf_streamIndex k))) fun w =>
      Sat.ite (fun _ => safe_pure _) fun _ => safe_pure _
  | succ b ih =>
    exact safe_bind (safe_regRead (.inr (inRxBuf_streamIndex k))) fun w =>
      Sat.ite (fun _ => safe_pure _) fun _ => ih _

theorem safe_setStash {q : Bool} {b : List Byte} (h : b.length ≤ 3) : SafeOp q (modifySess fun r => r.setStash b) :=
  safe_modifySess (fun _ hr => Session.ok_setStash hr h) fun _ => rfl

/-- At most three bytes are left over by a pull (10_state.md rule R23). -/
theorem leftover_length {stash d : List Byte} {total : Nat} (h : stash.length < total)
    (hd : d.length = 4 * ceilDiv (total - stash.length) 4) : ((stash ++ d).drop total).length ≤ 3 := by
  simp only [List.length_drop, List.length_append, hd, ceilDiv]
  omega

theorem safe_readSkip {q : Bool} (total budget : Nat) : SafeOp q (readSkip total budget) := by
  refine Sat.bind safe_getSess fun r => ?_
  refine Sat.ite (fun h => ?_) fun h => ?_
  · refine Sat.bind (Q := fun _ => Okay q) ?_ fun _ => safe_pure _
    intro c hc
    have h3 := Session.ok_stash hc.2.sessOk
    rw [hc.1] at h3
    have h4 : (r.stash.drop total).length ≤ 3 := by rw [List.length_drop]; omega
    exact safe_modifySess (f := fun r' => r'.setStash (r'.stash.drop total)) (fun r' hr => by
      have := Session.ok_stash hr
      exact Session.ok_setStash hr (by rw [List.length_drop]; omega)) (fun _ => rfl) c hc.2
  · refine Sat.conseq (P := Okay q) ?_ (fun _ hc => hc.2) (fun _ _ hc => hc) (fun _ _ hc => hc)
    refine safe_bind (safe_skipZeros _ _) fun x => ?_
    split
    · exact safe_pure _
    · next w k =>
      refine Sat.bind (safe_readWords (fun k => .inr (inRxBuf_streamIndex k)) _ _) fun ws => Sat.given fun hw => ?_
      refine safe_bind (safe_setStash (leftover_length (Nat.lt_of_not_le h) ?_)) fun _ => safe_pure _
      have : 1 ≤ ceilDiv (total - r.stash.length) 4 := by simp only [ceilDiv]; omega
      simp only [bytesOf_length, List.length_cons, hw]
      omega

theorem safe_readRxStream {q : Bool} (size n budget : Nat) : SafeOp q (readRxStream size n budget) := by
  refine safe_checkSlices_bind fun _ _ _ => safe_bind (safe_readSkip _ _) fun x => ?_
  split <;> exact safe_pure _

theorem safe_pullUntil {q : Bool} (total : Nat) (timeout : Word) (budget t0 fuel : Nat) :
    SafeOp q (pullUntil total timeout budget t0 fuel) := by
  induction fuel with
  | zero => exact safe_wait .read
  | succ fuel ih =>
    refine safe_bind (safe_readSkip _ _) fun x => ?_
    split
    · exact safe_pure _
    · refine safe_bind (safe_deadlinePassed _ _) fun late => Sat.ite (fun _ => safe_raise _) fun _ => ?_
      exact safe_bind safe_idlePoint fun go => Sat.ite (fun _ => ih) fun _ => safe_raise _

theorem safe_readRxStreamBlk {q : Bool} (size n : Nat) (timeout : Word) (budget : Nat) :
    SafeOp q (readRxStreamBlk size n timeout budget) :=
  safe_checkSlices_bind fun _ _ _ => safe_bind safe_now fun _ => safe_bind safe_readsLeft fun _ =>
    safe_bind (safe_pullUntil _ _ _ _ _) fun _ => safe_pure _

/-! ### LOAD_CONFIG -/

/-- If the fields pass their checks, each is in its range. -/
theorem safe_checkFields {q : Bool} (b : List Byte) (rs : List (Nat × Nat)) (f : Nat) :
    Sat (Okay q) (checkFields b f rs)
      (fun _ c => (∀ j, (h : j < rs.length) → rs[j].1 ≤ (wordAt b (4 * (f + j))).toNat
        ∧ (wordAt b (4 * (f + j))).toNat ≤ rs[j].2) ∧ Okay q c) Stopped := by
  induction rs generalizing f with
  | nil => exact Sat.pure fun _ hc => ⟨by simp, hc⟩
  | cons r rs ih =>
    refine Sat.bind (safe_require _) fun _ => Sat.given fun h1 => ?_
    refine (ih (f + 1)).conseq (fun _ hc => hc) (fun _ c hc => ⟨?_, hc.2⟩) (fun _ _ hc => hc)
    intro j hj
    cases j with
    | zero => exact h1
    | succ j =>
      have := hc.1 j (by simpa using hj)
      rw [show f + (j + 1) = f + 1 + j by omega]
      simpa using this

theorem cfgOfBytes_inRange {b : List Byte} (h : ∀ j, (h : j < cfgRanges.length) →
    cfgRanges[j].1 ≤ (wordAt b (4 * (0 + j))).toNat ∧ (wordAt b (4 * (0 + j))).toNat ≤ cfgRanges[j].2) :
    (cfgOfBytes b).inRange = true := by
  simp only [CfgRecord.inRange, List.all_eq_true, Bool.and_eq_true, decide_eq_true_eq]
  intro p hp
  obtain ⟨j, hj, rfl⟩ := List.mem_iff_getElem.mp hp
  have hj2 : j < 18 := by simp [cfgRanges, CfgRecord.fields] at hj; exact hj
  have := h j (by simpa [cfgRanges] using hj2)
  have e : (cfgOfBytes b).fields = (List.range 18).map fun f => wordAt b (4 * (0 + f)) := rfl
  simp only [List.getElem_zip, e, List.getElem_map, List.getElem_range]
  exact this

theorem safe_loadConfig {q : Bool} (b : List Byte) : SafeOp q (loadConfig b) := by
  refine safe_checkRange_bind fun _ _ => Sat.bind (safe_checkFields _ _ _) fun _ => Sat.given fun h => ?_
  exact safe_modifySess (fun r hr => Session.ok_setCfg hr (cfgOfBytes_inRange h)) fun _ => rfl

end Sys2Proof.Machine
end

