-- ==== Sys2Proof/Laws/SafeBus.lean ====
section
/-! SUPPORT. The sequences of 41_bus_ops.md and 42_srq_ops.md keep the allowed states and never stop with the fault. -/

namespace Sys2Proof.Machine

open Config

/-- What holds in `Ready` may be used behind the gate, whatever held before it (41_bus_ops.md rule R180). -/
theorem safe_gate_bind {α : Type} {q : Bool} {k : Op α} (h : SafeOp true k) : SafeOp q (gate >>= fun _ => k) := by
  refine Sat.bind (Q := fun _ => Okay true) ?_ fun _ => h.conseq (fun _ hc => hc) (fun _ _ hc => hc.weaken)
    fun _ _ hc => hc
  intro c hc
  simp only [gate, run_bind, run_getSess]
  by_cases h1 : c.sess.cfgValid = true
  · rw [run_require_true _ _ _ h1]
    by_cases h2 : c.sess.busState = .ready
    · simp only [run_require_true _ _ _ h2]
      by_cases h3 : c.sess.nch.isSome = true
      · rw [run_require_true _ _ _ h3]; exact ⟨hc.1, fun _ => h2⟩
      · rw [run_require_false _ _ _ h3, run_raise]; exact hc.stopped _
    · simp only [run_require_false _ _ _ h2, run_raise]; exact hc.stopped _
  · rw [run_require_false _ _ _ h1, run_raise]; exact hc.stopped _

theorem safe_buildLength {q : Bool} (code : Byte) (payload : List Byte) (rdlen : Nat) :
    SafeOp q (buildLength code payload rdlen) :=
  Sat.ite (fun _ => safe_require_bind fun _ => safe_require_bind fun _ => safe_pure _) fun _ =>
    safe_require_bind fun _ => Sat.ite (fun _ => safe_require_bind fun _ => safe_pure _) fun _ => safe_pure _

theorem safe_takeCookie {q : Bool} : SafeOp q takeCookie :=
  safe_getSess_bind fun _ => Sat.ite (fun _ => safe_pure _) fun _ =>
    safe_bind (safe_modifySess (fun _ hr => Session.ok_setCookie _ hr) fun _ => rfl) fun _ => safe_pure _

theorem safe_build {q : Bool} (code address : Nat) (payload : List Byte) (rdlen : Nat) :
    SafeOp q (build code address payload rdlen) :=
  safe_require_bind fun _ => safe_require_bind fun _ => safe_bind (safe_buildLength _ _ _) fun _ =>
    safe_bind safe_takeCookie fun _ => safe_pure _

theorem safe_transact {q : Bool} (cmd : List Byte) (lt lr : Nat) : SafeOp q (transact cmd lt lr) :=
  safe_getSess_bind fun _ => safe_bind (safe_cfgTransmit _ _ _ _) fun _ => safe_bind (safe_cfgReceive _ _ _ _) fun _ =>
    safe_bind (safe_writeCommand _) fun _ => safe_bind (safe_trigger_other 2 (by decide)) fun _ =>
      safe_bind (safe_ignoring (safe_waitStatus _ _ _)) fun _ => safe_needNch_bind fun _ => safe_readRxAll _ _

theorem safe_validate {q : Bool} (c : Nat) (f : List Byte) (req : Request) (payload : List Byte)
    (verify count : Bool) (h : count = true → q = true) : SafeOp q (validate c f req payload verify count) := by
  have h1 : SafeOp q (checkHeader c (parseHeader f) req) :=
    safe_require_bind fun _ => safe_require_bind fun _ => safe_require_bind fun _ =>
      (safe_require _).conseq (fun _ hc => hc) (fun _ _ hc => hc.2) fun _ _ hc => hc
  have h2 : SafeOp q (checkCount c (parseHeader f) count) := by
    cases count
    · exact safe_pure _
    · obtain rfl := h rfl
      exact safe_bind safe_needChain fun _ =>
        (safe_require _).conseq (fun _ hc => hc) (fun _ _ hc => hc.2) fun _ _ hc => hc
  refine safe_bind h1 fun _ => safe_require_bind fun _ => safe_bind h2 fun _ => safe_require_bind fun _ => ?_
  refine safe_bind ?_ fun _ => safe_bind ?_ fun _ => safe_pure _
  · unfold checkEcho
    split
    · split
      · exact safe_pure _
      · exact safe_raise _
    · exact safe_pure _
  · unfold checkIdle
    split
    · exact safe_raise _
    · exact safe_pure _

theorem safe_validateFrom {q : Bool} (req : Request) (payload : List Byte) (verify count : Bool)
    (h : count = true → q = true) (fs : List (List Byte)) (c : Nat) :
    SafeOp q (validateFrom req payload verify count c fs) := by
  induction fs generalizing c with
  | nil => exact safe_pure _
  | cons f fs ih => exact safe_bind (safe_validate _ _ _ _ _ _ h) fun _ => safe_bind (ih _) fun _ => safe_pure _

/-- The coherency check changes nothing (rule R190). -/
theorem sat_coherenceCheck {q : Bool} {P : Ctx → Prop} (h : ∀ c, P c → Okay q c) (bodies : List (List Byte))
    (n dlen : Nat) : Sat P (coherenceCheck bodies n dlen) (fun _ => P) Stopped := by
  unfold coherenceCheck
  split
  · exact Sat.raise fun c hc => (h c hc).stopped _
  · split
    · exact Sat.raise fun c hc => (h c hc).stopped _
    · exact Sat.pure fun _ hc => hc

theorem sat_checkCounts {q : Bool} {P : Ctx → Prop} (h : ∀ c, P c → Okay q c) (rs : List (Half × List Byte)) (n : Nat) :
    Sat P (checkCounts rs n) (fun _ => P) Stopped := by
  unfold checkCounts
  split
  · exact Sat.raise fun c hc => (h c hc).stopped _
  · exact Sat.pure fun _ hc => hc

theorem safe_send {q : Bool} (code address verify : Nat) (payload : List Byte) :
    SafeOp q (send code address verify payload) :=
  safe_gate_bind <| safe_require_bind fun _ => safe_require_bind fun _ => safe_bind (safe_build _ _ _ _) fun _ =>
    safe_bind (safe_transact _ _ _) fun _ => safe_validateFrom _ _ _ _ (fun _ => rfl) _ _

theorem safe_checkRead_bind {α : Type} {q : Bool} {address dlen : Nat} {k : Op α} (h : SafeOp q k) :
    SafeOp q (checkRead address dlen >>= fun _ => k) :=
  safe_bind (safe_require_bind fun _ =>
    (safe_require _).conseq (fun _ hc => hc) (fun _ _ hc => hc.2) fun _ _ hc => hc) fun _ => h

theorem safe_readBounded {q : Bool} (address dlen : Nat) : SafeOp q (readBounded address dlen) :=
  safe_gate_bind <| safe_checkRead_bind <| safe_bind safe_needChain fun _ => safe_needNch_bind fun _ =>
    safe_require_bind fun _ => safe_bind (safe_build _ _ _ _) fun _ => safe_bind (safe_transact _ _ _) fun _ =>
      safe_bind (safe_validateFrom _ _ _ _ (fun _ => rfl) _ _) fun _ => safe_pure _

theorem safe_pullChunks {q : Bool} (n : Nat) (timeout : Word) (budget k : Nat) (frames : List (List Byte)) :
    SafeOp q (pullChunks n timeout budget k frames) := by
  induction k generalizing frames with
  | zero => exact safe_pure _
  | succ k ih => exact safe_bind (safe_readRxStreamBlk _ _ _ _) fun _ => ih _

theorem safe_readStreaming {q : Bool} (address dlen : Nat) : SafeOp q (readStreaming address dlen) :=
  safe_gate_bind <| safe_checkRead_bind <| safe_bind (safe_build _ _ _ _) fun _ => safe_bind safe_needChain fun _ =>
    safe_needNch_bind fun _ => safe_getSess_bind fun _ => safe_bind (safe_cfgTransmit _ _ _ _) fun _ =>
      safe_bind (safe_cfgReceive _ _ _ _) fun _ => safe_bind (safe_writeCommand _) fun _ =>
        safe_bind (safe_trigger_other 2 (by decide)) fun _ => safe_bind (safe_pullChunks _ _ _ _ _) fun _ =>
          safe_bind (safe_trigger_other 3 (by decide)) fun _ => safe_bind (safe_ignoring (safe_waitStatus _ _ _)) fun _ =>
            safe_bind (safe_validateFrom _ _ _ _ (fun _ => rfl) _ _) fun _ => safe_pure _

theorem safe_readCoherent {q : Bool} (address dlen : Nat) : SafeOp q (readCoherent address dlen) :=
  safe_gate_bind <| safe_require_bind fun _ => safe_require_bind fun _ => safe_bind (safe_build _ _ _ _) fun _ =>
    safe_bind (safe_transact _ _ _) fun _ => safe_bind (safe_validateFrom _ _ _ _ (fun _ => rfl) _ _) fun _ =>
      safe_needNch_bind fun _ => safe_bind (sat_coherenceCheck (fun _ hc => hc) _ _ _) fun _ => safe_pure _

/-- `INITIALIZE` keeps the allowed states; it ends in `Ready` only with the registers of rule R22 set. -/
theorem safe_initializeBus : SafeOp false initializeBus := by
  refine safe_getSess_bind fun r => safe_require_bind fun _ => safe_bind (safe_trigger 0) fun _ =>
    safe_bind (safe_ignoring (safe_waitStatus _ _ _)) fun _ => safe_bind (safe_cfgChannels _) fun _ =>
      safe_bind (safe_cfgClock _ _ _) fun _ => safe_bind (safe_cfgReset _ _) fun _ =>
        safe_bind (safe_build _ _ _ _) fun cr => safe_bind (safe_transact _ _ _) fun frames =>
          safe_bind (safe_validateFrom _ _ _ _ (by simp) _ _) fun rs => Sat.bind safe_needNch fun n => ?_
  have hP : ∀ c, (c.sess.nch = some n ∧ Okay false c) → Okay false c := fun _ hc => hc.2
  refine Sat.bind (sat_checkCounts hP _ _) fun _ => ?_
  refine Sat.bind (Sat.require fun c hc _ => hc.2.stopped _) fun _ => Sat.given fun h0 => ?_
  refine Sat.bind (sat_coherenceCheck hP _ _ _) fun v => ?_
  refine Sat.bind (Sat.require fun c hc _ => hc.2.stopped _) fun _ => Sat.given fun hv => ?_
  refine Sat.bind (Q := fun _ => Okay false) (fun c hc => ?_) fun _ => safe_pure _
  obtain ⟨hn, hk⟩ := hc
  obtain ⟨h1, h2⟩ := Session.ok_nch hk.sessOk hn
  refine ⟨?_, by simp⟩
  simp only [Ctx.ok, Bool.and_eq_true]
  exact ⟨Session.ok_initialised hk.sessOk h0 h1 h2 hv (by rw [hn]; rfl), hk.linkOk⟩

/-! ### SRQ -/

theorem safe_postRecord (rec : List Byte) (h1 : 4 ≤ rec.length) (h2 : rec.length ≤ 256) : SafeOp true (postRecord rec) :=
  safe_getSess_bind fun _ => Sat.ite
    (fun _ => safe_bind (safe_modifySess (fun _ hr => Session.ok_setLastSrq_none hr) fun _ => rfl) fun _ =>
      safe_bind (safe_ignoring (safe_send _ _ _ _)) fun _ =>
        safe_modifySess (fun _ hr => Session.ok_setLastSrq hr h1 h2) fun _ => rfl)
    fun _ => safe_pure _

theorem srqRecord_length (code param address : Nat) (payload : List Byte) :
    (srqRecord code param address payload).length = payload.length + 4 := by
  simp [srqRecord, le16]

theorem safe_srq {q : Bool} (code param address : Nat) (payload : List Byte) : SafeOp q (srq code param address payload) := by
  refine safe_gate_bind <| safe_require_bind fun _ => safe_require_bind fun _ => safe_require_bind fun _ =>
    safe_require_bind fun hp => ?_
  simp only [params_maxDataLen, params_srqHdrBytes] at hp
  refine safe_bind (safe_postRecord _ (by rw [srqRecord_length]; omega) (by rw [srqRecord_length]; omega)) fun _ => ?_
  exact safe_bind (safe_trigger_other 1 (by decide)) fun _ => safe_getSess_bind fun _ =>
    safe_ignoring (safe_waitStatus _ _ _)

theorem safe_readModuleStatus {q : Bool} : SafeOp q readModuleStatus :=
  safe_gate_bind <| safe_bind safe_needChain fun _ => safe_needNch_bind fun _ =>
    Sat.ite (fun _ => safe_readBounded _ _) fun _ => safe_readStreaming _ _

theorem safe_waitUntil {q : Bool} (target fuel : Nat) : SafeOp q (waitUntil target fuel) := by
  induction fuel with
  | zero => exact safe_wait .tick
  | succ fuel ih => exact safe_bind safe_now fun _ => Sat.ite (fun _ => safe_pure _) fun _ => ih

theorem safe_legacyWait {q : Bool} (delay : Nat) : SafeOp q (legacyWait delay) :=
  Sat.ite (fun _ => safe_bind safe_now fun _ => safe_bind safe_ticksLeft fun _ => safe_waitUntil _ _) fun _ => safe_pure _

theorem safe_checkSrqStatus : SafeOp true checkSrqStatus := by
  refine safe_getSess_bind fun _ => Sat.ite (fun _ => ?_) fun _ => safe_pure _
  refine safe_bind safe_readModuleStatus fun _ => safe_bind safe_needChain fun _ => safe_needNch_bind fun _ => ?_
  split
  · exact safe_raise _
  · exact safe_pure _

theorem safe_srqSync {q : Bool} (code param address delay : Nat) (payload : List Byte) :
    SafeOp q (srqSync code param address delay payload) := by
  refine safe_gate_bind <| safe_require_bind fun _ => safe_bind safe_needVersion fun _ => ?_
  refine Sat.ite (fun _ => safe_bind (safe_srq _ _ _ _) fun _ => safe_checkSrqStatus) fun _ => ?_
  refine safe_bind (safe_srq _ _ _ _) fun _ => safe_bind (safe_legacyWait _) fun _ => ?_
  exact Sat.ite (fun _ => safe_bind (safe_ignoring (safe_send _ _ _ _)) fun _ => safe_checkSrqStatus) fun _ =>
    safe_checkSrqStatus

theorem safe_programChunks (address delay : Nat) (cs : List (List Byte)) (i : Nat) :
    SafeOp true (programChunks address delay i cs) := by
  induction cs generalizing i with
  | nil => exact safe_pure _
  | cons c cs ih => exact safe_bind (safe_srqSync _ _ _ _ _) fun _ => ih _

theorem safe_checkChecksums (expected : Word) : SafeOp true (checkChecksums expected) := by
  refine safe_bind safe_readModuleStatus fun _ => safe_bind safe_needChain fun _ => safe_needNch_bind fun _ => ?_
  split
  · exact safe_raise _
  · exact safe_pure _

theorem safe_program {q : Bool} (address : Nat) (data : List Byte) : SafeOp q (program address data) :=
  safe_gate_bind <| safe_require_bind fun _ => safe_require_bind fun _ => safe_getSess_bind fun _ =>
    safe_bind (safe_programChunks _ _ _ _) fun _ => safe_bind (safe_checkChecksums _) fun _ => safe_pure _

/-! ### One operation at the port -/

/-- An operation that keeps the allowed contexts keeps the allowed states, and it answers a next state. -/
theorem operate_ok {i : Instr} {body : Op (Option (List Byte))} {s : State} (hs : s.ok = true)
    (hb : SafeOp false body) : ∃ t, operate i body s = .next t ∧ t.ok = true := by
  by_cases hbusy : s.busy = true
  · exact ⟨s, by simp [operate, hbusy], hs⟩
  · have hbusy : s.busy = false := by simpa using hbusy
    simp only [State.ok, Bool.and_eq_true] at hs
    have hc := hb s.ctx ⟨hs.1.1.1.1, by simp⟩
    rw [operate_idle hbusy]
    cases h : body s.ctx with
    | ok out c =>
      rw [h] at hc
      exact ⟨_, rfl, by simp [State.ok, hc.1, hs.1.1.1.2]⟩
    | error e c =>
      rw [h] at hc
      cases e with
      | raise e => exact ⟨_, rfl, by have := hc.1; simp [State.ok, this, hs.1.1.1.2]⟩
      | wait n => exact ⟨_, rfl, by have := hc.1; simp [State.ok, this, hs.1.1.1.1, hs.1.1.1.2]⟩
      | fault f => exact absurd rfl (hc.2 f)

end Sys2Proof.Machine
end

