-- ==== Sys2Proof/Laws/RunsBus.lean ====
section
/-! SUPPORT. How the bus operations run when they end without an error: `Send`, `ReadBounded`, `ReadStreaming` and
`ReadModuleStatus`. Callers cite these and unfold none of them. -/

namespace Sys2Proof.Machine

open Config

/-- The session of an allowed context is allowed. -/
theorem Ctx.ok_sess {c : Ctx} (h : c.ok = true) : c.sess.ok = true := by
  simp only [Ctx.ok, Bool.and_eq_true] at h; exact h.1

/-- A loaded configuration is in range (10_state.md rule R26). -/
theorem Session.ok_cfg {r : Session} (h : r.ok = true) (hv : r.cfgValid = true) : r.cfg.inRange = true := by
  simp only [Session.ok, Bool.and_eq_true, hv] at h
  simpa using h.1.1.2

/-- What the gate asks for (41_bus_ops.md rule R180). -/
theorem Session.admits_iff {r : Session} : r.admits = true ↔ r.cfgValid = true ∧ r.busState = .ready ∧
    r.nch.isSome = true := by
  simp [Session.admits, and_assoc]

/-- A channel count that is set is 1..8 (10_state.md rule R20). -/
theorem Session.admits_nch {r : Session} (h : r.ok = true) (ha : r.nch.isSome = true) :
    ∃ n, r.nch = some n ∧ 1 ≤ n ∧ n ≤ 8 := by
  obtain ⟨n, hn⟩ := Option.isSome_iff_exists.mp ha
  have := Session.ok_nch h hn
  exact ⟨n, hn, this.1, this.2⟩

theorem Session.channels_le {r : Session} (h : r.ok = true) : r.channels ≤ 8 := by
  unfold Session.channels
  cases hn : r.nch with
  | none => simp
  | some n => have := Session.ok_nch h hn; simp [this.2]

/-- Taking a cookie writes `cookie_ctr` only (30_encoding.md rule R107). -/
@[simp] theorem cookieTaken_cfg (r : Session) : r.cookieTaken.cfg = r.cfg := by
  unfold Session.cookieTaken; split <;> rfl

@[simp] theorem cookieTaken_nch (r : Session) : r.cookieTaken.nch = r.nch := by
  unfold Session.cookieTaken; split <;> rfl

@[simp] theorem cookieTaken_chain (r : Session) : r.cookieTaken.chain = r.chain := by
  unfold Session.cookieTaken; split <;> rfl

@[simp] theorem cookieTaken_stash (r : Session) : r.cookieTaken.stash = r.stash := by
  unfold Session.cookieTaken; split <;> rfl

@[simp] theorem cookieTaken_bs (r : Session) : r.cookieTaken.busState = r.busState := by
  unfold Session.cookieTaken; split <;> rfl

@[simp] theorem cookieTaken_lastSrq (r : Session) : r.cookieTaken.lastSrq = r.lastSrq := by
  unfold Session.cookieTaken; split <;> rfl

@[simp] theorem cookieTaken_ver (r : Session) : r.cookieTaken.modVersion = r.modVersion := by
  unfold Session.cookieTaken; split <;> rfl

@[simp] theorem cookieTaken_cfgValid (r : Session) : r.cookieTaken.cfgValid = r.cfgValid := by
  unfold Session.cookieTaken; split <;> rfl

@[simp] theorem cookieTaken_channels (r : Session) : r.cookieTaken.channels = r.channels := by simp [Session.channels]

@[simp] theorem ctx_cookieTaken_sess (c : Ctx) : c.cookieTaken.sess = c.sess.cookieTaken := rfl

@[simp] theorem ctx_cookieTaken_env (c : Ctx) : c.cookieTaken.env = c.env := rfl

@[simp] theorem ctx_cookieTaken_link (c : Ctx) : c.cookieTaken.link = c.link := rfl

/-- Taking a cookie changes nothing of what a transaction asks for. -/
theorem canTransact_cookie (c : Ctx) (lr e) : c.cookieTaken.canTransact lr e = c.canTransact lr e := by
  simp [Ctx.canTransact]

theorem frames_cookie (c : Ctx) (lr e) : c.cookieTaken.frames lr e = c.frames lr e := by
  simp [Ctx.frames]

@[simp] theorem transacted_chain (c : Ctx) (cmd lt lr e) : (c.transacted cmd lt lr e).sess.chain = c.sess.chain := rfl

@[simp] theorem transacted_nch (c : Ctx) (cmd lt lr e) : (c.transacted cmd lt lr e).sess.nch = c.sess.nch := rfl

theorem frameLen_le {m k : Nat} (h : m ≤ k) : frameLen m ≤ k + 3 := by rw [frameLen_eq]; omega

theorem buildable_len {code address payload rdlen} (h : buildable code address payload rdlen = true) :
    payload.length ≤ 256 := by
  simp only [buildable, Bool.and_eq_true] at h
  have h3 := h.2
  split at h3
  · simp only [Bool.and_eq_true, decide_eq_true_eq] at h3; exact h3.2
  · simp at h3; simp [h3.1]

/-- `Send` when it ends without an error (41_bus_ops.md rule R184). -/
theorem run_send (code address verify : Nat) (payload : List Byte) (e : Exchange) (c : Ctx) (hok : c.sess.ok = true)
    (h : c.canSend code address verify payload e = true) :
    send code address verify payload c = .ok (c.sendAnswer code address payload e) (c.sent code address payload e) := by
  simp only [Ctx.canSend, Bool.and_eq_true, bne_iff_ne, ne_eq, decide_eq_true_eq] at h
  obtain ⟨⟨⟨⟨⟨h1, h2⟩, h3⟩, h4⟩, h5⟩, h6⟩ := h
  have ha := Session.admits_iff.mp h1
  have hg := Session.ok_cfg hok ha.1
  have hn := Session.admits_nch hok ha.2.2
  have hlen := buildable_len h2
  obtain ⟨k, v, n, hk, hv, hn2⟩ := Session.ready_set hok ha.2.1
  have h8 := Session.channels_le hok
  simp only [send, run_bind, run_gate c h1]
  rw [run_require_true _ _ _ h3]
  simp only [run_require_true _ _ _ h4]
  rw [run_build _ _ _ _ c h2]
  simp only [requestBytes_length]
  have hL : frameLen (8 + payload.length) ≤ 267 := by have := frameLen_le (Nat.add_le_add_left hlen 8); omega
  have hcap : frameLen (8 + payload.length) * c.sess.channels ≤ 4096 := by
    have := Nat.mul_le_mul hL h8; omega
  rw [run_transact _ _ _ e c.cookieTaken (by simpa using hg) (by simpa using hn)
    (by rw [requestBytes_length]; omega) (by omega) (by omega) (by simpa using hcap)
        (by rw [canTransact_cookie]; exact h5)]
  simp only [frames_cookie]
  rw [run_validateFrom]
  · rfl
  · intro _; simp [hk]
  · simpa [hk] using h6

/-- A good read makes a good command. -/
theorem readable_buildable {address dlen} (h : readable address dlen = true) :
    buildable params.codeRead.toNat address [] dlen = true := by
  simp only [readable, Bool.and_eq_true, decide_eq_true_eq] at h
  have hp : hasPayload (byte params.codeRead.toNat) = false := by decide
  have hc : commandCodes.contains params.codeRead.toNat = true := by decide
  unfold buildable
  rw [hp, hc]
  simp only [h.1.1, h.1.2, h.2, decide_true, Bool.true_and, Bool.and_true, Bool.or_true, Bool.false_eq_true, if_false]
  rfl

theorem run_checkRead {address dlen} (c : Ctx) (h : readable address dlen = true) : checkRead address dlen c = .ok
    () c := by
  simp only [readable, Bool.and_eq_true, decide_eq_true_eq] at h
  simp only [checkRead, checkAddress, run_bind]
  rw [run_require_true _ _ _ h.1.1]
  simp only [run_require_true _ _ _ (show 1 ≤ dlen ∧ dlen ≤ params.maxDataLen from ⟨h.1.2, h.2⟩)]

/-- `ReadBounded` when it ends without an error (41_bus_ops.md rule R187). -/
theorem run_readBounded (address dlen : Nat) (e : Exchange) (c : Ctx) (hok : c.sess.ok = true)
    (h : c.canReadBounded address dlen e = true) :
    readBounded address dlen c = .ok (c.boundedAnswer address dlen e) (c.boundedRead address dlen e) := by
  simp only [Ctx.canReadBounded, Bool.and_eq_true, decide_eq_true_eq] at h
  obtain ⟨⟨⟨⟨h1, h2⟩, h3⟩, h5⟩, h6⟩ := h
  have ha := Session.admits_iff.mp h1
  have hg := Session.ok_cfg hok ha.1
  obtain ⟨n, hn, hn1, hn8⟩ := Session.admits_nch hok ha.2.2
  obtain ⟨k, v, n', hk, hv, -⟩ := Session.ready_set hok ha.2.1
  have hch : c.sess.channels = n := by simp [Session.channels, hn]
  have hcl : c.sess.chainLength = k.toNat := by simp [Session.chainLength, hk]
  simp only [Session.readLength, hcl, hch, params_rxCap] at h3
  simp only [readBounded, run_bind, run_gate c h1, run_checkRead c h2, run_needChain c k hk, run_needNch c n hn]
  rw [run_require_true _ _ _ (by exact h3)]
  simp only [run_build _ _ _ _ c (readable_buildable h2)]
  have hl : frameLen (params.headerBytes + k.toNat * dlen) ≤ 4096 := by
    have := Nat.le_mul_of_pos_right (frameLen (params.headerBytes + k.toNat * dlen)) hn1
    omega
  have e1 : c.sess.readLength dlen = frameLen (params.headerBytes + k.toNat * dlen) := by
    simp only [Session.readLength, hcl]
  rw [e1] at h5 h6
  rw [run_transact _ _ _ e c.cookieTaken (by simpa using hg) (by simp [hn, hn1, hn8])
    (by rw [requestBytes_length]; simp) (by omega) (by omega) (by simpa [hch] using h3)
        (by rw [canTransact_cookie]; exact h5)]
  simp only [frames_cookie]
  rw [run_validateFrom _ _ _ _ _ _ _ (by intro; simp [hk])
    (by simp only [if_true, transacted_chain, ctx_cookieTaken_sess, cookieTaken_chain]; exact h6)]
  simp only [run_pure, Ctx.boundedAnswer, Ctx.boundedRead, e1, List.flatMap_map]
  rfl

/-- The length of a body is the one rule R183 gives it (41_bus_ops.md). -/
theorem answer_len (req : Request) (f : List Byte) (chain : Option Half) (p : List Byte) (v : Bool)
    (h : req.accepts chain p v f = true) :
    (req.answer f).2.length = bodyLength req.code (req.lm1.toNat + 1) (req.answer f).1.toNat := by
  simp only [Request.accepts, Bool.and_eq_true, decide_eq_true_eq] at h
  have h7 := h.1.1.2
  simp only [Request.answer, slice, List.length_take, List.length_drop] at h7 ⊢
  omega

/-- An accepted frame carries the count it was checked against. -/
theorem answer_count (req : Request) (f : List Byte) (k : Half) (p : List Byte) (v : Bool)
    (h : req.accepts (some k) p v f = true) : (req.answer f).1 = k := by
  simp only [Request.accepts, Bool.and_eq_true, decide_eq_true_eq] at h
  have := h.1.1.1.2
  simp only [Option.all_some, beq_iff_eq] at this
  exact this.symm

theorem flatMap_len {α β : Type} (l : List α) (f : α → List β) (n : Nat) (h : ∀ x ∈ l, (f x).length = n) :
    (l.flatMap f).length = l.length * n := by
  induction l with
  | nil => simp
  | cons a l ih =>
    simp only [List.flatMap_cons, List.length_append, List.length_cons]
    rw [h a (by simp), ih (fun x hx => h x (by simp [hx])), Nat.add_mul]; omega

theorem readReq_len (r : Session) (address dlen : Nat) (h : readable address dlen = true) (count : Nat) :
    bodyLength (r.readRequest address dlen).code ((r.readRequest address dlen).lm1.toNat + 1) count = count * dlen := by
  simp only [readable, Bool.and_eq_true, decide_eq_true_eq] at h
  have h2 : dlen ≤ 256 := h.2
  have e : (r.readRequest address dlen).code = 0x86 := rfl
  have hp0 : hasPayload (byte params.codeRead.toNat) = false := by decide
  have e2 : (r.readRequest address dlen).lm1.toNat + 1 = dlen := by
    simp only [Session.readRequest, Session.request, dataLength, hp0, Bool.false_eq_true, if_false, if_true, byte_toNat]
    have := h.1.2
    omega
  have hp : hasPayload 0x86 = false := by decide
  have hm : isMulti 0x86 = true := by decide
  rw [e, e2, bodyLength, hp, hm]
  rfl

/-- A bounded read answers `dlen` bytes per module. -/
theorem boundedAnswer_len (c : Ctx) (hok : c.sess.ok = true) (address dlen e) (h : c.canReadBounded address dlen e =
    true) :
   (c.boundedAnswer address dlen e).length = c.sess.channels * c.sess.chainLength * dlen := by
  simp only [Ctx.canReadBounded, Bool.and_eq_true, decide_eq_true_eq] at h
  obtain ⟨⟨⟨⟨h1, h2⟩, h3⟩, h5⟩, h6⟩ := h
  have ha := Session.admits_iff.mp h1
  obtain ⟨k, v, n', hk, hv, -⟩ := Session.ready_set hok ha.2.1
  have hcl : c.sess.chainLength = k.toNat := by simp [Session.chainLength, hk]
  simp only [Ctx.boundedAnswer]
  rw [flatMap_len _ _ (k.toNat * dlen)]
  · simp only [Ctx.frames, channelSlices_length, hcl, Nat.mul_assoc]
  · intro f hf
    have := List.all_eq_true.mp h6 f hf
    rw [answer_len _ _ _ _ _ this, readReq_len _ _ _ h2, answer_count _ _ k _ _ (by rw [hk] at this; exact this)]

/-- The masks of a poll are pairs. -/
theorem pollMasks_length (n : Nat) : (pollMasks n).length = 2 * n := by
  induction n with
  | zero => rfl
  | succ n ih => simp only [pollMasks, List.length_cons, ih]; omega

/-- A good coherent read makes a good command. -/
theorem pollable {address dlen} (h1 : address ≤ 65535) (h2 : 1 ≤ dlen) (h3 : 2 * dlen ≤ 256) :
    buildable params.codePoll.toNat address (pollMasks dlen) 0 = true := by
  have hp : hasPayload (byte params.codePoll.toNat) = true := by decide
  have hc : commandCodes.contains params.codePoll.toNat = true := by decide
  unfold buildable
  rw [hp, hc, pollMasks_length]
  have a : 1 ≤ 2 * dlen := by omega
  have b : 2 * dlen ≤ params.maxDataLen := h3
  simp only [h1, a, b, decide_true, Bool.true_and, if_true]

theorem sum_const {α : Type} (l : List α) (f : α → Nat) (k : Nat) (h : ∀ x ∈ l, f x = k) : (l.map f).sum =
    k * l.length := by
  induction l with
  | nil => simp
  | cons a l ih => 
    rw [List.map_cons, List.sum_cons, h a (by simp), ih (fun x hx => h x (by simp [hx])), List.length_cons,
        Nat.mul_add]; omega

theorem offers_reads {e : Env} {a : Answers} (h : e.offers a = true) : e.reads =
    a.reads ++ e.reads.drop a.reads.length :=
  ((Env.offers_iff _ _).mp h).1

theorem offers_ticks {e : Env} {a : Answers} (h : e.offers a = true) : e.ticks =
    a.ticks ++ e.ticks.drop a.ticks.length :=
  ((Env.offers_iff _ _).mp h).2.1

/-- One blocking pull that is ready at once,
    with an empty stash and a whole number of words (40_device_ops.md rule R153). -/
theorem run_blkPull (n : Nat) (timeout : Word) (budget : Nat) (p : Pull) (d : Nat) (c : Ctx)
    (h1 : 1 ≤ n) (h8 : n ≤ 8) (hs : c.sess.stash = [])
    (hp : p.good (256 * n / 4) budget = true)
    (ho : c.env.offers ⟨p.reads, [d], []⟩ = true) :
    readRxStreamBlk 256 n timeout budget c = .ok (channelSlices (bytesOf p.words) 256 n)
      { sess := c.sess, link := c.link.notePull p.reads, env := c.env.used ⟨p.reads, [d], []⟩ } := by
  have hr := offers_reads ho
  have ht := offers_ticks ho
  simp only [] at hr ht
  simp only [readRxStreamBlk, checkSlices, run_bind]
  rw [run_checkRange _ _ _ _ c (show 1 ≤ n ∧ n ≤ params.nchMax from ⟨h1, h8⟩)]
  simp only []
  rw [run_require_true _ _ _ (show 256 * n ≤ params.rxCap by show 256 * n ≤ 4096; omega)]
  simp only []
  rw [run_now_cons c d _ (by simpa using ht)]
  simp only [run_readsLeft]
  have hneed : ceilDiv (256 * n - 0) 4 = 256 * n / 4 := by simp only [ceilDiv]; omega
  rw [pullUntil, run_bind, run_readSkip (256 * n) budget p (c.env.reads.drop p.reads.length) _ (by simp [hs]; omega)
    (by simp only [hs, List.length_nil, hneed]; exact hp) (by exact hr)]
  have hl : (bytesOf p.words).length = 256 * n := by
    simp only [Pull.good, Bool.and_eq_true, beq_iff_eq] at hp
    rw [bytesOf_length, hp.1.2]; omega
  have ht : List.take (256 * n) (bytesOf p.words) = bytesOf p.words := List.take_of_length_le (by omega)
  have hd : List.drop (256 * n) (bytesOf p.words) = [] := List.drop_of_length_le (by omega)
  simp only [run_pure, hs, List.nil_append, ht, hd]
  obtain ⟨sess, link, env⟩ := c
  simp only [] at hs
  have : sess.setStash [] = sess := by obtain ⟨⟩ := sess; simp only [] at hs; simp [Session.setStash, hs]
  simp [Ctx.readOn, Link.notePull, Env.used, this]

theorem notePulls_cons (l : Link) (p ps) : l.notePulls (p :: ps) = (l.notePull p).notePulls ps := rfl

/-- The pulls of `ReadStreaming`, each ready at once (41_bus_ops.md rule R188). -/
theorem run_pullChunks (n : Nat) (timeout : Word) (budget : Nat) (ps : List Pull) (ds : List Nat) (c : Ctx) (fr : List
    (List Byte))
    (h1 : 1 ≤ n) (h8 : n ≤ 8) (hs : c.sess.stash = [])
    (hp : ps.all (fun p => p.good (256 * n / 4) budget) = true) (hl : ds.length = ps.length)
    (ho : c.env.offers ⟨ps.flatMap Pull.reads, ds, []⟩ = true) :
    pullChunks n timeout budget ps.length fr c =
      .ok (ps.foldl (fun fr p => List.zipWith (· ++ ·) fr (channelSlices (bytesOf p.words) 256 n)) fr)
      { sess := c.sess, link := c.link.notePulls (ps.map Pull.reads), env := c.env.used ⟨ps.flatMap Pull.reads, ds,
          []⟩ } := by
  induction ps generalizing ds c fr with
  | nil =>
    have : ds = [] := List.length_eq_zero_iff.mp hl
    subst this
    obtain ⟨s, l, ⟨a, b, d, e⟩⟩ := c
    simp [pullChunks, Link.notePulls, Env.used]
  | cons p ps ih =>
    cases ds with
    | nil => simp at hl
    | cons d ds =>
      simp only [List.all_cons, Bool.and_eq_true] at hp
      have e1 : (⟨(p :: ps).flatMap Pull.reads, d :: ds, []⟩ : Answers) = Answers.followedBy ⟨p.reads, [d],
          []⟩ ⟨ps.flatMap Pull.reads, ds, []⟩ := by
        simp [Answers.followedBy]
      rw [e1, Env.offers_followedBy, Bool.and_eq_true] at ho
      simp only [List.length_cons, pullChunks, run_bind]
      rw [show params.chunkSize = 256 from rfl, run_blkPull n timeout budget p d c h1 h8 hs hp.1 ho.1]
      simp only []
      refine (ih ds ⟨c.sess, c.link.notePull p.reads, c.env.used ⟨p.reads, [d], []⟩⟩ _ hs hp.2
          (by simpa using hl) ho.2).trans ?_
      simp only [List.foldl_cons, List.map_cons, notePulls_cons, e1, Env.used_used]

/-- `ReadStreaming` when it ends without an error (41_bus_ops.md rule R188). -/
theorem run_readStreaming (address dlen : Nat) (x : Streaming) (c : Ctx) (hok : c.sess.ok = true)
    (h : c.canReadStreaming address dlen x = true) :
    readStreaming address dlen c = .ok (c.streamingAnswer address dlen x) (c.streamingRead address dlen x) := by
  simp only [Ctx.canReadStreaming, Bool.and_eq_true, beq_iff_eq] at h
  obtain ⟨⟨⟨⟨⟨⟨⟨⟨h1, h2⟩, hst⟩, hK⟩, hl⟩, hp⟩, hstop⟩, ho⟩, h6⟩ := h
  have ha := Session.admits_iff.mp h1
  have hg := Session.ok_cfg hok ha.1
  obtain ⟨n, hn, hn1, hn8⟩ := Session.admits_nch hok ha.2.2
  obtain ⟨k, v, n', hk, hv, -⟩ := Session.ready_set hok ha.2.1
  have hch : c.sess.channels = n := by simp [Session.channels, hn]
  have hcl : c.sess.chainLength = k.toNat := by simp [Session.chainLength, hk]
  obtain ⟨-, -, -, -, hf, hx⟩ := CfgRecord.ranges hg
  rw [hch] at hp h6
  rw [Streaming.answers, Env.offers_followedBy, Bool.and_eq_true] at ho
  simp only [readStreaming, run_bind, run_gate c h1, run_checkRead c h2, run_build _ _ _ _ c (readable_buildable h2)]
  rw [run_needChain _ k (by simpa using hk)]
  simp only []
  rw [run_needNch _ n (by simpa using hn)]
  simp only [run_getSess, ctx_cookieTaken_sess, cookieTaken_cfg]
  rw [run_cfgTransmit _ _ _ _ _ (by decide) hf.1 hf.2.1 hf.2.2]
  simp only []
  rw [run_cfgReceive _ _ _ _ _ (by decide) hx.1 hx.2.1 hx.2.2]
  simp only []
  rw [run_writeCommand _ _ (by rw [requestBytes_length]; simp)]
  simp only [Session.setWide16_wide16, wide_eq]
  rw [run_trigger 2 _ (by decide)]
  simp only []
  rw [show ceilDiv (frameLen (params.headerBytes + k.toNat * dlen)) params.chunkSize = x.pulls.length by
    rw [hK, Session.readLength, hcl]]
  rw [run_pullChunks n _ _ x.pulls x.starts _ _ hn1 hn8 (by simpa [Session.onTrigger] using hst) hp hl (by exact ho.1)]
  simp only []
  rw [run_trigger 3 _ (by decide)]
  simp only []
  rw [run_ignoring _ _ _ _ (run_waitStatus _ _ _ x.stop _ hstop (by exact ho.2))]
  simp only []
  rw [run_validateFrom _ _ _ _ _ _ _ (by intro; simp [Session.onTrigger, Ctx.polled, hk])
    (by simp only [if_true, Ctx.polled, Session.onTrigger, show ¬ (3 = 0) by decide, show ¬ (2 = 0) by decide,
        if_false, Session.setWide16_chain, ctx_cookieTaken_sess, cookieTaken_chain]; exact h6)]
  simp only [run_pure, List.flatMap_map, Ctx.streamingAnswer, hch]
  simp only [Ctx.streamingRead, Streaming.answers, Ctx.polled, Session.onTrigger, Env.used_used]
  rfl

/-- A streaming read answers `dlen` bytes per module. -/
theorem streamingAnswer_len (c : Ctx) (hok : c.sess.ok = true) (address dlen x) (h :
    c.canReadStreaming address dlen x = true) :
   (c.streamingAnswer address dlen x).length = c.sess.channels * c.sess.chainLength * dlen := by
  simp only [Ctx.canReadStreaming, Bool.and_eq_true, beq_iff_eq] at h
  obtain ⟨⟨⟨⟨⟨⟨⟨⟨h1, h2⟩, hst⟩, hK⟩, hl⟩, hp⟩, hstop⟩, ho⟩, h6⟩ := h
  have ha := Session.admits_iff.mp h1
  obtain ⟨k, v, n', hk, hv, -⟩ := Session.ready_set hok ha.2.1
  have hcl : c.sess.chainLength = k.toNat := by simp [Session.chainLength, hk]
  simp only [Ctx.streamingAnswer]
  rw [flatMap_len _ _ (k.toNat * dlen)]
  · have : ∀ (ps : List Pull) (fr : List (List Byte)), fr.length =
      c.sess.channels →
        (ps.foldl (fun fr p => List.zipWith (· ++ ·) fr (channelSlices (bytesOf p.words) params.chunkSize
          c.sess.channels)) fr).length = c.sess.channels := by
      intro ps
      induction ps with
      | nil => intro fr h; exact h
      | cons p ps ih => intro fr h; exact ih _ (by simp [h, channelSlices_length])
    simp only [Streaming.frames]
    rw [this _ _ (by simp), hcl, Nat.mul_assoc]
  · intro f hf
    have := List.all_eq_true.mp h6 f hf
    rw [answer_len _ _ _ _ _ this, readReq_len _ _ _ h2, answer_count _ _ k _ _ (by rw [hk] at this; exact this)]

/-- `ReadModuleStatus` when it ends without an error (42_srq_ops.md rule R234). -/
theorem run_readStatus (x : StatusAnswers) (c : Ctx) (hok : c.sess.ok = true) (h : c.canReadStatus x = true) :
    readModuleStatus c = .ok (c.statusAnswer x) (c.afterStatus x) := by
  unfold Ctx.canReadStatus at h
  have h1 : c.sess.admits = true := by
    split at h
    · simp only [Ctx.canReadBounded, Bool.and_eq_true] at h; exact h.1.1.1.1
    · simp only [Ctx.canReadStreaming, Bool.and_eq_true] at h; exact h.1.1.1.1.1.1.1.1
  have ha := Session.admits_iff.mp h1
  obtain ⟨n, hn, hn1, hn8⟩ := Session.admits_nch hok ha.2.2
  obtain ⟨k, v, n', hk, hv, -⟩ := Session.ready_set hok ha.2.1
  have hch : c.sess.channels = n := by simp [Session.channels, hn]
  have hcl : c.sess.chainLength = k.toNat := by simp [Session.chainLength, hk]
  simp only [readModuleStatus, run_bind, run_gate c h1, run_needChain c k hk, run_needNch c n hn]
  have hfit : c.sess.statusFits =
      true ↔ frameLen (params.headerBytes + k.toNat * params.statusLen) * n ≤ params.rxCap := by
    simp only [Session.statusFits, decide_eq_true_eq, Session.readLength, hcl, hch]
  by_cases hb : c.sess.statusFits = true
  · rw [if_pos hb] at h
    rw [if_pos (hfit.mp hb), run_readBounded _ _ _ _ hok h]
    simp [Ctx.statusAnswer, Ctx.afterStatus, hb]
  · rw [if_neg hb] at h
    rw [if_neg (fun e => hb (hfit.mpr e)), run_readStreaming _ _ _ _ hok h]
    simp [Ctx.statusAnswer, Ctx.afterStatus, hb]

end Sys2Proof.Machine
end

