-- ==== Sys2Proof/Laws/RunsSrq.lean ====
section
/-! SUPPORT. How `Srq` and `SrqSync` run when they end without an error, and what they leave in the session. -/

namespace Sys2Proof.Machine

open Config

theorem bs_transacted (c : Ctx) (cmd lt lr e) : (c.transacted cmd lt lr e).sess = c.sess.setWide16
    (c.sess.cfg.cfgWide16 == 1) := rfl

theorem sent_sess (c : Ctx) (code address payload e) : (c.sent code address payload e).sess =
    c.sess.cookieTaken.setWide16 (c.sess.cfg.cfgWide16 == 1) := by
  simp [Ctx.sent, bs_transacted]

theorem polled_sess (c : Ctx) (x) : (c.polled x).sess = c.sess := rfl

theorem strobed_sess (c : Ctx) (x) : (c.strobed x).sess = c.sess := rfl

theorem setLast_ok (c : Ctx) (h : c.sess.ok = true) : (c.sess.setLastSrq none).ok = true := Session.ok_setLastSrq_none h

theorem canSend_setLast (c : Ctx) (a b v p e) :
   ({ c with sess := c.sess.setLastSrq none } : Ctx).canSend a b v p e = c.canSend a b v p e := rfl

/-- `Srq` when it ends without an error (42_srq_ops.md rule R232). -/
theorem run_srq (code param address : Nat) (payload : List Byte) (x : SrqAnswers) (c : Ctx) (hok : c.sess.ok = true)
    (h : c.canSrq code param address payload x = true) :
    srq code param address payload c = .ok () (c.afterSrq code param address payload x) := by
  simp only [Ctx.canSrq, Bool.and_eq_true, Bool.or_eq_true] at h
  obtain ⟨⟨⟨⟨h1, h2⟩, h3⟩, h4⟩, h5⟩ := h
  simp only [srqOperands, Bool.and_eq_true, decide_eq_true_eq] at h2
  have hcfg : ∀ d : Ctx, d = c.posted (srqRecord code param address payload) x → d.sess.cfg = c.sess.cfg := by
    intro d hd
    rw [hd]; unfold Ctx.posted
    split
    · rfl
    · simp [sent_sess]
  have hpost : postRecord (srqRecord code param address payload) c =
      .ok () (c.posted (srqRecord code param address payload) x) := by
    simp only [postRecord, run_bind, run_getSess, Ctx.posted, Session.repeats]
    by_cases hr : c.sess.lastSrq = some (srqRecord code param address payload)
    · simp [hr]
    · have hr' : (c.sess.lastSrq == some (srqRecord code param address payload)) = false := by simpa using hr
      have h3 := h3.resolve_left (by simp [Session.repeats, hr'])
      simp only [hr, hr', ne_eq, not_false_eq_true, if_true, Bool.false_eq_true, if_false]
      simp only [run_bind, run_modifySess]
      rw [run_ignoring _ _ _ _ (run_send _ _ _ _ x.post _ (setLast_ok c hok) ((canSend_setLast c _ _ _ _ _).trans h3))]
  simp only [srq, run_bind, run_gate c h1, checkSrqOperand, checkAddress]
  rw [run_require_true _ _ _ h2.1.1.1]
  simp only []
  rw [run_require_true _ _ _ h2.1.1.2]
  simp only []
  rw [run_require_true _ _ _ h2.1.2]
  simp only []
  rw [run_require_true _ _ _ h2.2]
  simp only []
  rw [hpost]
  simp only []
  rw [run_trigger 1 _ (by decide)]
  simp only [run_getSess, Session.onTrigger, show ¬ (1 = 0) by decide, if_false, hcfg _ rfl]
  rw [run_ignoring _ _ _ _ (run_waitStatus _ _ _ x.strobe _ h4 (by exact h5))]
  rfl

/-- The session after `Srq`. -/
theorem afterSrq_sess (c : Ctx) (code param address payload x) :
    ∃ l ck w, (c.afterSrq code param address payload x).sess =
      { c.sess with lastSrq := l, cookieCtr := ck, wide16 := w } := by
  simp only [Ctx.afterSrq, strobed_sess, Ctx.posted]
  split
  · exact ⟨_, _, _, rfl⟩
  · simp only [sent_sess, Session.cookieTaken]
    split <;> exact ⟨_, _, _, rfl⟩

theorem afterSrq_ok (c : Ctx) (code param address payload x) (hok : c.sess.ok = true) (h :
    c.canSrq code param address payload x = true) :
   (c.afterSrq code param address payload x).sess.ok = true := by
  simp only [Ctx.afterSrq, strobed_sess, Ctx.posted]
  split
  · exact hok
  · simp only [sent_sess]
    simp only [Ctx.canSrq, Bool.and_eq_true, srqOperands, decide_eq_true_eq] at h
    have hp := h.1.1.1.2.2
    refine Session.ok_setLastSrq (Session.ok_setWide16 _ ?_) (by rw [srqRecord_length]; omega)
        (by rw [srqRecord_length]; simp at hp; omega)
    simp only [Session.cookieTaken]
    split
    · exact setLast_ok c hok
    · exact Session.ok_setCookie _ (setLast_ok c hok)

theorem sum_append_last (l : List Nat) (h : l ≠ []) : l.sum = l.dropLast.sum + l.getLast h := by
  conv_lhs => rw [← List.dropLast_append_getLast h]
  simp

/-- The wait for a time ends with the first reading that reaches it. -/
theorem run_waitUntil (target : Nat) (ds : List Nat) (c : Ctx) (fuel : Nat) (ts : List Nat) (ht : c.env.ticks =
    ds ++ ts)
   (hne : ds ≠ []) (h1 : c.env.now + ds.dropLast.sum < target) (h2 : target ≤ c.env.now + ds.sum)
    (hf : ds.length ≤ fuel) :
   waitUntil target fuel c = .ok () { c with env := { c.env with now := c.env.now + ds.sum, ticks := ts } } := by
  induction ds generalizing c fuel with
  | nil => exact absurd rfl hne
  | cons d ds ih =>
    cases fuel with
    | zero => simp at hf
    | succ fuel =>
      rw [List.cons_append] at ht
      simp only [waitUntil, run_bind, run_now_cons c d _ ht]
      cases ds with
      | nil =>
        have : target ≤ c.env.now + d := by simpa using h2
        simp [this]
      | cons d2 ds =>
        rw [List.dropLast_cons_of_ne_nil (by simp), List.sum_cons] at h1
        rw [List.sum_cons] at h2
        have : ¬ target ≤ c.env.now + d := by omega
        simp only [this, if_false]
        refine (ih _ fuel rfl (by simp) (by simp only []; omega) (by simp only []; omega) (by simpa using hf)).trans ?_
        simp [Nat.add_assoc]

/-- The delay of legacy mode (42_srq_ops.md rule R233). -/
theorem run_legacyWait (delay : Nat) (ds : List Nat) (c : Ctx) (h : delayOver delay ds = true)
    (ho : c.env.offers ⟨[], ds, []⟩ = true) : legacyWait delay c = .ok () (c.waitedOut ds) := by
  unfold delayOver at h
  have ht := offers_ticks ho
  simp only [] at ht
  by_cases hd : delay = 0
  · simp only [hd, if_true, beq_iff_eq] at h
    subst h
    obtain ⟨s, l, ⟨a, b, cc, d⟩⟩ := c
    simp [legacyWait, hd, Ctx.waitedOut, Env.used]
  · rw [if_neg hd] at h
    cases ds with
    | nil => simp at h
    | cons d ds =>
      simp only [Bool.and_eq_true, bne_iff_ne, ne_eq, decide_eq_true_eq] at h
      simp only [legacyWait, Nat.pos_of_ne_zero hd, if_true, run_bind]
      rw [run_now_cons c d (ds ++ c.env.ticks.drop (d :: ds).length) ht]
      simp only [run_ticksLeft]
      rw [run_waitUntil (c.env.now + d + delay) ds _ _ (c.env.ticks.drop (d :: ds).length) rfl h.1.1
          (by simp only []; omega) (by simp only []; omega)
        (by simp)]
      simp [Ctx.waitedOut, Env.used, Nat.add_assoc]

theorem syncDelayed_sess (c : Ctx) (code param address payload x) :
   (c.syncDelayed code param address payload x).sess =
       (c.afterSrq (c.sess.syncCode code) param address payload x.srq).sess := by
  unfold Ctx.syncDelayed; split <;> rfl

theorem syncRequested_sess (c : Ctx) (code param address payload x) :
    ∃ l ck w, (c.syncRequested code param address payload x).sess =
      { c.sess with lastSrq := l, cookieCtr := ck, wide16 := w } := by
  obtain ⟨l, ck, w, e⟩ := afterSrq_sess c (c.sess.syncCode code) param address payload x.srq
  unfold Ctx.syncRequested
  simp only []
  split
  · simp only [sent_sess, syncDelayed_sess, e, Session.cookieTaken]
    split <;> exact ⟨_, _, _, rfl⟩
  · rw [syncDelayed_sess, e]; exact ⟨_, _, _, rfl⟩

theorem syncRequested_ok (c : Ctx) (code param address payload x) (hok : c.sess.ok = true)
   (h : c.canSrq (c.sess.syncCode code) param address payload x.srq =
       true) : (c.syncRequested code param address payload x).sess.ok = true := by
  have := afterSrq_ok c _ _ _ _ _ hok h
  unfold Ctx.syncRequested
  simp only []
  split
  · simp only [sent_sess, syncDelayed_sess]
    refine Session.ok_setWide16 _ ?_
    simp only [Session.cookieTaken]
    split
    · exact this
    · exact Session.ok_setCookie _ this
  · rw [syncDelayed_sess]; exact this

theorem run_syncRequest (code param address delay : Nat) (payload : List Byte) (x : SyncAnswers) (c : Ctx) (hok :
    c.sess.ok = true)
    (h : c.canSyncRequest code param address delay payload x = true) :
    srqSync code param address delay payload c = checkSrqStatus (c.syncRequested code param address payload x) := by
  simp only [Ctx.canSyncRequest, Bool.and_eq_true, Bool.or_eq_true, decide_eq_true_eq, Bool.not_eq_true'] at h
  obtain ⟨⟨⟨⟨h0, h1⟩, h2⟩, h3⟩, h4⟩ := h
  have hadm : c.sess.admits = true := by simp only [Ctx.canSrq, Bool.and_eq_true] at h1; exact h1.1.1.1.1
  have ha := Session.admits_iff.mp hadm
  obtain ⟨k, v, n', hk, hv, -⟩ := Session.ready_set hok ha.2.1
  have hsync : c.sess.synchronous = true ↔ params.syncVersionThreshold < v.toNat := by
    simp [Session.synchronous, hv]
  simp only [srqSync, run_bind, run_gate c hadm, checkSrqOperand]
  rw [run_require_true _ _ _ h0]
  simp only [run_needVersion c v hv]
  by_cases hm : c.sess.synchronous = true
  · rw [if_pos (hsync.mp hm)]
    have e : c.sess.syncCode code = code ||| params.srqSyncFlag.toNat := by simp [Session.syncCode, hm]
    rw [e] at h1
    rw [run_bind, run_srq _ _ _ _ x.srq c hok h1]
    simp only [Ctx.syncRequested, Ctx.syncDelayed, Session.sendsWait, hm, e, if_true, Bool.not_true, Bool.false_and,
        Bool.false_eq_true, if_false]
  · rw [if_neg (fun e => hm (hsync.mpr e))]
    have hm' : c.sess.synchronous = false := by simpa using hm
    have e : c.sess.syncCode code = code := by simp [Session.syncCode, hm']
    have ho := afterSrq_ok c _ _ _ _ _ hok h1
    have h2 := h2.resolve_left hm
    rw [e] at h1 h2 ho
    rw [run_bind, run_srq _ _ _ _ x.srq c hok h1]
    simp only [run_bind]
    rw [run_legacyWait delay x.delay _ h2.1 h2.2]
    simp only []
    have ed : c.syncDelayed code param address payload x =
        (c.afterSrq code param address payload x.srq).waitedOut x.delay := by
      simp [Ctx.syncDelayed, hm', e]
    by_cases hc : code = params.srqRunProc.toNat
    · have hsw : c.sess.sendsWait code = true := by simp [Session.sendsWait, hm', hc]
      have h3 := h3.resolve_left (by simp [hsw])
      rw [ed] at h3
      rw [if_pos hc, run_bind, run_ignoring _ _ _ _ (run_send _ _ _ _ x.wait _ (by exact ho) h3)]
      simp only [Ctx.syncRequested, hsw, if_true, ed]
    · have hsw : c.sess.sendsWait code = false := by
        simp only [Session.sendsWait, hm', Bool.not_false, Bool.true_and, beq_eq_false_iff_ne, ne_eq]; exact hc
      rw [if_neg hc]
      simp only [Ctx.syncRequested, hsw, Bool.false_eq_true, if_false, ed]

theorem afterStatus_sess (c : Ctx) (x) : (c.afterStatus x).sess = c.sess.cookieTaken.setWide16
    (c.sess.cfg.cfgWide16 == 1) := by
  unfold Ctx.afterStatus
  split
  · simp [Ctx.boundedRead, bs_transacted]
  · rfl

theorem canReadStatus_admits {c : Ctx} {x} (h : c.canReadStatus x = true) : c.sess.admits = true := by
  unfold Ctx.canReadStatus at h
  split at h
  · simp only [Ctx.canReadBounded, Bool.and_eq_true] at h; exact h.1.1.1.1
  · simp only [Ctx.canReadStreaming, Bool.and_eq_true] at h; exact h.1.1.1.1.1.1.1.1

/-- A test all pass is one with no first failure. -/
theorem find_not {α : Type} (l : List α) (f : α → Bool) : l.all f = true ↔ (l.find? fun a => !f a) = none := by
  simp [List.find?_eq_none]

/-- The status test of `SrqSync` (42_srq_ops.md rule R233). -/
theorem run_checkSrqStatus (d : Ctx) (x : StatusAnswers) (hok : d.sess.ok = true) (h0 : d.sess.cfg.skipStatusCheck = 0)
   (h : d.canReadStatus x = true) : checkSrqStatus d = match d.firstModule x srqSucceeded with
     | some (k, m) => .error (.raise (.srqFailed (d.statusOf x k m).srqStatus.toNat k m)) (d.afterStatus x)
     | none => .ok () (d.afterStatus x) := by
  have hadm := canReadStatus_admits h
  have ha := Session.admits_iff.mp hadm
  obtain ⟨n, hn, hn1, hn8⟩ := Session.admits_nch hok ha.2.2
  obtain ⟨k, v, n', hk, hv, -⟩ := Session.ready_set hok ha.2.1
  have hch : d.sess.channels = n := by simp [Session.channels, hn]
  have hcl : d.sess.chainLength = k.toNat := by simp [Session.chainLength, hk]
  simp only [checkSrqStatus, run_bind, run_getSess, h0, if_true]
  rw [run_readStatus x d hok h]
  simp only []
  rw [run_needChain _ k (by simpa [afterStatus_sess] using hk)]
  simp only []
  rw [run_needNch _ n (by simpa [afterStatus_sess] using hn)]
  simp only [Ctx.firstModule, hch, hcl, Ctx.statusOf]
  have : ∀ p : Nat × Nat, ((statusRecord (d.statusAnswer x) k.toNat p.1 p.2).srqStatus != params.srqOk) =
     !srqSucceeded (statusRecord (d.statusAnswer x) k.toNat p.1 p.2) := fun p => rfl
  simp only [this]
  generalize List.find? _ _ = q
  rcases q with _ | ⟨a, b⟩ <;> rfl

/-- `SrqSync` when it ends without an error (42_srq_ops.md rule R233). -/
theorem run_srqSync (code param address delay : Nat) (payload : List Byte) (x : SyncAnswers) (c : Ctx) (hok :
    c.sess.ok = true)
    (h : c.canSync code param address delay payload x = true) :
    srqSync code param address delay payload c = .ok () (c.afterSync code param address payload x) := by
  simp only [Ctx.canSync, Bool.and_eq_true] at h
  rw [run_syncRequest _ _ _ delay _ x c hok h.1]
  obtain ⟨l, ck, w, e⟩ := syncRequested_sess c code param address payload x
  have h1 : c.canSrq (c.sess.syncCode code) param address payload x.srq = true := by
    have := h.1; simp only [Ctx.canSyncRequest, Bool.and_eq_true] at this; exact this.1.1.1.2
  have hok2 := syncRequested_ok c code param address payload x hok h1
  have hcfg : (c.syncRequested code param address payload x).sess.cfg = c.sess.cfg := by rw [e]
  by_cases h0 : c.sess.cfg.skipStatusCheck = 0
  · have hr : (c.syncRequested code param address payload x).canReadStatus x.status = true := by
      have := h.1; simp only [Ctx.canSyncRequest, Bool.and_eq_true, Bool.or_eq_true] at this
      exact this.2.resolve_left (by simp [h0])
    have hm := h.2
    simp only [h0, bne_self_eq_false, Bool.false_or, Ctx.everyModule] at hm
    rw [run_checkSrqStatus _ x.status hok2 (by rw [hcfg]; exact h0) hr]
    have : (c.syncRequested code param address payload x).firstModule x.status srqSucceeded =
        none := (find_not _ _).mp hm
    rw [this]
    simp [Ctx.afterSync, h0]
  · rw [checkSrqStatus, run_bind, run_getSess]
    simp only [hcfg, Ctx.afterSync]
    rw [if_neg h0, if_neg h0]; rfl

theorem afterSync_sess (c : Ctx) (code param address payload x) :
    ∃ l ck w, (c.afterSync code param address payload x).sess =
      { c.sess with lastSrq := l, cookieCtr := ck, wide16 := w } := by
  obtain ⟨l, ck, w, e⟩ := syncRequested_sess c code param address payload x
  unfold Ctx.afterSync
  simp only []
  split
  · simp only [afterStatus_sess, e, Session.cookieTaken]
    split <;> exact ⟨_, _, _, rfl⟩
  · exact ⟨_, _, _, e⟩

theorem afterSync_ok (c : Ctx) (code param address delay payload x) (hok : c.sess.ok = true)
   (h : c.canSync code param address delay payload x = true) : (c.afterSync code param address payload x).sess.ok =
       true := by
  have h1 : c.canSrq (c.sess.syncCode code) param address payload x.srq = true := by
    simp only [Ctx.canSync, Ctx.canSyncRequest, Bool.and_eq_true] at h; exact h.1.1.1.1.2
  have := syncRequested_ok c code param address payload x hok h1
  unfold Ctx.afterSync
  simp only []
  split
  · rw [afterStatus_sess]
    refine Session.ok_setWide16 _ ?_
    simp only [Session.cookieTaken]
    split
    · exact this
    · exact Session.ok_setCookie _ this
  · exact this

end Sys2Proof.Machine
end

