-- ==== Sys2Proof/Tests/Slice0.lean ====
section
/-! SUPPORT. Tests. What is expected comes from the spec: encodings from 30_encoding.md, results from the vectors of
95_test_vectors.md (named V<n>, P<n> beside each test). The last part shows, for every statement of
Certificates/Slice0/Obligations.lean that has hypotheses, values that meet them together. -/

namespace Sys2Proof.Tests

set_option Elab.async false

open Sys2Proof.Machine
open Sys2Proof.Config (params)

/-! ### Ill-formed instructions are refused -/

/-- 65536 bytes of `data` are the most a descriptor has (30_encoding.md rule R100). -/
theorem test_wf_data : (Instr.writeCommand (List.replicate 65536 0)).wf = true
    ∧ (Instr.writeCommand (List.replicate 65537 0)).wf = false := by
  have h (n : Nat) : (Instr.writeCommand (List.replicate n 0)).wf = decide (n ≤ 65536) := by
    simp only [Instr.wf, dataFits, maxDescriptorData, List.length_replicate]
  rw [h, h]
  decide

/-- A payload has `len_minus_one + 1` bytes (rule R105). -/
theorem test_wf_payload : (Instr.codeWrite ⟨1, 0, 0⟩ [1, 2]).wf = true ∧ (Instr.codeWrite ⟨1, 0, 0⟩ [1]).wf = false
    ∧ (Instr.codeTest ⟨0, 0, 0⟩ []).wf = false ∧ (Instr.codePoll ⟨0, 0, 0⟩ [1, 2]).wf = false := by decide

/-- `ENUM` and `WAIT` have `len_minus_one = 0` (rule R105). -/
theorem test_wf_no_data : (Instr.codeEnum ⟨0, 0, 7⟩).wf = true ∧ (Instr.codeEnum ⟨1, 0, 7⟩).wf = false
    ∧ (Instr.codeWait ⟨1, 0, 0⟩).wf = false := by decide

/-- A record has at most 252 payload bytes (rule R110). -/
theorem test_wf_record : (Instr.srqWrite ⟨false, 0, 0, List.replicate 252 0⟩).wf = true
    ∧ (Instr.srqWrite ⟨false, 0, 0, List.replicate 253 0⟩).wf = false := by decide +kernel

/-! ### Decoding: one word written out for every constructor (30_encoding.md rules R100 to R111) -/

theorem test_decode_trigger :
    decode .descriptor [0x01, 0, 0, 0, 4, 0, 0, 0, 0, 0, 0, 0, 0, 0, 0, 0, 0, 0, 0, 0] = .ok (.trigger 4) := rfl

theorem test_decode_wait_status :
    decode .descriptor [0x02, 0, 0, 0, 0x91, 0x01, 0, 0, 0x08, 0, 0, 0, 0xE8, 0x03, 0, 0, 0, 0, 0, 0] =
      .ok (.waitStatus 0x191 8 1000) := rfl

theorem test_decode_cfg_channels :
    decode .descriptor [0x03, 0, 0, 0, 8, 0, 0, 0, 0, 0, 0, 0, 0, 0, 0, 0, 0, 0, 0, 0] = .ok (.cfgChannels 8) := rfl

theorem test_decode_cfg_clock :
    decode .descriptor [0x04, 0, 0, 0, 4, 0, 0, 0, 16, 0, 0, 0, 2, 0, 0, 0, 0, 0, 0, 0] = .ok (.cfgClock 4 16 2) := rfl

theorem test_decode_cfg_reset :
    decode .descriptor [0x05, 0, 0, 0, 100, 0, 0, 0, 10, 0, 0, 0, 0, 0, 0, 0, 0, 0, 0, 0] = .ok (.cfgReset 100 10) := rfl

theorem test_decode_cfg_transmit :
    decode .descriptor [0x06, 0, 0, 0, 0xFF, 0xFF, 0, 0, 1, 0, 0, 0, 0, 0, 0, 0, 1, 0, 0, 0] =
      .ok (.cfgTransmit 65535 1 0 1) := rfl

theorem test_decode_cfg_receive :
    decode .descriptor [0x07, 0, 0, 0, 0, 0x10, 0, 0, 0xFF, 0, 0, 0, 1, 0, 0, 0, 0, 0, 0, 0] =
      .ok (.cfgReceive 0x1000 255 1 0) := rfl

theorem test_decode_write_command :
    decode .descriptor [0x08, 0, 0, 0, 0, 0, 0, 0, 0, 0, 0, 0, 0, 0, 0, 0, 0, 0, 0, 0, 1, 2, 3] =
      .ok (.writeCommand [1, 2, 3]) := rfl

theorem test_decode_read_rx :
    decode .descriptor [0x09, 0, 0, 0, 0x04, 0x03, 0x02, 0x01, 0, 0, 0, 0, 0, 0, 0, 0, 0, 0, 0, 0] =
      .ok (.readRx 0x01020304) := rfl

theorem test_decode_read_rx_all :
    decode .descriptor [0x0A, 0, 0, 0, 10, 0, 0, 0, 3, 0, 0, 0, 0, 0, 0, 0, 0, 0, 0, 0] = .ok (.readRxAll 10 3) := rfl

theorem test_decode_read_rx_stream :
    decode .descriptor [0x0B, 0, 0, 0, 6, 0, 0, 0, 1, 0, 0, 0, 2, 0, 0, 0, 0, 0, 0, 0] = .ok (.readRxStream 6 1 2) := rfl

theorem test_decode_read_rx_stream_blk :
    decode .descriptor [0x0C, 0, 0, 0, 4, 0, 0, 0, 1, 0, 0, 0, 0xFF, 0xFF, 0xFF, 0xFF, 3, 0, 0, 0] =
      .ok (.readRxStreamBlk 4 1 0xFFFFFFFF 3) := rfl

theorem test_decode_load_config :
    decode .descriptor [0x0D, 0, 0, 0, 0, 0, 0, 0, 0, 0, 0, 0, 0, 0, 0, 0, 0, 0, 0, 0, 9] = .ok (.loadConfig [9]) := rfl

theorem test_decode_send :
    decode .descriptor [0x10, 0, 0, 0, 0x43, 0, 0, 0, 0x10, 0, 0, 0, 1, 0, 0, 0, 0, 0, 0, 0, 0x11, 0x22] =
      .ok (.send 0x43 0x10 1 [0x11, 0x22]) := rfl

theorem test_decode_bus_write :
    decode .descriptor [0x11, 0, 0, 0, 0x34, 0x12, 0, 0, 0, 0, 0, 0, 0, 0, 0, 0, 0, 0, 0, 0, 0xAA] =
      .ok (.busWrite 0x1234 [0xAA]) := rfl

/-- Operands and data an operation does not use are ignored (rule R100). -/
theorem test_decode_bus_wait :
    decode .descriptor [0x12, 0, 0, 0, 1, 2, 3, 4, 5, 6, 7, 8, 9, 10, 11, 12, 13, 14, 15, 16, 17] = .ok .busWait := rfl

theorem test_decode_read_bounded :
    decode .descriptor [0x13, 0, 0, 0, 0x34, 0x12, 0, 0, 2, 0, 0, 0, 0, 0, 0, 0, 0, 0, 0, 0] =
      .ok (.readBounded 0x1234 2) := rfl

theorem test_decode_read_streaming :
    decode .descriptor [0x14, 0, 0, 0, 0, 0x20, 0, 0, 0, 1, 0, 0, 0, 0, 0, 0, 0, 0, 0, 0] =
      .ok (.readStreaming 0x2000 256) := rfl

theorem test_decode_read_coherent :
    decode .descriptor [0x15, 0, 0, 0, 0x30, 0, 0, 0, 1, 0, 0, 0, 0, 0, 0, 0, 0, 0, 0, 0] =
      .ok (.readCoherent 0x30 1) := rfl

theorem test_decode_initialize :
    decode .descriptor [0x16, 0, 0, 0, 0, 0, 0, 0, 0, 0, 0, 0, 0, 0, 0, 0, 0, 0, 0, 0] = .ok .initBus := rfl

theorem test_decode_srq :
    decode .descriptor [0x20, 0, 0, 0, 3, 0, 0, 0, 7, 0, 0, 0, 0, 0x20, 0, 0, 0, 0, 0, 0, 5] =
      .ok (.srq 3 7 0x2000 [5]) := rfl

theorem test_decode_srq_sync :
    decode .descriptor [0x21, 0, 0, 0, 3, 0, 0, 0, 7, 0, 0, 0, 0, 0x20, 0, 0, 0, 0, 1, 0] =
      .ok (.srqSync 3 7 0x2000 0x10000 []) := rfl

theorem test_decode_program :
    decode .descriptor [0x22, 0, 0, 0, 0, 0x40, 0, 0, 0, 0, 0, 0, 0, 0, 0, 0, 0, 0, 0, 0, 1, 8] =
      .ok (.program 0x4000 [1, 8]) := rfl

theorem test_decode_read_module_status :
    decode .descriptor [0x23, 0, 0, 0, 0, 0, 0, 0, 0, 0, 0, 0, 0, 0, 0, 0, 0, 0, 0, 0] = .ok .readModuleStatus := rfl

theorem test_decode_code_enum : decode .command [0x01, 0, 0x34, 0x12, 7, 0, 0, 0] = .ok (.codeEnum ⟨0, 0x1234, 7⟩) := rfl

theorem test_decode_code_wait : decode .command [0x02, 0, 0, 0, 0xFF, 0, 0, 0] = .ok (.codeWait ⟨0, 0, 0xFF⟩) := rfl

/-- Bytes after the command are idle (rule R114). -/
theorem test_decode_code_test :
    decode .command [0x43, 2, 0x10, 0, 9, 0, 0, 0, 0x11, 0x22, 0x33, 0, 0] =
      .ok (.codeTest ⟨2, 0x10, 9⟩ [0x11, 0x22, 0x33]) := rfl

theorem test_decode_code_write :
    decode .command [0x44, 1, 0x34, 0x12, 1, 0, 0, 0, 0xAA, 0xBB] = .ok (.codeWrite ⟨1, 0x1234, 1⟩ [0xAA, 0xBB]) := rfl

theorem test_decode_code_poll :
    decode .command [0x45, 1, 0, 0, 0, 0, 0, 0, 0x00, 0xFF] = .ok (.codePoll ⟨1, 0, 0⟩ [0x00, 0xFF]) := rfl

theorem test_decode_code_read : decode .command [0x86, 7, 0, 0x20, 1, 0, 0, 0] = .ok (.codeRead ⟨7, 0x2000, 1⟩) := rfl

theorem test_decode_srq_erase_write :
    decode .srqRecord [0x81, 0x01, 0x00, 0x40, 1, 8] = .ok (.srqEraseWrite ⟨true, 1, 0x4000, [1, 8]⟩) := rfl

theorem test_decode_srq_write :
    decode .srqRecord [0x02, 0x00, 0x80, 0x40, 9] = .ok (.srqWrite ⟨false, 0, 0x4080, [9]⟩) := rfl

theorem test_decode_srq_run_proc :
    decode .srqRecord [0x03, 0x07, 0x00, 0x20] = .ok (.srqRunProc ⟨false, 7, 0x2000, []⟩) := rfl

/-- What is no instruction (rules R105, R106, R110, R111, R113). -/
theorem test_decode_rejects :
    decodeDescriptor ⟨0x24, 0, 0, 0, 0, []⟩ = .error (.illegalOp 0x24)
    ∧ decodeDescriptor ⟨0x101, 0, 0, 0, 0, []⟩ = .error (.illegalOp 0x101)
    ∧ decode .descriptor [0x12, 0, 0, 0] = .error .truncated
    ∧ decode .command [0x07, 0, 0, 0, 0, 0, 0, 0] = .error (.illegalCode 0x07)
    ∧ decode .command [0x86, 0, 0, 0, 0, 1, 0, 0] = .error .reservedNotZero
    ∧ decode .command [0x01, 1, 0, 0, 0, 0, 0, 0] = .error .lengthWithoutData
    ∧ decode .command [0x44, 1, 0, 0, 0, 0, 0, 0, 9] = .error .truncated
    ∧ decode .srqRecord [0x84, 0, 0, 0] = .error (.unnamedRequest 0x84)
    ∧ decode .srqRecord [0x80, 0, 0, 0] = .error (.unnamedRequest 0x80) := ⟨rfl, rfl, rfl, rfl, rfl, rfl, rfl, rfl, rfl⟩

/-! ### The words of spec/opcode_table.json -/

/-- Every row's word decodes, and runs as the first instruction after reset. -/
theorem test_table_words :
    ([1, 2, 3, 4, 5, 6, 7, 8, 9, 10, 11, 12, 13, 16, 17, 18, 19, 20, 21, 22, 32, 33, 34, 35].all fun w =>
      (decodeTableWord 32 w).map Instr.format == some .descriptor)
    ∧ ([0x01, 0x02, 0x43, 0x44, 0x45, 0x86].all fun w => (decodeTableWord 8 w).map Instr.format == some .command)
    ∧ ([0x81, 0x82, 0x03, 0x83].all fun w => (decodeTableWord 8 w).map Instr.format == some .srqRecord) := by
  decide +kernel

theorem test_first_step_descriptor :
    step (State.reset.withFetchWord 32 0x09) = exec (.readRx 0) State.reset := rfl

theorem test_first_step_command :
    ((step (State.reset.withFetchWord 8 0x86)) matches .next _) = true := by decide +kernel

/-! ### One step, against the vectors of 95_test_vectors.md -/

/-- The state `exec` answers, the state given when it answers none. -/
def after (i : Instr) (s : State) : State :=
  match exec i s with
  | .next t => t
  | _ => s

/-- `exec` answers a next state. -/
def goesOn (i : Instr) (s : State) : Bool :=
  match exec i s with
  | .next _ => true
  | _ => false

theorem exec_after {i : Instr} {s : State} (h : goesOn i s = true) : exec i s = .next (after i s) := by
  unfold goesOn at h
  unfold after
  split at h
  · rename_i heq; rw [heq]
  · cases h

/-- The configuration of V40. -/
def v40 : List Byte := bytesOf [1, 4, 16, 2, 100, 10, 0, 0, 0, 0, 0, 0, 0, 0, 1000, 100000, 16, 0]

/-- `Now()` returns 0, 1, 2, ...; the link engine answers `reads`, the host `idles`. -/
def env (reads : List Word) (idles : List Bool) : Env :=
  { now := 0, reads := reads, ticks := 0 :: List.replicate 60 1, idles := idles }

/-- After reset, with session registers `f` and answers to come. -/
def machine (f : Session → Session) (reads : List Word) (idles : List Bool := []) : State :=
  { State.reset with ctx := { State.reset.ctx with sess := f Session.reset, env := env reads idles } }

/-- Nothing done yet. -/
def blank (reads : List Word) (idles : List Bool := []) : State := machine id reads idles

/-- The configuration of V40 is loaded. -/
def configured (r : Session) : Session := { r with cfg := cfgOfBytes v40, cfgValid := true }

/-- Initialised with `n` channels of `chain` modules, next cookie `ck`. -/
def ready (n chain : Nat) (ck : Byte) (r : Session) : Session :=
  { configured r with busState := .ready, nch := some n, chain := some (BitVec.ofNat 16 chain), modules := some (n * chain)
                      modVersion := some 2, cookieCtr := ck }

/-- V2. -/
theorem test_trigger_reset :
    let t := after (.trigger 0) (machine (fun r => { ready 1 2 9 r with stash := [7, 8], lastSrq := some [3, 7, 0, 0x20] }) [])
    t.result = some ⟨0, 0, 0, 0, 0, []⟩ ∧ t.ctx.trace = [.write 0 1] ∧ t.ctx.sess.busState = .initializing
    ∧ t.ctx.sess.chain = none ∧ t.ctx.sess.stash = [] ∧ t.ctx.sess.lastSrq = none ∧ t.ctx.sess.cookieCtr = 9 := by
  decide +kernel

/-- 10_state.md rule R28, 70_reset_and_hazards.md rule R301, 93_implementation_defined.md U9: what the modules get. -/
theorem test_trigger_wire :
    ([0, 1, 3, 4].map fun a => (after (.trigger a) (blank [])).ctx.link.wire) =
      [[.unspecified], [.strobe], [], [.unspecified]] := by decide +kernel

/-- 10_state.md rule R36: length 18 is sent as 18 bytes where only 12 bytes of the buffer have been written. -/
theorem test_sent_bytes :
    let s := after (.writeCommand (List.replicate 12 7)) (after (.cfgTransmit 18 0 0 0) (blank []))
    (sentBytes s.ctx.link.win 4).length = 18 ∧ (sentBytes s.ctx.link.win 4).take 12 = List.replicate 12 7 :=
  ⟨sentBytes_length _ _, by decide +kernel⟩

/-- V2. -/
theorem test_trigger_illegal : (after (.trigger 5) (blank [])).result = some ⟨1, 0, 5, 0, 4, []⟩ := by decide +kernel

/-- V3 row 1. -/
theorem test_wait_status :
    (after (.waitStatus 0x191 8 1000) (blank [9, 0x191])).result = some ⟨0, 0, 0, 0, 0, [0x91, 1, 0, 0]⟩ := by decide +kernel

/-- V3 rows 2 and 8. -/
theorem test_wait_status_stops :
    (after (.waitStatus 0x191 8 1000) (blank [0x1D1])).result = some ⟨4, 0x1D1, 0x191, 8, 0, []⟩
    ∧ (after (.waitStatus 1 0 2) (blank [0, 0, 1])).result = some ⟨3, 1, 0, 0, 0, []⟩
    ∧ (after (.waitStatus 1 0 2) (blank [0, 0, 1])).ctx.sess.busState = .faulted := by decide +kernel

/-- V4. -/
theorem test_cfg_channels :
    (after (.cfgChannels 8) (blank [])).ctx.sess.nch = some 8
    ∧ (after (.cfgChannels 9) (blank [])).result = some ⟨1, 0, 9, 1, 8, []⟩ := by decide +kernel

/-- V4. -/
theorem test_cfg_clock :
    (after (.cfgClock 4 16 2) (blank [])).ctx.trace = [.write 3 0x21004]
    ∧ (after (.cfgClock 4 16 256) (blank [])).result = some ⟨1, 2, 256, 0, 255, []⟩ := by decide +kernel

/-- V4. -/
theorem test_cfg_reset :
    (after (.cfgReset 100 10) (blank [])).ctx.trace = [.write 4 0xA0064]
    ∧ (after (.cfgReset 0 65536) (blank [])).result = some ⟨1, 1, 65536, 0, 65535, []⟩ := by decide +kernel

/-- V4. -/
theorem test_cfg_transmit :
    (after (.cfgTransmit 12 0 1 0) (blank [])).ctx.trace = [.write 5 0x2000C]
    ∧ (after (.cfgTransmit 12 0 1 0) (blank [])).ctx.sess.wide16 = true
    ∧ (after (.cfgTransmit 12 2 0 0) (blank [])).result = some ⟨1, 1, 2, 0, 1, []⟩ := by decide +kernel

/-- V4. -/
theorem test_cfg_receive : (after (.cfgReceive 65535 255 1 1) (blank [])).ctx.trace = [.write 6 0x3FFFFFF] := by
  decide +kernel

/-- V5. -/
theorem test_write_command :
    (after (.writeCommand [1, 2, 3, 4, 5]) (blank [])).ctx.trace = [.write 0x100 0x04030201, .write 0x101 5]
    ∧ (after (.writeCommand [1, 2, 3, 4, 5]) (machine (fun r => { r with wide16 := true }) [])).ctx.trace =
      [.write16 0x100 false 0x0201, .write16 0x100 true 0x0403, .write16 0x101 false 5] := by decide +kernel

/-- V6. -/
theorem test_read_rx_all :
    (after (.readRxAll 3 2) (blank [0x04030201, 0x08070605])).result = some ⟨0, 0, 0, 0, 0, [1, 2, 3, 4, 5, 6]⟩
    ∧ (after (.readRxAll 513 8) (blank [])).result = some ⟨1, 0, 513, 0, 512, []⟩ := by decide +kernel

/-- 40_device_ops.md rule R149. -/
theorem test_read_rx :
    (after (.readRx 5) (blank [0x04030201, 0x08070605])).result = some ⟨0, 0, 0, 0, 0, [1, 2, 3, 4, 5]⟩
    ∧ (after (.readRx 4097) (blank [])).result = some ⟨1, 0, 4097, 0, 4096, []⟩ := by decide +kernel

/-- V7 rows 1 and 4. -/
theorem test_read_rx_stream :
    (after (.readRxStream 6 1 2) (blank [0, 0, 0x04030201, 0x08070605])).result = some ⟨0, 0, 0, 0, 0, [1, 2, 3, 4, 5, 6]⟩
    ∧ (after (.readRxStream 6 1 2) (blank [0, 0, 0x04030201, 0x08070605])).ctx.sess.stash = [7, 8]
    ∧ (after (.readRxStream 4 1 2) (blank [0, 0, 0])).result = some ⟨16, 0, 0, 0, 0, []⟩ := by decide +kernel

/-- V8. -/
theorem test_read_rx_stream_blk :
    (after (.readRxStreamBlk 4 1 0xFFFFFFFF 1) (blank [0, 0, 0, 0, 0x01010101] [true, true])).result =
      some ⟨0, 0, 0, 0, 0, [1, 1, 1, 1]⟩
    ∧ (after (.readRxStreamBlk 4 1 2 0) (blank [0, 0] [true])).result = some ⟨3, 0, 0, 0, 1, []⟩
    ∧ (after (.readRxStreamBlk 4 1 0xFFFFFFFF 0) (blank [0, 0] [true, false])).result = some ⟨15, 0, 0, 0, 0, []⟩ := by
  decide +kernel

/-- V41. -/
theorem test_load_config :
    (after (.loadConfig v40) (blank [])).ctx.sess.cfgValid = true
    ∧ (after (.loadConfig v40) (blank [])).ctx.sess.cfg.srqTimeout = 100000
    ∧ (after (.loadConfig (v40.take 71)) (blank [])).result = some ⟨1, 4, 71, 72, 72, []⟩ := by decide +kernel

/-- V20. -/
theorem test_send :
    (after (.send 0x43 0x10 1 [0x11, 0x22, 0x33])
      (machine (ready 1 2 9) [8, 0x191, 0x00100243, 0x00020009, 0x00332211, 0])).result =
        some ⟨0, 0, 0, 0, 0, [2, 0, 0x11, 0x22, 0x33]⟩
    ∧ (after (.send 0x43 0x10 1 [0x11, 0x22, 0x33])
      (machine (ready 1 2 9) [8, 0x191, 0x00100243, 0x00020009, 0x00002200, 0])).result =
        some ⟨7, 0, 0, 2, 0, []⟩ := by decide +kernel

/-- V22. -/
theorem test_bus_write :
    (after (.busWrite 0x1234 [0xAA, 0xBB]) (machine (ready 1 2 1) [8, 0x191, 0x12340144, 0x00020001, 0x00010000])).result =
      some ⟨5, 0, 6, 10, 1, []⟩ := by decide +kernel

/-- V22. -/
theorem test_bus_wait :
    let t := after .busWait (machine (ready 1 2 255) [8, 0x191, 2, 0x000200FF, 0])
    t.result = some ⟨0, 0, 0, 0, 0, []⟩ ∧ t.ctx.sess.cookieCtr = 0 ∧ t.ctx.trace =
      [.write 5 10, .write 6 10, .write 0x100 2, .write 0x101 0xFF, .write 0 4, .read 1 8, .read 1 0x191, .read 0x400 2,
       .read 0x401 0x200FF, .read 0x402 0] := by decide +kernel

/-- V26. -/
theorem test_read_bounded :
    (after (.readBounded 0x1234 2) (machine (ready 1 2 2) [8, 0x191, 0x12340186, 0x20002, 0xBBAABBAA, 0])).result =
      some ⟨0, 0, 0, 0, 0, [0xAA, 0xBB, 0xAA, 0xBB]⟩
    ∧ (after (.readBounded 0 8) (machine (ready 8 63 2) [])).result = some ⟨2, 8, 0x1010, 0, 0, []⟩ := by decide +kernel

/-- V27. -/
theorem test_read_coherent :
    (after (.readCoherent 0x1234 2) (machine (ready 1 2 3) [8, 0x191, 0x12340345, 0x20003, 0xBBBBAAAA, 0])).result =
      some ⟨0, 0, 0, 0, 0, [2, 0, 0, 0, 0xAA, 0xBB]⟩
    ∧ (after (.readCoherent 0x30 1)
        (machine (ready 2 2 2) [8, 0x191, 0x300145, 0x20002, 0x5A5A, 0x300145, 0x20002, 0x5B5B])).result =
      some ⟨8, 1, 0, 0x5A, 0x15B, []⟩ := by decide +kernel

/-- V23. -/
theorem test_initialize :
    let t := after .initBus (machine configured [2, 1, 8, 0x191, 0x145, 0x20000, 0x202])
    t.result = some ⟨0, 0, 0, 0, 0, [2, 0, 2]⟩ ∧ t.ctx.sess.busState = .ready ∧ t.ctx.sess.modules = some 2
    ∧ t.ctx.sess.modVersion = some 2 ∧ t.ctx.trace.take 6 =
      [.write 0 1, .read 1 2, .read 1 1, .write 2 1, .write 3 0x21004, .write 4 0xA0064] := by decide +kernel

/-- V24: counts that differ, and a version too low. -/
theorem test_initialize_refuses :
    (after .initBus (machine (fun r => { configured r with cfg := { cfgOfBytes v40 with channels := 2 } })
      [2, 1, 8, 0x191, 0x145, 0x30000, 0x202, 0x145, 0x20000, 0x202])).result = some ⟨12, 1, 3, 2, 0, []⟩
    ∧ (after .initBus (machine configured [2, 1, 8, 0x191, 0x145, 0x20000, 0])).result = some ⟨13, 0, 1, 0, 0, []⟩ := by
  decide +kernel

/-- V25. -/
theorem test_srq :
    let t := after (.srq 3 7 0x2000 []) (machine (ready 1 1 1) [8, 0x191, 0x01000344, 0x00010001, 0, 0, 0, 1])
    t.result = some ⟨0, 0, 0, 0, 0, []⟩ ∧ t.ctx.sess.lastSrq = some [3, 7, 0, 0x20]
    ∧ t.ctx.trace.drop 12 = [.write 0 2, .read 1 0, .read 1 1] := by decide +kernel

/-- V29, V30: the flag bit in synchronous mode, the explicit `WAIT` in legacy mode. -/
theorem test_srq_sync :
    (after (.srqSync 3 0 0x2000 0 []) (machine (ready 1 1 1)
      [8, 0x191, 0x01000344, 0x00010001, 0, 0, 0, 1, 8, 0x191, 0x786, 0x10002, 0x1102, 0x1505, 0])).ctx.sess.lastSrq =
        some [0x83, 0, 0, 0x20]
    ∧ (after (.srqSync 3 0 0x2000 5 []) (machine (fun r => { ready 1 1 1 r with modVersion := some 1 })
      [8, 0x191, 0x01000344, 0x00010001, 0, 0, 0, 1, 8, 0x191, 2, 0x10002, 0, 8, 0x191, 0x786, 0x10003, 0x1101, 0x1505,
       0])).result = some ⟨0, 0, 0, 0, 0, []⟩ := by decide +kernel

/-- The status frame of V29. -/
theorem test_read_module_status :
    (after .readModuleStatus (machine (ready 1 1 2) [8, 0x191, 0x786, 0x10002, 0x1102, 0x1505, 0])).result =
      some ⟨0, 0, 0, 0, 0, [2, 0x11, 0, 0, 5, 0x15, 0, 0]⟩ := by decide +kernel

/-- The image of P4. -/
def image : List Byte := (List.range 130).map fun i => byte (7 * i + 1)

/-- The answers of P4. -/
def p4 : List Word :=
  [8, 0x191, 0x01008344, 0x10001] ++ List.replicate 34 0
    ++ [0, 1, 8, 0x191, 0x786, 0x10002, 0x1102, 0xAA2861C5, 0, 8, 0x191, 0x01000544, 0x10003, 0, 0, 0, 1, 8, 0x191, 0x786,
        0x10004, 0x1102, 0x5D90C19A, 0, 8, 0x191, 0x786, 0x10005, 0x1102, 0x5D90C19A, 0]

/-- P4. -/
theorem test_program :
    let t := after (.program 0x4000 image) (machine (ready 1 1 1) p4)
    t.result = some ⟨0, 0, 0, 0, 0, [0x9A, 0xC1, 0x90, 0x5D]⟩
    ∧ t.ctx.sess.lastSrq = some [0x82, 1, 0x80, 0x40, 0x81, 0x88] ∧ t.ctx.link.log.length = 131 := by decide +kernel

/-- The frame of channel `c` in P5. -/
def p5Frame (c : Nat) : List Byte :=
  [0x86, 7, 0, 0x20, 1, 0, 40, 0]
    ++ (List.range 40).flatMap (fun m => [byte (128 * c + m), byte (0xA0 + m % 16), 1, 2, 3, 4, 5, 6]) ++ zeros 184

/-- The two pulls of P5. -/
def p5Pulls : List Pull :=
  [{ zeros := 2, words := wordsOf ((p5Frame 0).take 256) ++ wordsOf ((p5Frame 1).take 256) },
   { zeros := 0, words := wordsOf ((p5Frame 0).drop 256) ++ wordsOf ((p5Frame 1).drop 256) }]

/-- The answers of P5. -/
def p5 : List Word := p5Pulls.flatMap Pull.reads ++ [0x29, 1]

/-- P5. -/
theorem test_read_streaming :
    let t := after (.readStreaming 0x2000 8) (machine (ready 2 40 1) p5)
    t.result.map (fun r => (r.err, r.out.length, r.out.take 4)) = some (0, 640, [0, 0xA0, 1, 2])
    ∧ t.ctx.link.log.length = 266 := by decide +kernel

/-- V33. -/
theorem test_checksum :
    params.cksum [] = 5381 ∧ params.cksum [0] = 5636 ∧ params.cksum [0xFF, 0xFE] = 5414
    ∧ params.cksum image = 0x5D90C19A := by decide +kernel

/-- A machine whose one channel has `k` modules and whose memory is as listed. -/
def modules (k : Nat) (mem : Memory) : State :=
  { State.reset with
    ctx := { State.reset.ctx with sess := { Session.reset with nch := some 1 } }
    mods := { State.reset.mods with chains := [k], mem := mem } }

/-- 20_memory.md rule R78: no data. -/
theorem test_code_enum_wait :
    (after (.codeEnum ⟨0, 0, 0⟩) (modules 2 [])).mods.reply = [[]]
    ∧ (after (.codeWait ⟨0, 0, 0⟩) (modules 2 [])).mods.reply = [[]] := by decide +kernel

/-- 20_memory.md rule R78: the payload passes through. -/
theorem test_code_test : (after (.codeTest ⟨1, 0, 0⟩ [5, 6]) (modules 2 [])).mods.reply = [[5, 6]] := by decide +kernel

/-- 20_memory.md rule R78: the payload is stored in the configured channel 0; a byte already there is replaced, those of
channel 1 stay. -/
theorem test_code_write :
    (after (.codeWrite ⟨1, 0x10, 0⟩ [5, 6]) (modules 2 [(0x11, 9), (0x20, 1), (0x10010, 3)])).mods.mem =
      [(0x10, 5), (0x11, 6), (0x20, 1), (0x10010, 3)] := by decide +kernel

/-- 20_memory.md rule R78: the last address of module memory is written, the next is not there. -/
theorem test_code_write_top :
    (after (.codeWrite ⟨0, 0xFFFF, 0⟩ [5]) (modules 2 [])).mods.mem = [(0xFFFF, 5)]
    ∧ (after (.codeWrite ⟨1, 0xFFFF, 0⟩ [5, 6]) (modules 2 [(0, 1)])).mods.mem = [] := by decide +kernel

/-- 20_memory.md rule R78: `00 FF` folded with 0x5A twice. -/
theorem test_code_poll :
    (after (.codePoll ⟨3, 0x10, 0⟩ [0, 0xFF, 1, 0x0F]) (modules 2 [(0x10, 0x5A), (0x11, 0xF0)])).mods.reply =
      [[0x5A, 0x5A, 0xF1, 0]] := by decide +kernel

/-- 20_memory.md rule R78: one block per module. -/
theorem test_code_read :
    (after (.codeRead ⟨1, 0x10, 0⟩) (modules 2 [(0x10, 0x5A), (0x11, 0xF0)])).mods.reply = [[0x5A, 0xF0, 0x5A, 0xF0]] := by
  decide +kernel

/-- 42_srq_ops.md rule R236: erase-and-write begins an image, write goes on. -/
theorem test_srq_flash :
    let s := after (.srqEraseWrite ⟨true, 1, 0x4000, [1, 8]⟩) (modules 1 [])
    s.mods.flash = [(0x4000, 1), (0x4001, 8)]
    ∧ (after (.srqWrite ⟨true, 0, 0x4002, [0xF]⟩) s).mods.flash = [(0x4000, 1), (0x4001, 8), (0x4002, 0xF)]
    ∧ (after (.srqRunProc ⟨false, 7, 0x2000, []⟩) s).mods.request = some [3, 7, 0, 0x20] := by decide +kernel

/-- 30_encoding.md rule R113 (a). -/
theorem test_illegal_descriptor :
    step { State.reset with queue := [⟨0x110, 4, 0, 0, 0, []⟩] } =
      .next { State.reset with result := some ⟨2, 1, 0x110, 0, 0, []⟩ } := rfl

/-- A reset configuration that is admissible (92_eei_decisions.md). -/
theorem test_params : Config.Params.admissible params = true := by decide +kernel

/-! ### Values that meet the hypotheses of the statements -/

/-- A check over all channels and offsets. -/
theorem all_pairs {n m : Nat} {P : Nat → Nat → Bool}
    (h : ((List.range n).all fun k => (List.range m).all fun i => P k i) = true) :
    ∀ k i, k < n → i < m → P k i = true := by
  intro k i hk hi
  exact List.all_eq_true.mp (List.all_eq_true.mp h k (List.mem_range.mpr hk)) i (List.mem_range.mpr hi)

/-- DecodeEncodeAgree, each format at the greatest length but `data`'s (test_wf_data). -/
theorem witness_decode_encode : (Instr.trigger 0xFFFFFFFF).wf = true
    ∧ (Instr.codeWrite ⟨255, 0xFFFF, 255⟩ (List.replicate 256 0)).wf = true ∧ (Instr.codeEnum ⟨0, 0xFFFF, 255⟩).wf = true
    ∧ (Instr.srqRunProc ⟨true, 255, 0xFFFF, List.replicate 252 0⟩).wf = true := by decide +kernel

/-- EncodeDecodedAgree. -/
theorem witness_encode_decoded : decode .srqRecord [0x83, 255, 0, 0] = .ok (.srqRunProc ⟨true, 255, 0, []⟩)
    ∧ decode .command [0x86, 255, 0, 0, 0, 0, 0, 0, 0, 1] = .ok (.codeRead ⟨255, 0, 0⟩)
    ∧ decode .descriptor [0x16, 0, 0, 0, 1, 0, 0, 0, 0, 0, 0, 0, 0, 0, 0, 0, 0, 0, 0, 0, 9] = .ok .initBus := ⟨rfl, rfl, rfl⟩

/-- The link engine has sent `w`; the mailboxes of the modules of both channels hold a record. -/
def sending (w : Wire) : State :=
  { State.reset with
    ctx := { State.reset.ctx with
      sess := { Session.reset with nch := some 2 }, link := { State.reset.ctx.link with wire := [w] } }
    mods := { State.reset.mods with
      mem := [(0x100, 0x83), (0x101, 0), (0x102, 0), (0x103, 0x20),
              (0x10100, 0x83), (0x10101, 0), (0x10102, 0), (0x10103, 0x20)] } }

/-- The host presents `d`. -/
def presenting (d : Descriptor) (s : State) : State := { s with queue := [d] }

/-- StepRunsFetched. -/
theorem witness_step_runs_fetched :
    ((sending .strobe).inflight = none ∧ (sending .strobe).busy = false)
    ∧ ((sending (.command [0x86, 7, 0, 0x20, 1, 0, 0, 0])).ctx.link.wire = .command [0x86, 7, 0, 0x20, 1, 0, 0, 0] :: []
      ∧ decode .command [0x86, 7, 0, 0x20, 1, 0, 0, 0] = .ok (.codeRead ⟨7, 0x2000, 1⟩))
    ∧ ((sending .strobe).ctx.link.wire = .strobe :: []
      ∧ (∀ c, c < (sending .strobe).ctx.sess.nch.getD 0 →
          Memory.known (sending .strobe).mods.mem (65536 * c + 0x0100) 256 =
            Memory.known (sending .strobe).mods.mem 0x0100 256)
      ∧ decode .srqRecord (Memory.known (sending .strobe).mods.mem 0x0100 256) = .ok (.srqRunProc ⟨true, 0, 0x2000, []⟩))
    ∧ ((presenting ⟨9, 4, 0, 0, 0, []⟩ State.reset).ctx.link.wire = []
      ∧ (presenting ⟨9, 4, 0, 0, 0, []⟩ State.reset).queue = ⟨9, 4, 0, 0, 0, []⟩ :: []
      ∧ decodeDescriptor ⟨9, 4, 0, 0, 0, []⟩ = .ok (.readRx 4)) :=
  ⟨⟨rfl, rfl⟩, ⟨rfl, rfl⟩, ⟨rfl, by decide +kernel, rfl⟩, rfl, rfl, rfl⟩

/-- A read with no answer yet. -/
def unfinished : State := after (.readRx 4) (blank [])

/-- UnfinishedGoesOn, BusyAcceptsNothing. -/
theorem witness_unfinished :
    (Instr.readRx 4).format = .descriptor ∧ (blank []).busy = false ∧ exec (.readRx 4) (blank []) = .next unfinished
    ∧ unfinished.busy = true ∧ unfinished.inflight = some { instr := .readRx 4, start := (blank []).ctx, need := .read }
    ∧ ∃ t, step unfinished = .next t := ⟨rfl, rfl, rfl, rfl, rfl, _, rfl⟩

/-- IllegalDescriptorRefused: the numbers at the edges of rule R102's table. -/
theorem witness_illegal_descriptor :
    ([0x01, 0x0D, 0x10, 0x16, 0x20, 0x23].all fun w => operationNumbers.contains w) = true
    ∧ ([0x00, 0x0E, 0x0F, 0x17, 0x1F, 0x24, 0x101, 0xFFFFFFFF].all fun w => !operationNumbers.contains w) = true
    ∧ (presenting ⟨0x101, 0, 0, 0, 0, []⟩ State.reset).queue = ⟨0x101, 0, 0, 0, 0, []⟩ :: []
    ∧ State.reset.inflight = none ∧ State.reset.busy = false ∧ State.reset.ctx.link.wire = [] := by decide +kernel

/-- PowerOnReset: an operation that runs with no configuration loaded. -/
theorem witness_power_on_reset :
    (Instr.readRx 4).format = .descriptor ∧ (blank [7]).busy = false ∧ (blank [7]).ctx.sess.cfgValid = false
    ∧ exec (.readRx 4) (blank [7]) = .next (after (.readRx 4) (blank [7])) := ⟨rfl, rfl, rfl, exec_after (by decide +kernel)⟩

/-- The answers of a successful `INITIALIZE`. -/
def starting : State := machine configured [2, 1, 8, 0x191, 0x145, 0x20000, 0x202]

/-- StepKeepsAllowed, StepAlwaysAnswers, PortDisciplineKept, TimeNeverGoesBack: a step from an allowed state that ends
in `Ready`. -/
theorem witness_allowed_step :
    (presenting ⟨0x16, 0, 0, 0, 0, []⟩ starting).ok = true
    ∧ step (presenting ⟨0x16, 0, 0, 0, 0, []⟩ starting) = .next (after .initBus starting) ∧ starting.ok = true
    ∧ exec .initBus starting = .next (after .initBus starting)
    ∧ (after .initBus starting).ctx.sess.busState = .ready := by
  have h : exec .initBus starting = .next (after .initBus starting) := exec_after (by decide +kernel)
  exact ⟨by decide +kernel, h, by decide +kernel, h, by decide +kernel⟩

/-- BusStateTransitions, the clauses of operations that are no bus reset. -/
theorem witness_bus_state :
    (Instr.cfgClock 4 16 2).format = .descriptor ∧ (Instr.cfgClock 4 16 2).resets = false
    ∧ exec (.cfgClock 4 16 2) (blank []) = .next (after (.cfgClock 4 16 2) (blank []))
    ∧ (after (.cfgClock 4 16 2) (blank [])).err = some 0
    ∧ exec (.waitStatus 1 0 0) (blank [0]) = .next (after (.waitStatus 1 0 0) (blank [0]))
    ∧ (after (.waitStatus 1 0 0) (blank [0])).err = some 3
    ∧ exec (.waitStatus 1 0 0) (blank [0x40]) = .next (after (.waitStatus 1 0 0) (blank [0x40]))
    ∧ (after (.waitStatus 1 0 0) (blank [0x40])).err = some 4
    ∧ exec (.trigger 0) (blank []) = .next (after (.trigger 0) (blank [])) :=
  ⟨rfl, rfl, exec_after (by decide +kernel), by decide +kernel, exec_after (by decide +kernel), by decide +kernel,
    exec_after (by decide +kernel), by decide +kernel, exec_after (by decide +kernel)⟩

/-- A probe whose version byte is 0. -/
def startingOld : State := machine configured [2, 1, 8, 0x191, 0x145, 0x20000, 0]

/-- BusStateTransitions, the clauses of `INITIALIZE`. -/
theorem witness_bus_state_initialize :
    starting.busy = false ∧ exec .initBus starting = .next (after .initBus starting)
    ∧ (after .initBus starting).err = some 0
    ∧ exec .initBus (blank []) = .next (after .initBus (blank [])) ∧ (after .initBus (blank [])).err = some 14
    ∧ exec .initBus startingOld = .next (after .initBus startingOld) ∧ (after .initBus startingOld).err = some 13 :=
  ⟨rfl, exec_after (by decide +kernel), by decide +kernel, exec_after (by decide +kernel), by decide +kernel,
    exec_after (by decide +kernel), by decide +kernel⟩

/-- SessionWriters: an operation all clauses speak of. -/
theorem witness_session_writers :
    exec (.cfgClock 4 16 2) (blank []) = .next (after (.cfgClock 4 16 2) (blank []))
    ∧ (∀ data, Instr.cfgClock 4 16 2 ≠ .loadConfig data) ∧ (Instr.cfgClock 4 16 2).resets = false
    ∧ (∀ n, Instr.cfgClock 4 16 2 ≠ .cfgChannels n) ∧ Instr.cfgClock 4 16 2 ≠ .initBus
    ∧ (∀ len f w lb, Instr.cfgClock 4 16 2 ≠ .cfgTransmit len f w lb) ∧ (Instr.cfgClock 4 16 2).gated = false
    ∧ (Instr.cfgClock 4 16 2).pulls = false ∧ (Instr.cfgClock 4 16 2).posts = false :=
  ⟨exec_after (by decide +kernel), nofun, rfl, nofun, nofun, nofun, rfl, rfl, rfl⟩

/-- WindowFrame: the bytes next to the word stored to. -/
theorem witness_window_frame :
    exec (.cfgClock 4 16 2) (blank []) = .next (after (.cfgClock 4 16 2) (blank []))
    ∧ (Instr.cfgClock 4 16 2).resets = false ∧ (Instr.cfgClock 4 16 2).stores (blank []).ctx.sess 11 = false
    ∧ (Instr.cfgClock 4 16 2).stores (blank []).ctx.sess 16 = false
    ∧ (Instr.busWait).stores (blank []).ctx.sess 0x407 = true ∧ (Instr.busWait).stores (blank []).ctx.sess 0x408 = false :=
  ⟨exec_after (by decide +kernel), by decide +kernel, by decide +kernel, by decide +kernel, by decide +kernel,
    by decide +kernel⟩

/-- InvalidConfigChangesNothing and InvalidCommandChangesNothing. -/
theorem witness_invalid :
    (blank []).ok = true ∧ exec (.cfgChannels 9) (blank []) = .next (after (.cfgChannels 9) (blank []))
    ∧ (after (.cfgChannels 9) (blank [])).err = some 1
    ∧ (machine (ready 1 1 1) []).ok = true
    ∧ exec (.busWrite 0x10000 [1]) (machine (ready 1 1 1) []) =
      .next (after (.busWrite 0x10000 [1]) (machine (ready 1 1 1) []))
    ∧ (after (.busWrite 0x10000 [1]) (machine (ready 1 1 1) [])).err = some 2 :=
  ⟨by decide +kernel, exec_after (by decide +kernel), by decide +kernel, by decide +kernel, exec_after (by decide +kernel),
    by decide +kernel⟩

/-- GateRefuses: each of the three reasons. -/
theorem witness_gate_refuses :
    Instr.busWait.gated = true
    ∧ ((blank []).busy = false ∧ (blank []).ctx.sess.cfgValid = false)
    ∧ ((machine configured []).ctx.sess.cfgValid = true ∧ ¬ (machine configured []).ctx.sess.busState = .ready)
    ∧ ((machine (fun r => { ready 1 1 1 r with nch := none }) []).ctx.sess.busState = .ready
      ∧ ¬ (machine (fun r => { ready 1 1 1 r with nch := none }) []).ctx.sess.nch ≠ none) := by decide +kernel

/-- OperandChecks: values next to the ranges. -/
theorem witness_operand_checks :
    ((machine (ready 8 63 1) []).ctx.sess.ok = true ∧ (machine (ready 8 63 1) []).ctx.sess.admits = true)
    ∧ sendError 0x43 0 2 [1] = some (.invalidCommand 9 2) ∧ buildError 0x44 0x10000 [1] 0 = some (.invalidCommand 3 0x10000)
    ∧ (machine (ready 8 63 1) []).ctx.sess.boundedError 0 8 = some (.invalidCommand 8 4112)
    ∧ readError 0xFFFF 257 = some (.invalidCommand 6 257) ∧ readError 0xFFFF 256 = none
    ∧ coherentError 0 129 = some (.invalidCommand 6 129) ∧ coherentError 0 128 = none
    ∧ srqError 0x100 0 0 [] = some (.invalidCommand 10 0x100) ∧ srqError 0xFF 0xFF 0xFFFF [] = none
    ∧ syncError 0x80 0 0 [] = some (.invalidCommand 10 0x80) ∧ syncError 0x7F 0 0 [] = none
    ∧ programError 0xFFFF [1, 2] = some (.invalidCommand 7 2) ∧ programError 0xFFFF [1] = none := by decide +kernel

/-- TriggerStrobes, CfgChannelsRule, CfgClockAndResetRule, CfgTransmitRule, CfgReceiveRule, and every other statement
that asks for an idle machine. -/
theorem witness_idle : State.reset.busy = false := rfl

/-- WaitStatusSucceeds: at the first word with no time left, later with time left, and with no deadline. -/
theorem witness_wait_succeeds :
    (Polling.succeeds ⟨[], 1, 0, []⟩ 1 0 0 = true
      ∧ (blank [1]).ctx.env.offers (Polling.answers ⟨[], 1, 0, []⟩) = true)
    ∧ (Polling.succeeds ⟨[9], 0x191, 0, [1]⟩ 0x191 8 2 = true
      ∧ (blank [9, 0x191]).ctx.env.offers (Polling.answers ⟨[9], 0x191, 0, [1]⟩) = true)
    ∧ Polling.succeeds ⟨[9], 0x191, 0, []⟩ 0x191 8 0xFFFFFFFF = true := by decide +kernel

/-- WaitStatusFails: a word that also satisfies the wait fails; the deadline passes at the very tick. -/
theorem witness_wait_fails :
    (Polling.fails ⟨[], 0x1D1, 0, []⟩ 0x191 8 1000 = true
      ∧ (blank [0x1D1]).ctx.env.offers (Polling.answers ⟨[], 0x1D1, 0, []⟩) = true)
    ∧ (Polling.expires ⟨[0], 0, 0, [1]⟩ 1 1 0 2 = true
      ∧ (blank [0, 0]).ctx.env.offers (Polling.answers ⟨[0], 0, 0, [1, 1]⟩) = true)
    ∧ Polling.expires ⟨[0], 0, 0, [1]⟩ 0 1 0 2 = false := by decide +kernel

/-- WaitWithoutDeadlineGoesOn. -/
theorem witness_wait_goes_on :
    (blank [0, 0]).busy = false ∧ (blank [0, 0]).ctx.env.ticks = 0 :: List.replicate 60 1
    ∧ (blank [0, 0]).ctx.env.reads.all (pending 1 0) = true := by decide +kernel

/-- WriteCommandRule: 264 bytes are the most, and a byte past the end of the data. -/
theorem witness_write_command :
    264 < (List.replicate 265 (0 : Byte)).length ∧ (List.replicate 264 (0 : Byte)).length ≤ 264
    ∧ [1, 2, (3 : Byte)].length ≤ 3 ∧ 3 < up4 [1, 2, (3 : Byte)].length := by decide +kernel

/-- ReadRxRule and ReadRxAllRule: the greatest total, one past it, and answers for a small one. -/
theorem witness_read_rx :
    4096 < (4097 : Word).toNat ∧ ((5 : Word).toNat ≤ 4096 ∧ [(1 : Word), 2].length = up4 (5 : Word).toNat / 4)
    ∧ (blank [1, 2]).ctx.env.offers ⟨[1, 2], [], []⟩ = true
    ∧ ((0 : Word).toNat < 1 ∧ 8 < (9 : Word).toNat) ∧ 4096 < (513 : Word).toNat * (8 : Word).toNat
    ∧ (512 : Word).toNat * (8 : Word).toNat ≤ 4096
    ∧ [(1 : Word), 2].length = up4 ((5 : Word).toNat * (1 : Word).toNat) / 4 := by decide +kernel

/-- ReadRxStreamRule and StreamOperandChecks: the stash alone at its very length, a pull with the whole budget used, and
one zero word more. -/
theorem witness_read_rx_stream :
    (1 ≤ (1 : Word).toNat ∧ (1 : Word).toNat ≤ 8 ∧ (3 : Word).toNat * (1 : Word).toNat ≤ 4096)
    ∧ (3 : Word).toNat * (1 : Word).toNat ≤ (machine (fun r => { r with stash := [7, 8, 9] }) []).ctx.sess.stash.length
    ∧ (machine (fun r => { r with stash := [7, 8] }) []).ctx.sess.stash.length < (3 : Word).toNat * (1 : Word).toNat
    ∧ Pull.good ⟨2, [5]⟩ (ceilDiv (3 - 2) 4) 2 = true ∧ Pull.good ⟨3, [5]⟩ (ceilDiv (3 - 2) 4) 2 = false
    ∧ (blank [0, 0, 5]).ctx.env.offers ⟨Pull.reads ⟨2, [5]⟩, [], []⟩ = true
    ∧ (blank [0, 0, 0]).ctx.env.offers ⟨List.replicate ((2 : Word).toNat + 1) 0, [], []⟩ = true
    ∧ 4096 < (513 : Word).toNat * (8 : Word).toNat := by decide +kernel

/-- StreamBlockingCompletes: served by the stash; one attempt that is not ready, one that is. -/
theorem witness_stream_blocking :
    (blank []).ctx.env.offers ⟨[], [0], []⟩ = true ∧ (0 : Word).toNat * (1 : Word).toNat ≤ (blank []).ctx.sess.stash.length
    ∧ (blank []).ctx.sess.stash.length < (4 : Word).toNat * (1 : Word).toNat
    ∧ inTime 2 1 [1] = true ∧ inTime 0xFFFFFFFF 1 [] = true
    ∧ Pull.good ⟨1, [5]⟩ (ceilDiv (4 - 0) 4) (1 : Word).toNat = true
    ∧ (blank [0, 0, 0, 5] [true]).ctx.env.offers
        ⟨List.replicate (1 * ((1 : Word).toNat + 1)) 0 ++ Pull.reads ⟨1, [5]⟩, 0 :: [1], List.replicate 1 true⟩ = true := by
  decide +kernel

/-- StreamBlockingEndsEarly, at the first attempt and at the second: the deadline at the very tick, and an abort one tick
before it. -/
theorem witness_stream_ends_early :
    ((2 : Word) ≠ 0xFFFFFFFF ∧ inTime 2 0 [] = true ∧ (2 : Word).toNat ≤ [].sum + 2
      ∧ ({ now := 0, reads := [0, 0], ticks := [0, 2], idles := [] } : Env).offers
        ⟨List.replicate ((0 + 1) * ((1 : Word).toNat + 1)) 0, 0 :: ([] ++ [2]), List.replicate 0 true⟩ = true)
    ∧ (inTime 2 1 [1] = true ∧ (2 : Word).toNat ≤ [1].sum + 1
      ∧ (blank [0, 0, 0, 0] [true]).ctx.env.offers
        ⟨List.replicate ((1 + 1) * ((1 : Word).toNat + 1)) 0, 0 :: ([1] ++ [1]), List.replicate 1 true⟩ = true)
    ∧ (inTime 3 (1 + 1) [1, 1] = true
      ∧ (blank [0, 0, 0, 0] [true, false]).ctx.env.offers
        ⟨List.replicate ((1 + 1) * ((1 : Word).toNat + 1)) 0, 0 :: [1, 1], List.replicate 1 true ++ [false]⟩ = true)
    ∧ (inTime 0xFFFFFFFF (0 + 1) [] = true
      ∧ (blank [0, 0] [false]).ctx.env.offers
        ⟨List.replicate ((0 + 1) * ((1 : Word).toNat + 1)) 0, 0 :: [], List.replicate 0 true ++ [false]⟩ = true) := by
  decide +kernel

/-- The fields below number `n` are in range. -/
def fieldsGood (b : List Byte) (n : Nat) : Bool :=
  (List.range n).all fun g => match cfgRanges[g]? with
    | some (lo, hi) => decide (lo ≤ (wordAt b (4 * g)).toNat) && decide ((wordAt b (4 * g)).toNat ≤ hi)
    | none => true

theorem fieldsGood_spec {b : List Byte} {n : Nat} (h : fieldsGood b n = true) (g lo hi : Nat) (hg : g < n)
    (hr : cfgRanges[g]? = some (lo, hi)) : lo ≤ (wordAt b (4 * g)).toNat ∧ (wordAt b (4 * g)).toNat ≤ hi := by
  have := List.all_eq_true.mp h g (List.mem_range.mpr hg)
  simpa only [hr, Bool.and_eq_true, decide_eq_true_eq] using this

/-- V41: field 2 out of range. -/
def v41 : List Byte := bytesOf [1, 4, 256, 2, 100, 10, 0, 0, 2, 0, 0, 0, 0, 0, 1000, 100000, 16, 0]

/-- LoadConfigRule: a wrong length, a field out of range with all before it good, and a good record. -/
theorem witness_load_config :
    (v40.take 71).length ≠ 72
    ∧ (v41.length = 72 ∧ cfgRanges[2]? = some (0, 255) ∧ ¬ (0 ≤ (wordAt v41 (4 * 2)).toNat ∧ (wordAt v41 (4 * 2)).toNat ≤ 255)
      ∧ ∀ g lo hi, g < 2 → cfgRanges[g]? = some (lo, hi) →
          lo ≤ (wordAt v41 (4 * g)).toNat ∧ (wordAt v41 (4 * g)).toNat ≤ hi)
    ∧ (v40.length = 72 ∧ ∀ f lo hi, cfgRanges[f]? = some (lo, hi) →
        lo ≤ (wordAt v40 (4 * f)).toNat ∧ (wordAt v40 (4 * f)).toNat ≤ hi) := by
  refine ⟨by decide +kernel, ⟨by decide +kernel, rfl, by decide +kernel, ?_⟩, by decide +kernel, ?_⟩
  · exact fun g lo hi hg => fieldsGood_spec (n := 2) (by decide +kernel) g lo hi hg
  · intro f lo hi hr
    have hf : f < 18 := (List.getElem?_eq_some_iff.mp hr).1
    exact fieldsGood_spec (n := 18) (by decide +kernel) f lo hi hf hr

/-- BuildParseRoundTrip and BuildRule, with and without cookies. -/
theorem witness_build :
    (∃ cmd req c', build 0x44 0xFFFF [0xAA, 0xBB] 0 (machine (ready 1 2 255) []).ctx = .ok (cmd, req) c')
    ∧ (machine (ready 1 2 255) []).ctx.sess.cfg.skipCookie ≠ 1 ∧ buildError 0x44 0xFFFF [0xAA, 0xBB] 0 = none
    ∧ (machine (fun r => { ready 1 2 1 r with cfg := { cfgOfBytes v40 with skipCookie := 1 } }) []).ctx.sess.cfg.skipCookie = 1 :=
  ⟨⟨_, _, _, rfl⟩, by decide +kernel, by decide +kernel, by decide +kernel⟩

/-- The exchange of V26, the sends of V20 and V22. -/
def v26 : Exchange := { wait := ⟨[8], 0x191, 0, [1]⟩, words := [0x12340186, 0x20002, 0xBBAABBAA, 0] }
def v20 : Exchange := { wait := ⟨[8], 0x191, 0, [1]⟩, words := [0x00100243, 0x00020009, 0x00332211, 0] }
def v22 : Exchange := { wait := ⟨[8], 0x191, 0, [1]⟩, words := [0x12340144, 0x00020001, 0] }
def v22wait : Exchange := { wait := ⟨[8], 0x191, 0, [1]⟩, words := [2, 0x00020001, 0] }

/-- A machine initialised with one channel of two modules that is about to be given an exchange. -/
def exchanging (ck : Byte) (e : Exchange) : State := machine (ready 1 2 ck) e.answers.reads

/-- TransactOrder. -/
theorem witness_transact :
    (exchanging 2 v26).ctx.ok = true ∧ (exchanging 2 v26).ctx.sess.cfgValid = true ∧ (exchanging 2 v26).ctx.sess.nch ≠ none
    ∧ (requestBytes ⟨0x86, 1, 0x1234, 2⟩ []).length ≤ 264 ∧ 14 * (exchanging 2 v26).ctx.sess.channels ≤ 4096
    ∧ (exchanging 2 v26).ctx.canTransact 14 v26 = true := by decide +kernel

/-- ValidateOrder, with the response count checked and without. -/
theorem witness_validate : (true = true → (exchanging 2 v26).ctx.sess.chain = some 2)
    ∧ (blank []).ctx.sess.chain = none ∧ (false = true → (blank []).ctx.sess.chain = some 0) := by decide +kernel

/-- SendFamilyCompletes, each of the three. -/
theorem witness_send :
    ((exchanging 9 v20).busy = false ∧ (exchanging 9 v20).ctx.ok = true
      ∧ (exchanging 9 v20).ctx.canSend 0x43 0x10 1 [0x11, 0x22, 0x33] v20 = true)
    ∧ ((exchanging 1 v22).ctx.ok = true ∧ (exchanging 1 v22).ctx.canSend 0x44 0x1234 0 [0xAA, 0xBB] v22 = true)
    ∧ ((exchanging 1 v22wait).ctx.ok = true ∧ (exchanging 1 v22wait).ctx.canSend 0x02 0 0 [] v22wait = true) := by
  decide +kernel

/-- SendFailsFast. -/
theorem witness_send_fails :
    (machine (ready 1 2 9) [0x1D1]).ctx.ok = true ∧ (machine (ready 1 2 9) [0x1D1]).ctx.sess.admits = true
    ∧ sendError 0x44 0x10 0 [1] = none
    ∧ Polling.fails ⟨[], 0x1D1, 0, []⟩ 0x191 8 (machine (ready 1 2 9) [0x1D1]).ctx.sess.cfg.busTimeout = true
    ∧ (machine (ready 1 2 9) [0x1D1]).ctx.env.offers (Polling.answers ⟨[], 0x1D1, 0, []⟩) = true
    ∧ srqError 0xFF 0xFF 0xFFFF (List.replicate 252 0) = none
    ∧ (machine (ready 1 2 9) [0x1D1]).ctx.sess.lastSrq ≠
        some ([byte 0xFF, byte 0xFF] ++ le16 (BitVec.ofNat 16 0xFFFF) ++ List.replicate 252 0) := by decide +kernel

/-- ReadBoundedCompletes. -/
theorem witness_read_bounded :
    (exchanging 2 v26).busy = false ∧ (exchanging 2 v26).ctx.ok = true
    ∧ (exchanging 2 v26).ctx.canReadBounded 0x1234 2 v26 = true := by decide +kernel

/-- The answers of P5. -/
def p5Streaming : Streaming := { pulls := p5Pulls, starts := [0, 1], stop := ⟨[0x29], 1, 1, [1]⟩ }

/-- ReadStreamingCompletes. -/
theorem witness_read_streaming :
    (machine (ready 2 40 1) p5).ctx.ok = true
    ∧ (machine (ready 2 40 1) p5).ctx.canReadStreaming 0x2000 8 p5Streaming = true := by decide +kernel

/-- The exchange of V27. -/
def v27 : Exchange := { wait := ⟨[8], 0x191, 0, [1]⟩, words := [0x12340345, 0x20003, 0xBBBBAAAA, 0] }

/-- ReadCoherentCompletes. -/
theorem witness_read_coherent :
    (exchanging 3 v27).ctx.ok = true ∧ (exchanging 3 v27).ctx.canPoll 0x1234 2 v27 = true
    ∧ coherent (((exchanging 3 v27).ctx.pollAnswer 0x1234 2 v27).map fun r => r.2) (exchanging 3 v27).ctx.sess.channels 2 =
      true := by decide +kernel

/-- CoherenceCheckRule: a difference at the last offset of the last channel, within it and across channels, and none. -/
theorem witness_coherence_check :
    ((∀ k' i', k' < 2 → i' < 2 → k' < 1 ∨ (k' = 1 ∧ i' < 1) →
        orByte [[5, 5, 6, 6], [5, 5, 6, 7]] k' i' = andByte [[5, 5, 6, 6], [5, 5, 6, 7]] k' i')
      ∧ orByte [[5, 5, 6, 6], [5, 5, 6, 7]] 1 1 ≠ andByte [[5, 5, 6, 6], [5, 5, 6, 7]] 1 1)
    ∧ ((∀ k' i', k' < 2 → i' < 2 →
        orByte [[5, 5, 6, 6], [5, 5, 7, 7]] k' i' = andByte [[5, 5, 6, 6], [5, 5, 7, 7]] k' i')
      ∧ orByte [[5, 5, 6, 6], [5, 5, 7, 7]] 1 1 ≠ orByte [[5, 5, 6, 6], [5, 5, 7, 7]] 0 1
      ∧ ∀ k' i', k' < 2 → i' < 2 → k' < 1 ∨ (k' = 1 ∧ i' < 1) →
        orByte [[5, 5, 6, 6], [5, 5, 7, 7]] k' i' = orByte [[5, 5, 6, 6], [5, 5, 7, 7]] 0 i')
    ∧ ∀ k' i', k' < 2 → i' < 1 → orByte [[5, 5], [5, 5]] k' i' = andByte [[5, 5], [5, 5]] k' i'
        ∧ orByte [[5, 5], [5, 5]] k' i' = orByte [[5, 5], [5, 5]] 0 i' := by
  refine ⟨⟨fun k i hk hi h => ?_, by decide⟩, ⟨fun k i hk hi => ?_, by decide, fun k i hk hi h => ?_⟩, fun k i hk hi => ?_⟩
  · have := all_pairs (n := 2) (m := 2) (P := fun k i => !decide (k < 1 ∨ (k = 1 ∧ i < 1)) ||
      orByte [[5, 5, 6, 6], [5, 5, 6, 7]] k i == andByte [[5, 5, 6, 6], [5, 5, 6, 7]] k i) (by decide) k i hk hi
    simpa only [h, decide_true, Bool.not_true, Bool.false_or, beq_iff_eq] using this
  · exact of_decide_eq_true (all_pairs (n := 2) (m := 2) (P := fun k i =>
      decide (orByte [[5, 5, 6, 6], [5, 5, 7, 7]] k i = andByte [[5, 5, 6, 6], [5, 5, 7, 7]] k i)) (by decide) k i hk hi)
  · have := all_pairs (n := 2) (m := 2) (P := fun k i => !decide (k < 1 ∨ (k = 1 ∧ i < 1)) ||
      orByte [[5, 5, 6, 6], [5, 5, 7, 7]] k i == orByte [[5, 5, 6, 6], [5, 5, 7, 7]] 0 i) (by decide) k i hk hi
    simpa only [h, decide_true, Bool.not_true, Bool.false_or, beq_iff_eq] using this
  · exact of_decide_eq_true (all_pairs (n := 2) (m := 1) (P := fun k i =>
      decide (orByte [[5, 5], [5, 5]] k i = andByte [[5, 5], [5, 5]] k i ∧ orByte [[5, 5], [5, 5]] k i =
        orByte [[5, 5], [5, 5]] 0 i)) (by decide) k i hk hi)

/-- The answers of V23. -/
def v23 (words : List Word) : Startup := { wait := ⟨[2], 1, 0, [1]⟩, probe := { wait := ⟨[8], 0x191, 1, [1]⟩, words := words } }

/-- InitializeCompletes. -/
theorem witness_initialize :
    starting.busy = false ∧ starting.ctx.ok = true ∧ starting.ctx.canInitialize (v23 [0x145, 0x20000, 0x202]) = true := by
  decide +kernel

/-- A machine of two configured channels whose probe is answered with `words`. -/
def probing (words : List Word) : State :=
  machine (fun r => { configured r with cfg := { cfgOfBytes v40 with channels := 2 } }) ([2, 1, 8, 0x191] ++ words)

/-- A probe of two channels, by their response counts and the OR and AND byte. -/
def probe (m n : Byte) (a b : Half) : List Word :=
  [0x145, 65536 * BitVec.zeroExtend 32 m, BitVec.zeroExtend 32 a, 0x145, 65536 * BitVec.zeroExtend 32 n,
   BitVec.zeroExtend 32 b]

/-- InitializeTestsInOrder: counts 3 and 2; counts 0; versions that differ across the channels and within one; version
0. -/
theorem witness_initialize_tests :
    let rs := fun ws => (probing ws).ctx.probeAnswer (v23 ws)
    ((probing (probe 3 2 0x202 0x202)).ctx.ok = true
      ∧ (probing (probe 3 2 0x202 0x202)).ctx.canProbe (v23 (probe 3 2 0x202 0x202)) = true
      ∧ countOf (rs (probe 3 2 0x202 0x202)) 1 ≠ countOf (rs (probe 3 2 0x202 0x202)) 0)
    ∧ ((probing (probe 0 0 0xFF00 0xFF00)).ctx.canProbe (v23 (probe 0 0 0xFF00 0xFF00)) = true
      ∧ countOf (rs (probe 0 0 0xFF00 0xFF00)) 0 = 0 ∧ countOf (rs (probe 0 0 0xFF00 0xFF00)) 1 = 0)
    ∧ ((probing (probe 3 3 0x202 0x303)).ctx.canProbe (v23 (probe 3 3 0x202 0x303)) = true
      ∧ countOf (rs (probe 3 3 0x202 0x303)) 1 = countOf (rs (probe 3 3 0x202 0x303)) 0
      ∧ countOf (rs (probe 3 3 0x202 0x303)) 0 ≠ 0
      ∧ ([0, 1].all fun k => orByte ((rs (probe 3 3 0x202 0x303)).map fun r => r.2) k 0
          == andByte ((rs (probe 3 3 0x202 0x303)).map fun r => r.2) k 0) = true
      ∧ orByte ((rs (probe 3 3 0x202 0x303)).map fun r => r.2) 1 0 ≠ orByte ((rs (probe 3 3 0x202 0x303)).map fun r => r.2) 0 0)
    ∧ ((probing (probe 3 3 0x202 0x302)).ctx.canProbe (v23 (probe 3 3 0x202 0x302)) = true
      ∧ countOf (rs (probe 3 3 0x202 0x302)) 1 = countOf (rs (probe 3 3 0x202 0x302)) 0
      ∧ orByte ((rs (probe 3 3 0x202 0x302)).map fun r => r.2) 0 0 = andByte ((rs (probe 3 3 0x202 0x302)).map fun r => r.2) 0 0
      ∧ orByte ((rs (probe 3 3 0x202 0x302)).map fun r => r.2) 1 0 ≠ andByte ((rs (probe 3 3 0x202 0x302)).map fun r => r.2) 1 0)
    ∧ ((probing (probe 3 3 0 0)).ctx.canProbe (v23 (probe 3 3 0 0)) = true
      ∧ coherent ((rs (probe 3 3 0 0)).map fun r => r.2) 2 1 = true
      ∧ (orByte ((rs (probe 3 3 0 0)).map fun r => r.2) 0 0).toNat < 1) := by decide +kernel

/-- The exchanges of V25 and V29: a mailbox write of 4 bytes, the strobe, and the status read after it. -/
def v25 (address2 ck : Word) : Exchange :=
  { wait := ⟨[8], 0x191, 0, [1]⟩, words := [address2, 0x00010000 + ck, 0, 0] }
def v25srq : SrqAnswers := { post := v25 0x01000344 1, strobe := ⟨[0], 1, 1, [1]⟩ }
def statusWords (ck status version : Word) : List Word := [0x786, 0x10000 + ck, 0x1100 + version + 16777216 * status, 0x1505, 0]
def statusRead (ck status version : Word) : StatusAnswers :=
  { bounded := { wait := ⟨[8], 0x191, 1, [1]⟩, words := statusWords ck status version }
    streamed := { pulls := [], starts := [], stop := ⟨[], 0, 0, []⟩ } }

/-- SrqCompletes: a new record, one that is not sent again, and one whose mailbox write fails. -/
theorem witness_srq :
    ((machine (ready 1 1 1) [8, 0x191, 0x01000344, 0x00010001, 0, 0, 0, 1]).ctx.ok = true
      ∧ (machine (ready 1 1 1) [8, 0x191, 0x01000344, 0x00010001, 0, 0, 0, 1]).ctx.canSrq 3 7 0x2000 [] v25srq = true)
    ∧ ((machine (fun r => { ready 1 1 1 r with lastSrq := some [3, 7, 0, 0x20] }) [1]).ctx.ok = true
      ∧ (machine (fun r => { ready 1 1 1 r with lastSrq := some [3, 7, 0, 0x20] }) [1]).ctx.canSrq 3 7 0x2000 []
          { v25srq with strobe := ⟨[], 1, 0, []⟩ } = true
      ∧ (machine (fun r => { ready 1 1 1 r with lastSrq := some [3, 7, 0, 0x20] }) [1]).ctx.sess.lastSrq =
          some ([byte 3, byte 7] ++ le16 (BitVec.ofNat 16 0x2000) ++ []))
    ∧ (srqError 3 7 0x2000 [] = none ∧ (machine (ready 1 1 1) [0x1D1]).ctx.sess.admits = true
      ∧ (machine (ready 1 1 1) [0x1D1]).ctx.sess.lastSrq ≠
          some ([byte 3, byte 7] ++ le16 (BitVec.ofNat 16 0x2000) ++ [])
      ∧ ((send 0x44 0x0100 0 [3, 7, 0, 0x20] { (machine (ready 1 1 1) [0x1D1]).ctx with
            sess := { (machine (ready 1 1 1) [0x1D1]).ctx.sess with lastSrq := none } })
          matches .error (.raise _) _) = true) := by decide +kernel

/-- A machine with module version 2, whose modules end a request with `status`. -/
def syncing (status : Word) : State :=
  machine (ready 1 1 1) ([8, 0x191, 0x01000344, 0x00010001, 0, 0, 0, 1, 8, 0x191] ++ statusWords 2 status 2)

/-- The answers of a request in synchronous mode. -/
def syncAnswers (status : Word) : SyncAnswers :=
  { srq := v25srq, delay := [], wait := ⟨⟨[], 0, 0, []⟩, []⟩, status := statusRead 2 status 2 }

/-- A machine with module version 1. -/
def legacy : State :=
  machine (fun r => { ready 1 1 1 r with modVersion := some 1 })
    ([8, 0x191, 0x01000344, 0x00010001, 0, 0, 0, 1, 8, 0x191, 2, 0x10002, 0, 8, 0x191] ++ statusWords 3 0 1)

/-- The answers of a request in legacy mode with a delay of 5 ticks. -/
def legacyAnswers : SyncAnswers :=
  { srq := v25srq, delay := [1, 1, 1, 1, 1, 1], wait := { wait := ⟨[8], 0x191, 1, [1]⟩, words := [2, 0x10002, 0] }
    status := statusRead 3 0 1 }

/-- SrqSyncCompletes in both modes. -/
theorem witness_srq_sync :
    ((syncing 0).ctx.ok = true ∧ (syncing 0).ctx.canSync 3 0 0x2000 0 [] (syncAnswers 0) = true)
    ∧ (legacy.ctx.ok = true ∧ legacy.ctx.canSync 3 0 0x2000 5 [] legacyAnswers = true) := by decide +kernel

/-- The answers of a request of P4: chunk `i`, its mailbox write and its status read. -/
def p4Answers : List SyncAnswers :=
  [{ srq := { post := { wait := ⟨[8], 0x191, 0, [1]⟩, words := [0x01008344, 0x10001] ++ List.replicate 34 0 }
              strobe := ⟨[0], 1, 1, [1]⟩ }
     delay := [], wait := ⟨⟨[], 0, 0, []⟩, []⟩
     status := { bounded := { wait := ⟨[8], 0x191, 1, [1]⟩, words := [0x786, 0x10002, 0x1102, 0xAA2861C5, 0] }
                 streamed := { pulls := [], starts := [], stop := ⟨[], 0, 0, []⟩ } } },
   { srq := { post := { wait := ⟨[8], 0x191, 1, [1]⟩, words := [0x01000544, 0x10003, 0, 0] }
              strobe := ⟨[0], 1, 1, [1]⟩ }
     delay := [], wait := ⟨⟨[], 0, 0, []⟩, []⟩
     status := { bounded := { wait := ⟨[8], 0x191, 1, [1]⟩, words := [0x786, 0x10004, 0x1102, 0x5D90C19A, 0] }
                 streamed := { pulls := [], starts := [], stop := ⟨[], 0, 0, []⟩ } } }]

/-- The answer of the last status read of P4, with the checksum the module reports. -/
def p4Status (checksum : Word) : StatusAnswers :=
  { bounded := { wait := ⟨[8], 0x191, 1, [1]⟩, words := [0x786, 0x10005, 0x1102, checksum, 0] }
    streamed := { pulls := [], starts := [], stop := ⟨[], 0, 0, []⟩ } }

/-- The answers of P4 with that checksum. -/
def p4With (checksum : Word) : List Word := p4.take (p4.length - 2) ++ [checksum, 0]

/-- ProgramCompletes. -/
theorem witness_program :
    (machine (ready 1 1 1) p4).ctx.ok = true
    ∧ (machine (ready 1 1 1) p4).ctx.canProgram 0x4000 image p4Answers (p4Status 0x5D90C19A) = true := by decide +kernel

/-- FirstBadModuleReported: a request that fails, an image with a wrong checksum (P4 variant (b)). -/
theorem witness_first_bad_module :
    ((syncing 5).busy = false ∧ (syncing 5).ctx.ok = true ∧ (syncing 5).ctx.sess.admits = true
      ∧ (syncing 5).ctx.sess.cfg.skipStatusCheck = 0
      ∧ (syncing 5).ctx.canSyncRequest 3 0 0x2000 0 [] (syncAnswers 5) = true
      ∧ ((syncing 5).ctx.syncRequested 3 0 0x2000 [] (syncAnswers 5)).firstModule (syncAnswers 5).status srqSucceeded =
        some (0, 0))
    ∧ ((machine (ready 1 1 1) (p4With 7)).ctx.ok = true
      ∧ (machine (ready 1 1 1) (p4With 7)).ctx.canProgramChunksOf 0x4000 image p4Answers (p4Status 7) = true
      ∧ ((machine (ready 1 1 1) (p4With 7)).ctx.afterChunks 0x4000 0 (imageChunks image) p4Answers).firstModule (p4Status 7)
          (programmedWith (params.cksum image)) = some (0, 0)) := by decide +kernel

/-- The streamed status of 8 channels of 64 modules, which does not fit the receive buffer. -/
def wideFrame : List Byte :=
  [0x86, 7, 0, 0, 1, 0, 64, 0] ++ (List.range 64).flatMap (fun _ => [2, 0x11, 0, 0, 5, 0x15, 0, 0]) ++ zeros 248

def wideStatus : StatusAnswers :=
  { bounded := ⟨⟨[], 0, 0, []⟩, []⟩
    streamed := {
      pulls := [0, 256, 512].map fun k => { zeros := 0, words := (List.replicate 8 (wordsOf (slice wideFrame k (k + 256)))).flatten }
      starts := [0, 1, 1]
      stop := ⟨[], 1, 1, []⟩ } }

/-- ReadModuleStatusCompletes, by either read. -/
theorem witness_read_module_status :
    ((machine (ready 1 1 2) [8, 0x191, 0x786, 0x10002, 0x1102, 0x1505, 0]).ctx.ok = true
      ∧ (machine (ready 1 1 2) [8, 0x191, 0x786, 0x10002, 0x1102, 0x1505, 0]).ctx.canReadStatus
        { statusRead 2 0 2 with bounded := { wait := ⟨[8], 0x191, 0, [1]⟩, words := statusWords 2 0 2 } } = true)
    ∧ ((machine (ready 8 64 1) wideStatus.streamed.answers.reads).ctx.ok = true
      ∧ (machine (ready 8 64 1) wideStatus.streamed.answers.reads).ctx.sess.statusFits = false
      ∧ (machine (ready 8 64 1) wideStatus.streamed.answers.reads).ctx.canReadStatus wideStatus = true) := by decide +kernel

/-- CodeWriteCompletes and SrqRequestsComplete: a configured channel and the first that is not; up to the last address,
and one past it. -/
theorem witness_code_write :
    0 < (modules 2 []).ctx.sess.nch.getD 0 ∧ (modules 2 []).ctx.sess.nch.getD 0 ≤ 1 ∧
    (0xFFFE : Half).toNat + [(5 : Byte), 6].length ≤ 65536 ∧ 1 < [(5 : Byte), 6].length
    ∧ 65536 < (0xFFFF : Half).toNat + [(5 : Byte), 6].length := by decide

/-- CodeReadCompletes, CodePollCompletes, PollDetectsDifference: a channel, a module of it, an offset, a pair. -/
theorem witness_code_read :
    0 < (modules 2 []).ctx.sess.nch.getD 0 ∧ 1 < (modules 2 []).mods.chains.getD 0 0 ∧ 255 < (255 : Byte).toNat + 1
    ∧ 2 * 0 + 1 < [(0 : Byte), 0xFF].length := by decide

/-- SrqRequestsComplete: a request that ends at the last flash address. -/
theorem witness_srq_requests :
    (SrqFields.param ⟨true, 1, 0xFFFE, [1, 8]⟩).toNat + 1 ≤ (SrqFields.payload ⟨true, 1, 0xFFFE, [1, 8]⟩).length
    ∧ (SrqFields.address ⟨true, 1, 0xFFFE, [1, 8]⟩).toNat + (SrqFields.param ⟨true, 1, 0xFFFE, [1, 8]⟩).toNat + 1 ≤ 65536 := by
  decide

end Sys2Proof.Tests
end

section
/-! PROOFS. 10_state.md rule R39: the session registers after power-on, and that no operation depends on `cfg` while
`cfg_valid` is false. Two runs are compared that start in contexts which differ in `cfg` only. The device operations
never read `cfg` (`CfgFree`); the bus and SRQ operations are turned away before anything has happened while `cfg_valid`
is false (`RefusesUnloaded`). -/

namespace Sys2Proof.Machine

/-! ### Two runs -/

def Session.withCfg (r : Session) (g : CfgRecord) : Session := { r with cfg := g }

def Ctx.withCfg (c : Ctx) (g : CfgRecord) : Ctx := { c with sess := c.sess.withCfg g }

/-- Two runs end alike: with the same value, or stopped for the same reason, in contexts that differ in `cfg` only. -/
inductive EndAlike {α : Type} : EStateM.Result Stop Ctx α → EStateM.Result Stop Ctx α → Prop where
  | ok (a : α) (c : Ctx) (g : CfgRecord) : EndAlike (.ok a c) (.ok a (c.withCfg g))
  | error (e : Stop) (c : Ctx) (g : CfgRecord) : EndAlike (.error e c) (.error e (c.withCfg g))

/-- The operation does not depend on `cfg`. -/
def CfgFree {α : Type} (m : Op α) : Prop := ∀ (c : Ctx) (g : CfgRecord), EndAlike (m c) (m (c.withCfg g))

/-- While `cfg_valid` is false the operation raises `StateError(bus_state, 2)` and does nothing else (41_bus_ops.md rules
R180, R191). -/
def RefusesUnloaded {α : Type} (m : Op α) : Prop :=
  ∀ c : Ctx, c.sess.cfgValid = false → m c = .error (.raise (.stateError c.sess.busState.code 2)) c

/-! ### Operations that do not depend on `cfg`: how they are put together -/

theorem cfgFree_pure {α : Type} (a : α) : CfgFree (pure a : Op α) := fun c g => .ok a c g

theorem cfgFree_wait {α : Type} (n : Need) : CfgFree (fun c => .error (.wait n) c : Op α) := fun c g =>
  .error (.wait n) c g

theorem cfgFree_raise {α : Type} (e : Err) : CfgFree (raise e : Op α) := by
  intro c g
  rw [run_raise, run_raise]
  by_cases h : e.faults = true
  · rw [if_pos h, if_pos h]
    exact .error _ { c with sess := c.sess.setBusState .faulted } g
  · rw [if_neg h, if_neg h]
    exact .error _ c g

theorem cfgFree_bind {α β : Type} {m : Op α} {f : α → Op β} (hm : CfgFree m) (hf : ∀ a, CfgFree (f a)) :
    CfgFree (m >>= f) := by
  intro c g
  have h := hm c g
  rw [run_bind, run_bind]
  generalize m c = r, m (c.withCfg g) = r' at h
  cases h with
  | ok a c g => exact hf a c g
  | error e c g => exact .error e c g

theorem cfgFree_ite {α : Type} {p : Prop} [Decidable p] {m k : Op α} (hm : CfgFree m) (hk : CfgFree k) :
    CfgFree (if p then m else k) := by
  split
  · exact hm
  · exact hk

theorem cfgFree_require {p : Prop} [Decidable p] (e : Err) : CfgFree (require p e) :=
  cfgFree_ite (cfgFree_pure _) (cfgFree_raise _)

theorem cfgFree_silently {m : Op Unit} (h : CfgFree m) : CfgFree (silently m) :=
  cfgFree_bind h fun _ => cfgFree_pure _

theorem cfgFree_answering {m : Op (List Byte)} (h : CfgFree m) : CfgFree (answering m) :=
  cfgFree_bind h fun _ => cfgFree_pure _

/-- The session registers may be read for anything but `cfg`. -/
theorem cfgFree_getSess_bind {α : Type} {k : Session → Op α} (hk : ∀ r, CfgFree (k r))
    (hcfg : ∀ r g, k (Session.withCfg r g) = k r) : CfgFree (getSess >>= k) := by
  intro c g
  have h : (getSess >>= k) (c.withCfg g) = k c.sess (c.withCfg g) := congrFun (hcfg c.sess g) (c.withCfg g)
  rw [h]
  exact hk c.sess c g

/-- Session registers may be written with what does not depend on `cfg`; `cfg` itself may be replaced. -/
theorem cfgFree_modifySess {f : Session → Session} (hf : ∀ r g, ∃ g', f (r.withCfg g) = (f r).withCfg g') :
    CfgFree (modifySess f) := by
  intro c g
  obtain ⟨g', h⟩ := hf c.sess g
  have hsess : f (c.withCfg g).sess = (f c.sess).withCfg g' := h
  rw [run_modifySess, run_modifySess, hsess]
  exact .ok () { c with sess := f c.sess } g'

/-! ### The primitives -/

theorem cfgFree_readsLeft : CfgFree readsLeft := fun c g => .ok _ c g

theorem cfgFree_regWrite (i : Nat) (v : Word) : CfgFree (regWrite i v) := fun c g =>
  .ok () { c with link := c.link.write i v } g

theorem cfgFree_regWrite16 (i : Nat) (u : Bool) (v : Half) : CfgFree (regWrite16 i u v) := fun c g =>
  .ok () { c with link := c.link.write16 i u v } g

theorem cfgFree_regRead (i : Nat) : CfgFree (regRead i) := by
  intro c g
  cases h : c.env.reads with
  | nil =>
    rw [run_regRead_nil i c h, run_regRead_nil i (c.withCfg g) h]
    exact .error _ c g
  | cons v rest =>
    rw [run_regRead_cons i c v rest h, run_regRead_cons i (c.withCfg g) v rest h]
    exact .ok v { c with link := c.link.noteRead i v, env := { c.env with reads := rest } } g

theorem cfgFree_now : CfgFree now := by
  intro c g
  cases h : c.env.ticks with
  | nil =>
    rw [run_now_nil c h, run_now_nil (c.withCfg g) h]
    exact .error _ c g
  | cons d rest =>
    rw [run_now_cons c d rest h, run_now_cons (c.withCfg g) d rest h]
    exact .ok _ { c with env := { c.env with now := c.env.now + d, ticks := rest } } g

theorem cfgFree_idlePoint : CfgFree idlePoint := by
  intro c g
  cases h : c.env.idles with
  | nil =>
    rw [run_idle_nil c h, run_idle_nil (c.withCfg g) h]
    exact .error _ c g
  | cons a rest =>
    rw [run_idle_cons c a rest h, run_idle_cons (c.withCfg g) a rest h]
    exact .ok a { c with env := { c.env with idles := rest } } g

/-! ### Sequences of primitives -/

theorem cfgFree_readWords (index : Nat → Nat) (k n : Nat) : CfgFree (readWords index k n) := by
  induction n generalizing k with
  | zero => exact cfgFree_pure _
  | succ n ih => exact cfgFree_bind (cfgFree_regRead _) fun _ => cfgFree_bind (ih _) fun _ => cfgFree_pure _

theorem cfgFree_bulkRead (i n : Nat) : CfgFree (bulkRead i n) :=
  cfgFree_bind (cfgFree_readWords _ _ _) fun _ => cfgFree_pure _

theorem cfgFree_writeWords (i : Nat) (ws : List Word) : CfgFree (writeWords i ws) := by
  induction ws generalizing i with
  | nil => exact cfgFree_pure _
  | cons w ws ih => exact cfgFree_bind (cfgFree_regWrite _ _) fun _ => ih _

theorem cfgFree_writeHalves (i : Nat) (u : Bool) (hs : List Half) : CfgFree (writeHalves i u hs) := by
  induction hs generalizing i u with
  | nil => exact cfgFree_pure _
  | cons h hs ih => exact cfgFree_bind (cfgFree_regWrite16 _ _ _) fun _ => ih _ _

theorem cfgFree_checkRange (operand value least greatest : Nat) : CfgFree (checkRange operand value least greatest) :=
  cfgFree_require _

theorem cfgFree_checkFields (b : List Byte) (f : Nat) (ranges : List (Nat × Nat)) :
    CfgFree (checkFields b f ranges) := by
  induction ranges generalizing f with
  | nil => exact cfgFree_pure _
  | cons r rest ih => exact cfgFree_bind (cfgFree_checkRange _ _ _ _) fun _ => ih _

theorem cfgFree_deadlinePassed (t0 : Nat) (timeout : Word) : CfgFree (deadlinePassed t0 timeout) :=
  cfgFree_ite (cfgFree_pure _) (cfgFree_bind cfgFree_now fun _ => cfgFree_pure _)

theorem cfgFree_pollStatus (set clr timeout : Word) (t0 fuel : Nat) : CfgFree (pollStatus set clr timeout t0 fuel) := by
  induction fuel with
  | zero => exact cfgFree_wait .read
  | succ fuel ih =>
    refine cfgFree_bind (cfgFree_regRead _) fun _ => cfgFree_ite (cfgFree_raise _) (cfgFree_ite (cfgFree_pure _) ?_)
    exact cfgFree_bind (cfgFree_deadlinePassed _ _) fun _ => cfgFree_ite (cfgFree_raise _) ih

/-! ### The device operations (40_device_ops.md) -/

theorem cfgFree_trigger (action : Nat) : CfgFree (trigger action) := by
  have hreset : CfgFree (modifySess fun r => r.onTrigger action) := by
    refine cfgFree_modifySess fun r g => ⟨g, ?_⟩
    unfold Session.onTrigger
    split <;> rfl
  exact cfgFree_bind (cfgFree_checkRange _ _ _ _) fun _ => cfgFree_bind hreset fun _ => cfgFree_regWrite _ _

theorem cfgFree_waitStatus (set clr timeout : Word) : CfgFree (waitStatus set clr timeout) :=
  cfgFree_bind cfgFree_now fun _ => cfgFree_bind cfgFree_readsLeft fun _ => cfgFree_pollStatus _ _ _ _ _

theorem cfgFree_cfgChannels (n : Nat) : CfgFree (cfgChannels n) :=
  cfgFree_bind (cfgFree_checkRange _ _ _ _) fun _ => cfgFree_bind (cfgFree_regWrite _ _) fun _ =>
    cfgFree_modifySess fun _ g => ⟨g, rfl⟩

theorem cfgFree_cfgClock (divider txIdle turboIdle : Nat) : CfgFree (cfgClock divider txIdle turboIdle) :=
  cfgFree_bind (cfgFree_checkRange _ _ _ _) fun _ => cfgFree_bind (cfgFree_checkRange _ _ _ _) fun _ =>
    cfgFree_bind (cfgFree_checkRange _ _ _ _) fun _ => cfgFree_regWrite _ _

theorem cfgFree_cfgReset (resetTime holdTime : Nat) : CfgFree (cfgReset resetTime holdTime) :=
  cfgFree_bind (cfgFree_checkRange _ _ _ _) fun _ => cfgFree_bind (cfgFree_checkRange _ _ _ _) fun _ =>
    cfgFree_regWrite _ _

theorem cfgFree_cfgTransmit (length fast wide lb : Nat) : CfgFree (cfgTransmit length fast wide lb) :=
  cfgFree_bind (cfgFree_checkRange _ _ _ _) fun _ => cfgFree_bind (cfgFree_checkRange _ _ _ _) fun _ =>
    cfgFree_bind (cfgFree_checkRange _ _ _ _) fun _ => cfgFree_bind (cfgFree_checkRange _ _ _ _) fun _ =>
      cfgFree_bind (cfgFree_regWrite _ _) fun _ => cfgFree_modifySess fun _ g => ⟨g, rfl⟩

theorem cfgFree_cfgReceive (length skip wnz lb : Nat) : CfgFree (cfgReceive length skip wnz lb) :=
  cfgFree_bind (cfgFree_checkRange _ _ _ _) fun _ => cfgFree_bind (cfgFree_checkRange _ _ _ _) fun _ =>
    cfgFree_bind (cfgFree_checkRange _ _ _ _) fun _ => cfgFree_bind (cfgFree_checkRange _ _ _ _) fun _ =>
      cfgFree_regWrite _ _

theorem cfgFree_writeCommand (b : List Byte) : CfgFree (writeCommand b) :=
  cfgFree_bind (cfgFree_checkRange _ _ _ _) fun _ => cfgFree_getSess_bind
    (fun _ => cfgFree_ite (cfgFree_writeHalves _ _ _) (cfgFree_writeWords _ _)) fun _ _ => rfl

theorem cfgFree_readRx (size : Nat) : CfgFree (readRx size) :=
  cfgFree_bind (cfgFree_checkRange _ _ _ _) fun _ => cfgFree_bind (cfgFree_bulkRead _ _) fun _ => cfgFree_pure _

theorem cfgFree_checkSlices (size n : Nat) : CfgFree (checkSlices size n) :=
  cfgFree_bind (cfgFree_checkRange _ _ _ _) fun _ => cfgFree_require _

theorem cfgFree_readRxAll (size n : Nat) : CfgFree (readRxAll size n) :=
  cfgFree_bind (cfgFree_checkSlices _ _) fun _ => cfgFree_bind (cfgFree_bulkRead _ _) fun _ => cfgFree_pure _

theorem cfgFree_skipZeros (k budget : Nat) : CfgFree (skipZeros k budget) := by
  induction budget generalizing k with
  | zero => exact cfgFree_bind (cfgFree_regRead _) fun _ => cfgFree_ite (cfgFree_pure _) (cfgFree_pure _)
  | succ budget ih => exact cfgFree_bind (cfgFree_regRead _) fun _ => cfgFree_ite (cfgFree_pure _) (ih _)

/-- A pull reads and writes the stash only (rule R151). -/
theorem cfgFree_readSkip (total budget : Nat) : CfgFree (readSkip total budget) := by
  refine cfgFree_getSess_bind (fun r => cfgFree_ite ?_ ?_) fun _ _ => rfl
  · exact cfgFree_bind (cfgFree_modifySess fun _ g => ⟨g, rfl⟩) fun _ => cfgFree_pure _
  · refine cfgFree_bind (cfgFree_skipZeros _ _) fun found => ?_
    cases found with
    | none => exact cfgFree_pure _
    | some wk =>
      exact cfgFree_bind (cfgFree_readWords _ _ _) fun _ =>
        cfgFree_bind (cfgFree_modifySess fun _ g => ⟨g, rfl⟩) fun _ => cfgFree_pure _

theorem cfgFree_readRxStream (size n budget : Nat) : CfgFree (readRxStream size n budget) := by
  refine cfgFree_bind (cfgFree_checkSlices _ _) fun _ => cfgFree_bind (cfgFree_readSkip _ _) fun pulled => ?_
  cases pulled with
  | none => exact cfgFree_pure _
  | some b => exact cfgFree_pure _

theorem cfgFree_pullUntil (total : Nat) (timeout : Word) (budget t0 fuel : Nat) :
    CfgFree (pullUntil total timeout budget t0 fuel) := by
  induction fuel with
  | zero => exact cfgFree_wait .read
  | succ fuel ih =>
    refine cfgFree_bind (cfgFree_readSkip _ _) fun pulled => ?_
    cases pulled with
    | some b => exact cfgFree_pure _
    | none =>
      exact cfgFree_bind (cfgFree_deadlinePassed _ _) fun _ => cfgFree_ite (cfgFree_raise _)
        (cfgFree_bind cfgFree_idlePoint fun _ => cfgFree_ite ih (cfgFree_raise _))

theorem cfgFree_readRxStreamBlk (size n : Nat) (timeout : Word) (budget : Nat) :
    CfgFree (readRxStreamBlk size n timeout budget) :=
  cfgFree_bind (cfgFree_checkSlices _ _) fun _ => cfgFree_bind cfgFree_now fun _ =>
    cfgFree_bind cfgFree_readsLeft fun _ => cfgFree_bind (cfgFree_pullUntil _ _ _ _ _) fun _ => cfgFree_pure _

/-- `LOAD_CONFIG` replaces every field of `cfg` (rule R154), so that nothing of the old one is left. -/
theorem cfgFree_loadConfig (b : List Byte) : CfgFree (loadConfig b) :=
  cfgFree_bind (cfgFree_checkRange _ _ _ _) fun _ => cfgFree_bind (cfgFree_checkFields _ _ _) fun _ =>
    cfgFree_modifySess fun _ _ => ⟨cfgOfBytes b, rfl⟩

/-! ### The bus and SRQ operations: refused while no configuration is loaded -/

theorem refusesUnloaded_bind {α β : Type} {m : Op α} (hm : RefusesUnloaded m) (f : α → Op β) :
    RefusesUnloaded (m >>= f) := fun c hc => run_bind_error (hm c hc)

theorem refusesUnloaded_gate : RefusesUnloaded gate := by
  intro c hc
  have hadmits : c.sess.admits = false := by simp [Session.admits, hc]
  have herr : c.sess.gateError = .stateError c.sess.busState.code 2 := by simp [Session.gateError, hc]
  rw [run_gate_error c hadmits, herr]

/-- `INITIALIZE` tests `cfg_valid` itself (rule R191). -/
theorem refusesUnloaded_initializeBus : RefusesUnloaded initializeBus := by
  intro c hc
  have hno : ¬ c.sess.cfgValid = true := by simp [hc]
  refine (run_bind_ok (run_getSess c)).trans (run_bind_error ?_)
  rw [run_require_false _ _ _ hno]
  rfl

theorem refusesUnloaded_send (code address verify : Nat) (payload : List Byte) :
    RefusesUnloaded (send code address verify payload) := refusesUnloaded_bind refusesUnloaded_gate _

theorem refusesUnloaded_readBounded (address dlen : Nat) : RefusesUnloaded (readBounded address dlen) :=
  refusesUnloaded_bind refusesUnloaded_gate _

theorem refusesUnloaded_readStreaming (address dlen : Nat) : RefusesUnloaded (readStreaming address dlen) :=
  refusesUnloaded_bind refusesUnloaded_gate _

theorem refusesUnloaded_readCoherent (address dlen : Nat) : RefusesUnloaded (readCoherent address dlen) :=
  refusesUnloaded_bind refusesUnloaded_gate _

theorem refusesUnloaded_readModuleStatus : RefusesUnloaded readModuleStatus :=
  refusesUnloaded_bind refusesUnloaded_gate _

theorem refusesUnloaded_srq (code param address : Nat) (payload : List Byte) :
    RefusesUnloaded (srq code param address payload) := refusesUnloaded_bind refusesUnloaded_gate _

theorem refusesUnloaded_srqSync (code param address delay : Nat) (payload : List Byte) :
    RefusesUnloaded (srqSync code param address delay payload) := refusesUnloaded_bind refusesUnloaded_gate _

theorem refusesUnloaded_program (address : Nat) (data : List Byte) : RefusesUnloaded (program address data) :=
  refusesUnloaded_bind refusesUnloaded_gate _

/-! ### Every host operation -/

/-- Every host operation is run by the operation port, and either does not depend on `cfg` or is refused while no
configuration is loaded. -/
theorem exec_descriptor {i : Instr} (h : i.format = .descriptor) :
    ∃ body, (∀ s, exec i s = operate i body s) ∧ (CfgFree body ∨ RefusesUnloaded body) := by
  cases i with
  | trigger a => exact ⟨_, fun _ => rfl, .inl (cfgFree_silently (cfgFree_trigger _))⟩
  | waitStatus st cl t =>
    exact ⟨_, fun _ => rfl, .inl (cfgFree_answering (cfgFree_bind (cfgFree_waitStatus _ _ _) fun _ => cfgFree_pure _))⟩
  | cfgChannels n => exact ⟨_, fun _ => rfl, .inl (cfgFree_silently (cfgFree_cfgChannels _))⟩
  | cfgClock d ti tu => exact ⟨_, fun _ => rfl, .inl (cfgFree_silently (cfgFree_cfgClock _ _ _))⟩
  | cfgReset rt ht => exact ⟨_, fun _ => rfl, .inl (cfgFree_silently (cfgFree_cfgReset _ _))⟩
  | cfgTransmit len f w lb => exact ⟨_, fun _ => rfl, .inl (cfgFree_silently (cfgFree_cfgTransmit _ _ _ _))⟩
  | cfgReceive len sk wnz lb => exact ⟨_, fun _ => rfl, .inl (cfgFree_silently (cfgFree_cfgReceive _ _ _ _))⟩
  | writeCommand data => exact ⟨_, fun _ => rfl, .inl (cfgFree_silently (cfgFree_writeCommand _))⟩
  | readRx size => exact ⟨_, fun _ => rfl, .inl (cfgFree_answering (cfgFree_readRx _))⟩
  | readRxAll size n =>
    exact ⟨_, fun _ => rfl, .inl (cfgFree_answering (cfgFree_bind (cfgFree_readRxAll _ _) fun _ => cfgFree_pure _))⟩
  | readRxStream size n budget =>
    exact ⟨_, fun _ => rfl, .inl (cfgFree_bind (cfgFree_readRxStream _ _ _) fun _ => cfgFree_pure _)⟩
  | readRxStreamBlk size n timeout budget =>
    exact ⟨_, fun _ => rfl,
      .inl (cfgFree_answering (cfgFree_bind (cfgFree_readRxStreamBlk _ _ _ _) fun _ => cfgFree_pure _))⟩
  | loadConfig data => exact ⟨_, fun _ => rfl, .inl (cfgFree_silently (cfgFree_loadConfig _))⟩
  | send code address verify data =>
    exact ⟨_, fun _ => rfl, .inr (refusesUnloaded_bind (refusesUnloaded_bind (refusesUnloaded_send _ _ _ _) _) _)⟩
  | busWrite address data =>
    exact ⟨_, fun _ => rfl, .inr (refusesUnloaded_bind (refusesUnloaded_bind (refusesUnloaded_send _ _ _ _) _) _)⟩
  | busWait =>
    exact ⟨_, fun _ => rfl, .inr (refusesUnloaded_bind (refusesUnloaded_bind (refusesUnloaded_send _ _ _ _) _) _)⟩
  | readBounded address dlen => exact ⟨_, fun _ => rfl, .inr (refusesUnloaded_bind (refusesUnloaded_readBounded _ _) _)⟩
  | readStreaming address dlen =>
    exact ⟨_, fun _ => rfl, .inr (refusesUnloaded_bind (refusesUnloaded_readStreaming _ _) _)⟩
  | readCoherent address dlen =>
    exact ⟨_, fun _ => rfl, .inr (refusesUnloaded_bind (refusesUnloaded_readCoherent _ _) _)⟩
  | initBus => exact ⟨_, fun _ => rfl, .inr (refusesUnloaded_bind refusesUnloaded_initializeBus _)⟩
  | srq code param address data => exact ⟨_, fun _ => rfl, .inr (refusesUnloaded_bind (refusesUnloaded_srq _ _ _ _) _)⟩
  | srqSync code param address delay data =>
    exact ⟨_, fun _ => rfl, .inr (refusesUnloaded_bind (refusesUnloaded_srqSync _ _ _ _ _) _)⟩
  | program address data => exact ⟨_, fun _ => rfl, .inr (refusesUnloaded_bind (refusesUnloaded_program _ _) _)⟩
  | readModuleStatus => exact ⟨_, fun _ => rfl, .inr (refusesUnloaded_bind refusesUnloaded_readModuleStatus _)⟩
  | codeEnum | codeWait | codeTest | codeWrite | codePoll | codeRead => cases h
  | srqEraseWrite | srqWrite | srqRunProc => cases h

/-- Either way, while no configuration is loaded, two runs that start with different fields of `cfg` end alike. -/
theorem endAlike_of_unloaded {α : Type} {m : Op α} (h : CfgFree m ∨ RefusesUnloaded m) {c : Ctx}
    (hc : c.sess.cfgValid = false) (g : CfgRecord) : EndAlike (m c) (m (c.withCfg g)) := by
  rcases h with hfree | hrefuses
  · exact hfree c g
  · rw [hrefuses c hc, hrefuses (c.withCfg g) hc]
    exact .error _ c g

/-! ### At the operation port -/

/-- The states agree in what an operation delivers and leaves, but for `cfg` (a suspended one also keeps its start,
`cfg` included, in `inflight`). -/
structure State.SameButCfg (u t : State) : Prop where
  result : u.result = t.result
  busy : u.busy = t.busy
  ctx : ∃ g, u.ctx = t.ctx.withCfg g

/-- Runs that end alike are concluded alike. -/
theorem conclude_endAlike {i : Instr} {s s' t : State} {r r' : EStateM.Result Stop Ctx (Option (List Byte))}
    (h : EndAlike r r') (ht : conclude i s r = .next t) : ∃ u, conclude i s' r' = .next u ∧ u.SameButCfg t := by
  cases h with
  | ok out c g =>
    injection ht with ht
    exact ⟨_, rfl, ht ▸ ⟨rfl, rfl, g, rfl⟩⟩
  | error e c g =>
    cases e with
    | raise e =>
      injection ht with ht
      exact ⟨_, rfl, ht ▸ ⟨rfl, rfl, g, rfl⟩⟩
    | wait n =>
      injection ht with ht
      exact ⟨_, rfl, ht ▸ ⟨rfl, rfl, g, rfl⟩⟩
    | fault f => cases ht

/-- While no configuration is loaded, an operation does the same whatever the fields of `cfg` are (10_state.md rule
R39). -/
theorem exec_withCfg {i : Instr} {s t : State} (g : CfgRecord) (hi : i.format = .descriptor) (hbusy : s.busy = false)
    (hcfg : s.ctx.sess.cfgValid = false) (ht : exec i s = .next t) :
    ∃ u, exec i { s with ctx := s.ctx.withCfg g } = .next u ∧ u.SameButCfg t := by
  obtain ⟨body, hexec, hbody⟩ := exec_descriptor hi
  rw [hexec, operate_idle hbusy] at ht
  obtain ⟨u, hu, hsame⟩ := conclude_endAlike (endAlike_of_unloaded hbody hcfg g) ht
  exact ⟨u, (hexec _).trans ((operate_idle (s := { s with ctx := s.ctx.withCfg g }) hbusy).trans hu), hsame⟩

/-- Settles O8: the reset values are those of the definition; of two runs `exec_withCfg` says that they end in the same
state but for `cfg`. -/
theorem powerOnReset : Obligations.PowerOnReset := by
  refine ⟨by decide, fun i s t g hi hbusy hcfg ht => ?_⟩
  obtain ⟨u, hu, hresult, hbusy', g', hctx⟩ := exec_withCfg g hi hbusy hcfg ht
  exact ⟨u, hu, hresult, hbusy', hctx ▸ rfl, hctx ▸ rfl, hctx ▸ rfl⟩

end Sys2Proof.Machine
end

section
/-! PROOFS. 40_device_ops.md rules R143 to R147, R149, R154: the five configuration writes, `READ_RX` and `LOAD_CONFIG`.
Each is turned away by the first of its operand checks that fails, and otherwise runs to its end. The first part says
once what that means at the operation port; the others follow the checks of each operation in order. -/

namespace Sys2Proof.Machine

open Config

/-! ### Checks at the operation port -/

/-- An operation that raises an error delivers it. -/
theorem operate_of_raise {i : Instr} {body : Op (Option (List Byte))} {s : State} {e : Err} {c : Ctx}
    (hbusy : s.busy = false) (h : body s.ctx = .error (.raise e) c) : operate i body s = .next (s.finishedErr e c) := by
  rw [operate_idle hbusy, h]; rfl

/-- An operation without an answer that runs to its end delivers `Ok` without bytes. -/
theorem operate_silently_ok {i : Instr} {m : Op Unit} {s : State} {c : Ctx} (hbusy : s.busy = false)
    (h : m s.ctx = .ok () c) : operate i (silently m) s = .next (s.finishedOk [] c) := by
  rw [operate_idle hbusy, silently, run_bind_ok h]; rfl

/-- An operation with an answer that runs to its end delivers it. -/
theorem operate_answering_ok {i : Instr} {m : Op (List Byte)} {s : State} {out : List Byte} {c : Ctx}
    (hbusy : s.busy = false) (h : m s.ctx = .ok out c) : operate i (answering m) s = .next (s.finishedOk out c) := by
  rw [operate_idle hbusy, answering, run_bind_ok h]; rfl

/-- An operand check is either delivered, and nothing else happens, or the operation goes on as if it were not there
(40_device_ops.md rule R140 (c)). -/
theorem operate_silently_checkRange {i : Instr} {s : State} (hbusy : s.busy = false) (o v lo hi : Nat)
    (rest : Unit → Op Unit) :
    operate i (silently (checkRange o v lo hi >>= rest)) s =
      if v < lo ∨ hi < v then .next (s.finishedErr (.invalidConfig o v lo hi) s.ctx)
      else operate i (silently (rest ())) s := by
  by_cases h : v < lo ∨ hi < v
  · rw [if_pos h]
    have hbad : ¬ (lo ≤ v ∧ v ≤ hi) := by omega
    exact operate_of_raise hbusy (run_bind_error (run_bind_error (run_checkRange_error o v lo hi _ hbad)))
  · rw [if_neg h]
    have hgood : lo ≤ v ∧ v ≤ hi := by omega
    simp only [operate_idle hbusy, silently, run_bind, run_checkRange o v lo hi _ hgood]

/-- The same where the least legal value is 0, which no operand is below. -/
theorem operate_silently_checkRange_zero {i : Instr} {s : State} (hbusy : s.busy = false) (o v hi : Nat)
    (rest : Unit → Op Unit) :
    operate i (silently (checkRange o v 0 hi >>= rest)) s =
      if hi < v then .next (s.finishedErr (.invalidConfig o v 0 hi) s.ctx) else operate i (silently (rest ())) s := by
  simp [operate_silently_checkRange hbusy]

/-! ### The packed words -/

theorem clockWord_toNat (d ti tu : Word) : clockWord d.toNat ti.toNat tu.toNat = d + 256 * ti + 65536 * tu := by
  simp [clockWord, BitVec.ofNat_add, BitVec.ofNat_mul]

theorem resetWord_toNat (rt ht : Word) : resetWord rt.toNat ht.toNat = rt + 65536 * ht := by
  simp [resetWord, BitVec.ofNat_add, BitVec.ofNat_mul]

theorem txWord_toNat (len f w lb : Word) :
    txWord len.toNat f.toNat w.toNat lb.toNat = len + 65536 * f + 131072 * w + 262144 * lb := by
  simp [txWord, BitVec.ofNat_add, BitVec.ofNat_mul]

theorem rxWord_toNat (len sk wnz lb : Word) :
    rxWord len.toNat sk.toNat wnz.toNat lb.toNat = len + 65536 * sk + 16777216 * wnz + 33554432 * lb := by
  simp [rxWord, BitVec.ofNat_add, BitVec.ofNat_mul]

/-- A flag operand is 1 as a number exactly when it is as a word. -/
theorem toNat_beq_one (w : Word) : (w.toNat == 1) = (w == 1) := by
  rw [Bool.eq_iff_iff, beq_iff_eq, beq_iff_eq]
  exact BitVec.toNat_inj (y := 1)

/-! ### The five configuration writes -/

/-- What is left of a configuration write after its checks: one control word is written. -/
theorem operate_silently_regWrite {i : Instr} {s : State} (hbusy : s.busy = false) (r : Nat) (v : Word) :
    operate i (silently (regWrite r v)) s = .next (s.finishedOk [] { s.ctx with link := s.ctx.link.write r v }) :=
  operate_silently_ok hbusy rfl

/-- The same where a session register shadows the control word (10_state.md rule R42). -/
theorem operate_silently_regWrite_shadow {i : Instr} {s : State} (hbusy : s.busy = false) (r : Nat) (v : Word)
    (f : Session → Session) :
    operate i (silently (regWrite r v >>= fun _ => modifySess f)) s =
      .next (s.finishedOk [] { s.ctx with sess := f s.ctx.sess, link := s.ctx.link.write r v }) :=
  operate_silently_ok hbusy rfl

/-- Settles O25: the one check, then the write and its shadow `nch`. -/
theorem cfgChannelsRule : Obligations.CfgChannelsRule := by
  intro s n hbusy
  change operate _ (silently (cfgChannels n.toNat)) s = _
  simp only [cfgChannels, operate_silently_checkRange hbusy, operate_silently_regWrite_shadow hbusy, params_nchMax,
    params_regChCtl, BitVec.ofNat_toNat, BitVec.setWidth_eq, Session.setNch, apply_ite Host.Outcome.next]

/-- `CFG_CLOCK` (40_device_ops.md rule R144). -/
theorem exec_cfgClock (s : State) (d ti tu : Word) (hbusy : s.busy = false) :
    exec (.cfgClock d ti tu) s = .next (
      if 255 < d.toNat then s.finishedErr (.invalidConfig 0 d.toNat 0 255) s.ctx
      else if 255 < ti.toNat then s.finishedErr (.invalidConfig 1 ti.toNat 0 255) s.ctx
      else if 255 < tu.toNat then s.finishedErr (.invalidConfig 2 tu.toNat 0 255) s.ctx
      else s.finishedOk [] { s.ctx with link := s.ctx.link.write 3 (d + 256 * ti + 65536 * tu) }) := by
  change operate _ (silently (cfgClock d.toNat ti.toNat tu.toNat)) s = _
  simp only [cfgClock, operate_silently_checkRange_zero hbusy, operate_silently_regWrite hbusy, clockWord_toNat,
    params_regClkCtl, apply_ite Host.Outcome.next]

/-- `CFG_RESET` (40_device_ops.md rule R145). -/
theorem exec_cfgReset (s : State) (rt ht : Word) (hbusy : s.busy = false) :
    exec (.cfgReset rt ht) s = .next (
      if 65535 < rt.toNat then s.finishedErr (.invalidConfig 0 rt.toNat 0 65535) s.ctx
      else if 65535 < ht.toNat then s.finishedErr (.invalidConfig 1 ht.toNat 0 65535) s.ctx
      else s.finishedOk [] { s.ctx with link := s.ctx.link.write 4 (rt + 65536 * ht) }) := by
  change operate _ (silently (cfgReset rt.toNat ht.toNat)) s = _
  simp only [cfgReset, operate_silently_checkRange_zero hbusy, operate_silently_regWrite hbusy, resetWord_toNat,
    params_regRstCtl, apply_ite Host.Outcome.next]

/-- Settles O26: for each of the two, its checks in order, then the packed word. -/
theorem cfgClockAndResetRule : Obligations.CfgClockAndResetRule := fun s d ti tu rt ht hbusy =>
  ⟨exec_cfgClock s d ti tu hbusy, exec_cfgReset s rt ht hbusy⟩

/-- Settles O27: the four checks in order, then the packed word and its shadow `wide16`. -/
theorem cfgTransmitRule : Obligations.CfgTransmitRule := by
  intro s len f w lb hbusy
  change operate _ (silently (cfgTransmit len.toNat f.toNat w.toNat lb.toNat)) s = _
  simp only [cfgTransmit, checkBool, operate_silently_checkRange_zero hbusy, operate_silently_regWrite_shadow hbusy,
    txWord_toNat, toNat_beq_one, params_regTxCtl, apply_ite Host.Outcome.next, Session.setWide16]

/-- Settles O28: the four checks in order, then the packed word. -/
theorem cfgReceiveRule : Obligations.CfgReceiveRule := by
  intro s len sk wnz lb hbusy
  change operate _ (silently (cfgReceive len.toNat sk.toNat wnz.toNat lb.toNat)) s = _
  simp only [cfgReceive, checkBool, operate_silently_checkRange_zero hbusy, operate_silently_regWrite hbusy,
    rxWord_toNat, params_regRxCtl, apply_ite Host.Outcome.next]

/-! ### READ_RX -/

/-- Words that have been read from the first on use up as many answers, and nothing else of the oracles. -/
theorem Ctx.readOn_eq_readAll (c : Ctx) (index : Nat → Nat) (ws : List Word) :
    c.readOn index 0 ws (c.env.reads.drop ws.length) = c.readAll index ws := rfl

theorem run_readRx (size : Nat) (ws : List Word) (c : Ctx) (hsize : size ≤ 4096) (hlen : ws.length = up4 size / 4)
    (ho : c.env.offers ⟨ws, [], []⟩ = true) :
    readRx size c = .ok ((bytesOf ws).take size) (c.readAll (fun k => 0x400 + k) ws) := by
  obtain ⟨hreads, -, -⟩ := (Env.offers_iff _ _).mp ho
  calc readRx size c
    _ = (bulkRead 0x400 (up4 size) >>= fun b => pure (b.take size)) c :=
        run_bind_ok (run_checkRange _ _ _ _ c ⟨Nat.zero_le _, hsize⟩)
    _ = .ok ((bytesOf ws).take size) (c.readOn (fun k => 0x400 + k) 0 ws (c.env.reads.drop ws.length)) :=
        run_bind_ok (run_bulkRead _ _ ws _ c hreads hlen)
    _ = .ok ((bytesOf ws).take size) (c.readAll (fun k => 0x400 + k) ws) := by rw [Ctx.readOn_eq_readAll]

/-- Settles O30: the check refuses a size above 4096; any other size is a `BulkRead` of whole words and a trim. -/
theorem readRxRule : Obligations.ReadRxRule := by
  intro s size ws hbusy
  refine ⟨fun hbig => ?_, fun hsize hlen ho => ?_⟩
  · have hbad : ¬ (0 ≤ size.toNat ∧ size.toNat ≤ 4096) := by omega
    exact operate_of_raise hbusy (run_bind_error (run_bind_error (run_checkRange_error _ _ _ _ _ hbad)))
  · exact operate_answering_ok hbusy (run_readRx _ ws _ hsize hlen ho)

/-! ### LOAD_CONFIG -/

/-- Fields in their ranges pass their checks. -/
theorem run_checkFields (b : List Byte) (c : Ctx) (ranges : List (Nat × Nat)) (f : Nat)
    (h : ∀ j lo hi, ranges[j]? = some (lo, hi) →
      lo ≤ (wordAt b (4 * (f + j))).toNat ∧ (wordAt b (4 * (f + j))).toNat ≤ hi) :
    checkFields b f ranges c = .ok () c := by
  induction ranges generalizing f with
  | nil => rfl
  | cons r ranges ih =>
    obtain ⟨lo, hi⟩ := r
    refine (run_bind_ok (run_checkRange _ _ _ _ c (h 0 lo hi rfl))).trans (ih (f + 1) fun j lo' hi' hj => ?_)
    rw [Nat.add_assoc, Nat.add_comm 1 j]
    exact h (j + 1) lo' hi' hj

/-- The first field out of its range is reported (40_device_ops.md rule R154). -/
theorem run_checkFields_error (b : List Byte) (c : Ctx) (ranges : List (Nat × Nat)) (f j lo hi : Nat)
    (hj : ranges[j]? = some (lo, hi))
    (hbad : ¬ (lo ≤ (wordAt b (4 * (f + j))).toNat ∧ (wordAt b (4 * (f + j))).toNat ≤ hi))
    (hgood : ∀ g lo' hi', g < j → ranges[g]? = some (lo', hi') →
      lo' ≤ (wordAt b (4 * (f + g))).toNat ∧ (wordAt b (4 * (f + g))).toNat ≤ hi') :
    checkFields b f ranges c =
      .error (.raise (.invalidConfig (16 + (f + j)) (wordAt b (4 * (f + j))).toNat lo hi)) c := by
  induction ranges generalizing f j with
  | nil => cases hj
  | cons r ranges ih =>
    obtain ⟨lo₀, hi₀⟩ := r
    cases j with
    | zero =>
      cases hj
      exact run_bind_error (run_checkRange_error _ _ _ _ c hbad)
    | succ j =>
      have next : ∀ k, f + (k + 1) = f + 1 + k := fun k => by omega
      rw [next j] at hbad ⊢
      refine (run_bind_ok (run_checkRange _ _ _ _ c (hgood 0 lo₀ hi₀ j.succ_pos rfl))).trans
        (ih (f + 1) j hj hbad fun g lo' hi' hg hr => ?_)
      rw [← next g]
      exact hgood (g + 1) lo' hi' (Nat.succ_lt_succ hg) hr

/-- The words of a whole number of words hold its bytes. -/
theorem bytesOf_map_wordAt (n : Nat) (b : List Byte) (h : b.length = 4 * n) :
    bytesOf ((List.range n).map fun f => wordAt b (4 * f)) = b := by
  induction n generalizing b with
  | zero => rw [List.length_eq_zero_iff.mp h]; rfl
  | succ n ih =>
    match b, h with
    | b0 :: b1 :: b2 :: b3 :: rest, h =>
      have hrest : rest.length = 4 * n := by simp only [List.length_cons] at h; omega
      have hfirst : le32 (wordAt (b0 :: b1 :: b2 :: b3 :: rest) 0) = [b0, b1, b2, b3] := le32_of_word b0 b1 b2 b3
      have hnext : ∀ f, wordAt (b0 :: b1 :: b2 :: b3 :: rest) (4 * (f + 1)) = wordAt rest (4 * f) := fun _ => rfl
      simp only [List.range_succ_eq_map, List.map_cons, List.map_map, Function.comp_def, bytesOf, Nat.mul_zero, hfirst,
        Nat.succ_eq_add_one, hnext, ih rest hrest]
      rfl

/-- The record loaded holds the 72 bytes it was loaded from. -/
theorem bytesOf_fields_cfgOfBytes (b : List Byte) (h : b.length = 72) : bytesOf (cfgOfBytes b).fields = b :=
  bytesOf_map_wordAt 18 b h

/-- The length check of `LoadConfig`, before any field is looked at. -/
theorem run_loadConfig_length {b : List Byte} {c : Ctx} (h : b.length ≠ 72) :
    loadConfig b c = .error (.raise (.invalidConfig 4 b.length 72 72)) c :=
  run_bind_error (run_checkRange_error _ _ _ _ _ fun hlen => h (Nat.le_antisymm hlen.2 hlen.1))

/-- After the length check, the fields are checked and then the record is loaded. -/
theorem run_loadConfig {b : List Byte} {c : Ctx} (h : b.length = 72) :
    loadConfig b c = (checkFields b 0 cfgRanges >>= fun _ => modifySess fun r => r.setCfg (cfgOfBytes b)) c :=
  run_bind_ok (run_checkRange _ _ _ _ _ ⟨h.ge, h.le⟩)

/-- Settles O36: the length check, the first bad field, and the load of a record whose bytes are those presented. -/
theorem loadConfigRule : Obligations.LoadConfigRule := by
  intro s b hbusy
  refine ⟨fun hlen => ?_, fun hlen f lo hi hf hbad hgood => ?_, fun hlen hgood => ?_⟩
  · exact operate_of_raise hbusy (run_bind_error (run_loadConfig_length hlen))
  · have hfields := run_checkFields_error b s.ctx cfgRanges 0 f lo hi hf
    simp only [Nat.zero_add] at hfields
    exact operate_of_raise hbusy
      (run_bind_error ((run_loadConfig hlen).trans (run_bind_error (hfields hbad hgood))))
  · have hfields := run_checkFields b s.ctx cfgRanges 0
    simp only [Nat.zero_add] at hfields
    refine ⟨cfgOfBytes b, ?_, cfgOfBytes_inRange fun j hj => ?_, bytesOf_fields_cfgOfBytes b hlen⟩
    · exact operate_silently_ok hbusy ((run_loadConfig hlen).trans (run_bind_ok (hfields hgood)))
    · rw [Nat.zero_add]
      exact hgood j _ _ (List.getElem?_eq_getElem hj)

end Sys2Proof.Machine
end

section
/-! PROOFS. 41_bus_ops.md rule R192: the transitions of `bus_state`, complete. Two arguments meet at the operation port.
An operation that is no bus reset stays within a scope without the reset (`Stays`), so that `bus_state` is as it was but
for the write of `Timeout` and `Failure`. `INITIALIZE` is in `Initializing` from its reset on, and it has a channel count
before it asks for one (`Starts`), so that after its reset it is not refused with `StateError`. -/

namespace Sys2Proof.Machine

open Config

/-! ### What the result says of `bus_state` -/

/-- Codes 3 and 4 are those of the errors that write `Faulted` (60_exceptions.md rules R260, R280). -/
theorem Err.toResult_err_faults (e : Err) : e.toResult.err = 3 ∨ e.toResult.err = 4 ↔ e.faults = true := by
  cases e <;> simp [Err.toResult, Err.faults]

theorem Err.toResult_err_ne_zero (e : Err) : e.toResult.err ≠ 0 := by
  cases e <;> simp [Err.toResult]

/-- Code 14 is that of `StateError` (60_exceptions.md rule R260). -/
theorem Err.eq_stateError_of_err {e : Err} (h : e.toResult.err = 14) : ∃ b r, e = .stateError b r := by
  cases e with
  | stateError b r => exact ⟨b, r, rfl⟩
  | _ => simp [Err.toResult] at h

@[simp] theorem State.deliver_err (s : State) (r : Result) (c : Ctx) : (s.deliver r c).err = some r.err := rfl
@[simp] theorem State.suspend_err (s : State) (f : InFlight) (c : Ctx) : (s.suspend f c).err = none := rfl

/-- `bus_state` is `Faulted` when the result is `Timeout` or `Failure`, and else `b`. -/
def State.LeavesBus (b : BusState) (t : State) : Prop :=
  t.ctx.sess.busState = if t.err = some 3 ∨ t.err = some 4 then .faulted else b

theorem State.LeavesBus.of_faulting {b : BusState} {t : State} (h : t.LeavesBus b)
    (herr : t.err = some 3 ∨ t.err = some 4) : t.ctx.sess.busState = .faulted := Eq.trans h (if_pos herr)

theorem State.LeavesBus.of_other {b : BusState} {t : State} (h : t.LeavesBus b) (h3 : t.err ≠ some 3)
    (h4 : t.err ≠ some 4) : t.ctx.sess.busState = b := Eq.trans h (if_neg (not_or.mpr ⟨h3, h4⟩))

/-- An operation that runs to its end writes no `Faulted`. -/
theorem leavesBus_deliver_ok (s : State) (out : Option (List Byte)) (c : Ctx) :
    (s.deliver (okResult out) c).LeavesBus c.sess.busState := by
  cases out <;> simp [State.LeavesBus, okResult]

/-- An operation that stops leaves `bus_state` as it is there, but for `Timeout` and `Failure` (60_exceptions.md rule
R280). -/
theorem leavesBus_of_stopped {i : Instr} {s t : State} {e : Stop} {b : Ctx}
    (h : conclude i s (.error e (stoppedAt e b)) = .next t) : t.LeavesBus b.sess.busState := by
  cases e with
  | raise e =>
    injection h with h
    subst h
    simp only [State.LeavesBus, State.deliver_err, Option.some.injEq, Err.toResult_err_faults, State.deliver_ctx, stoppedAt]
    split <;> rfl
  | wait n =>
    injection h with h
    subst h
    simp [State.LeavesBus, stoppedAt]
  | fault f => cases h

/-- An operation within a scope without the bus reset leaves `bus_state` as it was. -/
theorem leavesBus_of_stays {i : Instr} {body : Op (Option (List Byte))} {s t : State} {w : Scope} (hw : w.reset = false)
    (hbody : Stays w s.ctx body) (hbusy : s.busy = false) (h : operate i body s = .next t) :
    t.LeavesBus s.ctx.sess.busState := by
  rw [operate_idle hbusy] at h
  have hends := hbody s.ctx (Within.refl w s.ctx)
  cases hrun : body s.ctx with
  | ok out c =>
    rw [hrun] at h hends
    injection h with h
    exact h ▸ hends.bus hw ▸ leavesBus_deliver_ok s out c
  | error e c =>
    rw [hrun] at h hends
    obtain ⟨b, hb, rfl⟩ := hends
    exact hb.bus hw ▸ leavesBus_of_stopped h

/-! ### Operations that are no bus reset -/

/-- All that an operation other than a bus reset may write; `loads` lets it load a configuration. -/
def Scope.noReset (loads : Bool) : Scope where
  config := loads
  channels := true
  wide := true
  cookie := true
  stash := true
  record := true
  strobes := true
  stores := fun _ => true

theorem sends_noReset (d : Ctx) (n : Nat) : (Scope.noReset false).Sends d n := ⟨rfl, rfl, rfl, fun _ _ => rfl⟩

theorem stays_cfgTransmit {w : Scope} {d : Ctx} (len f wide lb : Nat) (h : w.wide = true)
    (hs : ∀ a, a / 4 = params.regTxCtl → w.stores a = true) : Stays w d (cfgTransmit len f wide lb) :=
  (sat_cfgTransmit len f wide lb h hs).conseq (fun _ hc => hc) (fun _ _ hc => hc.2) fun _ _ hc => hc

theorem stays_writeCommand {w : Scope} {d : Ctx} (b : List Byte)
    (hs : ∀ wide a, commandRegion wide b.length a = true → w.stores a = true) : Stays w d (writeCommand b) :=
  fun c hc => sat_writeCommand c.sess.wide16 b (hs _) c ⟨rfl, hc⟩

theorem stays_checkFields {w : Scope} {d : Ctx} (b : List Byte) (ranges : List (Nat × Nat)) (f : Nat) :
    Stays w d (checkFields b f ranges) := by
  induction ranges generalizing f with
  | nil => exact stays_pure _
  | cons r ranges ih => exact stays_bind (stays_require _) fun _ => ih _

/-- `LOAD_CONFIG` writes `cfg` and `cfg_valid` only (40_device_ops.md rule R154). -/
theorem stays_loadConfig {w : Scope} {d : Ctx} (h : w.config = true) (b : List Byte) : Stays w d (loadConfig b) :=
  stays_require_bind fun _ => stays_bind (stays_checkFields _ _ _) fun _ _ hc =>
    { hc with config := fun e => by rw [h] at e; exact Bool.noConfusion e }

theorem stays_readCoherent {w : Scope} {d : Ctx} {n : Nat} (h : w.Sends d n) (address dlen : Nat)
    (hn : params.headerBytes + (pollMasks dlen).length ≤ n) : Stays w d (readCoherent address dlen) :=
  stays_bind stays_gate fun _ => stays_require_bind fun _ => stays_require_bind fun _ =>
    stays_build_bind h _ _ _ _ hn fun _ ha => stays_bind (stays_transact h _ ha _ _) fun _ =>
      stays_bind (stays_validateFrom _ _ _ _ _ _) fun _ => stays_bind stays_needNch fun _ =>
        stays_bind (stays_coherenceCheck _ _ _) fun _ => stays_pure _

theorem stays_programChunks {w : Scope} {d : Ctx} {n : Nat} (h : w.Sends d n) (hrec : w.record = true)
    (hst : w.stash = true) (hstr : w.strobes = true) (address delay : Nat) (chunks : List (List Byte)) (i : Nat)
    (hn : ∀ chunk ∈ chunks, params.headerBytes + params.srqHdrBytes + chunk.length ≤ n) :
    Stays w d (programChunks address delay i chunks) := by
  induction chunks generalizing i with
  | nil => exact stays_pure _
  | cons chunk chunks ih =>
    exact stays_bind (stays_srqSync h hrec hst hstr _ _ _ _ _ (hn chunk List.mem_cons_self)) fun _ =>
      ih _ fun k hk => hn k (List.mem_cons_of_mem _ hk)

theorem stays_checkChecksums {w : Scope} {d : Ctx} {n : Nat} (h : w.Sends d n) (hn : params.headerBytes ≤ n)
    (hst : w.stash = true) (expected : Word) : Stays w d (checkChecksums expected) := by
  refine stays_bind (stays_readModuleStatus h hn hst) fun _ => stays_bind stays_needChain fun _ =>
    stays_bind stays_needNch fun _ => ?_
  split
  · exact stays_raise _
  · exact stays_pure _

/-- A piece is no longer than the string it is cut from. -/
theorem length_le_of_mem_chunksOf {size k : Nat} {b chunk : List Byte} (h : chunk ∈ chunksOf size k b) :
    chunk.length ≤ b.length := by
  induction k generalizing b with
  | zero => cases h
  | succ k ih =>
    cases b with
    | nil => cases h
    | cons x xs =>
      rcases List.mem_cons.mp h with rfl | hrest
      · simp only [List.length_take]; omega
      · have := ih hrest
        simp only [List.length_drop] at this
        omega

theorem stays_program {w : Scope} {d : Ctx} {n : Nat} (h : w.Sends d n) (hrec : w.record = true)
    (hst : w.stash = true) (hstr : w.strobes = true) (address : Nat) (data : List Byte)
    (hn : params.headerBytes + params.srqHdrBytes + data.length ≤ n) : Stays w d (program address data) := by
  refine stays_bind stays_gate fun _ => stays_require_bind fun _ => stays_require_bind fun _ =>
    stays_getSess_bind fun _ _ => stays_bind (stays_programChunks h hrec hst hstr _ _ _ _ fun chunk hk => ?_) fun _ =>
      stays_bind (stays_checkChecksums h (by omega) hst _) fun _ => stays_pure _
  have := length_le_of_mem_chunksOf hk
  omega

/-- Every host operation but the bus resets stays within a scope without the reset. -/
theorem exec_stays_noReset {i : Instr} (hi : i.format = .descriptor) (hr : i.resets = false) :
    ∃ body loads, (∀ s, exec i s = operate i body s) ∧ ∀ d, Stays (Scope.noReset loads) d body := by
  cases i with
  | trigger a =>
    have ha : a.toNat ≠ 0 := fun e => beq_eq_false_iff_ne.mp hr (BitVec.eq_of_toNat_eq e)
    exact ⟨_, false, fun _ => rfl, fun _ => stays_silently (stays_trigger _ ha fun _ => rfl)⟩
  | waitStatus st cl t =>
    exact ⟨_, false, fun _ => rfl, fun _ => stays_answering (stays_bind (stays_waitStatus _ _ _) fun _ => stays_pure _)⟩
  | cfgChannels n => exact ⟨_, false, fun _ => rfl, fun _ => stays_silently (stays_cfgChannels _ rfl fun _ _ => rfl)⟩
  | cfgClock v ti tu => exact ⟨_, false, fun _ => rfl, fun _ => stays_silently (stays_cfgClock _ _ _ fun _ _ => rfl)⟩
  | cfgReset rt ht => exact ⟨_, false, fun _ => rfl, fun _ => stays_silently (stays_cfgReset _ _ fun _ _ => rfl)⟩
  | cfgTransmit len f w lb =>
    exact ⟨_, false, fun _ => rfl, fun _ => stays_silently (stays_cfgTransmit _ _ _ _ rfl fun _ _ => rfl)⟩
  | cfgReceive len sk wnz lb =>
    exact ⟨_, false, fun _ => rfl, fun _ => stays_silently (stays_cfgReceive _ _ _ _ fun _ _ => rfl)⟩
  | writeCommand data =>
    exact ⟨_, false, fun _ => rfl, fun _ => stays_silently (stays_writeCommand _ fun _ _ _ => rfl)⟩
  | readRx size => exact ⟨_, false, fun _ => rfl, fun _ => stays_answering (stays_readRx _)⟩
  | readRxAll size n =>
    exact ⟨_, false, fun _ => rfl, fun _ => stays_answering (stays_bind (stays_readRxAll _ _) fun _ => stays_pure _)⟩
  | readRxStream size n budget =>
    exact ⟨_, false, fun _ => rfl, fun _ => stays_bind (stays_readRxStream rfl _ _ _) fun _ => stays_pure _⟩
  | readRxStreamBlk size n timeout budget =>
    exact ⟨_, false, fun _ => rfl,
      fun _ => stays_answering (stays_bind (stays_readRxStreamBlk rfl _ _ _ _) fun _ => stays_pure _)⟩
  | loadConfig data => exact ⟨_, true, fun _ => rfl, fun _ => stays_silently (stays_loadConfig rfl _)⟩
  | send code address verify data =>
    exact ⟨_, false, fun _ => rfl, fun d => stays_answering
      (stays_bind (stays_send (sends_noReset d _) _ _ _ _ (Nat.le_refl _)) fun _ => stays_pure _)⟩
  | busWrite address data =>
    exact ⟨_, false, fun _ => rfl, fun d => stays_silently
      (stays_ignoring (stays_send (sends_noReset d _) _ _ _ _ (Nat.le_refl _)))⟩
  | busWait =>
    exact ⟨_, false, fun _ => rfl, fun d => stays_silently
      (stays_ignoring (stays_send (sends_noReset d _) _ _ _ _ (Nat.le_refl _)))⟩
  | readBounded address dlen =>
    exact ⟨_, false, fun _ => rfl, fun d => stays_answering
      (stays_readBounded (sends_noReset d _) (Nat.le_refl _) _ _)⟩
  | readStreaming address dlen =>
    exact ⟨_, false, fun _ => rfl, fun d => stays_answering
      (stays_readStreaming (sends_noReset d _) (Nat.le_refl _) rfl _ _)⟩
  | readCoherent address dlen =>
    exact ⟨_, false, fun _ => rfl, fun d => stays_answering
      (stays_readCoherent (sends_noReset d _) _ _ (Nat.le_refl _))⟩
  | srq code param address data =>
    exact ⟨_, false, fun _ => rfl, fun d => stays_silently
      (stays_srq (sends_noReset d _) rfl rfl _ _ _ _ (Nat.le_refl _))⟩
  | srqSync code param address delay data =>
    exact ⟨_, false, fun _ => rfl, fun d => stays_silently
      (stays_srqSync (sends_noReset d _) rfl rfl rfl _ _ _ _ _ (Nat.le_refl _))⟩
  | program address data =>
    exact ⟨_, false, fun _ => rfl, fun d => stays_answering
      (stays_program (sends_noReset d _) rfl rfl rfl _ _ (Nat.le_refl _))⟩
  | readModuleStatus =>
    exact ⟨_, false, fun _ => rfl, fun d => stays_answering
      (stays_readModuleStatus (sends_noReset d _) (Nat.le_refl _) rfl)⟩
  | initBus => cases hr
  | codeEnum | codeWait | codeTest | codeWrite | codePoll | codeRead => cases hi
  | srqEraseWrite | srqWrite | srqRunProc => cases hi

/-! ### `INITIALIZE` after its reset -/

/-- `INITIALIZE` is under way: `bus_state` is `Initializing` and, with `q`, there is a channel count. -/
def Starting (q : Bool) (c : Ctx) : Prop := c.sess.busState = .initializing ∧ (q = true → c.sess.nch.isSome = true)

/-- `INITIALIZE` stopped under way, and not with `StateError`. -/
def StoppedStarting (e : Stop) (c : Ctx) : Prop :=
  (∃ b : Ctx, b.sess.busState = .initializing ∧ c = stoppedAt e b) ∧ ∀ b r, e ≠ .raise (.stateError b r)

/-- The operation keeps `Starting q` and stops only as `StoppedStarting` says. -/
abbrev Starts {α : Type} (q : Bool) (m : Op α) : Prop := Sat (Starting q) m (fun _ => Starting q) StoppedStarting

theorem starts_pure {α : Type} {q : Bool} (a : α) : Starts q (pure a : Op α) := Sat.pure fun _ h => h

theorem starts_raise {α : Type} {q : Bool} (e : Err) (he : ∀ b r, e ≠ .stateError b r := by nofun) :
    Starts q (raise e : Op α) :=
  Sat.raise fun c h => ⟨⟨c, h.1, rfl⟩, fun b r heq => he b r (by injection heq)⟩

theorem starts_wait {α : Type} {q : Bool} (n : Need) : Starts q (fun c => .error (.wait n) c : Op α) := fun c h =>
  ⟨⟨c, h.1, rfl⟩, nofun⟩

theorem starts_require {q : Bool} {p : Prop} [Decidable p] (e : Err) (he : ∀ b r, e ≠ .stateError b r := by nofun) :
    Starts q (require p e) :=
  Sat.ite (fun _ => starts_pure _) fun _ => starts_raise e he

theorem starts_checkRange {q : Bool} (o v lo hi : Nat) : Starts q (checkRange o v lo hi) := starts_require _

theorem starts_getSess {q : Bool} : Starts q getSess := fun _ h => h
theorem starts_readsLeft {q : Bool} : Starts q readsLeft := fun _ h => h
theorem starts_regWrite {q : Bool} (i : Nat) (v : Word) : Starts q (regWrite i v) := fun _ h => h
theorem starts_regWrite16 {q : Bool} (i : Nat) (u : Bool) (v : Half) : Starts q (regWrite16 i u v) := fun _ h => h

theorem starts_regRead {q : Bool} (i : Nat) : Starts q (regRead i) := by
  intro c h
  cases hr : c.env.reads with
  | nil => rw [run_regRead_nil i c hr]; exact starts_wait (α := Word) .read c h
  | cons v rest => rw [run_regRead_cons i c v rest hr]; exact h

theorem starts_now {q : Bool} : Starts q now := by
  intro c h
  cases ht : c.env.ticks with
  | nil => rw [run_now_nil c ht]; exact starts_wait (α := Nat) .tick c h
  | cons t rest => rw [run_now_cons c t rest ht]; exact h

/-- With a channel count in force `nch` is there (10_state.md rule R42). -/
theorem starts_needNch : Starts true needNch := by
  intro c h
  obtain ⟨n, hn⟩ := Option.isSome_iff_exists.mp (h.2 rfl)
  rw [run_needNch c n hn]
  exact h

theorem starts_readWords {q : Bool} (index : Nat → Nat) (n k : Nat) : Starts q (readWords index k n) := by
  induction n generalizing k with
  | zero => exact starts_pure _
  | succ n ih => exact (starts_regRead _).bind fun _ => (ih _).bind fun _ => starts_pure _

theorem starts_writeWords {q : Bool} (ws : List Word) (i : Nat) : Starts q (writeWords i ws) := by
  induction ws generalizing i with
  | nil => exact starts_pure _
  | cons x ws ih => exact (starts_regWrite _ _).bind fun _ => ih _

theorem starts_writeHalves {q : Bool} (hs : List Half) (i : Nat) (u : Bool) : Starts q (writeHalves i u hs) := by
  induction hs generalizing i u with
  | nil => exact starts_pure _
  | cons x hs ih => exact (starts_regWrite16 _ _ _).bind fun _ => ih _ _

theorem starts_writeCommand {q : Bool} (b : List Byte) : Starts q (writeCommand b) :=
  (starts_checkRange _ _ _ _).bind fun _ => starts_getSess.bind fun _ =>
    Sat.ite (fun _ => starts_writeHalves _ _ _) fun _ => starts_writeWords _ _

theorem starts_waitStatus {q : Bool} (set clr timeout : Word) : Starts q (waitStatus set clr timeout) := by
  have hlate : ∀ t0, Starts q (deadlinePassed t0 timeout) := fun t0 =>
    Sat.ite (fun _ => starts_pure _) fun _ => starts_now.bind fun _ => starts_pure _
  have hpoll : ∀ set clr t0 fuel, Starts q (pollStatus set clr timeout t0 fuel) := by
    intro set clr t0 fuel
    induction fuel with
    | zero => exact starts_wait .read
    | succ fuel ih =>
      refine (starts_regRead _).bind fun _ => Sat.ite (fun _ => starts_raise _) fun _ =>
        Sat.ite (fun _ => starts_pure _) fun _ => ?_
      exact (hlate _).bind fun _ => Sat.ite (fun _ => starts_raise _) fun _ => ih
  exact starts_now.bind fun _ => starts_readsLeft.bind fun _ => hpoll _ _ _ _

/-- A trigger other than the reset changes no session register (40_device_ops.md rule R141). -/
theorem starts_trigger {q : Bool} (action : Nat) (h0 : action ≠ 0) : Starts q (trigger action) := by
  refine (starts_checkRange _ _ _ _).bind fun _ => Sat.bind (fun c h => ?_) fun _ => starts_regWrite _ _
  simpa only [run_modifySess, Session.onTrigger, if_neg h0] using h

/-- From `CfgChannels` on there is a channel count (40_device_ops.md rule R143). -/
theorem sat_cfgChannels_starting (q : Bool) (n : Nat) :
    Sat (Starting q) (cfgChannels n) (fun _ => Starting true) StoppedStarting :=
  (starts_checkRange _ _ _ _).bind fun _ => (starts_regWrite _ _).bind fun _ _ h => ⟨h.1, fun _ => rfl⟩

theorem starts_cfgClock {q : Bool} (v ti tu : Nat) : Starts q (cfgClock v ti tu) :=
  (starts_checkRange _ _ _ _).bind fun _ => (starts_checkRange _ _ _ _).bind fun _ =>
    (starts_checkRange _ _ _ _).bind fun _ => starts_regWrite _ _

theorem starts_cfgReset {q : Bool} (rt ht : Nat) : Starts q (cfgReset rt ht) :=
  (starts_checkRange _ _ _ _).bind fun _ => (starts_checkRange _ _ _ _).bind fun _ => starts_regWrite _ _

theorem starts_cfgTransmit {q : Bool} (len f w lb : Nat) : Starts q (cfgTransmit len f w lb) :=
  (starts_checkRange _ _ _ _).bind fun _ => (starts_checkRange _ _ _ _).bind fun _ =>
    (starts_checkRange _ _ _ _).bind fun _ => (starts_checkRange _ _ _ _).bind fun _ =>
      (starts_regWrite _ _).bind fun _ _ h => h

theorem starts_cfgReceive {q : Bool} (len sk wnz lb : Nat) : Starts q (cfgReceive len sk wnz lb) :=
  (starts_checkRange _ _ _ _).bind fun _ => (starts_checkRange _ _ _ _).bind fun _ =>
    (starts_checkRange _ _ _ _).bind fun _ => (starts_checkRange _ _ _ _).bind fun _ => starts_regWrite _ _

theorem starts_readRxAll {q : Bool} (size n : Nat) : Starts q (readRxAll size n) :=
  ((starts_checkRange _ _ _ _).bind fun _ => starts_require _).bind fun _ =>
    ((starts_readWords _ _ _).bind fun _ => starts_pure _).bind fun _ => starts_pure _

theorem starts_build {q : Bool} (code address : Nat) (payload : List Byte) (rdlen : Nat) :
    Starts q (build code address payload rdlen) := by
  have hlength : Starts q (buildLength (byte code) payload rdlen) :=
    Sat.ite (fun _ => (starts_require _).bind fun _ => (starts_require _).bind fun _ => starts_pure _)
      fun _ => (starts_require _).bind fun _ =>
        Sat.ite (fun _ => (starts_require _).bind fun _ => starts_pure _) fun _ => starts_pure _
  have hcookie : Starts q takeCookie :=
    starts_getSess.bind fun _ => Sat.ite (fun _ => starts_pure _) fun _ =>
      Sat.bind (Q := fun _ => Starting q) (fun _ h => h) fun _ => starts_pure _
  exact (starts_require _).bind fun _ => (starts_require _).bind fun _ => hlength.bind fun _ =>
    hcookie.bind fun _ => starts_pure _

theorem starts_transact (cmd : List Byte) (lt lr : Nat) : Starts true (transact cmd lt lr) :=
  starts_getSess.bind fun _ => (starts_cfgTransmit _ _ _ _).bind fun _ => (starts_cfgReceive _ _ _ _).bind fun _ =>
    (starts_writeCommand _).bind fun _ => (starts_trigger 2 (by decide)).bind fun _ =>
      (Sat.ignoring (starts_waitStatus _ _ _)).bind fun _ => starts_needNch.bind fun _ => starts_readRxAll _ _

/-- Without the response count, which `INITIALIZE` does not check (41_bus_ops.md rule R191). -/
theorem starts_validate {q : Bool} (k : Nat) (f : List Byte) (req : Request) (payload : List Byte) (verify : Bool) :
    Starts q (validate k f req payload verify false) := by
  have hheader : Starts q (checkHeader k (parseHeader f) req) :=
    (starts_require _).bind fun _ => (starts_require _).bind fun _ => (starts_require _).bind fun _ =>
      starts_require _
  have hecho : ∀ body n wanted, Starts q (checkEcho k body payload n wanted) := by
    intro body n wanted
    refine Sat.ite (fun _ => ?_) fun _ => starts_pure _
    split
    · exact starts_pure _
    · exact starts_raise _
  have hidle : ∀ i, Starts q (checkIdle k i f) := by
    intro i
    unfold checkIdle
    split
    · exact starts_raise _
    · exact starts_pure _
  exact hheader.bind fun _ => (starts_require _).bind fun _ => (starts_pure ()).bind fun _ =>
    (starts_require _).bind fun _ => (hecho _ _ _).bind fun _ => (hidle _).bind fun _ => starts_pure _

theorem starts_validateFrom {q : Bool} (req : Request) (payload : List Byte) (verify : Bool) (fs : List (List Byte))
    (k : Nat) : Starts q (validateFrom req payload verify false k fs) := by
  induction fs generalizing k with
  | nil => exact starts_pure _
  | cons f fs ih => exact (starts_validate _ _ _ _ _).bind fun _ => (ih _).bind fun _ => starts_pure _

theorem starts_checkCounts {q : Bool} (rs : List (Half × List Byte)) (n : Nat) : Starts q (checkCounts rs n) := by
  unfold checkCounts
  split
  · exact starts_raise _
  · exact starts_pure _

theorem starts_coherenceCheck {q : Bool} (bodies : List (List Byte)) (n dlen : Nat) :
    Starts q (coherenceCheck bodies n dlen) := by
  unfold coherenceCheck
  split
  · exact starts_raise _
  · split
    · exact starts_raise _
    · exact starts_pure _

/-- With a configuration `INITIALIZE` ends in `Ready`, or stops in `Initializing` with another error than `StateError`
(41_bus_ops.md rule R191). -/
theorem sat_initializeBus : Sat (fun c => c.sess.cfgValid = true) initializeBus
    (fun _ c => c.sess.busState = .ready) StoppedStarting := by
  refine Sat.bind Sat.getSess fun r => ?_
  refine Sat.bind (Sat.require fun c hc hno => absurd (hc.1 ▸ hc.2) hno) fun _ => ?_
  refine Sat.bind (Q := fun _ => Starting false) (fun c _ => ?_) fun _ => ?_
  · rw [run_trigger 0 c (by decide)]
    exact ⟨rfl, nofun⟩
  refine (Sat.ignoring (starts_waitStatus _ _ _)).bind fun _ => (sat_cfgChannels_starting _ _).bind fun _ =>
    (starts_cfgClock _ _ _).bind fun _ => (starts_cfgReset _ _).bind fun _ => (starts_build _ _ _ _).bind fun _ =>
      (starts_transact _ _ _).bind fun _ => (starts_validateFrom _ _ _ _ _).bind fun _ => starts_needNch.bind fun _ =>
        (starts_checkCounts _ _).bind fun _ => (starts_require _).bind fun _ =>
          (starts_coherenceCheck _ _ _).bind fun _ => (starts_require _).bind fun _ => ?_
  exact Sat.bind (Q := fun _ c => c.sess.busState = .ready) (fun _ _ => rfl) fun _ => Sat.pure fun _ h => h

/-! ### The two bus resets -/

/-- `TRIGGER reset` runs to its end (40_device_ops.md rule R141). -/
theorem exec_trigger_reset {s : State} (hbusy : s.busy = false) :
    exec (.trigger 0) s = .next (s.finishedOk []
      { s.ctx with sess := s.ctx.sess.busReset, link := s.ctx.link.write params.regTrigger trgReset }) :=
  operate_silently_ok hbusy (run_trigger 0 s.ctx (by decide))

/-- Without a configuration `INITIALIZE` is refused, and nothing else happens (41_bus_ops.md rule R191). -/
theorem exec_initBus_unloaded {s : State} (hbusy : s.busy = false) (hcfg : s.ctx.sess.cfgValid = false) :
    exec .initBus s = .next (s.finishedErr (.stateError s.ctx.sess.busState.code 2) s.ctx) :=
  operate_of_raise hbusy (run_bind_error (refusesUnloaded_initializeBus s.ctx hcfg))

/-- What `INITIALIZE` leaves when there is a configuration: `Ready` with `Ok`, else `Initializing` but for `Timeout` and
`Failure`; it is not refused. -/
theorem exec_initBus_loaded {s t : State} (hbusy : s.busy = false) (hcfg : s.ctx.sess.cfgValid = true)
    (h : exec .initBus s = .next t) :
    (t.err = some 0 ∧ t.ctx.sess.busState = .ready) ∨
    (t.err ≠ some 0 ∧ t.err ≠ some 14 ∧ t.LeavesBus .initializing) := by
  have hends := sat_initializeBus s.ctx hcfg
  change operate _ (answering initializeBus) s = _ at h
  cases hrun : initializeBus s.ctx with
  | ok out c =>
    rw [hrun] at hends
    rw [operate_answering_ok hbusy hrun] at h
    injection h with h
    exact .inl (h ▸ ⟨rfl, hends⟩)
  | error e c =>
    rw [hrun] at hends
    obtain ⟨⟨b, hb, rfl⟩, hno⟩ := hends
    rw [operate_idle hbusy, answering, run_bind_error hrun] at h
    have hleaves : t.LeavesBus .initializing := hb ▸ leavesBus_of_stopped h
    cases e with
    | raise e =>
      injection h with h
      refine .inr ⟨fun h0 => ?_, fun h14 => ?_, hleaves⟩
      · exact e.toResult_err_ne_zero (by simpa [← h] using h0)
      · obtain ⟨b, r, rfl⟩ := Err.eq_stateError_of_err (e := e) (by simpa [← h] using h14)
        exact hno b r rfl
    | wait n =>
      injection h with h
      subst h
      exact .inr ⟨nofun, nofun, hleaves⟩
    | fault f => cases h

theorem Instr.eq_of_resets {i : Instr} (h : i.resets = true) : i = .trigger 0 ∨ i = .initBus := by
  cases i with
  | trigger a => exact .inl (congrArg _ (beq_iff_eq.mp h))
  | initBus => exact .inr rfl
  | _ => cases h

/-- Settles O13: an operation that is no bus reset leaves `bus_state` as it was, but for `Timeout` and `Failure`; the two
bus resets are `TRIGGER reset` and `INITIALIZE`, the latter with a configuration and without. -/
theorem busStateTransitions : Obligations.BusStateTransitions := by
  intro i s t hi hbusy h
  cases hr : i.resets with
  | false =>
    obtain ⟨body, loads, hexec, hbody⟩ := exec_stays_noReset hi hr
    have hleaves := leavesBus_of_stays rfl (hbody s.ctx) hbusy ((hexec s).symm.trans h)
    refine ⟨fun hother => hleaves.of_other hother.2.1 hother.2.2, hleaves.of_faulting, ?_, ?_, ?_, ?_⟩
    · rintro rfl; cases hr
    · rintro ⟨rfl, -⟩; cases hr
    · rintro ⟨rfl, -⟩; cases hr
    · rintro ⟨rfl, -⟩; cases hr
  | true =>
    refine ⟨nofun, ?_⟩
    rcases Instr.eq_of_resets hr with rfl | rfl
    · rw [exec_trigger_reset hbusy] at h
      injection h with h
      subst h
      exact ⟨nofun, fun _ => rfl, nofun, nofun, nofun⟩
    · cases hcfg : s.ctx.sess.cfgValid with
      | false =>
        rw [exec_initBus_unloaded hbusy hcfg] at h
        injection h with h
        subst h
        exact ⟨nofun, nofun, nofun, fun _ => rfl, fun hother => absurd rfl hother.2.2.2.2⟩
      | true =>
        rcases exec_initBus_loaded hbusy hcfg h with ⟨hok, hready⟩ | ⟨hfail, hno, hleaves⟩
        · refine ⟨fun hfaults => ?_, nofun, fun _ => hready, fun hrefused => ?_, fun hother => absurd hok hother.2.1⟩
          · simp [hok] at hfaults
          · simp [hok] at hrefused
        · exact ⟨hleaves.of_faulting, nofun, fun hdone => absurd hdone.2 hfail, fun hrefused => absurd hrefused.2 hno,
            fun hother => hleaves.of_other hother.2.2.1 hother.2.2.2.1⟩

end Sys2Proof.Machine
end

section
/-! PROOFS. 41_bus_ops.md rule R180: the gate of the bus and SRQ families. Every operation of the two families but
`INITIALIZE` begins with it, so that nothing of its sequence has run when it is refused. -/

namespace Sys2Proof.Machine

/-! ### Operations that begin with the gate -/

/-- When the gate does not let it in, the operation raises what the gate raises, and does nothing else. -/
def BeginsWithGate {α : Type} (m : Op α) : Prop :=
  ∀ c : Ctx, c.sess.admits = false → m c = .error (.raise c.sess.gateError) c

theorem beginsWithGate_gate : BeginsWithGate gate := run_gate_error

theorem beginsWithGate_bind {α β : Type} {m : Op α} (h : BeginsWithGate m) (f : α → Op β) : BeginsWithGate (m >>= f) :=
  fun c hc => run_bind_error (h c hc)

theorem beginsWithGate_send (code address verify : Nat) (payload : List Byte) :
    BeginsWithGate (send code address verify payload) := beginsWithGate_bind beginsWithGate_gate _

theorem beginsWithGate_readBounded (address dlen : Nat) : BeginsWithGate (readBounded address dlen) :=
  beginsWithGate_bind beginsWithGate_gate _

theorem beginsWithGate_readStreaming (address dlen : Nat) : BeginsWithGate (readStreaming address dlen) :=
  beginsWithGate_bind beginsWithGate_gate _

theorem beginsWithGate_readCoherent (address dlen : Nat) : BeginsWithGate (readCoherent address dlen) :=
  beginsWithGate_bind beginsWithGate_gate _

theorem beginsWithGate_srq (code param address : Nat) (payload : List Byte) :
    BeginsWithGate (srq code param address payload) := beginsWithGate_bind beginsWithGate_gate _

theorem beginsWithGate_srqSync (code param address delay : Nat) (payload : List Byte) :
    BeginsWithGate (srqSync code param address delay payload) := beginsWithGate_bind beginsWithGate_gate _

theorem beginsWithGate_program (address : Nat) (data : List Byte) : BeginsWithGate (program address data) :=
  beginsWithGate_bind beginsWithGate_gate _

theorem beginsWithGate_readModuleStatus : BeginsWithGate readModuleStatus := beginsWithGate_bind beginsWithGate_gate _

theorem exec_beginsWithGate {i : Instr} (h : i.gated = true) :
    ∃ body, (∀ s, exec i s = operate i body s) ∧ BeginsWithGate body := by
  cases i with
  | send code address verify data =>
    exact ⟨_, fun _ => rfl, beginsWithGate_bind (beginsWithGate_bind (beginsWithGate_send _ _ _ _) _) _⟩
  | busWrite address data =>
    exact ⟨_, fun _ => rfl, beginsWithGate_bind (beginsWithGate_bind (beginsWithGate_send _ _ _ _) _) _⟩
  | busWait => exact ⟨_, fun _ => rfl, beginsWithGate_bind (beginsWithGate_bind (beginsWithGate_send _ _ _ _) _) _⟩
  | readBounded address dlen => exact ⟨_, fun _ => rfl, beginsWithGate_bind (beginsWithGate_readBounded _ _) _⟩
  | readStreaming address dlen => exact ⟨_, fun _ => rfl, beginsWithGate_bind (beginsWithGate_readStreaming _ _) _⟩
  | readCoherent address dlen => exact ⟨_, fun _ => rfl, beginsWithGate_bind (beginsWithGate_readCoherent _ _) _⟩
  | srq code param address data => exact ⟨_, fun _ => rfl, beginsWithGate_bind (beginsWithGate_srq _ _ _ _) _⟩
  | srqSync code param address delay data =>
    exact ⟨_, fun _ => rfl, beginsWithGate_bind (beginsWithGate_srqSync _ _ _ _ _) _⟩
  | program address data => exact ⟨_, fun _ => rfl, beginsWithGate_bind (beginsWithGate_program _ _) _⟩
  | readModuleStatus => exact ⟨_, fun _ => rfl, beginsWithGate_bind beginsWithGate_readModuleStatus _⟩
  | _ => cases h

/-! ### The refusal -/

theorem Session.gateError_eq (r : Session) : r.gateError =
    .stateError r.busState.code (if r.cfgValid = false then 2 else if r.busState = .ready then 3 else 1) := by
  cases h : r.cfgValid <;> simp [Session.gateError, h]

/-- An operation of the two families is refused by the gate, whatever its operands are. -/
theorem exec_refused {i : Instr} {s : State} (hi : i.gated = true) (hbusy : s.busy = false)
    (hno : s.ctx.sess.admits = false) : exec i s = .next (s.finishedErr s.ctx.sess.gateError s.ctx) := by
  obtain ⟨body, hexec, hgate⟩ := exec_beginsWithGate hi
  rw [hexec]
  exact operate_of_raise hbusy (hgate s.ctx hno)

/-- Settles O19: `exec_refused` with the gate's error written out, and `INITIALIZE` without a configuration. -/
theorem gateRefuses : Obligations.GateRefuses := by
  refine ⟨fun i s hi hbusy hno => ?_, fun s hbusy hcfg => exec_initBus_unloaded hbusy hcfg⟩
  rw [← Option.isSome_iff_ne_none, ← Session.admits_iff, Bool.not_eq_true] at hno
  rw [exec_refused hi hbusy hno, Session.gateError_eq]

end Sys2Proof.Machine
end

section
/-! PROOFS. 41_bus_ops.md rules R181 and R193: `Build`. Either its checks all pass, and it makes the request that
`Session.request` describes, or the first that fails is raised before the cookie is taken. -/

namespace Sys2Proof.Machine

open Config

/-! ### Checks in a sequence -/

/-- A check is either raised, and nothing else happens, or the sequence goes on as if it were not there; for an error
other than `Timeout` and `Failure`, which no check raises. -/
theorem run_require_bind {α : Type} {p : Prop} [Decidable p] {e : Err} (he : e.faults = false) (k : Unit → Op α)
    (c : Ctx) : (require p e >>= k) c = if p then k () c else .error (.raise e) c := by
  by_cases h : p
  · rw [if_pos h, run_bind_ok (run_require_true p e c h)]
  · rw [if_neg h]
    refine run_bind_error ?_
    rw [run_require_false p e c h, run_raise, he]
    rfl

/-! ### The operands of a request -/

theorem lt_of_mem_commandCodes {code : Nat} (h : code ∈ commandCodes) : code < 256 := by
  have hall : ∀ x ∈ commandCodes, x < 256 := by decide
  exact hall code h

/-- A code is READ as a byte exactly when it is as an operand. -/
theorem byte_eq_codeRead {code : Nat} (h : code < 256) : byte code = params.codeRead ↔ code = params.codeRead.toNat := by
  rw [← BitVec.toNat_inj, byte_toNat, Nat.mod_eq_of_lt h]

/-- Operands in which no check fails make a request (41_bus_ops.md rule R181). -/
theorem buildable_of_buildError {code address : Nat} {payload : List Byte} {rdlen : Nat}
    (h : buildError code address payload rdlen = none) : buildable code address payload rdlen = true := by
  unfold buildError at h
  split at h
  · cases h
  next hcode =>
  split at h
  · cases h
  next haddress =>
  have hfirst : commandCodes.contains code = true ∧ address ≤ 0xFFFF := ⟨by simpa using hcode, by omega⟩
  simp only [buildable, hfirst, decide_true, Bool.true_and]
  split at h
  next hpayload =>
    split at h
    · cases h
    next hsome =>
    split at h
    · cases h
    next hmost =>
    rw [if_pos hpayload, Bool.and_eq_true, decide_eq_true_eq, decide_eq_true_eq]
    omega
  next hpayload =>
    split at h
    · cases h
    next hnone =>
    split at h
    · cases h
    next hread =>
    have hnil : payload = [] := by simpa using hnone
    rw [if_neg hpayload, hnil]
    simp only [BEq.rfl, Bool.true_and, Bool.or_eq_true, bne_iff_ne, Bool.and_eq_true, decide_eq_true_eq]
    exact (not_and_or.mp hread).imp_right not_not.mp

/-- The first failing check is raised, and nothing has happened (41_bus_ops.md rule R181). -/
theorem run_build_error {code address : Nat} {payload : List Byte} {rdlen : Nat} {e : Err} (c : Ctx)
    (h : buildError code address payload rdlen = some e) :
    build code address payload rdlen c = .error (.raise e) c := by
  unfold buildError at h
  rw [build, run_require_bind rfl]
  split at h
  next hcode =>
    rw [if_neg (by simpa using hcode)]
    cases h; rfl
  next hcode =>
  have hcode : code ∈ commandCodes := by simpa using hcode
  rw [if_pos hcode, checkAddress, run_require_bind rfl]
  split at h
  next haddress =>
    rw [if_neg (by omega)]
    cases h; rfl
  next haddress =>
  rw [if_pos (by omega)]
  have hlt := lt_of_mem_commandCodes hcode
  have hbyte : (byte code).toNat = code := by rw [byte_toNat, Nat.mod_eq_of_lt hlt]
  refine run_bind_error ?_
  rw [buildLength]
  split at h
  next hpayload =>
    rw [if_pos hpayload, run_require_bind rfl, hbyte]
    split at h
    next hnone =>
      rw [if_neg (by omega)]
      cases h; rfl
    next hsome =>
    rw [if_pos (by omega), run_require_bind rfl]
    split at h
    next hmost =>
      rw [if_neg (by omega)]
      cases h; rfl
    next => cases h
  next hpayload =>
    rw [if_neg hpayload, run_require_bind rfl, hbyte]
    split at h
    next hsome =>
      rw [if_neg hsome]
      cases h; rfl
    next hnone =>
    rw [if_pos (not_not.mp hnone)]
    split at h
    next hread =>
      obtain ⟨hread, hrange⟩ := hread
      rw [if_pos ((byte_eq_codeRead hlt).mpr hread), run_require_bind rfl, if_neg hrange]
      cases h; rfl
    next => cases h

/-- The data length a request states is one that `len_minus_one` can hold (30_encoding.md rule R105). -/
theorem dataLength_range {code address : Nat} {payload : List Byte} {rdlen : Nat}
    (h : buildable code address payload rdlen = true) :
    1 ≤ dataLength code payload rdlen ∧ dataLength code payload rdlen ≤ 256 := by
  unfold dataLength
  by_cases hpayload : hasPayload (byte code) = true
  · simp only [buildable, if_pos hpayload, Bool.and_eq_true, decide_eq_true_eq] at h ⊢
    exact h.2
  · simp only [buildable, if_neg hpayload, Bool.and_eq_true, Bool.or_eq_true, bne_iff_ne, decide_eq_true_eq] at h ⊢
    split
    next hread => exact h.2.2.resolve_left fun hother => hother hread
    next => omega

/-! ### The request -/

/-- What a request built from good operands states: the operands themselves, and the data length less one. -/
theorem Session.request_toNat {code address : Nat} {payload : List Byte} {rdlen : Nat} (r : Session)
    (h : buildable code address payload rdlen = true) :
    (r.request code address payload rdlen).code.toNat = code
    ∧ (r.request code address payload rdlen).address.toNat = address
    ∧ (r.request code address payload rdlen).lm1.toNat + 1 = dataLength code payload rdlen := by
  obtain ⟨hleast, hmost⟩ := dataLength_range h
  simp only [buildable, Bool.and_eq_true, List.contains_iff_mem, decide_eq_true_eq] at h
  obtain ⟨⟨hcode, haddress⟩, -⟩ := h
  have hlt := lt_of_mem_commandCodes hcode
  simp only [Session.request, byte_toNat, BitVec.toNat_ofNat]
  omega

/-- The bytes of a request, its header written out (30_encoding.md rules R103, R106). -/
theorem requestBytes_eq (req : Request) (payload : List Byte) : requestBytes req payload =
    [req.code, req.lm1] ++ le16 req.address ++ [req.cookie, 0x00, 0x00, 0x00] ++ payload := rfl

/-- The header of a request says what the request does, with status and count 0 (41_bus_ops.md rule R193). -/
theorem parseHeader_requestBytes (req : Request) (payload : List Byte) : parseHeader (requestBytes req payload) =
    { code := req.code, lm1 := req.lm1, address := req.address, cookie := req.cookie, status := 0, count := 0 } := by
  have haddress : halfAt (requestBytes req payload) 2 = req.address := half_of_le16 req.address
  simp only [parseHeader, haddress]
  rfl

/-- The bytes after the header are the payload (30_encoding.md rule R103). -/
theorem drop_requestBytes (req : Request) (payload : List Byte) : (requestBytes req payload).drop 8 = payload := rfl

/-- `Build` answers only with good operands, and then with their request. -/
theorem of_run_build {code address : Nat} {payload : List Byte} {rdlen : Nat} {cmd : List Byte} {req : Request}
    {c c' : Ctx} (h : build code address payload rdlen c = .ok (cmd, req) c') :
    buildable code address payload rdlen = true ∧ req = c.sess.request code address payload rdlen
    ∧ cmd = requestBytes req payload := by
  cases herr : buildError code address payload rdlen with
  | some e =>
    rw [run_build_error c herr] at h
    cases h
  | none =>
    have hgood := buildable_of_buildError herr
    rw [run_build code address payload rdlen c hgood] at h
    cases h
    exact ⟨hgood, rfl, rfl⟩

/-! ### The two statements -/

/-- Settles O37: the header of a request's bytes, and what the request states. -/
theorem buildParseRoundTrip : Obligations.BuildParseRoundTrip := by
  intro code address payload rdlen cmd req c c' h
  obtain ⟨hgood, hreq, rfl⟩ := of_run_build h
  obtain ⟨hcode, haddress, hlm1⟩ := c.sess.request_toNat hgood
  rw [← hreq] at hcode haddress hlm1
  rw [parseHeader_requestBytes]
  refine ⟨hcode, rfl, haddress, rfl, rfl, fun hpayload => ?_, rfl, rfl, rfl, drop_requestBytes req payload⟩
  rw [hlm1, dataLength, if_pos (by rwa [hreq] at hpayload)]

/-- The cookie is the counter's value, and the counter goes on modulo 256 (30_encoding.md rule R107). -/
theorem Session.cookieTaken_of_cookies {r : Session} (h : r.cfg.skipCookie ≠ 1) : r.nextCookie = r.cookieCtr
    ∧ r.cookieTaken = { r with cookieCtr := BitVec.ofNat 8 ((r.cookieCtr.toNat + 1) % 256) } := by
  have hnext : BitVec.ofNat 8 ((r.cookieCtr.toNat + 1) % 256) = r.cookieCtr + 1 := by
    apply BitVec.eq_of_toNat_eq
    simp
  rw [hnext]
  exact ⟨if_neg h, if_neg h⟩

/-- With `skip_cookie` the cookie is 0 and the counter stays (30_encoding.md rule R107). -/
theorem Session.cookieTaken_of_skipCookie {r : Session} (h : r.cfg.skipCookie = 1) :
    r.nextCookie = 0 ∧ r.cookieTaken = r := ⟨if_pos h, if_pos h⟩

/-- Settles O38: the first failing check, or the request of the operands and the cookie taken. -/
theorem buildRule : Obligations.BuildRule := by
  intro code address payload rdlen c
  cases herr : buildError code address payload rdlen with
  | some e => exact run_build_error c herr
  | none =>
    have hgood := buildable_of_buildError herr
    exact ⟨_, _, _, run_build code address payload rdlen c hgood, rfl, rfl, Session.cookieTaken_of_skipCookie,
      Session.cookieTaken_of_cookies, (c.sess.request_toNat hgood).2.2, requestBytes_eq _ payload⟩

end Sys2Proof.Machine
end

section
/-! PROOFS. 41_bus_ops.md rule R183: `Validate`. One lemma per check says that it is raised, and nothing else happens, or
that the sequence goes on as if it were not there; the statement puts them together in their order. -/

namespace Sys2Proof.Machine

open Config

/-- A check, with its failure first. -/
theorem run_require_bind_not {α : Type} {p : Prop} [Decidable p] {e : Err} (he : e.faults = false) (k : Unit → Op α)
    (c : Ctx) : (require p e >>= k) c = if ¬ p then .error (.raise e) c else k () c := by
  rw [run_require_bind he, ite_not]

/-- The header echo, field by field (rule R183 (a)). -/
theorem run_checkHeader_bind {α : Type} (n : Nat) (h : Header) (req : Request) (k : Unit → Op α) (c : Ctx) :
    (checkHeader n h req >>= k) c =
      if h.code ≠ req.code then .error (.raise (.protocolError n 1 req.code.toNat h.code.toNat)) c
      else if h.lm1 ≠ req.lm1 then .error (.raise (.protocolError n 2 req.lm1.toNat h.lm1.toNat)) c
      else if h.address ≠ req.address then .error (.raise (.protocolError n 3 req.address.toNat h.address.toNat)) c
      else if h.cookie ≠ req.cookie then .error (.raise (.protocolError n 4 req.cookie.toNat h.cookie.toNat)) c
      else k () c := by
  simp only [checkHeader, bind_assoc]
  rw [run_require_bind_not rfl, run_require_bind_not rfl, run_require_bind_not rfl, run_require_bind_not rfl]

/-- The response count, where it is asked for, against `chain`. -/
theorem run_checkCount_bind {α : Type} (n : Nat) (h : Header) {wanted : Bool} {chain : Half} {c : Ctx}
    (hchain : wanted = true → c.sess.chain = some chain) (k : Unit → Op α) :
    (checkCount n h wanted >>= k) c =
      if wanted = true ∧ h.count ≠ chain then .error (.raise (.protocolError n 5 chain.toNat h.count.toNat)) c
      else k () c := by
  cases wanted with
  | false => rfl
  | true =>
    rw [checkCount, if_pos rfl, bind_assoc, run_bind_ok (run_needChain c chain (hchain rfl)), run_require_bind_not rfl]
    simp only [BitVec.toNat_inj, true_and, ne_eq]

/-- The data echo, where it is asked for, with the first offset and the number of differing bytes (rule R183 (c)). -/
theorem run_checkEcho_bind {α : Type} (n : Nat) (body payload : List Byte) (m : Nat) (wanted : Bool) (k : Unit → Op α)
    (c : Ctx) : (checkEcho n body payload m wanted >>= k) c =
      if wanted = true ∧ differing body payload m ≠ [] then
        .error (.raise (.dataMismatch n ((differing body payload m).headD 0) (differing body payload m).length)) c
      else k () c := by
  cases wanted with
  | false => rfl
  | true =>
    rw [checkEcho, if_pos rfl]
    cases differing body payload m with
    | nil => rfl
    | cons i rest => rfl

/-- The first idle byte that is not 0x00, found by its offset in the frame. -/
theorem firstNonzero_drop (f : List Byte) (i : Nat) : firstNonzero i (f.drop i) =
    (((List.range f.length).drop i).find? fun j => byteAt f j != 0).map fun j => (j, byteAt f j) := by
  induction hl : f.drop i generalizing i with
  | nil =>
    have hend : (List.range f.length).drop i = [] := by
      rw [List.drop_eq_nil_iff] at hl ⊢
      rwa [List.length_range]
    rw [hend]
    rfl
  | cons b rest ih =>
    have hi : i < f.length := by
      have := congrArg List.length hl
      simp only [List.length_drop, List.length_cons] at this
      omega
    rw [List.drop_eq_getElem_cons hi] at hl
    injection hl with hb hrest
    have hbyte : byteAt f i = b := by rw [byteAt, List.getD_eq_getElem _ _ hi, hb]
    rw [List.drop_eq_getElem_cons (by rwa [List.length_range]), List.getElem_range, firstNonzero, List.find?_cons, hbyte]
    by_cases hzero : b = 0
    · rw [if_neg (not_not.mpr hzero), ih (i + 1) hrest, hzero]
      rfl
    · rw [if_pos hzero, bne_iff_ne.mpr hzero, ← hbyte]
      rfl

/-- The idle bytes: the first that is not 0x00 is raised with its offset and value (rule R183 (d)). -/
theorem run_checkIdle_some {n i j : Nat} {f : List Byte} (c : Ctx)
    (h : (((List.range f.length).drop i).find? fun j => byteAt f j != 0) = some j) :
    checkIdle n i f c = .error (.raise (.protocolError n 6 j (byteAt f j).toNat)) c := by
  rw [checkIdle, firstNonzero_drop, h]
  rfl

theorem run_checkIdle_none {n i : Nat} {f : List Byte} (c : Ctx)
    (h : (((List.range f.length).drop i).find? fun j => byteAt f j != 0) = none) :
    checkIdle n i f c = .ok () c := by
  rw [checkIdle, firstNonzero_drop, h]
  rfl

/-- Settles O40: the checks one after the other. -/
theorem validateOrder : Obligations.ValidateOrder := by
  intro k f req payload verify count c chain hchain h n len body off fail
  have hbody : slice f params.headerBytes (params.headerBytes + bodyLength req.code n h.count.toNat) = body :=
    congrArg (fun m => (f.drop 8).take m) (Nat.add_sub_cancel_left 8 len)
  rw [validate, run_checkHeader_bind, run_require_bind_not rfl, run_checkCount_bind _ _ hchain, run_require_bind_not rfl,
    run_checkEcho_bind, hbody]
  refine if_congr .rfl rfl <| if_congr .rfl rfl <| if_congr .rfl rfl <| if_congr .rfl rfl <| if_congr .rfl rfl <|
    if_congr .rfl rfl <| if_congr Nat.not_le rfl <| if_congr (by rw [Bool.and_eq_true, and_assoc]; rfl) rfl ?_
  cases hidle : ((List.range f.length).drop (8 + len)).find? fun i => byteAt f i != 0 with
  | some i => exact run_bind_error (run_checkIdle_some c hidle)
  | none => exact run_bind_ok (run_checkIdle_none c hidle)

end Sys2Proof.Machine
end

section
/-! PROOFS. 41_bus_ops.md rule R190: `CoherenceCheck`. The comparisons are made channel by channel and in each channel by
rising offset, so that the first difference is the least pair in lexicographic order. -/

namespace Sys2Proof.Machine

/-! ### The first pair -/

/-- In a list whose elements are in order, an element that passes a test no earlier one passes is the first found. -/
theorem find?_eq_some_of_pairwise {α : Type} {before : α → α → Prop} {p : α → Bool} {l : List α} {x : α}
    (hl : l.Pairwise before) (hx : x ∈ l) (hp : p x = true) (hfirst : ∀ y ∈ l, before y x → p y = false) :
    l.find? p = some x := by
  induction hl with
  | nil => cases hx
  | @cons a l hbefore hl ih =>
    rcases List.mem_cons.mp hx with rfl | hx
    · exact List.find?_cons_of_pos hp
    · have ha : p a = false := hfirst a List.mem_cons_self (hbefore x hx)
      rw [List.find?_cons_of_neg (by simp [ha])]
      exact ih hx fun y hy => hfirst y (List.mem_cons_of_mem a hy)

/-- `(c', i')` comes before `(c, i)`: a lower channel, or the same and a lower offset. -/
def PairBefore (q p : Nat × Nat) : Prop := q.1 < p.1 ∨ (q.1 = p.1 ∧ q.2 < p.2)

theorem pairs_pairwise (n m : Nat) : (pairs n m).Pairwise PairBefore := by
  rw [pairs, List.pairwise_flatMap]
  refine ⟨fun c _ => ?_, List.pairwise_lt_range.imp fun hlt p hp q hq => ?_⟩
  · exact List.pairwise_map.mpr (List.pairwise_lt_range.imp fun hlt => .inr ⟨rfl, hlt⟩)
  · obtain ⟨i, -, rfl⟩ := List.mem_map.mp hp
    obtain ⟨j, -, rfl⟩ := List.mem_map.mp hq
    exact .inl hlt

/-- The first pair that passes a test. -/
theorem find?_pairs_eq_some {n m k i : Nat} {p : Nat × Nat → Bool} (hk : k < n) (hi : i < m) (hp : p (k, i) = true)
    (hfirst : ∀ k' i', k' < n → i' < m → k' < k ∨ (k' = k ∧ i' < i) → p (k', i') = false) :
    (pairs n m).find? p = some (k, i) := by
  refine find?_eq_some_of_pairwise (pairs_pairwise n m) ((mem_pairs n m k i).mpr ⟨hk, hi⟩) hp fun q hq hbefore => ?_
  obtain ⟨hk', hi'⟩ := (mem_pairs n m q.1 q.2).mp hq
  exact hfirst q.1 q.2 hk' hi' hbefore

theorem find?_pairs_eq_none {n m : Nat} {p : Nat × Nat → Bool}
    (h : ∀ k i, k < n → i < m → p (k, i) = false) : (pairs n m).find? p = none := by
  refine List.find?_eq_none.mpr fun q hq => ?_
  obtain ⟨hk, hi⟩ := (mem_pairs n m q.1 q.2).mp hq
  simp [h q.1 q.2 hk hi]

/-! ### The two kinds of comparison -/

/-- A difference within a channel is raised before the channels are compared. -/
theorem run_coherenceCheck_within {bodies : List (List Byte)} {n dlen k i : Nat} (c : Ctx)
    (h : ((pairs n dlen).find? fun p => orByte bodies p.1 p.2 != andByte bodies p.1 p.2) = some (k, i)) :
    coherenceCheck bodies n dlen c =
      .error (.raise (.coherenceError k i (orByte bodies k i).toNat (andByte bodies k i).toNat)) c := by
  rw [coherenceCheck, h]
  rfl

/-- With no difference within a channel, one across the channels is raised. -/
theorem run_coherenceCheck_across {bodies : List (List Byte)} {n dlen k i : Nat} (c : Ctx)
    (hwithin : ((pairs n dlen).find? fun p => orByte bodies p.1 p.2 != andByte bodies p.1 p.2) = none)
    (h : ((pairs n dlen).find? fun p => orByte bodies p.1 p.2 != orByte bodies 0 p.2) = some (k, i)) :
    coherenceCheck bodies n dlen c =
      .error (.raise (.coherenceError k i (orByte bodies 0 i).toNat (256 + (orByte bodies k i).toNat))) c := by
  rw [coherenceCheck, hwithin, h]
  rfl

/-- Bodies in which all samples agree are coherent. -/
theorem coherent_of_agree {bodies : List (List Byte)} {n dlen : Nat}
    (h : ∀ k i, k < n → i < dlen → orByte bodies k i = andByte bodies k i ∧ orByte bodies k i = orByte bodies 0 i) :
    coherent bodies n dlen = true := by
  refine List.all_eq_true.mpr fun q hq => ?_
  obtain ⟨hk, hi⟩ := (mem_pairs n dlen q.1 q.2).mp hq
  simpa using h q.1 q.2 hk hi

/-- Settles O46: the first difference within a channel; else the first across the channels; else the answer. -/
theorem coherenceCheckRule : Obligations.CoherenceCheckRule := by
  refine fun bodies n dlen c => ⟨fun k i hk hi hdiff hfirst => ?_, fun k i hwithin hk hi hdiff hfirst => ?_, fun h => ?_⟩
  · exact run_coherenceCheck_within c (find?_pairs_eq_some hk hi (bne_iff_ne.mpr hdiff) fun k' i' hk' hi' hbefore =>
      bne_eq_false_iff_eq.mpr (hfirst k' i' hk' hi' hbefore))
  · exact run_coherenceCheck_across c
      (find?_pairs_eq_none fun k' i' hk' hi' => bne_eq_false_iff_eq.mpr (hwithin k' i' hk' hi'))
      (find?_pairs_eq_some hk hi (bne_iff_ne.mpr hdiff) fun k' i' hk' hi' hbefore =>
        bne_eq_false_iff_eq.mpr (hfirst k' i' hk' hi' hbefore))
  · exact run_coherenceCheck bodies n dlen c (coherent_of_agree h)

end Sys2Proof.Machine
end

section
/-! PROOFS. The reference flash checksum (42_srq_ops.md rule R235): the fold over the bytes in closed form, as a weighted
sum of the bit-inverted bytes. -/

namespace Sys2Proof.Machine

/-- The sum over `i` of `(255 - data[i]) * 33^i` (rule R235). -/
def cksumSum (data : List Byte) : Nat :=
  ((List.range data.length).map fun i => (255 - (byteAt data i).toNat) * 33 ^ i).sum

@[simp] theorem cksumSum_nil : cksumSum [] = 0 := rfl

/-- The first byte has weight 1, and every later one 33 times its weight without it. -/
theorem cksumSum_cons (b : Byte) (data : List Byte) :
    cksumSum (b :: data) = (255 - b.toNat) + 33 * cksumSum data := by
  have hfirst : byteAt (b :: data) 0 = b := rfl
  have hweight (i : Nat) : (255 - (byteAt (b :: data) (i + 1)).toNat) * 33 ^ (i + 1) =
      33 * ((255 - (byteAt data i).toNat) * 33 ^ i) := by
    rw [byteAt, List.getD_cons_succ, ← byteAt]
    ring
  rw [cksumSum, List.length_cons, List.range_succ_eq_map, List.map_cons, List.sum_cons, List.map_map, cksumSum,
    ← List.sum_map_mul_left]
  simp only [Function.comp_def, Nat.succ_eq_add_one, hweight, hfirst, pow_zero, mul_one]

/-- The bit-inverted byte, as a word. -/
theorem zeroExtend_xor_ones (b : Byte) : BitVec.zeroExtend 32 (b ^^^ 0xFF) = BitVec.ofNat 32 (255 - b.toNat) := by
  have hnot : b ^^^ 0xFF = ~~~b := BitVec.xor_allOnes
  apply BitVec.eq_of_toNat_eq
  rw [hnot, BitVec.toNat_setWidth, BitVec.toNat_not, BitVec.toNat_ofNat]

theorem cksumStep_eq (h m : Word) (b : Byte) :
    cksumStep (h, m) b = (h + BitVec.ofNat 32 (255 - b.toNat) * m, m * 33) := by
  rw [cksumStep, zeroExtend_xor_ones]

/-- An erased byte leaves the sum as it is, whatever its weight. -/
@[simp] theorem cksumStep_ones_fst (hm : Word × Word) : (cksumStep hm 0xFF).1 = hm.1 := by
  simp [cksumStep]

/-- The fold from any start: the bytes add their sum, scaled by the weight of the first. -/
theorem foldl_cksumStep_fst (data : List Byte) (h m : Word) :
    (data.foldl cksumStep (h, m)).1 = h + m * BitVec.ofNat 32 (cksumSum data) := by
  induction data generalizing h m with
  | nil => simp
  | cons b data ih =>
    rw [List.foldl_cons, cksumStep_eq, ih, cksumSum_cons, BitVec.ofNat_add, BitVec.ofNat_mul,
      show BitVec.ofNat 32 33 = 33 from rfl]
    ring

theorem refCksum_eq (data : List Byte) : refCksum data = BitVec.ofNat 32 (5381 + cksumSum data) := by
  rw [refCksum, foldl_cksumStep_fst, one_mul, BitVec.ofNat_add]
  rfl

theorem refCksum_append_ones (data : List Byte) : refCksum (data ++ [0xFF]) = refCksum data := by
  rw [refCksum, List.foldl_append, List.foldl_cons, List.foldl_nil, cksumStep_ones_fst, refCksum]

/-- Settles O54: the formula is the closed form of the fold, an appended 0xFF adds nothing, and the four values are
computed. -/
theorem checksumRule : Obligations.ChecksumRule := by
  refine ⟨fun data => ?_, refCksum_append_ones, by decide, by decide, by decide, by decide⟩
  rw [Config.params_cksum, refCksum_eq, BitVec.toNat_ofNat, cksumSum]

end Sys2Proof.Machine
end

section
/-! PROOFS. 60_exceptions.md rule R261: `InvalidConfig`. The bus and SRQ operations and `INITIALIZE` run device operations
too, but never deliver it: with a configuration in range and a channel count every operand they pass is in range
(`NoConfig`). The device operations make all their checks before they do anything else (`ChecksFirst`). -/

namespace Sys2Proof.Machine

open Config

/-! ### The error -/

/-- The operation stopped with `InvalidConfig`. -/
def Stop.isInvalidConfig : Stop → Bool
  | .raise (.invalidConfig _ _ _ _) => true
  | _ => false

/-- Code 1 is that of `InvalidConfig` (60_exceptions.md rule R260). -/
theorem Err.toResult_err_eq_one (e : Err) : e.toResult.err = 1 ↔ (Stop.raise e).isInvalidConfig = true := by
  cases e <;> simp [Err.toResult, Stop.isInvalidConfig]

/-- An idle machine delivers code 1 only when the operation raises `InvalidConfig`, in the context it stops in. -/
theorem operate_invalidConfig {i : Instr} {body : Op (Option (List Byte))} {s t : State} (hbusy : s.busy = false)
    (h : operate i body s = .next t) (herr : t.err = some 1) :
    ∃ e, e.isInvalidConfig = true ∧ body s.ctx = .error e t.ctx := by
  rcases operate_cases h with ⟨hb, -⟩ | ⟨-, out, c, -, rfl⟩ | ⟨-, e, c, hrun, rfl⟩ | ⟨-, n, c, -, rfl⟩
  · simp [hbusy] at hb
  · cases out <;> simp [okResult] at herr
  · exact ⟨.raise e, (Err.toResult_err_eq_one e).mp (by simpa using herr), hrun⟩
  · simp at herr

/-! ### Operations that never raise it -/

/-- The operation keeps `P` of the session and does not stop with `InvalidConfig`. -/
abbrev NoConfig {α : Type} (P : Session → Prop) (m : Op α) : Prop :=
  Sat (fun c => P c.sess) m (fun _ c => P c.sess) fun e _ => e.isInvalidConfig = false

/-- What the operands a bus or SRQ operation passes on rely on: the configuration is in range (10_state.md rule R26), and
the channel count, if there is one, is 1 to `most`. -/
def Session.Usable (most : Nat) (r : Session) : Prop := r.cfg.inRange = true ∧ ∀ n, r.nch = some n → 1 ≤ n ∧ n ≤ most

/-- In an allowed session with a configuration both are as rules R20 and R26 of 10_state.md say. -/
theorem Session.usable_of_ok {r : Session} (h : r.ok = true) (hcfg : r.cfgValid = true) : r.Usable 8 := by
  refine ⟨?_, fun n => Session.ok_nch h⟩
  simp only [Session.ok, hcfg, Bool.not_true, Bool.false_or, Bool.and_eq_true] at h
  obtain ⟨⟨⟨-, hrange⟩, -⟩, -⟩ := h
  exact hrange

/-- Nothing is asked of the session. -/
def Session.Any (_ : Session) : Prop := True

section
variable {α : Type} {P : Session → Prop}

theorem noConfig_pure (a : α) : NoConfig P (pure a : Op α) := Sat.pure fun _ h => h

theorem noConfig_raise (e : Err) (he : (Stop.raise e).isInvalidConfig = false := by rfl) :
    NoConfig P (raise e : Op α) := Sat.raise fun _ _ => he

theorem noConfig_stop (e : Stop) (he : e.isInvalidConfig = false := by rfl) :
    NoConfig P (fun c => .error e c : Op α) := fun _ _ => he

theorem noConfig_require {p : Prop} [Decidable p] (e : Err) (he : (Stop.raise e).isInvalidConfig = false := by rfl) :
    NoConfig P (require p e) := Sat.ite (fun _ => noConfig_pure _) fun _ => noConfig_raise e he

/-- A check before the rest of an operation, which may rely on it. -/
theorem noConfig_require_bind {p : Prop} [Decidable p] {e : Err} {k : Op α} (h : p → NoConfig P k)
    (he : (Stop.raise e).isInvalidConfig = false := by rfl) : NoConfig P (require p e >>= fun _ => k) :=
  Sat.bind (Sat.require fun _ _ _ => he) fun _ => Sat.given h

/-- An operand in its range passes its check. -/
theorem noConfig_checkRange {o v lo hi : Nat} (hlo : lo ≤ v) (hhi : v ≤ hi) : NoConfig P (checkRange o v lo hi) :=
  fun c hc => by rw [run_checkRange o v lo hi c ⟨hlo, hhi⟩]; exact hc

/-- What is read from the session before the rest of an operation has `P`. -/
theorem noConfig_getSess_bind {k : Session → Op α} (h : ∀ r, P r → NoConfig P (k r)) : NoConfig P (getSess >>= k) :=
  fun c hc => h c.sess hc c hc

theorem noConfig_modifySess {f : Session → Session} (h : ∀ r, P r → P (f r)) : NoConfig P (modifySess f) :=
  fun c hc => h c.sess hc

theorem noConfig_readsLeft : NoConfig P readsLeft := fun _ h => h
theorem noConfig_ticksLeft : NoConfig P ticksLeft := fun _ h => h
theorem noConfig_regWrite (i : Nat) (v : Word) : NoConfig P (regWrite i v) := fun _ h => h
theorem noConfig_regWrite16 (i : Nat) (u : Bool) (v : Half) : NoConfig P (regWrite16 i u v) := fun _ h => h

theorem noConfig_regRead (i : Nat) : NoConfig P (regRead i) := by
  intro c h
  cases hr : c.env.reads with
  | nil => rw [run_regRead_nil i c hr]; rfl
  | cons v rest => rw [run_regRead_cons i c v rest hr]; exact h

theorem noConfig_now : NoConfig P now := by
  intro c h
  cases ht : c.env.ticks with
  | nil => rw [run_now_nil c ht]; rfl
  | cons t rest => rw [run_now_cons c t rest ht]; exact h

theorem noConfig_idlePoint : NoConfig P idlePoint := by
  intro c h
  cases hi : c.env.idles with
  | nil => rw [run_idle_nil c hi]; rfl
  | cons a rest => rw [run_idle_cons c a rest hi]; exact h

theorem noConfig_needNch : NoConfig P needNch := by
  refine noConfig_getSess_bind fun r _ => ?_
  cases r.nch with
  | some n => exact noConfig_pure n
  | none => exact noConfig_raise _

theorem noConfig_needChain : NoConfig P needChain := by
  intro c h
  cases hc : c.sess.chain with
  | some n => rw [run_needChain c n hc]; exact h
  | none => simp [needChain, hc, Stop.isInvalidConfig]

theorem noConfig_needVersion : NoConfig P needVersion := by
  intro c h
  cases hv : c.sess.modVersion with
  | some v => rw [run_needVersion c v hv]; exact h
  | none => simp [needVersion, hv, Stop.isInvalidConfig]

/-! ### Sequences of primitives -/

theorem noConfig_readWords (index : Nat → Nat) (n k : Nat) : NoConfig P (readWords index k n) := by
  induction n generalizing k with
  | zero => exact noConfig_pure _
  | succ n ih => exact (noConfig_regRead _).bind fun _ => (ih _).bind fun _ => noConfig_pure _

theorem noConfig_bulkRead (i n : Nat) : NoConfig P (bulkRead i n) :=
  (noConfig_readWords _ _ _).bind fun _ => noConfig_pure _

theorem noConfig_writeWords (ws : List Word) (i : Nat) : NoConfig P (writeWords i ws) := by
  induction ws generalizing i with
  | nil => exact noConfig_pure _
  | cons w ws ih => exact (noConfig_regWrite _ _).bind fun _ => ih _

theorem noConfig_writeHalves (hs : List Half) (i : Nat) (u : Bool) : NoConfig P (writeHalves i u hs) := by
  induction hs generalizing i u with
  | nil => exact noConfig_pure _
  | cons h hs ih => exact (noConfig_regWrite16 _ _ _).bind fun _ => ih _ _

/-- The bytes of a command, in the width in force (40_device_ops.md rule R148). -/
theorem noConfig_writeBytes (b : List Byte) :
    NoConfig P (getSess >>= fun r => if r.wide16 then bulkWrite16 params.cmdBuf b else bulkWrite params.cmdBuf b) :=
  noConfig_getSess_bind fun _ _ => Sat.ite (fun _ => noConfig_writeHalves _ _ _) fun _ => noConfig_writeWords _ _

theorem noConfig_deadlinePassed (t0 : Nat) (timeout : Word) : NoConfig P (deadlinePassed t0 timeout) :=
  Sat.ite (fun _ => noConfig_pure _) fun _ => noConfig_now.bind fun _ => noConfig_pure _

theorem noConfig_pollStatus (set clr timeout : Word) (t0 fuel : Nat) :
    NoConfig P (pollStatus set clr timeout t0 fuel) := by
  induction fuel with
  | zero => exact noConfig_stop _
  | succ fuel ih =>
    refine (noConfig_regRead _).bind fun _ => Sat.ite (fun _ => noConfig_raise _) fun _ =>
      Sat.ite (fun _ => noConfig_pure _) fun _ => ?_
    exact (noConfig_deadlinePassed _ _).bind fun _ => Sat.ite (fun _ => noConfig_raise _) fun _ => ih

/-- `WAIT_STATUS` has no operand check (40_device_ops.md rule R142). -/
theorem noConfig_waitStatus (set clr timeout : Word) : NoConfig P (waitStatus set clr timeout) :=
  noConfig_now.bind fun _ => noConfig_readsLeft.bind fun _ => noConfig_pollStatus _ _ _ _ _

theorem noConfig_skipZeros (budget k : Nat) : NoConfig P (skipZeros k budget) := by
  induction budget generalizing k with
  | zero => exact (noConfig_regRead _).bind fun _ => Sat.ite (fun _ => noConfig_pure _) fun _ => noConfig_pure _
  | succ budget ih => exact (noConfig_regRead _).bind fun _ => Sat.ite (fun _ => noConfig_pure _) fun _ => ih _

section
variable (hstash : ∀ r b, P r → P (r.setStash b))
include hstash

/-- A pull writes the stash only (40_device_ops.md rule R151). -/
theorem noConfig_readSkip (total budget : Nat) : NoConfig P (readSkip total budget) := by
  refine noConfig_getSess_bind fun r _ => Sat.ite (fun _ => ?_) fun _ => ?_
  · exact (noConfig_modifySess fun r => hstash r _).bind fun _ => noConfig_pure _
  · refine (noConfig_skipZeros _ _).bind fun x => ?_
    cases x with
    | none => exact noConfig_pure _
    | some wk =>
      exact (noConfig_readWords _ _ _).bind fun _ => (noConfig_modifySess fun r => hstash r _).bind fun _ =>
        noConfig_pure _

theorem noConfig_pullUntil (total : Nat) (timeout : Word) (budget t0 fuel : Nat) :
    NoConfig P (pullUntil total timeout budget t0 fuel) := by
  induction fuel with
  | zero => exact noConfig_stop _
  | succ fuel ih =>
    refine (noConfig_readSkip hstash _ _).bind fun x => ?_
    cases x with
    | some b => exact noConfig_pure _
    | none =>
      refine (noConfig_deadlinePassed _ _).bind fun _ => Sat.ite (fun _ => noConfig_raise _) fun _ => ?_
      exact noConfig_idlePoint.bind fun _ => Sat.ite (fun _ => ih) fun _ => noConfig_raise _

/-- A blocking streaming read behind its checks (40_device_ops.md rule R153). -/
theorem noConfig_pullBlocking (size n : Nat) (timeout : Word) (budget : Nat) :
    NoConfig P (do
      let t0 ← now
      let left ← readsLeft
      let b ← pullUntil (size * n) timeout budget t0 (left + 1)
      pure (channelSlices b size n)) :=
  noConfig_now.bind fun _ => noConfig_readsLeft.bind fun _ => (noConfig_pullUntil hstash _ _ _ _ _).bind fun _ =>
    noConfig_pure _

end

/-! ### Validation -/

theorem noConfig_gate : NoConfig P gate :=
  noConfig_getSess_bind fun _ _ => noConfig_require_bind fun _ => noConfig_require_bind fun _ => noConfig_require _

theorem noConfig_checkHeader (ch : Nat) (h : Header) (req : Request) : NoConfig P (checkHeader ch h req) :=
  noConfig_require_bind fun _ => noConfig_require_bind fun _ => noConfig_require_bind fun _ => noConfig_require _

theorem noConfig_checkCount (ch : Nat) (h : Header) (wanted : Bool) : NoConfig P (checkCount ch h wanted) :=
  Sat.ite (fun _ => noConfig_needChain.bind fun _ => noConfig_require _) fun _ => noConfig_pure _

theorem noConfig_checkEcho (ch : Nat) (body payload : List Byte) (n : Nat) (wanted : Bool) :
    NoConfig P (checkEcho ch body payload n wanted) := by
  refine Sat.ite (fun _ => ?_) fun _ => noConfig_pure _
  split
  · exact noConfig_pure _
  · exact noConfig_raise _

theorem noConfig_checkIdle (ch i : Nat) (f : List Byte) : NoConfig P (checkIdle ch i f) := by
  unfold checkIdle
  split
  · exact noConfig_raise _
  · exact noConfig_pure _

theorem noConfig_validateFrom (req : Request) (payload : List Byte) (verify count : Bool) (fs : List (List Byte))
    (ch : Nat) : NoConfig P (validateFrom req payload verify count ch fs) := by
  induction fs generalizing ch with
  | nil => exact noConfig_pure _
  | cons f fs ih =>
    have hframe : NoConfig P (validate ch f req payload verify count) :=
      (noConfig_checkHeader _ _ _).bind fun _ => noConfig_require_bind fun _ => (noConfig_checkCount _ _ _).bind fun _ =>
        noConfig_require_bind fun _ => (noConfig_checkEcho _ _ _ _ _).bind fun _ => (noConfig_checkIdle _ _ _).bind fun _ =>
          noConfig_pure _
    exact hframe.bind fun _ => (ih _).bind fun _ => noConfig_pure _

theorem noConfig_checkCounts (rs : List (Half × List Byte)) (n : Nat) : NoConfig P (checkCounts rs n) := by
  unfold checkCounts
  split
  · exact noConfig_raise _
  · exact noConfig_pure _

theorem noConfig_coherenceCheck (bodies : List (List Byte)) (n dlen : Nat) :
    NoConfig P (coherenceCheck bodies n dlen) := by
  unfold coherenceCheck
  split
  · exact noConfig_raise _
  · split
    · exact noConfig_raise _
    · exact noConfig_pure _

theorem noConfig_legacyWait (delay : Nat) : NoConfig P (legacyWait delay) := by
  have huntil : ∀ target fuel, NoConfig P (waitUntil target fuel) := by
    intro target fuel
    induction fuel with
    | zero => exact noConfig_stop _
    | succ fuel ih => exact noConfig_now.bind fun _ => Sat.ite (fun _ => noConfig_pure _) fun _ => ih
  exact Sat.ite (fun _ => noConfig_now.bind fun _ => noConfig_ticksLeft.bind fun _ => huntil _ _) fun _ => noConfig_pure _

end

/-! ### Device operations with operands in range -/

section
variable {most : Nat}

theorem noConfig_trigger {action : Nat} (h : action ≤ 4) : NoConfig (Session.Usable most) (trigger action) := by
  refine (noConfig_checkRange (Nat.zero_le _) h).bind fun _ => Sat.bind (noConfig_modifySess fun r hr => ?_) fun _ =>
    noConfig_regWrite _ _
  unfold Session.onTrigger
  split <;> exact hr

theorem noConfig_cfgChannels {n : Nat} (h1 : 1 ≤ n) (h8 : n ≤ 8) : NoConfig (Session.Usable 8) (cfgChannels n) :=
  (noConfig_checkRange h1 h8).bind fun _ => (noConfig_regWrite _ _).bind fun _ =>
    noConfig_modifySess fun r hr => ⟨hr.1, fun k hk => by cases hk; exact ⟨h1, h8⟩⟩

theorem noConfig_cfgTransmit {len : Nat} {g : CfgRecord} (hg : g.inRange = true) (hlen : len ≤ 65535) :
    NoConfig (Session.Usable most) (cfgTransmit len g.fast.toNat g.cfgWide16.toNat g.loopbackSelfTest.toNat) := by
  obtain ⟨-, -, -, -, ⟨hfast, hwide, hlb⟩, -⟩ := CfgRecord.ranges hg
  exact (noConfig_checkRange (Nat.zero_le _) hlen).bind fun _ => (noConfig_checkRange (Nat.zero_le _) hfast).bind fun _ =>
    (noConfig_checkRange (Nat.zero_le _) hwide).bind fun _ => (noConfig_checkRange (Nat.zero_le _) hlb).bind fun _ =>
      (noConfig_regWrite _ _).bind fun _ => noConfig_modifySess fun _ hr => hr

theorem noConfig_cfgReceive {len : Nat} {g : CfgRecord} (hg : g.inRange = true) (hlen : len ≤ 65535) :
    NoConfig (Session.Usable most) (cfgReceive len g.rxSkipWords.toNat g.rxWaitNonzero.toNat g.rxLoopback.toNat) := by
  obtain ⟨-, -, -, -, -, hskip, hwnz, hlb⟩ := CfgRecord.ranges hg
  exact (noConfig_checkRange (Nat.zero_le _) hlen).bind fun _ => (noConfig_checkRange (Nat.zero_le _) hskip).bind fun _ =>
    (noConfig_checkRange (Nat.zero_le _) hwnz).bind fun _ => (noConfig_checkRange (Nat.zero_le _) hlb).bind fun _ =>
      noConfig_regWrite _ _

theorem noConfig_writeCommand {b : List Byte} (h : b.length ≤ 264) : NoConfig (Session.Usable most) (writeCommand b) :=
  (noConfig_checkRange (Nat.zero_le _) h).bind fun _ => noConfig_writeBytes b

theorem noConfig_checkSlices {size n : Nat} (h1 : 1 ≤ n) (h8 : n ≤ 8) (hsize : size * n ≤ 4096) :
    NoConfig (Session.Usable most) (checkSlices size n) :=
  (noConfig_checkRange h1 h8).bind fun _ => Sat.ite (fun _ => noConfig_pure _) fun hno => absurd hsize hno

theorem noConfig_readRxAll {size n : Nat} (h1 : 1 ≤ n) (h8 : n ≤ 8) (hsize : size * n ≤ 4096) :
    NoConfig (Session.Usable most) (readRxAll size n) :=
  (noConfig_checkSlices h1 h8 hsize).bind fun _ => (noConfig_bulkRead _ _).bind fun _ => noConfig_pure _

theorem noConfig_readRxStreamBlk {size n : Nat} (timeout : Word) (budget : Nat) (h1 : 1 ≤ n) (h8 : n ≤ 8)
    (hsize : size * n ≤ 4096) : NoConfig (Session.Usable most) (readRxStreamBlk size n timeout budget) :=
  (noConfig_checkSlices h1 h8 hsize).bind fun _ => noConfig_pullBlocking (fun _ _ hr => hr) _ _ _ _

/-! ### Building and sending -/

/-- What an operation does with the channel count may rely on its range, and on its being the one in force. -/
theorem noConfig_needNch_bind {α : Type} {k : Nat → Op α}
    (h : ∀ n, 1 ≤ n → n ≤ most → NoConfig (Session.Usable n) (k n)) :
    NoConfig (Session.Usable most) (needNch >>= k) := by
  intro c hc
  cases hn : c.sess.nch with
  | none =>
    have hrun : needNch c = raise (.stateError c.sess.busState.code 3) c := by simp [needNch, run_bind, hn]
    rw [run_bind_error (hrun.trans (run_raise _ c))]
    rfl
  | some n =>
    obtain ⟨h1, hmost⟩ := hc.2 n hn
    rw [run_bind_ok (run_needNch c n hn)]
    refine (h n h1 hmost).conseq (P' := (· = c)) ?_ (fun _ _ hr => ⟨hr.1, fun m hm => ?_⟩) (fun _ _ he => he) c rfl
    · rintro _ rfl
      exact ⟨hc.1, fun m hm => by rw [hn] at hm; cases hm; exact ⟨h1, Nat.le_refl _⟩⟩
    · obtain ⟨hm1, hmn⟩ := hr.2 m hm
      exact ⟨hm1, hmn.trans hmost⟩

/-- `Build` raises `InvalidCommand` only (41_bus_ops.md rule R181). -/
theorem buildError_isInvalidConfig {code address : Nat} {payload : List Byte} {rdlen : Nat} {e : Err}
    (h : buildError code address payload rdlen = some e) : (Stop.raise e).isInvalidConfig = false := by
  unfold buildError at h
  repeat' split at h
  all_goals cases h
  all_goals rfl

/-- A request carries at most 256 bytes (30_encoding.md rule R105). -/
theorem payload_length_of_buildable {code address : Nat} {payload : List Byte} {rdlen : Nat}
    (h : buildable code address payload rdlen = true) : payload.length ≤ 256 := by
  simp only [buildable, Bool.and_eq_true] at h
  obtain ⟨-, hlen⟩ := h
  split at hlen
  · simp only [Bool.and_eq_true, decide_eq_true_eq, params_maxDataLen] at hlen
    exact of_decide_eq_true hlen.2
  · simp only [Bool.and_eq_true, beq_iff_eq] at hlen
    simp [hlen.1]

/-- What is done with a request built may rely on its length, which `WRITE_COMMAND` accepts. -/
theorem noConfig_build_bind {α : Type} {code address : Nat} {payload : List Byte} {rdlen : Nat}
    {k : List Byte × Request → Op α} (h : ∀ a, a.1.length ≤ 264 → NoConfig (Session.Usable most) (k a)) :
    NoConfig (Session.Usable most) (build code address payload rdlen >>= k) := by
  intro c hc
  cases herr : buildError code address payload rdlen with
  | some e => rw [run_bind_error (run_build_error c herr)]; exact buildError_isInvalidConfig herr
  | none =>
    have hgood := buildable_of_buildError herr
    have hlen := payload_length_of_buildable hgood
    rw [run_bind_ok (run_build code address payload rdlen c hgood)]
    refine h _ (by rw [requestBytes_length]; omega) _ ?_
    change c.sess.cookieTaken.Usable most
    unfold Session.cookieTaken
    split <;> exact hc

theorem noConfig_transact {cmd : List Byte} {lt lr : Nat} (hcmd : cmd.length ≤ 264) (hmost : most ≤ 8)
    (hlt : lt ≤ 65535) (hlr : lr ≤ 65535) (hrx : lr * most ≤ 4096) :
    NoConfig (Session.Usable most) (transact cmd lt lr) := by
  refine noConfig_getSess_bind fun r hr => (noConfig_cfgTransmit hr.1 hlt).bind fun _ =>
    (noConfig_cfgReceive hr.1 hlr).bind fun _ => (noConfig_writeCommand hcmd).bind fun _ =>
      (noConfig_trigger (by decide)).bind fun _ => (Sat.ignoring (noConfig_waitStatus _ _ _)).bind fun _ =>
        noConfig_needNch_bind fun n h1 hn => ?_
  exact noConfig_readRxAll h1 (hn.trans hmost) ((Nat.mul_le_mul_left lr hn).trans hrx)

/-- A response as long as the command: the frames of eight channels fit the receive buffer. -/
theorem noConfig_transact_echo {cmd : List Byte} (hcmd : cmd.length ≤ 264) :
    NoConfig (Session.Usable 8) (transact cmd (frameLen cmd.length) (frameLen cmd.length)) := by
  have hlen : frameLen cmd.length ≤ 266 := by rw [frameLen_eq]; omega
  exact noConfig_transact hcmd (Nat.le_refl _) (by omega) (by omega) (by omega)

end

/-! ### Operations of the bus and SRQ families -/

theorem noConfig_send (code address verify : Nat) (payload : List Byte) :
    NoConfig (Session.Usable 8) (send code address verify payload) :=
  noConfig_gate.bind fun _ => noConfig_require_bind fun _ => noConfig_require_bind fun _ =>
    noConfig_build_bind fun _ hcmd => (noConfig_transact_echo hcmd).bind fun _ => noConfig_validateFrom _ _ _ _ _ _

theorem noConfig_checkRead {P : Session → Prop} (address dlen : Nat) : NoConfig P (checkRead address dlen) :=
  noConfig_require_bind fun _ => noConfig_require _

/-- The read fits the receive buffer, or is refused as a command (41_bus_ops.md rule R187). -/
theorem noConfig_readBounded {most : Nat} (hmost : most ≤ 8) (address dlen : Nat) :
    NoConfig (Session.Usable most) (readBounded address dlen) := by
  refine noConfig_gate.bind fun _ => (noConfig_checkRead _ _).bind fun _ => noConfig_needChain.bind fun chain =>
    noConfig_needNch_bind fun n h1 hn => noConfig_require_bind fun hrx => noConfig_build_bind fun _ hcmd => ?_
  have hlen : frameLen (params.headerBytes + chain * dlen) ≤ 4096 := (Nat.le_mul_of_pos_right _ h1).trans hrx
  exact (noConfig_transact hcmd (hn.trans hmost) (by omega) (by omega) hrx).bind fun _ =>
    (noConfig_validateFrom _ _ _ _ _ _).bind fun _ => noConfig_pure _

theorem noConfig_pullChunks {most n : Nat} (timeout : Word) (budget : Nat) (h1 : 1 ≤ n) (h8 : n ≤ 8) (k : Nat)
    (frames : List (List Byte)) : NoConfig (Session.Usable most) (pullChunks n timeout budget k frames) := by
  induction k generalizing frames with
  | zero => exact noConfig_pure _
  | succ k ih =>
    have hsize : params.chunkSize * n ≤ 4096 := by rw [params_chunkSize]; omega
    exact (noConfig_readRxStreamBlk _ _ h1 h8 hsize).bind fun _ => ih _

theorem noConfig_readStreaming {most : Nat} (hmost : most ≤ 8) (address dlen : Nat) :
    NoConfig (Session.Usable most) (readStreaming address dlen) := by
  refine noConfig_gate.bind fun _ => (noConfig_checkRead _ _).bind fun _ => noConfig_build_bind fun _ hcmd =>
    noConfig_needChain.bind fun _ => noConfig_needNch_bind fun n h1 hn => noConfig_getSess_bind fun r hr => ?_
  exact (noConfig_cfgTransmit hr.1 (by decide)).bind fun _ => (noConfig_cfgReceive hr.1 (by decide)).bind fun _ =>
    (noConfig_writeCommand hcmd).bind fun _ => (noConfig_trigger (by decide)).bind fun _ =>
      (noConfig_pullChunks _ _ h1 (hn.trans hmost) _ _).bind fun _ => (noConfig_trigger (by decide)).bind fun _ =>
        (Sat.ignoring (noConfig_waitStatus _ _ _)).bind fun _ => (noConfig_validateFrom _ _ _ _ _ _).bind fun _ =>
          noConfig_pure _

theorem noConfig_readCoherent (address dlen : Nat) : NoConfig (Session.Usable 8) (readCoherent address dlen) :=
  noConfig_gate.bind fun _ => noConfig_require_bind fun _ => noConfig_require_bind fun _ =>
    noConfig_build_bind fun _ hcmd => (noConfig_transact_echo hcmd).bind fun _ =>
      (noConfig_validateFrom _ _ _ _ _ _).bind fun _ => noConfig_needNch.bind fun _ =>
        (noConfig_coherenceCheck _ _ _).bind fun _ => noConfig_pure _

/-- `INITIALIZE` writes the control words from the configuration, whose fields are in range (41_bus_ops.md rule R191). -/
theorem noConfig_initializeBus : NoConfig (Session.Usable 8) initializeBus := by
  refine noConfig_getSess_bind fun r hr => ?_
  obtain ⟨⟨hch1, hch8⟩, ⟨hdiv, htx, hturbo⟩, ⟨hrt, hht⟩, -⟩ := CfgRecord.ranges hr.1
  have hclock : NoConfig (Session.Usable 8) (cfgClock r.cfg.divider.toNat r.cfg.txIdle.toNat r.cfg.turboIdle.toNat) :=
    (noConfig_checkRange (Nat.zero_le _) hdiv).bind fun _ => (noConfig_checkRange (Nat.zero_le _) htx).bind fun _ =>
      (noConfig_checkRange (Nat.zero_le _) hturbo).bind fun _ => noConfig_regWrite _ _
  have hreset : NoConfig (Session.Usable 8) (cfgReset r.cfg.resetTime.toNat r.cfg.holdTime.toNat) :=
    (noConfig_checkRange (Nat.zero_le _) hrt).bind fun _ => (noConfig_checkRange (Nat.zero_le _) hht).bind fun _ =>
      noConfig_regWrite _ _
  exact noConfig_require_bind fun _ => (noConfig_trigger (by decide)).bind fun _ =>
    (Sat.ignoring (noConfig_waitStatus _ _ _)).bind fun _ => (noConfig_cfgChannels hch1 hch8).bind fun _ =>
      hclock.bind fun _ => hreset.bind fun _ => noConfig_build_bind fun _ hcmd =>
        (noConfig_transact_echo hcmd).bind fun _ => (noConfig_validateFrom _ _ _ _ _ _).bind fun _ =>
          noConfig_needNch.bind fun _ => (noConfig_checkCounts _ _).bind fun _ => noConfig_require_bind fun _ =>
            (noConfig_coherenceCheck _ _ _).bind fun _ => noConfig_require_bind fun _ =>
              Sat.bind (noConfig_modifySess fun _ hr => hr) fun _ => noConfig_pure _

theorem noConfig_postRecord (rec : List Byte) : NoConfig (Session.Usable 8) (postRecord rec) :=
  noConfig_getSess_bind fun _ _ => Sat.ite
    (fun _ => Sat.bind (noConfig_modifySess fun _ hr => hr) fun _ =>
      (Sat.ignoring (noConfig_send _ _ _ _)).bind fun _ => noConfig_modifySess fun _ hr => hr)
    fun _ => noConfig_pure _

theorem noConfig_srq (code param address : Nat) (payload : List Byte) :
    NoConfig (Session.Usable 8) (srq code param address payload) :=
  noConfig_gate.bind fun _ => noConfig_require_bind fun _ => noConfig_require_bind fun _ => noConfig_require_bind fun _ =>
    noConfig_require_bind fun _ => (noConfig_postRecord _).bind fun _ => (noConfig_trigger (by decide)).bind fun _ =>
      noConfig_getSess_bind fun _ _ => Sat.ignoring (noConfig_waitStatus _ _ _)

theorem noConfig_readModuleStatus : NoConfig (Session.Usable 8) readModuleStatus :=
  noConfig_gate.bind fun _ => noConfig_needChain.bind fun _ => noConfig_needNch_bind fun _ _ h8 =>
    Sat.ite (fun _ => noConfig_readBounded h8 _ _) fun _ => noConfig_readStreaming h8 _ _

theorem noConfig_checkSrqStatus : NoConfig (Session.Usable 8) checkSrqStatus := by
  refine noConfig_getSess_bind fun _ _ => Sat.ite (fun _ => ?_) fun _ => noConfig_pure _
  refine noConfig_readModuleStatus.bind fun _ => noConfig_needChain.bind fun _ => noConfig_needNch.bind fun _ => ?_
  split
  · exact noConfig_raise _
  · exact noConfig_pure _

theorem noConfig_srqSync (code param address delay : Nat) (payload : List Byte) :
    NoConfig (Session.Usable 8) (srqSync code param address delay payload) := by
  refine noConfig_gate.bind fun _ => noConfig_require_bind fun _ => noConfig_needVersion.bind fun _ =>
    Sat.ite (fun _ => (noConfig_srq _ _ _ _).bind fun _ => noConfig_checkSrqStatus) fun _ => ?_
  exact (noConfig_srq _ _ _ _).bind fun _ => (noConfig_legacyWait _).bind fun _ =>
    Sat.ite (fun _ => (Sat.ignoring (noConfig_send _ _ _ _)).bind fun _ => noConfig_checkSrqStatus) fun _ =>
      noConfig_checkSrqStatus

theorem noConfig_programChunks (address delay : Nat) (chunks : List (List Byte)) (i : Nat) :
    NoConfig (Session.Usable 8) (programChunks address delay i chunks) := by
  induction chunks generalizing i with
  | nil => exact noConfig_pure _
  | cons chunk chunks ih => exact (noConfig_srqSync _ _ _ _ _).bind fun _ => ih _

theorem noConfig_checkChecksums (expected : Word) : NoConfig (Session.Usable 8) (checkChecksums expected) := by
  refine noConfig_readModuleStatus.bind fun _ => noConfig_needChain.bind fun _ => noConfig_needNch.bind fun _ => ?_
  split
  · exact noConfig_raise _
  · exact noConfig_pure _

theorem noConfig_program (address : Nat) (data : List Byte) : NoConfig (Session.Usable 8) (program address data) :=
  noConfig_gate.bind fun _ => noConfig_require_bind fun _ => noConfig_require_bind fun _ =>
    noConfig_getSess_bind fun _ _ => (noConfig_programChunks _ _ _ _).bind fun _ =>
      (noConfig_checkChecksums _).bind fun _ => noConfig_pure _

/-- Every operation of the bus and SRQ families, and `INITIALIZE`. -/
theorem exec_noConfig {i : Instr} (h : i.gated = true ∨ i = .initBus) :
    ∃ body, (∀ s, exec i s = operate i body s) ∧ NoConfig (Session.Usable 8) body := by
  cases i with
  | send code address verify data =>
    exact ⟨_, fun _ => rfl, ((noConfig_send _ _ _ _).bind fun _ => noConfig_pure _).bind fun _ => noConfig_pure _⟩
  | busWrite address data =>
    exact ⟨_, fun _ => rfl, (Sat.ignoring (noConfig_send _ _ _ _)).bind fun _ => noConfig_pure _⟩
  | busWait => exact ⟨_, fun _ => rfl, (Sat.ignoring (noConfig_send _ _ _ _)).bind fun _ => noConfig_pure _⟩
  | readBounded address dlen =>
    exact ⟨_, fun _ => rfl, (noConfig_readBounded (Nat.le_refl _) _ _).bind fun _ => noConfig_pure _⟩
  | readStreaming address dlen =>
    exact ⟨_, fun _ => rfl, (noConfig_readStreaming (Nat.le_refl _) _ _).bind fun _ => noConfig_pure _⟩
  | readCoherent address dlen => exact ⟨_, fun _ => rfl, (noConfig_readCoherent _ _).bind fun _ => noConfig_pure _⟩
  | initBus => exact ⟨_, fun _ => rfl, noConfig_initializeBus.bind fun _ => noConfig_pure _⟩
  | srq code param address data => exact ⟨_, fun _ => rfl, (noConfig_srq _ _ _ _).bind fun _ => noConfig_pure _⟩
  | srqSync code param address delay data =>
    exact ⟨_, fun _ => rfl, (noConfig_srqSync _ _ _ _ _).bind fun _ => noConfig_pure _⟩
  | program address data => exact ⟨_, fun _ => rfl, (noConfig_program _ _).bind fun _ => noConfig_pure _⟩
  | readModuleStatus => exact ⟨_, fun _ => rfl, noConfig_readModuleStatus.bind fun _ => noConfig_pure _⟩
  | _ => exact h.elim nofun nofun

/-! ### Operations that check first -/

/-- From the context `d` the operation raises `InvalidConfig` only where nothing has changed yet. -/
abbrev ChecksFirst {α : Type} (d : Ctx) (m : Op α) : Prop :=
  Sat (· = d) m (fun _ _ => True) fun e c => e.isInvalidConfig = true → c = d

/-- The same of an operation that changes nothing when it passes either. -/
abbrev OnlyChecks (d : Ctx) (m : Op Unit) : Prop :=
  Sat (· = d) m (fun _ c => c = d) fun e c => e.isInvalidConfig = true → c = d

section
variable {α : Type} {d : Ctx}

/-- The rest of an operation, behind its checks, whatever the session is. -/
theorem checksFirst_of_noConfig {m : Op α} (h : NoConfig Session.Any m) : ChecksFirst d m :=
  h.conseq (fun _ _ => trivial) (fun _ _ _ => trivial) fun _ _ hno hyes => absurd (hno.symm.trans hyes) Bool.false_ne_true

/-- What is done with the answer raises nothing. -/
theorem checksFirst_bind_pure {β : Type} {m : Op α} (h : ChecksFirst d m) (f : α → β) :
    ChecksFirst d (m >>= fun a => pure (f a)) := Sat.bind h fun _ => Sat.pure fun _ _ => trivial

theorem onlyChecks_require {p : Prop} [Decidable p] {e : Err} (he : e.faults = false) : OnlyChecks d (require p e) :=
  Sat.ite (fun _ => Sat.pure fun _ hc => hc) fun _ => Sat.raise fun c hc _ => by simpa [he] using hc

theorem onlyChecks_checkRange (o v lo hi : Nat) : OnlyChecks d (checkRange o v lo hi) := onlyChecks_require rfl

theorem onlyChecks_checkSlices (size n : Nat) : OnlyChecks d (checkSlices size n) :=
  (onlyChecks_checkRange _ _ _ _).bind fun _ => onlyChecks_require rfl

theorem onlyChecks_checkFields (b : List Byte) (ranges : List (Nat × Nat)) (f : Nat) :
    OnlyChecks d (checkFields b f ranges) := by
  induction ranges generalizing f with
  | nil => exact Sat.pure fun _ hc => hc
  | cons range ranges ih => exact (onlyChecks_checkRange _ _ _ _).bind fun _ => ih _

theorem checksFirst_trigger (action : Nat) : ChecksFirst d (trigger action) :=
  (onlyChecks_checkRange _ _ _ _).bind fun _ => checksFirst_of_noConfig <|
    (noConfig_modifySess fun _ _ => trivial).bind fun _ => noConfig_regWrite _ _

theorem checksFirst_cfgChannels (n : Nat) : ChecksFirst d (cfgChannels n) :=
  (onlyChecks_checkRange _ _ _ _).bind fun _ => checksFirst_of_noConfig <|
    (noConfig_regWrite _ _).bind fun _ => noConfig_modifySess fun _ _ => trivial

theorem checksFirst_cfgClock (divider txIdle turboIdle : Nat) : ChecksFirst d (cfgClock divider txIdle turboIdle) :=
  (onlyChecks_checkRange _ _ _ _).bind fun _ => (onlyChecks_checkRange _ _ _ _).bind fun _ =>
    (onlyChecks_checkRange _ _ _ _).bind fun _ => checksFirst_of_noConfig <| noConfig_regWrite _ _

theorem checksFirst_cfgReset (resetTime holdTime : Nat) : ChecksFirst d (cfgReset resetTime holdTime) :=
  (onlyChecks_checkRange _ _ _ _).bind fun _ => (onlyChecks_checkRange _ _ _ _).bind fun _ =>
    checksFirst_of_noConfig <| noConfig_regWrite _ _

theorem checksFirst_cfgTransmit (len f w lb : Nat) : ChecksFirst d (cfgTransmit len f w lb) :=
  (onlyChecks_checkRange _ _ _ _).bind fun _ => (onlyChecks_checkRange _ _ _ _).bind fun _ =>
    (onlyChecks_checkRange _ _ _ _).bind fun _ => (onlyChecks_checkRange _ _ _ _).bind fun _ =>
      checksFirst_of_noConfig <| (noConfig_regWrite _ _).bind fun _ => noConfig_modifySess fun _ _ => trivial

theorem checksFirst_cfgReceive (len sk wnz lb : Nat) : ChecksFirst d (cfgReceive len sk wnz lb) :=
  (onlyChecks_checkRange _ _ _ _).bind fun _ => (onlyChecks_checkRange _ _ _ _).bind fun _ =>
    (onlyChecks_checkRange _ _ _ _).bind fun _ => (onlyChecks_checkRange _ _ _ _).bind fun _ =>
      checksFirst_of_noConfig <| noConfig_regWrite _ _

theorem checksFirst_writeCommand (b : List Byte) : ChecksFirst d (writeCommand b) :=
  (onlyChecks_checkRange _ _ _ _).bind fun _ => checksFirst_of_noConfig <| noConfig_writeBytes b

theorem checksFirst_readRx (size : Nat) : ChecksFirst d (readRx size) :=
  (onlyChecks_checkRange _ _ _ _).bind fun _ => checksFirst_of_noConfig <|
    (noConfig_bulkRead _ _).bind fun _ => noConfig_pure _

theorem checksFirst_readRxAll (size n : Nat) : ChecksFirst d (readRxAll size n) :=
  (onlyChecks_checkSlices _ _).bind fun _ => checksFirst_of_noConfig <|
    (noConfig_bulkRead _ _).bind fun _ => noConfig_pure _

theorem checksFirst_readRxStream (size n budget : Nat) : ChecksFirst d (readRxStream size n budget) := by
  refine (onlyChecks_checkSlices _ _).bind fun _ => checksFirst_of_noConfig <|
    (noConfig_readSkip (fun _ _ _ => trivial) _ _).bind fun x => ?_
  cases x <;> exact noConfig_pure _

theorem checksFirst_readRxStreamBlk (size n : Nat) (timeout : Word) (budget : Nat) :
    ChecksFirst d (readRxStreamBlk size n timeout budget) :=
  (onlyChecks_checkSlices _ _).bind fun _ => checksFirst_of_noConfig <|
    noConfig_pullBlocking (fun _ _ _ => trivial) _ _ _ _

theorem checksFirst_loadConfig (b : List Byte) : ChecksFirst d (loadConfig b) :=
  (onlyChecks_checkRange _ _ _ _).bind fun _ => (onlyChecks_checkFields _ _ _).bind fun _ =>
    checksFirst_of_noConfig <| noConfig_modifySess fun _ _ => trivial

end

/-- Every device operation. -/
theorem exec_checksFirst {i : Instr} (hi : i.format = .descriptor) (hbus : ¬ (i.gated = true ∨ i = .initBus)) :
    ∃ body, (∀ s, exec i s = operate i body s) ∧ ∀ d, ChecksFirst d body := by
  cases i with
  | trigger a => exact ⟨_, fun _ => rfl, fun _ => checksFirst_bind_pure (checksFirst_trigger _) _⟩
  | waitStatus st cl t =>
    exact ⟨_, fun _ => rfl, fun _ => checksFirst_bind_pure
      (checksFirst_bind_pure (checksFirst_of_noConfig (noConfig_waitStatus _ _ _)) _) _⟩
  | cfgChannels n => exact ⟨_, fun _ => rfl, fun _ => checksFirst_bind_pure (checksFirst_cfgChannels _) _⟩
  | cfgClock v ti tu => exact ⟨_, fun _ => rfl, fun _ => checksFirst_bind_pure (checksFirst_cfgClock _ _ _) _⟩
  | cfgReset rt ht => exact ⟨_, fun _ => rfl, fun _ => checksFirst_bind_pure (checksFirst_cfgReset _ _) _⟩
  | cfgTransmit len f w lb =>
    exact ⟨_, fun _ => rfl, fun _ => checksFirst_bind_pure (checksFirst_cfgTransmit _ _ _ _) _⟩
  | cfgReceive len sk wnz lb =>
    exact ⟨_, fun _ => rfl, fun _ => checksFirst_bind_pure (checksFirst_cfgReceive _ _ _ _) _⟩
  | writeCommand data => exact ⟨_, fun _ => rfl, fun _ => checksFirst_bind_pure (checksFirst_writeCommand _) _⟩
  | readRx size => exact ⟨_, fun _ => rfl, fun _ => checksFirst_bind_pure (checksFirst_readRx _) _⟩
  | readRxAll size n =>
    exact ⟨_, fun _ => rfl, fun _ => checksFirst_bind_pure (checksFirst_bind_pure (checksFirst_readRxAll _ _) _) _⟩
  | readRxStream size n budget =>
    exact ⟨_, fun _ => rfl, fun _ => checksFirst_bind_pure (checksFirst_readRxStream _ _ _) _⟩
  | readRxStreamBlk size n timeout budget =>
    exact ⟨_, fun _ => rfl, fun _ => checksFirst_bind_pure
      (checksFirst_bind_pure (checksFirst_readRxStreamBlk _ _ _ _) _) _⟩
  | loadConfig data => exact ⟨_, fun _ => rfl, fun _ => checksFirst_bind_pure (checksFirst_loadConfig _) _⟩
  | codeEnum | codeWait | codeTest | codeWrite | codePoll | codeRead => cases hi
  | srqEraseWrite | srqWrite | srqRunProc => cases hi
  | initBus => exact absurd (.inr rfl) hbus
  | _ => exact absurd (.inl rfl) hbus

/-! ### At the operation port -/

/-- An operation that does not raise `InvalidConfig` does not deliver it. -/
theorem err_ne_one_of_noConfig {P : Session → Prop} {i : Instr} {body : Op (Option (List Byte))} {s t : State}
    (hbody : NoConfig P body) (hP : P s.ctx.sess) (hbusy : s.busy = false) (h : operate i body s = .next t) :
    t.err ≠ some 1 := by
  intro herr
  obtain ⟨e, he, hrun⟩ := operate_invalidConfig hbusy h herr
  have hno := hbody s.ctx hP
  simp [hrun, he] at hno

/-- An operation that checks first delivers `InvalidConfig` with the context it started in. -/
theorem ctx_eq_of_checksFirst {i : Instr} {body : Op (Option (List Byte))} {s t : State}
    (hbody : ChecksFirst s.ctx body) (hbusy : s.busy = false) (h : operate i body s = .next t)
    (herr : t.err = some 1) : t.ctx = s.ctx := by
  obtain ⟨e, he, hrun⟩ := operate_invalidConfig hbusy h herr
  have hfirst := hbody s.ctx rfl
  rw [hrun] at hfirst
  exact hfirst he

/-- Without a configuration the bus and SRQ operations and `INITIALIZE` are refused with `StateError` (41_bus_ops.md rules
R180, R191). -/
theorem exec_unloaded {i : Instr} {s : State} (hi : i.gated = true ∨ i = .initBus) (hbusy : s.busy = false)
    (hcfg : s.ctx.sess.cfgValid = false) :
    exec i s = .next (s.finishedErr (.stateError s.ctx.sess.busState.code 2) s.ctx) := by
  rcases hi with hi | rfl
  · rw [exec_refused hi hbusy (by simp [Session.admits, hcfg]), Session.gateError, hcfg]
    rfl
  · exact exec_initBus_unloaded hbusy hcfg

/-- The bus and SRQ operations and `INITIALIZE` never deliver `InvalidConfig`. -/
theorem exec_bus_err_ne_one {i : Instr} {s t : State} (hi : i.gated = true ∨ i = .initBus) (hok : s.ctx.sess.ok = true)
    (hbusy : s.busy = false) (h : exec i s = .next t) : t.err ≠ some 1 := by
  cases hcfg : s.ctx.sess.cfgValid with
  | false =>
    rw [exec_unloaded hi hbusy hcfg] at h
    injection h with h
    subst h
    nofun
  | true =>
    obtain ⟨body, hexec, hbody⟩ := exec_noConfig hi
    exact err_ne_one_of_noConfig hbody (Session.usable_of_ok hok hcfg) hbusy ((hexec s).symm.trans h)

/-- `WAIT_STATUS` never delivers `InvalidConfig` (40_device_ops.md rule R142). -/
theorem exec_waitStatus_err_ne_one {set clr timeout : Word} {s t : State} (hbusy : s.busy = false)
    (h : exec (.waitStatus set clr timeout) s = .next t) : t.err ≠ some 1 :=
  err_ne_one_of_noConfig (P := Session.Any)
    (((noConfig_waitStatus _ _ _).bind fun _ => noConfig_pure _).bind fun _ => noConfig_pure _) trivial hbusy h

/-- Settles O17: the bus and SRQ operations and `WAIT_STATUS` never deliver `InvalidConfig`, and the other device
operations raise it before they change anything. -/
theorem invalidConfigChangesNothing : Obligations.InvalidConfigChangesNothing := by
  intro i s t hi hok hbusy h herr
  have hsess : s.ctx.sess.ok = true := by
    simp only [State.ok, Ctx.ok, Bool.and_eq_true] at hok
    obtain ⟨⟨⟨⟨⟨hsess, -⟩, -⟩, -⟩, -⟩, -⟩ := hok
    exact hsess
  have hbus : ¬ (i.gated = true ∨ i = .initBus) := fun hbus => exec_bus_err_ne_one hbus hsess hbusy h herr
  obtain ⟨body, hexec, hbody⟩ := exec_checksFirst hi hbus
  obtain ⟨hgated, hinit⟩ := not_or.mp hbus
  refine ⟨ctx_eq_of_checksFirst (hbody s.ctx) hbusy ((hexec s).symm.trans h) herr, Bool.not_eq_true _ ▸ hgated, hinit, ?_⟩
  rintro set clr timeout rfl
  exact exec_waitStatus_err_ne_one hbusy h herr

end Sys2Proof.Machine
end

section
/-! PROOFS. What every instruction keeps. Each host operation is one sequence run by the operation port, of which two
things are said once, for all of them: it keeps the allowed states (`SafeOp`), and it changes no more than its own scope
(`scopeOf`, 10_state.md rule R20, column "written by"). The invariant, the port discipline, the writers of the session
registers, the time base and the frame of the window all follow from these two. -/

namespace Sys2Proof.Machine

open Config

/-! ### The scope of an instruction -/

/-- What an instruction may change, from a session `r` on. -/
def scopeOf (i : Instr) (r : Session) : Scope where
  config := match i with
    | .loadConfig _ => true
    | _ => false
  reset := i.resets
  channels := match i with
    | .cfgChannels _ => true
    | .initBus => true
    | _ => false
  wide := match i with
    | .cfgTransmit _ _ _ _ => true
    | .initBus => true
    | _ => i.gated
  cookie := match i with
    | .initBus => true
    | _ => i.gated
  stash := i.pulls
  record := i.posts
  strobes := true
  stores := fun a => i.resets || i.stores r a

/-- A gated operation with a command of at most `n` bytes may send it. -/
theorem sends_scope {i : Instr} {d : Ctx} {n : Nat} (hconfig : (scopeOf i d.sess).config = false)
    (hwide : (scopeOf i d.sess).wide = true) (hcookie : (scopeOf i d.sess).cookie = true)
    (hstores : i.stores d.sess = transactRegion d.sess n) : (scopeOf i d.sess).Sends d n :=
  ⟨hconfig, hwide, hcookie, fun a ha => by
    change (i.resets || i.stores d.sess a) = true
    rw [hstores, ha, Bool.or_true]⟩

/-- `WriteCommand` of an operation that does not write `wide16` stores by the width in force at its start. -/
theorem stays_writeCommand_width {w : Scope} {d : Ctx} (b : List Byte) (hw : w.wide = false)
    (hs : ∀ a, commandRegion d.sess.wide16 b.length a = true → w.stores a = true) : Stays w d (writeCommand b) :=
  fun c hc => sat_writeCommand d.sess.wide16 b hs c ⟨hc.wide hw, hc⟩

theorem stays_checkCounts {w : Scope} {d : Ctx} (rs : List (Half × List Byte)) (n : Nat) :
    Stays w d (checkCounts rs n) := by
  unfold checkCounts
  split
  · exact stays_raise _
  · exact stays_pure _

/-- The registers a successful `INITIALIZE` writes last are those of a bus reset (41_bus_ops.md rule R191). -/
theorem stays_initialised {w : Scope} {d : Ctx} (h : w.reset = true) (chain : Half) (n : Nat) (version : Byte) :
    Stays w d (modifySess fun r => r.initialised chain n version) := by
  intro c hc
  have hno : ¬ w.reset = false := by simp [h]
  exact { hc with
    derived := fun e => absurd e hno
    bus := fun e => absurd e hno }

/-- `INITIALIZE` writes every session register but the configuration (41_bus_ops.md rule R191). -/
theorem stays_initializeBus {w : Scope} {d : Ctx} (hreset : w.reset = true) (hconfig : w.config = false)
    (hchannels : w.channels = true) (hwide : w.wide = true) (hcookie : w.cookie = true)
    (hstores : ∀ a, w.stores a = true) : Stays w d initializeBus := by
  have hsends : ∀ n, w.Sends d n := fun n => ⟨hconfig, hwide, hcookie, fun a _ => hstores a⟩
  refine stays_bind (fun c hc => hc) fun r => stays_require_bind fun _ =>
    stays_bind (stays_trigger_reset hreset 0 nofun) fun _ =>
    stays_bind (stays_ignoring (stays_waitStatus _ _ _)) fun _ =>
    stays_bind (stays_cfgChannels _ hchannels fun a _ => hstores a) fun _ =>
    stays_bind (stays_cfgClock _ _ _ fun a _ => hstores a) fun _ =>
    stays_bind (stays_cfgReset _ _ fun a _ => hstores a) fun _ => ?_
  exact stays_build_bind (hsends _) _ _ _ _ (Nat.le_refl _) fun _ ha =>
    stays_bind (stays_transact (hsends _) _ ha _ _) fun _ => stays_bind (stays_validateFrom _ _ _ _ _ _) fun _ =>
    stays_bind stays_needNch fun _ => stays_bind (stays_checkCounts _ _) fun _ => stays_require_bind fun _ =>
    stays_bind (stays_coherenceCheck _ _ _) fun _ => stays_require_bind fun _ =>
    stays_bind (stays_initialised hreset _ _ _) fun _ => stays_pure _

/-- A piece is no longer than the size of the pieces. -/
theorem length_le_size_of_mem_chunksOf {size k : Nat} {b chunk : List Byte} (h : chunk ∈ chunksOf size k b) :
    chunk.length ≤ size := by
  induction k generalizing b with
  | zero => cases h
  | succ k ih =>
    cases b with
    | nil => cases h
    | cons x xs =>
      rcases List.mem_cons.mp h with rfl | hrest
      · exact List.length_take_le _ _
      · exact ih hrest

/-- The longest command of `PROGRAM` carries one chunk (42_srq_ops.md rule R236). -/
theorem stays_program_chunk {w : Scope} {d : Ctx} (address : Nat) (data : List Byte)
    (h : w.Sends d (params.headerBytes + params.srqHdrBytes + min data.length params.srqChunk)) (hrec : w.record = true)
    (hst : w.stash = true) (hstr : w.strobes = true) : Stays w d (program address data) := by
  refine stays_bind stays_gate fun _ => stays_require_bind fun _ => stays_require_bind fun _ =>
    stays_getSess_bind fun _ _ => stays_bind (stays_programChunks h hrec hst hstr _ _ _ _ fun chunk hk => ?_) fun _ =>
      stays_bind (stays_checkChecksums h (by omega) hst _) fun _ => stays_pure _
  have hdata := length_le_of_mem_chunksOf hk
  have hsize := length_le_size_of_mem_chunksOf hk
  omega

/-! ### Every host operation -/

/-- Every host operation is a sequence that keeps the allowed states and stays within its scope. -/
theorem exec_operates {i : Instr} (hi : i.format = .descriptor) :
    ∃ body, (∀ s, exec i s = operate i body s) ∧ SafeOp false body ∧ ∀ d : Ctx, Stays (scopeOf i d.sess) d body := by
  cases i with
  | trigger a =>
    refine ⟨_, fun _ => rfl, safe_silently (safe_trigger _), fun d => stays_silently ?_⟩
    by_cases ha : a = 0
    · subst ha
      exact stays_trigger_reset rfl _ fun _ => rfl
    · exact stays_trigger _ (fun e => ha (BitVec.eq_of_toNat_eq e)) fun _ => rfl
  | waitStatus st cl t =>
    exact ⟨_, fun _ => rfl, safe_answering (safe_bind (safe_waitStatus _ _ _) fun _ => safe_pure _),
      fun _ => stays_answering (stays_bind (stays_waitStatus _ _ _) fun _ => stays_pure _)⟩
  | cfgChannels n =>
    exact ⟨_, fun _ => rfl, safe_silently (safe_cfgChannels _),
      fun _ => stays_silently (stays_cfgChannels _ rfl fun _ => beq_iff_eq.mpr)⟩
  | cfgClock v ti tu =>
    exact ⟨_, fun _ => rfl, safe_silently (safe_cfgClock _ _ _),
      fun _ => stays_silently (stays_cfgClock _ _ _ fun _ => beq_iff_eq.mpr)⟩
  | cfgReset rt ht =>
    exact ⟨_, fun _ => rfl, safe_silently (safe_cfgReset _ _),
      fun _ => stays_silently (stays_cfgReset _ _ fun _ => beq_iff_eq.mpr)⟩
  | cfgTransmit len f w lb =>
    exact ⟨_, fun _ => rfl, safe_silently (safe_cfgTransmit _ _ _ _),
      fun _ => stays_silently (stays_cfgTransmit _ _ _ _ rfl fun _ => beq_iff_eq.mpr)⟩
  | cfgReceive len sk wnz lb =>
    exact ⟨_, fun _ => rfl, safe_silently (safe_cfgReceive _ _ _ _),
      fun _ => stays_silently (stays_cfgReceive _ _ _ _ fun _ => beq_iff_eq.mpr)⟩
  | writeCommand data =>
    exact ⟨_, fun _ => rfl, safe_silently (safe_writeCommand _),
      fun _ => stays_silently (stays_writeCommand_width _ rfl fun _ h => h)⟩
  | readRx size =>
    exact ⟨_, fun _ => rfl, safe_answering (safe_readRx _), fun _ => stays_answering (stays_readRx _)⟩
  | readRxAll size n =>
    exact ⟨_, fun _ => rfl, safe_answering (safe_bind (safe_readRxAll _ _) fun _ => safe_pure _),
      fun _ => stays_answering (stays_bind (stays_readRxAll _ _) fun _ => stays_pure _)⟩
  | readRxStream size n budget =>
    exact ⟨_, fun _ => rfl, safe_bind (safe_readRxStream _ _ _) fun _ => safe_pure _,
      fun _ => stays_bind (stays_readRxStream rfl _ _ _) fun _ => stays_pure _⟩
  | readRxStreamBlk size n timeout budget =>
    exact ⟨_, fun _ => rfl, safe_answering (safe_bind (safe_readRxStreamBlk _ _ _ _) fun _ => safe_pure _),
      fun _ => stays_answering (stays_bind (stays_readRxStreamBlk rfl _ _ _ _) fun _ => stays_pure _)⟩
  | loadConfig data =>
    exact ⟨_, fun _ => rfl, safe_silently (safe_loadConfig _), fun _ => stays_silently (stays_loadConfig rfl _)⟩
  | send code address verify data =>
    exact ⟨_, fun _ => rfl, safe_answering (safe_bind (safe_send _ _ _ _) fun _ => safe_pure _),
      fun _ => stays_answering
        (stays_bind (stays_send (sends_scope rfl rfl rfl rfl) _ _ _ _ (Nat.le_refl _)) fun _ => stays_pure _)⟩
  | busWrite address data =>
    exact ⟨_, fun _ => rfl, safe_silently (safe_ignoring (safe_send _ _ _ _)),
      fun _ => stays_silently (stays_ignoring (stays_send (sends_scope rfl rfl rfl rfl) _ _ _ _ (Nat.le_refl _)))⟩
  | busWait =>
    exact ⟨_, fun _ => rfl, safe_silently (safe_ignoring (safe_send _ _ _ _)),
      fun _ => stays_silently (stays_ignoring (stays_send (sends_scope rfl rfl rfl rfl) _ _ _ _ (Nat.le_refl _)))⟩
  | readBounded address dlen =>
    exact ⟨_, fun _ => rfl, safe_answering (safe_readBounded _ _),
      fun _ => stays_answering (stays_readBounded (sends_scope rfl rfl rfl rfl) (Nat.le_refl _) _ _)⟩
  | readStreaming address dlen =>
    exact ⟨_, fun _ => rfl, safe_answering (safe_readStreaming _ _),
      fun _ => stays_answering (stays_readStreaming (sends_scope rfl rfl rfl rfl) (Nat.le_refl _) rfl _ _)⟩
  | readCoherent address dlen =>
    exact ⟨_, fun _ => rfl, safe_answering (safe_readCoherent _ _),
      fun _ => stays_answering (stays_readCoherent (n := params.headerBytes + 2 * dlen.toNat)
        (sends_scope rfl rfl rfl rfl) _ _ (by rw [pollMasks_length]))⟩
  | initBus =>
    exact ⟨_, fun _ => rfl, safe_answering safe_initializeBus,
      fun _ => stays_answering (stays_initializeBus rfl rfl rfl rfl rfl fun _ => rfl)⟩
  | srq code param address data =>
    exact ⟨_, fun _ => rfl, safe_silently (safe_srq _ _ _ _),
      fun _ => stays_silently (stays_srq (sends_scope rfl rfl rfl rfl) rfl rfl _ _ _ _ (Nat.le_refl _))⟩
  | srqSync code param address delay data =>
    exact ⟨_, fun _ => rfl, safe_silently (safe_srqSync _ _ _ _ _),
      fun _ => stays_silently (stays_srqSync (sends_scope rfl rfl rfl rfl) rfl rfl rfl _ _ _ _ _ (Nat.le_refl _))⟩
  | program address data =>
    exact ⟨_, fun _ => rfl, safe_answering (safe_program _ _),
      fun _ => stays_answering (stays_program_chunk _ _ (sends_scope rfl rfl rfl rfl) rfl rfl rfl)⟩
  | readModuleStatus =>
    exact ⟨_, fun _ => rfl, safe_answering safe_readModuleStatus,
      fun _ => stays_answering (stays_readModuleStatus (sends_scope rfl rfl rfl rfl) (Nat.le_refl _) rfl)⟩
  | codeEnum | codeWait | codeTest | codeWrite | codePoll | codeRead => cases hi
  | srqEraseWrite | srqWrite | srqRunProc => cases hi

/-! ### Every command and request at the modules -/

theorem Modules.ok_iff {m : Modules} : m.ok = true ↔ Memory.wf m.mem ∧ Memory.wf m.flash := by
  simp [Modules.ok]

theorem Modules.ok_forget (m : Modules) : m.forget.ok = true := Modules.ok_iff.mpr ⟨.nil, .nil⟩

theorem Modules.ok_memWrite {m : Modules} (h : m.ok = true) (channels : List Nat) (addr : Nat) (bytes : List Byte) :
    (m.memWrite channels addr bytes).ok = true := by
  obtain ⟨hmem, hflash⟩ := Modules.ok_iff.mp h
  unfold Modules.memWrite
  split
  · exact Modules.ok_iff.mpr ⟨Memory.writeAll_wf _ _ _ _ hmem, hflash⟩
  · exact m.ok_forget

/-- Storing a flash request keeps the canonical form, whatever was known of the flash before (log entry 14). -/
theorem Modules.ok_flashed {m : Modules} {f : Memory} (h : m.ok = true) (hf : Memory.wf f) (r : SrqFields)
    (channels : List Nat) (epoch : Nat) :
    (if flashFits r then { m with flash := Memory.writeAll f r.address.toNat (flashBytes r) channels, epoch := epoch }
     else m.forget).ok = true := by
  split
  · exact Modules.ok_iff.mpr ⟨(Modules.ok_iff.mp h).1, Memory.writeAll_wf _ _ _ _ hf⟩
  · exact m.ok_forget

/-- What the modules execute changes the module side only, and keeps its memories in canonical form. -/
theorem exec_modules {i : Instr} (hi : i.format ≠ .descriptor) (s : State) :
    ∃ m : Modules, exec i s = .next { s with mods := m } ∧ (s.mods.ok = true → m.ok = true) := by
  cases i with
  | codeEnum h | codeWait h | codeTest h payload | codePoll h payload | codeRead h => exact ⟨_, rfl, id⟩
  | codeWrite h payload => exact ⟨_, rfl, fun hm => Modules.ok_memWrite hm s.channels h.address.toNat payload⟩
  | srqEraseWrite r =>
    exact ⟨_, rfl, fun hm => Modules.ok_flashed hm .nil r s.channels (s.mods.epoch + 1)⟩
  | srqWrite r =>
    exact ⟨_, rfl, fun hm => Modules.ok_flashed hm (Modules.ok_iff.mp hm).2 r s.channels s.mods.epoch⟩
  | srqRunProc r => exact ⟨_, rfl, fun _ => Modules.ok_forget s.mods⟩
  | _ => exact absurd rfl hi

/-! ### The allowed states -/

theorem State.ok_iff {s : State} : s.ok = true ↔ s.ctx.ok = true ∧ s.mods.ok = true ∧ s.busy = s.inflight.isSome
    ∧ s.inflight.all (fun f => f.start.ok) = true ∧ (s.busy = true → s.result = none) := by
  cases hb : s.busy <;> simp [State.ok, hb, and_assoc]

/-- From an allowed state every instruction answers an allowed state. -/
theorem exec_ok {s : State} (hs : s.ok = true) (i : Instr) : ∃ t, exec i s = .next t ∧ t.ok = true := by
  by_cases hi : i.format = .descriptor
  · obtain ⟨body, hexec, hsafe, -⟩ := exec_operates hi
    rw [hexec]
    exact operate_ok hs hsafe
  · obtain ⟨m, hexec, hm⟩ := exec_modules hi s
    obtain ⟨hctx, hmods, hrest⟩ := State.ok_iff.mp hs
    exact ⟨_, hexec, State.ok_iff.mpr ⟨hctx, hm hmods, hrest⟩⟩

theorem Ctx.ok_iff {c : Ctx} : c.ok = true ↔ c.sess.ok = true ∧ c.link.ok = true := by
  simp [Ctx.ok]

theorem Ctx.ok_feed {c : Ctx} (h : c.ok = true) (n : Need) (k : Nat) : (c.feed n k).ok = true := by
  rw [Ctx.ok_iff] at h ⊢
  simpa using h

theorem State.ok_refill {s : State} {f : InFlight} (h : s.ok = true) (hf : s.inflight = some f) :
    (s.refill f).ok = true := by
  obtain ⟨-, hmods, -, hstart, -⟩ := State.ok_iff.mp h
  rw [hf] at hstart
  exact State.ok_iff.mpr ⟨Ctx.ok_feed hstart _ _, hmods, rfl, rfl, nofun⟩

theorem State.ok_taken {s : State} (h : s.ok = true) (rest : List Wire) : (s.taken rest).ok = true := h

theorem State.ok_unknownAtModules {s : State} (h : s.ok = true) : s.unknownAtModules.ok = true := by
  obtain ⟨hctx, -, hrest⟩ := State.ok_iff.mp h
  exact State.ok_iff.mpr ⟨hctx, s.mods.ok_forget, hrest⟩

theorem State.ok_illegalDescriptor {s : State} (h : s.ok = true) (d : Descriptor) : (s.illegalDescriptor d).ok = true := by
  obtain ⟨hctx, hmods, -⟩ := State.ok_iff.mp h
  exact State.ok_iff.mpr ⟨hctx, hmods, rfl, rfl, nofun⟩

/-- A turn is taken in an allowed state. -/
def Turn.ok : Turn → Prop
  | .run _ s => s.ok = true
  | .settle s => s.ok = true

theorem State.ok_moduleTurn {s : State} (h : s.ok = true) (w : Wire) (rest : List Wire) : (s.moduleTurn w rest).ok := by
  unfold State.moduleTurn
  split
  · exact State.ok_taken h rest
  · exact State.ok_unknownAtModules (State.ok_taken h rest)

theorem State.ok_hostTurn {s : State} (h : s.ok = true) (d : Descriptor) (rest : List Descriptor) :
    (s.hostTurn d rest).ok := by
  unfold State.hostTurn
  split
  · exact h
  · exact State.ok_illegalDescriptor (s := s.accepted rest) h d

theorem State.ok_turn {s : State} (h : s.ok = true) : s.turn.ok := by
  unfold State.turn
  split
  next f hf => exact State.ok_refill h hf
  next =>
    split
    · exact h
    · split
      · exact State.ok_moduleTurn h _ _
      · split
        · exact State.ok_hostTurn h _ _
        · exact h

/-- From an allowed state every step answers an allowed state. -/
theorem step_ok {s : State} (h : s.ok = true) : ∃ t, step s = .next t ∧ t.ok = true := by
  have hturn := State.ok_turn h
  unfold step
  cases ht : s.turn with
  | run i u => exact exec_ok (ht ▸ hturn : (Turn.run i u).ok) i
  | settle u => exact ⟨u, rfl, (ht ▸ hturn : (Turn.settle u).ok)⟩

/-- Settles O10. -/
theorem stepKeepsAllowed : Obligations.StepKeepsAllowed := by
  intro s t hs h
  obtain ⟨u, hu, hok⟩ := step_ok hs
  rw [hu] at h
  injection h with h
  exact h ▸ hok

/-- Settles O11. -/
theorem stepAlwaysAnswers : Obligations.StepAlwaysAnswers := fun _ hs => (step_ok hs).imp fun _ h => h.1

/-- Settles O9. -/
theorem resetAllowedAndIdle : Obligations.ResetAllowedAndIdle := ⟨by decide, rfl⟩

/-! ### What an instruction leaves -/

/-- An operation within a scope leaves what the scope lets it, but for the write of `Faulted` (60_exceptions.md rule
R280). -/
theorem operate_within {i : Instr} {body : Op (Option (List Byte))} {s t : State} {w : Scope}
    (hbody : Stays w s.ctx body) (h : operate i body s = .next t) :
    ∃ b, Within w s.ctx b ∧ (t.ctx = b ∨ t.ctx = { b with sess := b.sess.setBusState .faulted }) := by
  have hends := hbody s.ctx (Within.refl w s.ctx)
  rcases operate_cases h with ⟨-, rfl⟩ | ⟨-, out, c, hrun, rfl⟩ | ⟨-, e, c, hrun, rfl⟩ | ⟨-, n, c, hrun, rfl⟩
  · exact ⟨_, Within.refl w _, .inl rfl⟩
  · rw [hrun] at hends
    exact ⟨c, hends, .inl rfl⟩
  · rw [hrun] at hends
    obtain ⟨b, hb, rfl⟩ := hends
    refine ⟨b, hb, ?_⟩
    cases he : e.faults with
    | true => exact .inr (by simp [stoppedAt, he])
    | false => exact .inl (by simp [stoppedAt, he])
  · rw [hrun] at hends
    obtain ⟨b, hb, hc⟩ := hends
    exact ⟨b, hb, .inl hc⟩

/-- Every instruction leaves what its scope lets it, but for the write of `Faulted`. -/
theorem exec_within {i : Instr} {s t : State} (h : exec i s = .next t) :
    ∃ b, Within (scopeOf i s.ctx.sess) s.ctx b
      ∧ (t.ctx = b ∨ t.ctx = { b with sess := b.sess.setBusState .faulted }) := by
  by_cases hi : i.format = .descriptor
  · obtain ⟨body, hexec, -, hstays⟩ := exec_operates hi
    exact operate_within (hstays s.ctx) (hexec s ▸ h)
  · obtain ⟨m, hexec, -⟩ := exec_modules hi s
    rw [hexec] at h
    injection h with h
    exact ⟨s.ctx, Within.refl _ _, .inl (h ▸ rfl)⟩

/-- Settles O12: transactions are only added, and all of those in an allowed state are legal. -/
theorem portDisciplineKept : Obligations.PortDisciplineKept := by
  intro i s t hs h
  obtain ⟨u, hu, hok⟩ := exec_ok hs i
  rw [h] at hu
  injection hu with hu
  subst hu
  obtain ⟨b, hwithin, hctx⟩ := exec_within h
  obtain ⟨new, hnew, -⟩ := hwithin.log
  have hlog : t.ctx.link.log = new ++ s.ctx.link.log := by rcases hctx with hc | hc <;> rw [hc] <;> exact hnew
  have hlegal : t.ctx.link.log.all Txn.legal = true := by
    have hlink := (Ctx.ok_iff.mp (State.ok_iff.mp hok).1).2
    simp only [Link.ok, Bool.and_eq_true] at hlink
    exact hlink.1.1
  rw [hlog, List.all_append, Bool.and_eq_true] at hlegal
  exact ⟨new, hlog, hlegal.1⟩

/-- Settles O15. -/
theorem timeNeverGoesBack : Obligations.TimeNeverGoesBack := by
  intro i s t h
  obtain ⟨b, hwithin, hctx | hctx⟩ := exec_within h <;> rw [hctx] <;> exact hwithin.time

/-- Settles O16. -/
theorem windowFrame : Obligations.WindowFrame := by
  intro i s t a h hreset hstores
  obtain ⟨b, hwithin, hctx⟩ := exec_within h
  have hread := hwithin.window hreset a (Bool.or_eq_false_iff.mpr ⟨hreset, hstores⟩)
  rcases hctx with hctx | hctx <;> rw [hctx] <;> exact hread

theorem scope_config {i : Instr} {r : Session} (h : ∀ data, i ≠ .loadConfig data) : (scopeOf i r).config = false := by
  cases i with
  | loadConfig data => exact absurd rfl (h data)
  | _ => rfl

theorem scope_channels {i : Instr} {r : Session} (h : ∀ n, i ≠ .cfgChannels n) (hinit : i ≠ .initBus) :
    (scopeOf i r).channels = false := by
  cases i with
  | cfgChannels n => exact absurd rfl (h n)
  | initBus => exact absurd rfl hinit
  | _ => rfl

theorem scope_wide {i : Instr} {r : Session} (h : ∀ len f w lb, i ≠ .cfgTransmit len f w lb) (hgated : i.gated = false)
    (hinit : i ≠ .initBus) : (scopeOf i r).wide = false := by
  cases i with
  | cfgTransmit len f w lb => exact absurd rfl (h len f w lb)
  | initBus => exact absurd rfl hinit
  | _ => exact hgated

theorem scope_cookie {i : Instr} {r : Session} (hgated : i.gated = false) (hinit : i ≠ .initBus) :
    (scopeOf i r).cookie = false := by
  cases i with
  | initBus => exact absurd rfl hinit
  | _ => exact hgated

/-- Settles O14: the register is outside the instruction's scope; `Faulted` is written to `bus_state` alone. -/
theorem sessionWriters : Obligations.SessionWriters := by
  intro i s t h
  obtain ⟨b, hwithin, hctx⟩ := exec_within h
  have hsess : t.ctx.sess = b.sess ∨ t.ctx.sess = b.sess.setBusState .faulted :=
    hctx.imp (congrArg Ctx.sess) (congrArg Ctx.sess)
  refine ⟨fun hi => ?_, fun hi => ?_, fun hi hinit => ?_, fun hi hg hinit => ?_, fun hg hinit => ?_, fun hr hp => ?_,
    fun hr hp => ?_⟩
  · rcases hsess with e | e <;> rw [e] <;> exact hwithin.config (scope_config hi)
  · rcases hsess with e | e <;> rw [e] <;> exact hwithin.derived hi
  · rcases hsess with e | e <;> rw [e] <;> exact hwithin.channels (scope_channels hi hinit)
  · rcases hsess with e | e <;> rw [e] <;> exact hwithin.wide (scope_wide hi hg hinit)
  · rcases hsess with e | e <;> rw [e] <;> exact hwithin.cookie (scope_cookie hg hinit)
  · rcases hsess with e | e <;> rw [e] <;> exact hwithin.stash hr hp
  · rcases hsess with e | e <;> rw [e] <;> exact hwithin.record hr hp

end Sys2Proof.Machine
end

section
/-! PROOFS. 30_encoding.md: encoding and decoding agree, format by format. A descriptor's, a command's and a record's
bytes are read back once each; the instructions of a format then follow one by one. -/

namespace Sys2Proof

open Config (params)
open Machine (byte half le16 le32 word)

/-! ### Descriptors -/

theorem descriptorOfBytes_bytesOfDescriptor (d : Descriptor) : descriptorOfBytes (bytesOfDescriptor d) = some d := by
  simp [bytesOfDescriptor, le32, descriptorOfBytes]

theorem decode_descriptor (op : Nat) (a0 a1 a2 a3 : Word) (data : List Byte) :
    decode .descriptor (descriptor op a0 a1 a2 a3 data) =
      decodeDescriptor { w0 := BitVec.ofNat 32 op, a0 := a0, a1 := a1, a2 := a2, a3 := a3, data := data } := by
  simp only [decode, descriptor, descriptorOfBytes_bytesOfDescriptor]

/-- The operation numbers of `encode` are those of `decodeDescriptor` (rule R102), whatever the operands are. -/
theorem decode_encode_descriptor {i : Instr} (hi : i.format = .descriptor) : decode .descriptor (encode i) = .ok i := by
  cases i with
  | codeEnum | codeWait | codeTest | codeWrite | codePoll | codeRead => cases hi
  | srqEraseWrite | srqWrite | srqRunProc => cases hi
  | _ => exact decode_descriptor ..

theorem format_of_decodeDescriptor {d : Descriptor} {i : Instr} (h : decodeDescriptor d = .ok i) :
    i.format = .descriptor := by
  unfold decodeDescriptor at h
  split at h <;> cases h <;> rfl

/-! ### Commands -/

theorem decode_commandBytes (code : Byte) (h : CmdHeader) (payload : List Byte) :
    decode .command (commandBytes code h payload) = decodeCode code h payload := by
  simp [decode, commandBytes, le16, decodeCommand]

/-- What `decodeCode` answers for each of the six codes. -/
theorem decode_encode_command {i : Instr} (hi : i.format = .command) (hwf : i.wf = true) :
    decode .command (encode i) = .ok i := by
  cases i with
  | codeEnum h | codeWait h =>
    have hlm1 : h.lm1 = 0 := beq_iff_eq.mp hwf
    simp [encode, decode_commandBytes, decodeCode, hlm1]
  | codeTest h payload | codeWrite h payload | codePoll h payload =>
    have hlen : payload.length = h.lm1.toNat + 1 := beq_iff_eq.mp hwf
    simp [encode, decode_commandBytes, decodeCode, ← hlen]
  | codeRead h => simp [encode, decode_commandBytes, decodeCode]
  | _ => cases hi

/-- The instruction a code byte gives is that of the header and of the first payload bytes after it. -/
theorem of_decodeCode {c : Byte} {h : CmdHeader} {rest : List Byte} {i : Instr} (hi : decodeCode c h rest = .ok i) :
    i.format = .command ∧ i.wf = true ∧ ∃ payload, payload <+: rest ∧ encode i = commandBytes c h payload := by
  have hpayload (hn : h.lm1.toNat + 1 ≤ rest.length) : payloadFits h (rest.take (h.lm1.toNat + 1)) = true := by
    simp [payloadFits, hn]
  unfold decodeCode at hi
  dsimp only at hi
  split at hi
  next hc =>
    split at hi <;> cases hi
    next hlm1 => exact ⟨rfl, beq_iff_eq.mpr hlm1, [], List.nil_prefix, hc ▸ rfl⟩
  split at hi
  next hc =>
    split at hi <;> cases hi
    next hlm1 => exact ⟨rfl, beq_iff_eq.mpr hlm1, [], List.nil_prefix, hc ▸ rfl⟩
  split at hi
  next hc =>
    cases hi
    exact ⟨rfl, rfl, [], List.nil_prefix, hc ▸ rfl⟩
  split at hi
  next hc =>
    split at hi <;> cases hi
    next hn => exact ⟨rfl, hpayload hn, _, List.take_prefix _ _, by rw [hc]; rfl⟩
  split at hi
  next hc =>
    split at hi <;> cases hi
    next hn => exact ⟨rfl, hpayload hn, _, List.take_prefix _ _, by rw [hc]; rfl⟩
  split at hi
  next hc =>
    split at hi <;> cases hi
    next hn => exact ⟨rfl, hpayload hn, _, List.take_prefix _ _, by rw [hc]; rfl⟩
  cases hi

theorem of_decodeCommand {bytes : List Byte} {i : Instr} (h : decodeCommand bytes = .ok i) :
    i.format = .command ∧ i.wf = true ∧ encode i <+: bytes := by
  unfold decodeCommand at h
  split at h
  next c lm1 a0 a1 cookie st r0 r1 rest =>
    split at h
    next hzero =>
      obtain ⟨rfl, rfl, rfl⟩ := hzero
      obtain ⟨hformat, hwf, payload, hpre, henc⟩ := of_decodeCode h
      refine ⟨hformat, hwf, ?_⟩
      rw [henc]
      simpa [commandBytes] using hpre
    next => cases h
  next => cases h

/-! ### Records -/

/-- The flag bit and the request of a code byte make it up (rule R111). -/
theorem code_of_request (code : Byte) :
    (if decide (code &&& params.srqSyncFlag ≠ 0) then code &&& ~~~params.srqSyncFlag ||| params.srqSyncFlag
      else code &&& ~~~params.srqSyncFlag) = code := by
  revert code
  decide

theorem recordBytes_request {code : Byte} {r : SrqFields} (hsync : r.sync = decide (code &&& params.srqSyncFlag ≠ 0)) :
    recordBytes (code &&& ~~~params.srqSyncFlag) r = code :: r.param :: (le16 r.address ++ r.payload) := by
  simp only [recordBytes, hsync, code_of_request, List.cons_append, List.nil_append]

/-- The flag of a code byte made from a request without it (rule R111). -/
theorem sync_of_code (request : Byte) (sync : Bool) (hflag : request &&& params.srqSyncFlag = 0) :
    decide ((if sync then request ||| params.srqSyncFlag else request) &&& params.srqSyncFlag ≠ 0) = sync := by
  cases sync with
  | false => exact decide_eq_false (not_not_intro hflag)
  | true =>
    revert request
    decide

theorem decode_recordBytes {request : Byte} {r : SrqFields} (hflag : request &&& params.srqSyncFlag = 0)
    (hfits : recordFits r = true) : decode .srqRecord (recordBytes request r) =
      decodeRequest (if r.sync then request ||| params.srqSyncFlag else request) r := by
  have hlen : r.payload.length ≤ params.maxDataLen - params.srqHdrBytes := of_decide_eq_true hfits
  simp only [decode, recordBytes, le16, List.cons_append, List.nil_append, decodeRecord, if_pos hlen,
    Machine.half_of_le16, sync_of_code request r.sync hflag]

theorem decode_encode_record {i : Instr} (hi : i.format = .srqRecord) (hwf : i.wf = true) :
    decode .srqRecord (encode i) = .ok i := by
  cases i with
  | srqEraseWrite r | srqWrite r | srqRunProc r =>
    refine (decode_recordBytes (by decide) hwf).trans ?_
    cases hs : r.sync <;> simp [decodeRequest]
  | _ => cases hi

theorem of_decodeRequest {code : Byte} {r : SrqFields} {i : Instr}
    (hsync : r.sync = decide (code &&& params.srqSyncFlag ≠ 0)) (hfits : recordFits r = true)
    (h : decodeRequest code r = .ok i) :
    i.format = .srqRecord ∧ i.wf = true ∧ encode i = code :: r.param :: (le16 r.address ++ r.payload) := by
  have henc := recordBytes_request hsync
  unfold decodeRequest at h
  dsimp only at h
  split at h
  next hreq =>
    cases h
    exact ⟨rfl, hfits, by rwa [hreq] at henc⟩
  split at h
  next hreq =>
    cases h
    exact ⟨rfl, hfits, by rwa [hreq] at henc⟩
  split at h
  next hreq =>
    cases h
    exact ⟨rfl, hfits, by rwa [hreq] at henc⟩
  cases h

theorem of_decodeRecord {bytes : List Byte} {i : Instr} (h : decodeRecord bytes = .ok i) :
    i.format = .srqRecord ∧ i.wf = true ∧ encode i = bytes := by
  unfold decodeRecord at h
  split at h
  next code param a0 a1 payload =>
    split at h
    next hlen =>
      obtain ⟨hformat, hwf, henc⟩ := of_decodeRequest rfl (decide_eq_true hlen) h
      exact ⟨hformat, hwf, by simpa using henc⟩
    next => cases h
  next => cases h

/-! ### The two directions -/

/-- Settles O1, format by format. -/
theorem decodeEncodeAgree : Obligations.DecodeEncodeAgree := by
  intro i hwf
  cases hi : i.format with
  | descriptor => exact decode_encode_descriptor hi
  | command => exact decode_encode_command hi hwf
  | srqRecord => exact decode_encode_record hi hwf

/-- Settles O2, format by format. -/
theorem encodeDecodedAgree : Obligations.EncodeDecodedAgree := by
  intro f bytes i h
  cases f with
  | descriptor =>
    change (match descriptorOfBytes bytes with
      | some d => decodeDescriptor d
      | none => .error .truncated) = .ok i at h
    split at h
    next d hd =>
      have hi := format_of_decodeDescriptor h
      exact ⟨hi, nofun, nofun, fun _ => decode_encode_descriptor hi⟩
    next => cases h
  | command =>
    obtain ⟨hi, hwf, hpre⟩ := of_decodeCommand h
    exact ⟨hi, nofun, fun _ => ⟨hwf, hpre⟩, nofun⟩
  | srqRecord =>
    obtain ⟨hi, hwf, henc⟩ := of_decodeRecord h
    exact ⟨hi, fun _ => ⟨hwf, henc⟩, nofun, nofun⟩

/-- Settles O3: five words read by the decoder. -/
theorem wordsDecode : Obligations.WordsDecode := by
  refine ⟨?_, ?_, ?_, ?_, ?_⟩ <;> rfl

end Sys2Proof
end

section
/-! PROOFS. One step (00_scope.md rule R4): which turn the machine takes, and what an operation that lacks an answer
leaves (10_state.md rule R44). -/

namespace Sys2Proof.Machine

open Config (params)

/-! ### The turns -/

theorem step_of_inflight {s : State} {f : InFlight} (h : s.inflight = some f) : step s = exec f.instr (s.refill f) := by
  simp only [step, State.turn, h]

theorem step_of_wire {s : State} {w : Wire} {rest : List Wire} {i : Instr} (hinflight : s.inflight = none)
    (hbusy : s.busy = false) (hwire : s.ctx.link.wire = w :: rest) (hfetch : w.fetch s = some i) :
    step s = exec i (s.taken rest) := by
  simp [step, State.turn, hinflight, hbusy, hwire, State.moduleTurn, hfetch]

theorem turn_of_queue {s : State} {d : Descriptor} {rest : List Descriptor} (hinflight : s.inflight = none)
    (hbusy : s.busy = false) (hwire : s.ctx.link.wire = []) (hqueue : s.queue = d :: rest) :
    s.turn = s.hostTurn d rest := by
  simp [State.turn, hinflight, hbusy, hwire, hqueue]

/-- When the mailboxes of the configured channels agree, the strobe finds their record (log entry 16). -/
theorem strobedRecord_of_agree {s : State}
    (h : ∀ c, c < s.ctx.sess.nch.getD 0 →
      Memory.known s.mods.mem (65536 * c + 0x0100) 256 = Memory.known s.mods.mem 0x0100 256) :
    s.strobedRecord = Memory.known s.mods.mem 0x0100 256 := by
  have hall : (s.channels.all fun c => s.mods.mailbox c == s.mods.mailbox 0) = true := by
    simpa [State.channels, Modules.mailbox, cellOf, moduleBytes] using h
  exact if_pos hall

/-- Settles O4: the command on the wire, the record at the strobe, the descriptor presented next. -/
theorem stepRunsFetched : Obligations.StepRunsFetched := by
  intro s i hinflight hbusy
  refine ⟨fun bytes rest hwire hdecode => ?_, fun rest hwire hagree hdecode => ?_, fun d rest hwire hqueue hdecode => ?_⟩
  · exact step_of_wire hinflight hbusy hwire (by simp [Wire.fetch, hdecode, Except.toOption])
  · exact step_of_wire hinflight hbusy hwire
      (by simp [Wire.fetch, strobedRecord_of_agree hagree, hdecode, Except.toOption])
  · simp only [step, turn_of_queue hinflight hbusy hwire hqueue, State.hostTurn, hdecode, State.accepted]

/-! ### An operation in progress -/

/-- A busy machine runs no host operation (30_encoding.md rule R100). -/
theorem exec_busy {i : Instr} {s : State} (hi : i.format = .descriptor) (hbusy : s.busy = true) :
    exec i s = .next s := by
  obtain ⟨body, hexec, -⟩ := exec_operates hi
  rw [hexec, operate, if_pos hbusy]

/-- No instruction takes a descriptor: that is the step's business. -/
theorem exec_queue {i : Instr} {s t : State} (h : exec i s = .next t) : t.queue = s.queue := by
  by_cases hi : i.format = .descriptor
  · obtain ⟨body, hexec, -⟩ := exec_operates hi
    rcases operate_cases (hexec s ▸ h) with ⟨-, rfl⟩ | ⟨-, out, c, -, rfl⟩ | ⟨-, e, c, -, rfl⟩ | ⟨-, n, c, -, rfl⟩ <;> rfl
  · obtain ⟨m, hexec, -⟩ := exec_modules hi s
    rw [hexec] at h
    injection h with h
    exact h ▸ rfl

/-- Settles O5: of the ways an operation ends only the missing answer leaves `busy` true. -/
theorem unfinishedGoesOn : Obligations.UnfinishedGoesOn := by
  refine ⟨fun i s t hi hbusy h ht => ?_, fun s f hf => step_of_inflight hf⟩
  obtain ⟨body, hexec, -⟩ := exec_operates hi
  rcases operate_cases (hexec s ▸ h) with ⟨hb, -⟩ | ⟨-, out, c, -, rfl⟩ | ⟨-, e, c, -, rfl⟩ | ⟨-, n, c, -, rfl⟩
  · simp [hbusy] at hb
  · cases ht
  · cases ht
  · exact ⟨rfl, ⟨n, rfl⟩, rfl, rfl, rfl⟩

/-- Settles O6. -/
theorem busyAcceptsNothing : Obligations.BusyAcceptsNothing := by
  refine ⟨fun i s hi hbusy => exec_busy hi hbusy, fun s t hbusy h => ?_⟩
  cases hf : s.inflight with
  | some f =>
    rw [step_of_inflight hf] at h
    exact exec_queue (s := s.refill f) h
  | none =>
    simp only [step, State.turn, hf, hbusy, if_true] at h
    injection h with h
    exact h ▸ rfl

/-! ### Descriptors that present no operation -/

theorem decodeDescriptor_of_mem {d : Descriptor} (h : d.w0.toNat ∈ operationNumbers) :
    ∃ i, decodeDescriptor d = .ok i := by
  simp only [operationNumbers, List.mem_cons, List.not_mem_nil, or_false] at h
  rcases h with h | h | h | h | h | h | h | h | h | h | h | h | h | h | h | h | h | h | h | h | h | h | h | h <;>
    exact ⟨_, by simp only [decodeDescriptor, h]; rfl⟩

theorem decodeDescriptor_of_not_mem {d : Descriptor} (h : d.w0.toNat ∉ operationNumbers) :
    decodeDescriptor d = .error (.illegalOp d.w0) := by
  unfold decodeDescriptor
  split
  case h_25 => rfl
  all_goals exact absurd (by simp [operationNumbers, *]) h

/-- Settles O7: the numbers of rule R102, and any other first word. -/
theorem illegalDescriptorRefused : Obligations.IllegalDescriptorRefused := by
  refine ⟨fun d hd => decodeDescriptor_of_mem hd, fun s d rest hinflight hbusy hwire hqueue hd => ?_⟩
  have hturn : s.hostTurn d rest = .settle ((s.accepted rest).illegalDescriptor d) := by
    simp only [State.hostTurn, decodeDescriptor_of_not_mem hd]
  simp [step, turn_of_queue hinflight hbusy hwire hqueue, hturn, State.illegalDescriptor, State.deliver, State.accepted,
    Err.toResult, info, hbusy, hinflight]

end Sys2Proof.Machine
end

section
/-! PROOFS. The modules (20_memory.md rule R78, 30_encoding.md rules R104, R110): what the six commands and the three SRQ
requests store, leave and answer. Nothing of the CORE changes (`State.onlyModulesChange`). -/

namespace Sys2Proof.Machine

open Config (params)

theorem getD_map_range {α : Type} (f : Nat → α) (d : α) {n c : Nat} (h : c < n) : ((List.range n).map f).getD c d = f c := by
  simp [List.getD_eq_getElem?_getD, h]

theorem byteAt_of_lt {b : List Byte} {i : Nat} (h : i < b.length) : b[i]? = some (byteAt b i) := by
  simp [byteAt, List.getElem?_eq_getElem h]

/-! ### Commands without memory access -/

theorem State.answer_const (s : State) (body : List Byte) :
    (s.answer fun _ => body) =
      { s with mods := { s.mods with reply := List.replicate (s.ctx.sess.nch.getD 0) body } } := by
  simp [State.answer, State.channels, List.map_const']

/-- Settles O55. -/
theorem plainCodesComplete : Obligations.PlainCodesComplete := fun s _ payload =>
  ⟨congrArg _ (s.answer_const []), congrArg _ (s.answer_const []), congrArg _ (s.answer_const payload)⟩

/-! ### CODE_WRITE -/

theorem Modules.memWrite_fits {m : Modules} {addr : Nat} {bytes : List Byte} (channels : List Nat)
    (h : addr + bytes.length ≤ 65536) :
    m.memWrite channels addr bytes = { m with mem := Memory.writeAll m.mem addr bytes channels } := if_pos h

theorem Modules.memWrite_past {m : Modules} {addr : Nat} {bytes : List Byte} (channels : List Nat)
    (h : 65536 < addr + bytes.length) : m.memWrite channels addr bytes = m.forget :=
  if_neg (Nat.not_le.mpr h)

/-- Whatever the address is, a write leaves the chains, the kept replies and the last request. -/
theorem Modules.memWrite_keeps (m : Modules) (channels : List Nat) (addr : Nat) (bytes : List Byte) :
    (m.memWrite channels addr bytes).chains = m.chains ∧ (m.memWrite channels addr bytes).request = m.request := by
  unfold Modules.memWrite
  split <;> exact ⟨rfl, rfl⟩

theorem State.mem_channels {s : State} {c : Nat} : c ∈ s.channels ↔ c < s.ctx.sess.nch.getD 0 := List.mem_range

/-- Settles O56. -/
theorem codeWriteCompletes : Obligations.CodeWriteCompletes := by
  intro s h payload
  obtain ⟨hchains, hrequest⟩ := s.mods.memWrite_keeps s.channels h.address.toNat payload
  refine ⟨_, rfl, ⟨rfl, rfl, rfl, rfl, rfl, rfl, hchains⟩, hrequest, ?_, fun hfit => ?_, fun hpast => ?_⟩
  · simp [State.channels, Modules.undefinedBody, Function.comp_def, List.map_const']
  · simp only [State.answer_mods, Modules.memWrite_fits s.channels hfit, Modules.memByte]
    refine ⟨trivial, trivial, fun c pos i hc hi => ?_, fun c pos a hout => ?_⟩
    · rw [Memory.readAt_writeAll_inside _ _ _ _ _ _ hfit (State.mem_channels.mpr hc) hi, byteAt_of_lt hi]
      rfl
    · rw [Memory.readAt_writeAll_outside _ _ _ _ _ _ hfit
        (hout.imp_left fun hc hmem => absurd (State.mem_channels.mp hmem) (Nat.not_lt.mpr hc))]
  · simp [Modules.memWrite_past s.channels hpast]

/-! ### CODE_READ -/

/-- Blocks of one length side by side: byte `i` of block `pos`. -/
theorem byteAt_flatMap_range {k : Nat} (f : Nat → List Byte) (hf : ∀ pos, (f pos).length = k) {n pos i : Nat}
    (hpos : pos < n) (hi : i < k) : byteAt ((List.range n).flatMap f) (pos * k + i) = byteAt (f pos) i := by
  induction n with
  | zero => cases hpos
  | succ n ih =>
    have hlen : ((List.range n).flatMap f).length = n * k := by
      simpa using flatMap_len (List.range n) f k fun pos _ => hf pos
    rw [List.range_succ, List.flatMap_append, List.flatMap_singleton, byteAt]
    rcases Nat.lt_succ_iff_lt_or_eq.mp hpos with hlt | rfl
    · have : pos * k + i < n * k := by nlinarith
      rw [List.getD_append _ _ _ _ (hlen ▸ this)]
      exact ih hlt
    · rw [List.getD_append_right _ _ _ _ (by omega), hlen, Nat.add_sub_cancel_left, byteAt]

theorem Modules.memBytes_length (m : Modules) (c pos addr n : Nat) : (m.memBytes c pos addr n).length = n := by
  simp [Modules.memBytes]

theorem Modules.blocks_length (m : Modules) (c addr n : Nat) : (m.blocks c addr n).length = m.count c * n := by
  rw [Modules.blocks, flatMap_len _ _ n fun pos _ => m.memBytes_length c pos addr n, List.length_range]

theorem Modules.byteAt_blocks (m : Modules) (c addr n : Nat) {pos i : Nat} (hpos : pos < m.count c) (hi : i < n) :
    byteAt (m.blocks c addr n) (pos * n + i) = m.memByte c pos (addr + i) := by
  rw [Modules.blocks, byteAt_flatMap_range _ (fun pos => m.memBytes_length c pos addr n) hpos hi, Modules.memBytes, byteAt,
    getD_map_range _ _ hi]

/-- Settles O57: a channel's body is made of one block of the same length per module. -/
theorem codeReadCompletes : Obligations.CodeReadCompletes := by
  intro s h
  refine ⟨_, rfl, by simp [State.channels], fun c hc => ?_⟩
  rw [State.channels, getD_map_range _ _ hc]
  exact ⟨s.mods.blocks_length c _ _, fun pos i hpos hi => s.mods.byteAt_blocks c _ _ hpos hi⟩

/-! ### CODE_POLL -/

/-- A pair passing `k` modules is folded with the sample of each. -/
theorem foldPair_eq (sample : Nat → Byte) (pos : Nat) (o a : Byte) (k : Nat) :
    foldPair sample pos o a k = ((List.range k).foldl (fun v p => v ||| sample (pos + p)) o,
      (List.range k).foldl (fun v p => v &&& sample (pos + p)) a) := by
  induction k generalizing pos o a with
  | zero => rfl
  | succ k ih =>
    rw [foldPair, ih]
    simp only [List.range_succ_eq_map, List.foldl_cons, List.foldl_map, Nat.add_zero, Nat.succ_eq_add_one,
      Nat.add_assoc, Nat.add_comm 1]

theorem foldPairs_length (m : Modules) (c k addr : Nat) (b : List Byte) : (m.foldPairs c k addr b).length = b.length := by
  induction addr, b using Modules.foldPairs.induct m c k with
  | case1 => rfl
  | case2 => rfl
  | case3 addr o a rest ih => simp [Modules.foldPairs, ih]

/-- Pair `j` is folded with the samples of its own address. -/
theorem byteAt_foldPairs (m : Modules) (c k addr : Nat) (b : List Byte) (j : Nat) (hj : 2 * j + 1 < b.length) :
    byteAt (m.foldPairs c k addr b) (2 * j) =
        (List.range k).foldl (fun v pos => v ||| m.memByte c pos (addr + j)) (byteAt b (2 * j))
    ∧ byteAt (m.foldPairs c k addr b) (2 * j + 1) =
        (List.range k).foldl (fun v pos => v &&& m.memByte c pos (addr + j)) (byteAt b (2 * j + 1)) := by
  induction addr, b using Modules.foldPairs.induct m c k generalizing j with
  | case1 => cases hj
  | case2 => simp at hj
  | case3 addr o a rest ih =>
    cases j with
    | zero => simp [Modules.foldPairs, foldPair_eq, byteAt]
    | succ j =>
      have hnext := ih j (by simp at hj; omega)
      rw [Nat.add_right_comm, Nat.add_assoc] at hnext
      simpa [Modules.foldPairs, byteAt, Nat.mul_add] using hnext

/-- Settles O58. -/
theorem codePollCompletes : Obligations.CodePollCompletes := by
  intro s h payload
  refine ⟨_, rfl, by simp [State.channels], fun c hc => ?_⟩
  rw [State.channels, getD_map_range _ _ hc]
  exact ⟨foldPairs_length _ _ _ _ _, fun j hj => byteAt_foldPairs _ _ _ _ _ j hj⟩

/-- A bit of an OR fold is set when it is set at the start or in some sample. -/
theorem getLsbD_foldl_or (f : Nat → Byte) (l : List Nat) (o : Byte) (b : Nat) :
    (l.foldl (fun v p => v ||| f p) o).getLsbD b = (o.getLsbD b || l.any fun p => (f p).getLsbD b) := by
  induction l generalizing o with
  | nil => simp
  | cons p l ih => simp [ih, Bool.or_assoc]

/-- A bit of an AND fold is set when it is set at the start and in every sample. -/
theorem getLsbD_foldl_and (f : Nat → Byte) (l : List Nat) (a : Byte) (b : Nat) :
    (l.foldl (fun v p => v &&& f p) a).getLsbD b = (a.getLsbD b && l.all fun p => (f p).getLsbD b) := by
  induction l generalizing a with
  | nil => simp
  | cons p l ih => simp [ih, Bool.and_assoc]

/-- From the masks `00` and `FF`, OR and AND over at least one sample are equal exactly when the samples are. -/
theorem foldl_or_eq_foldl_and (f : Nat → Byte) {k : Nat} (hk : 1 ≤ k) :
    (List.range k).foldl (fun v p => v ||| f p) 0x00 = (List.range k).foldl (fun v p => v &&& f p) 0xFF ↔
      ∀ pos, pos < k → f pos = f 0 := by
  have hor (b : Nat) : ((List.range k).foldl (fun v p => v ||| f p) 0x00).getLsbD b =
      (List.range k).any fun p => (f p).getLsbD b := by
    simp [getLsbD_foldl_or]
  have hand (b : Nat) (hb : b < 8) : ((List.range k).foldl (fun v p => v &&& f p) 0xFF).getLsbD b =
      (List.range k).all fun p => (f p).getLsbD b := by
    rw [getLsbD_foldl_and, show (0xFF : Byte) = BitVec.allOnes 8 from rfl, BitVec.getLsbD_allOnes]
    simp [hb]
  constructor
  · intro heq pos hpos
    refine BitVec.eq_of_getLsbD_eq fun b hb => ?_
    have hbit : ((List.range k).any fun p => (f p).getLsbD b) = (List.range k).all fun p => (f p).getLsbD b := by
      rw [← hand b hb, ← heq, hor b]
    have hsame (p q : Nat) (hp : p < k) (hq : q < k) (hset : (f p).getLsbD b = true) : (f q).getLsbD b = true := by
      have hall := hbit ▸ List.any_eq_true.mpr ⟨p, List.mem_range.mpr hp, hset⟩
      exact List.all_eq_true.mp hall q (List.mem_range.mpr hq)
    exact Bool.eq_iff_iff.mpr ⟨hsame pos 0 hpos hk, hsame 0 pos hk hpos⟩
  · intro hall
    refine BitVec.eq_of_getLsbD_eq fun b hb => ?_
    rw [hor b, hand b hb, Bool.eq_iff_iff]
    simp only [List.any_eq_true, List.all_eq_true, List.mem_range]
    refine ⟨?_, fun hset => ⟨0, hk, hset 0 hk⟩⟩
    rintro ⟨p, hp, hset⟩ q hq
    rwa [hall q hq, ← hall p hp]

theorem byteAt_pollMasks {n i : Nat} (h : i < n) :
    byteAt (pollMasks n) (2 * i) = 0x00 ∧ byteAt (pollMasks n) (2 * i + 1) = 0xFF := by
  induction n generalizing i with
  | zero => cases h
  | succ n ih =>
    cases i with
    | zero => exact ⟨rfl, rfl⟩
    | succ i => exact ih (Nat.lt_of_succ_lt_succ h)

/-- Settles O59. -/
theorem pollDetectsDifference : Obligations.PollDetectsDifference := by
  intro m c k addr dlen i hk hi
  obtain ⟨hor, hand⟩ := byteAt_foldPairs m c k addr (pollMasks dlen) i (by rw [pollMasks_length]; omega)
  obtain ⟨hzero, hones⟩ := byteAt_pollMasks hi
  rw [hor, hand, hzero, hones]
  exact foldl_or_eq_foldl_and (fun pos => m.memByte c pos (addr + i)) hk

/-! ### The SRQ requests -/

theorem flashBytes_length {r : SrqFields} (h : r.param.toNat + 1 ≤ r.payload.length) :
    (flashBytes r).length = r.param.toNat + 1 := List.length_take_of_le h

theorem flashFits_of {r : SrqFields} (h1 : r.param.toNat + 1 ≤ r.payload.length)
    (h2 : r.address.toNat + r.param.toNat + 1 ≤ 65536) : flashFits r = true := by
  simp only [flashFits, flashBytes_length h1, moduleBytes, Bool.and_eq_true, decide_eq_true_eq]
  exact ⟨h1, h2⟩

/-- The payload of a flash request stands at its address in every channel given. -/
theorem readAt_flash_inside {r : SrqFields} (h1 : r.param.toNat + 1 ≤ r.payload.length)
    (h2 : r.address.toNat + r.param.toNat + 1 ≤ 65536) (f : Memory) {channels : List Nat} {c i : Nat} (hc : c ∈ channels)
    (hi : i < r.param.toNat + 1) :
    Memory.readAt (Memory.writeAll f r.address.toNat (flashBytes r) channels) c (r.address.toNat + i) = r.payload[i]? := by
  have hlen := flashBytes_length h1
  rw [Memory.readAt_writeAll_inside _ _ _ _ _ _ (by rw [hlen]; exact h2) hc (by rw [hlen]; exact hi), flashBytes,
    List.getElem?_take_of_lt hi]

/-- What the modules store or forget on a request leaves their number and their kept replies. -/
theorem ite_forget_keeps (p : Prop) [Decidable p] (m : Modules) (f : Memory) (e : Nat) :
    (if p then { m with flash := f, epoch := e } else m.forget).chains = m.chains
    ∧ (if p then { m with flash := f, epoch := e } else m.forget).reply = m.reply := by
  split <;> exact ⟨rfl, rfl⟩

/-- Settles O60. -/
theorem srqRequestsComplete : Obligations.SrqRequestsComplete := by
  intro s r
  refine ⟨?_, ?_, _, rfl, ⟨rfl, rfl, rfl, rfl, rfl, rfl, rfl⟩, rfl, rfl, rfl, rfl, rfl⟩
  · obtain ⟨hchains, hreply⟩ := ite_forget_keeps (flashFits r = true) s.mods
      (Memory.writeAll [] r.address.toNat (flashBytes r) s.channels) (s.mods.epoch + 1)
    refine ⟨_, rfl, ⟨rfl, rfl, rfl, rfl, rfl, rfl, hchains⟩, hreply, rfl, fun h1 h2 => ?_⟩
    simp only [State.acted_mods, if_pos (flashFits_of h1 h2)]
    exact ⟨trivial, fun c i hc hi => readAt_flash_inside h1 h2 _ (State.mem_channels.mpr hc) hi⟩
  · obtain ⟨hchains, hreply⟩ := ite_forget_keeps (flashFits r = true) s.mods
      (Memory.writeAll s.mods.flash r.address.toNat (flashBytes r) s.channels) s.mods.epoch
    refine ⟨_, rfl, ⟨rfl, rfl, rfl, rfl, rfl, rfl, hchains⟩, hreply, rfl, fun h1 h2 => ?_⟩
    simp only [State.acted_mods, if_pos (flashFits_of h1 h2)]
    refine ⟨trivial, trivial, fun c i hc hi => readAt_flash_inside h1 h2 _ (State.mem_channels.mpr hc) hi,
      fun c a hout => ?_⟩
    have hlen := flashBytes_length h1
    refine Memory.readAt_writeAll_outside _ _ _ _ _ _ (by rw [hlen]; exact h2) ?_
    rw [hlen]
    exact hout.imp_left fun hc hmem => absurd (State.mem_channels.mp hmem) (Nat.not_lt.mpr hc)

end Sys2Proof.Machine
end

section
/-! PROOFS. 40_device_ops.md rules R141, R142 and 70_reset_and_hazards.md rule R308: the trigger and the status wait. -/

namespace Sys2Proof.Machine

open Config (params)

/-! ### TRIGGER -/

/-- Settles O21: the range of the action, then the write; action 0 writes the registers of the bus reset. -/
theorem triggerStrobes : Obligations.TriggerStrobes := by
  intro s action hbusy
  split
  next hbig =>
    have hbad : ¬ (0 ≤ action.toNat ∧ action.toNat ≤ 4) := by omega
    exact operate_of_raise hbusy (run_bind_error (run_bind_error (run_checkRange_error _ _ _ _ _ hbad)))
  next hsmall =>
    have hsess : s.ctx.sess.onTrigger action.toNat = if action = 0 then s.ctx.sess.busReset else s.ctx.sess :=
      if_congr ⟨fun h => BitVec.eq_of_toNat_eq h, fun h => congrArg BitVec.toNat h⟩ rfl rfl
    refine (operate_silently_ok hbusy (run_trigger _ _ (Nat.not_lt.mp hsmall))).trans ?_
    rw [hsess]
    rfl

/-! ### WAIT_STATUS -/

/-- The operation ends as its wait does. -/
theorem run_waitStatus_answering_error {set clr timeout : Word} {c c' : Ctx} {e : Stop}
    (h : waitStatus set clr timeout c = .error e c') :
    (answering do
      let w ← waitStatus set clr timeout
      pure (le32 w)) c = .error e c' := run_bind_error (run_bind_error h)

/-- Settles O22. -/
theorem waitStatusSucceeds : Obligations.WaitStatusSucceeds := fun _ _ _ _ _ hbusy hx ho =>
  operate_answering_ok hbusy (run_bind_ok (run_waitStatus _ _ _ _ _ hx ho))

/-- Settles O23: `Failure` and `Timeout` are raised in the context of the words polled, and write `Faulted`. -/
theorem waitStatusFails : Obligations.WaitStatusFails := by
  intro s set clr timeout x late hbusy
  refine ⟨fun hx ho => ?_, fun hx ho => ?_⟩
  · exact operate_of_raise hbusy (run_waitStatus_answering_error (run_waitStatus_failure _ _ _ _ _ hx ho))
  · exact operate_of_raise hbusy (run_waitStatus_answering_error (run_waitStatus_timeout _ _ _ _ _ _ hx ho))

/-- Without a deadline the polls use up words that end nothing, and then wait for one more (rule R308). -/
theorem run_waitStatus_unanswered (set clr : Word) (d : Nat) (ts : List Nat) (c : Ctx) (ht : c.env.ticks = d :: ts)
    (hpending : c.env.reads.all (pending set clr) = true) :
    waitStatus set clr params.noTimeout c = .error (.wait .read)
      (({ c with env := { c.env with now := c.env.now + d, ticks := ts } } : Ctx).polledOn c.env.reads [] [] ts) := by
  have hw : ∀ w ∈ c.env.reads, hasFailed w = false ∧ holds w (set &&& statusBits) (clr &&& statusBits) = false := by
    simpa [pending] using hpending
  calc waitStatus set clr params.noTimeout c
    _ = pollStatus (set &&& statusBits) (clr &&& statusBits) params.noTimeout (c.env.now + d) (c.env.reads.length + 0)
          { c with env := { c.env with now := c.env.now + d, ticks := ts } } := run_bind_ok (run_now_cons c d ts ht)
    _ = _ := pollStatus_pending _ _ _ _ 0 c.env.reads [] _ [] ts hw (List.append_nil _).symm rfl (fun _ => rfl)
          fun hno => absurd rfl hno

/-- Settles O24: the operation is suspended at its next `RegRead`. -/
theorem waitWithoutDeadlineGoesOn : Obligations.WaitWithoutDeadlineGoesOn := by
  intro s set clr d ts hbusy hticks hpending
  have hrun := run_waitStatus_answering_error (run_waitStatus_unanswered set clr d ts s.ctx hticks hpending)
  have hexec : exec (.waitStatus set clr params.noTimeout) s = _ :=
    (operate_idle hbusy).trans (congrArg (conclude (.waitStatus set clr params.noTimeout) s) hrun)
  refine ⟨_, hexec, rfl, rfl, rfl, rfl, ?_⟩
  simp [Ctx.polledOn, Ctx.trace, Link.noteReads_eq, Function.comp_def]

end Sys2Proof.Machine
end

section
/-! PROOFS. 40_device_ops.md rule R148 and 20_memory.md rule R73: the command buffer after `WRITE_COMMAND`. Word writes
and half-word writes store the same kind of thing, the data padded with zeros, as one byte string from the first word of
the buffer on; what is read afterwards is then a fact about one `Memory.writeBytes`. -/

namespace Sys2Proof.Machine

open Config

theorem flatMap_le32 (ws : List Word) : ws.flatMap le32 = bytesOf ws := by
  induction ws with
  | nil => rfl
  | cons w ws ih => rw [List.flatMap_cons, ih, bytesOf]

/-- Word writes above the trigger store their bytes one after the other, and put nothing on the wire. -/
theorem Link.writeWords_stores (l : Link) (ws : List Word) (i : Nat) (h : params.cmdBuf ≤ i) :
    (l.writeWords i ws).win = Memory.writeBytes l.win (4 * i) (ws.flatMap le32)
    ∧ (l.writeWords i ws).wire = l.wire := by
  induction ws generalizing l i with
  | nil => exact ⟨rfl, rfl⟩
  | cons w ws ih =>
    have hi : i ≠ params.regTrigger := by simp only [params_cmdBuf, params_regTrigger] at h ⊢; omega
    rw [Link.writeWords, Link.write_store l i w hi, List.flatMap_cons, Memory.writeBytes_append, le32_length]
    exact ih _ (i + 1) (Nat.le_succ_of_le h)

/-- Half-word writes store their bytes one after the other, and put nothing on the wire. -/
theorem Link.writeHalves_stores (l : Link) (hs : List Half) (i : Nat) (upper : Bool) :
    (l.writeHalves i upper hs).win = Memory.writeBytes l.win (4 * i + if upper then 2 else 0) (hs.flatMap le16)
    ∧ (l.writeHalves i upper hs).wire = l.wire := by
  induction hs generalizing l i upper with
  | nil => exact ⟨rfl, rfl⟩
  | cons x hs ih =>
    obtain ⟨hwin, hwire⟩ := ih (l.write16 i upper x) (if upper then i + 1 else i) (!upper)
    refine ⟨?_, hwire⟩
    rw [List.flatMap_cons, Memory.writeBytes_append, le16_length]
    refine hwin.trans ?_
    cases upper <;> rfl

/-- The bytes a command takes in the buffer (20_memory.md rule R73). -/
def commandRoom (wide : Bool) (n : Nat) : Nat := if wide then even n else up4 n

theorem le_commandRoom (wide : Bool) (n : Nat) : n ≤ commandRoom wide n := by
  cases wide
  · exact le_up4 n
  · exact Nat.le_add_right n _

theorem flatMap_halvesOf (b : List Byte) : (halvesOf b).flatMap le16 = b ++ zeros (even b.length - b.length) :=
  flatten_halvesOf b

theorem flatMap_wordsOf (b : List Byte) : (wordsOf b).flatMap le32 = b ++ zeros (up4 b.length - b.length) := by
  rw [flatMap_le32, bytesOf_wordsOf]

/-- In either width `WriteCommand` stores the data, padded with zeros, from the first word of the buffer on. -/
theorem Link.writeCommand_stores (l : Link) (wide : Bool) (b : List Byte) :
    (l.writeCommand wide b).win =
      Memory.writeBytes l.win (4 * params.cmdBuf) (b ++ zeros (commandRoom wide b.length - b.length))
    ∧ (l.writeCommand wide b).wire = l.wire := by
  cases wide
  · have h := l.writeWords_stores (wordsOf b) params.cmdBuf (Nat.le_refl _)
    rwa [flatMap_wordsOf] at h
  · have h := l.writeHalves_stores (halvesOf b) params.cmdBuf false
    rwa [flatMap_halvesOf] at h

/-- The writes of `WriteCommand`, one per half-word or word, in rising order. -/
theorem Link.writeCommand_log (l : Link) (wide : Bool) (b : List Byte) :
    (l.writeCommand wide b).log.reverse = l.log.reverse ++
      if wide then (halvesOf b).zipIdx.map fun p => .write16 (0x100 + p.2 / 2) (p.2 % 2 == 1) p.1
      else (wordsOf b).zipIdx.map fun p => .write (0x100 + p.2) p.1 := by
  cases wide
  · exact l.writeWords_log (wordsOf b) params.cmdBuf 0 (by decide)
  · exact l.writeHalves_log (halvesOf b) params.cmdBuf 0

/-- What is read back of a padded command: its bytes, then zeros, and what was there before elsewhere. -/
theorem Memory.read_writeBytes_padded (m : Memory) (a room : Nat) (b : List Byte) (h : b.length ≤ room) :
    (∀ k, k < b.length → Memory.read (Memory.writeBytes m a (b ++ zeros (room - b.length))) (a + k) = b[k]?)
    ∧ (∀ k, b.length ≤ k → k < room →
        Memory.read (Memory.writeBytes m a (b ++ zeros (room - b.length))) (a + k) = some 0)
    ∧ ∀ k, k < a ∨ a + room ≤ k →
        Memory.read (Memory.writeBytes m a (b ++ zeros (room - b.length))) k = Memory.read m k := by
  have hlen : (b ++ zeros (room - b.length)).length = room := by simp [zeros]; omega
  refine ⟨fun k hk => ?_, fun k hk hroom => ?_, fun k hk => ?_⟩
  · rw [Memory.read_writeBytes_inside _ _ _ _ (by omega), List.getElem?_append_left hk]
  · rw [Memory.read_writeBytes_inside _ _ _ _ (by omega), List.getElem?_append_right hk, zeros,
      List.getElem?_replicate_of_lt (by omega)]
  · exact Memory.read_writeBytes_outside _ _ _ _ (by rwa [hlen])

/-- Settles O29. -/
theorem writeCommandRule : Obligations.WriteCommandRule := by
  intro s data hbusy
  refine ⟨fun hbig => ?_, fun hsmall => ?_⟩
  · have hbad : ¬ (0 ≤ data.length ∧ data.length ≤ 264) := by omega
    exact operate_of_raise hbusy (run_bind_error (run_bind_error (run_checkRange_error _ _ _ _ _ hbad)))
  · obtain ⟨hwin, hwire⟩ := s.ctx.link.writeCommand_stores s.ctx.sess.wide16 data
    obtain ⟨hinside, hpadding, houtside⟩ := Memory.read_writeBytes_padded s.ctx.link.win (4 * params.cmdBuf) _ data
      (le_commandRoom s.ctx.sess.wide16 data.length)
    rw [← hwin] at hinside hpadding houtside
    exact ⟨operate_silently_ok hbusy (run_writeCommand data s.ctx hsmall), hwire, s.ctx.link.writeCommand_log _ data,
      flatMap_halvesOf data, flatMap_wordsOf data, hinside, hpadding, houtside⟩

end Sys2Proof.Machine
end

section
/-! PROOFS. 40_device_ops.md rules R150 to R153: the bounded read of all channels and the streaming reads. The answers an
operation uses are taken apart with `Answers.followedBy`, one `RegRead`, `Now()` or idle point after the other. -/

namespace Sys2Proof.Machine

open Config

/-! ### Operand checks -/

theorem run_checkSlices {size n : Nat} (c : Ctx) (h1 : 1 ≤ n) (h8 : n ≤ 8) (hcap : size * n ≤ 4096) :
    checkSlices size n c = .ok () c :=
  (run_bind_ok (run_checkRange 1 n 1 8 c ⟨h1, h8⟩)).trans (run_require_true _ _ c hcap)

theorem run_checkSlices_channels {size n : Nat} (c : Ctx) (h : n < 1 ∨ 8 < n) :
    checkSlices size n c = .error (.raise (.invalidConfig 1 n 1 8)) c :=
  run_bind_error (run_checkRange_error 1 n 1 8 c (by omega))

theorem run_checkSlices_total {size n : Nat} (c : Ctx) (h1 : 1 ≤ n) (h8 : n ≤ 8) (hcap : 4096 < size * n) :
    checkSlices size n c = .error (.raise (.invalidConfig 0 size 0 (4096 / n))) c :=
  (run_bind_ok (run_checkRange 1 n 1 8 c ⟨h1, h8⟩)).trans (run_require_false _ _ c (Nat.not_le.mpr hcap))

/-- The slices of a whole number of bytes per channel make up those bytes. -/
theorem flatten_channelSlices_take (b : List Byte) (size n : Nat) (h : size * n ≤ b.length) :
    (channelSlices (b.take (size * n)) size n).flatten = b.take (size * n) := by
  rw [flatten_channelSlices _ _ _ (by simpa using h), List.take_take, Nat.min_self]

/-- Settles O33. -/
theorem streamOperandChecks : Obligations.StreamOperandChecks := by
  intro s size n timeout budget hbusy
  refine ⟨fun h => ⟨?_, ?_⟩, fun ⟨h1, h8, hcap⟩ => ⟨?_, ?_⟩⟩
  · exact operate_of_raise hbusy (run_bind_error (run_bind_error (run_checkSlices_channels _ h)))
  · exact operate_of_raise hbusy (run_bind_error (run_bind_error (run_bind_error (run_checkSlices_channels _ h))))
  · exact operate_of_raise hbusy (run_bind_error (run_bind_error (run_checkSlices_total _ h1 h8 hcap)))
  · exact operate_of_raise hbusy (run_bind_error (run_bind_error (run_bind_error (run_checkSlices_total _ h1 h8 hcap))))

/-- Settles O31. -/
theorem readRxAllRule : Obligations.ReadRxAllRule := by
  intro s size n ws hbusy
  refine ⟨fun h => ?_, fun ⟨h1, h8, hcap⟩ => ?_, fun ⟨h1, h8, hcap⟩ hlen ho => ?_⟩
  · exact operate_of_raise hbusy (run_bind_error (run_bind_error (run_bind_error (run_checkSlices_channels _ h))))
  · exact operate_of_raise hbusy (run_bind_error (run_bind_error (run_bind_error (run_checkSlices_total _ h1 h8 hcap))))
  · have hbytes : size.toNat * n.toNat ≤ (bytesOf ws).length := by
      have := le_up4 (size.toNat * n.toNat)
      rw [up4_eq] at this
      rw [bytesOf_length, hlen, up4_div]
      exact this
    have hrun := run_readRxAll size.toNat n.toNat ws _ s.ctx h1 h8 hcap (offers_reads ho) hlen
    rw [← flatten_channelSlices _ _ _ hbytes]
    exact operate_answering_ok hbusy (run_bind_ok hrun)

/-! ### One pull -/

/-- The words a pull takes fill the total. -/
theorem Pull.fills {p : Pull} {stash : List Byte} {total budget : Nat}
    (hp : p.good (ceilDiv (total - stash.length) 4) budget = true) : total ≤ (stash ++ bytesOf p.words).length := by
  simp only [Pull.good, Bool.and_eq_true, beq_iff_eq] at hp
  rw [List.length_append, bytesOf_length, hp.1.2, ceilDiv]
  omega

/-- The context after several pulls and after the answers `a` they used. -/
def Ctx.pulledOn (c : Ctx) (pulls : List (List Word)) (a : Answers) : Ctx :=
  { c with link := c.link.notePulls pulls, env := c.env.used a }

theorem Ctx.pulledOn_pulledOn (c : Ctx) (p q : List (List Word)) (a b : Answers) :
    (c.pulledOn p a).pulledOn q b = c.pulledOn (p ++ q) (a.followedBy b) := by
  simp only [Ctx.pulledOn, Env.used_used, Link.notePulls, List.foldl_append]

theorem run_readSkip_offered {total budget : Nat} {p : Pull} {c : Ctx} (h : c.sess.stash.length < total)
    (hp : p.good (ceilDiv (total - c.sess.stash.length) 4) budget = true) (ho : c.env.offers ⟨p.reads, [], []⟩ = true) :
    readSkip total budget c = .ok (some ((c.sess.stash ++ bytesOf p.words).take total))
      { (c.pulledOn [p.reads] ⟨p.reads, [], []⟩) with
        sess := c.sess.setStash ((c.sess.stash ++ bytesOf p.words).drop total) } :=
  run_readSkip total budget p _ c h hp (offers_reads ho)

theorem run_readSkip_notReady {total budget : Nat} {c : Ctx} (h : c.sess.stash.length < total)
    (ho : c.env.offers ⟨List.replicate (budget + 1) 0, [], []⟩ = true) :
    readSkip total budget c = .ok none
      (c.pulledOn [List.replicate (budget + 1) 0] ⟨List.replicate (budget + 1) 0, [], []⟩) :=
  run_readSkip_none total budget _ c h (offers_reads ho)

/-- `READ_RX_STREAM` ends as its pull does, once its operands are good. -/
theorem run_readRxStream {size n budget : Nat} {c c' : Ctx} {b : Option (List Byte)} (h1 : 1 ≤ n) (h8 : n ≤ 8)
    (hcap : size * n ≤ 4096) (h : readSkip (size * n) budget c = .ok b c') :
    readRxStream size n budget c = .ok (b.map fun b => channelSlices b size n) c' := by
  refine (run_bind_ok (run_checkSlices c h1 h8 hcap)).trans ((run_bind_ok h).trans ?_)
  cases b <;> rfl

/-- Settles O32: the stash alone, a pull that is ready, a pull that is not. -/
theorem readRxStreamRule : Obligations.ReadRxStreamRule := by
  intro s size n budget p hbusy ⟨h1, h8, hcap⟩
  have hend {b : Option (List Byte)} {c' : Ctx}
      (h : readSkip (size.toNat * n.toNat) budget.toNat s.ctx = .ok b c') : exec (.readRxStream size n budget) s =
        .next (s.deliver (okResult (b.map fun b => (channelSlices b size.toNat n.toNat).flatten)) c') := by
    refine (operate_idle hbusy).trans
      (congrArg (conclude _ s) (run_bind_ok (run_readRxStream h1 h8 hcap h))) |>.trans ?_
    cases b <;> rfl
  refine ⟨fun hstash => ?_, fun hshort hp ho => ?_, fun hshort ho => ?_⟩
  · rw [hend (run_readSkip_stash _ _ _ hstash), Option.map_some, flatten_channelSlices_take _ _ _ hstash]
    rfl
  · rw [hend (run_readSkip_offered hshort hp ho), Option.map_some, flatten_channelSlices_take _ _ _ (Pull.fills hp)]
    rfl
  · rw [hend (run_readSkip_notReady hshort ho)]
    rfl

/-! ### Attempts until one is ready -/

/-- `m` readings of the time base from `now` on find the deadline not passed; with NO_TIMEOUT there are none (rule
R116). -/
def StillEarly (timeout : Word) (t0 now m : Nat) (later : List Nat) : Prop :=
  if timeout = params.noTimeout then later = []
  else later.length = m ∧ (m = 0 ∨ now + later.sum < t0 + timeout.toNat)

theorem stillEarly_of_inTime {timeout : Word} {m : Nat} {later : List Nat} (t0 : Nat) (h : inTime timeout m later = true) :
    StillEarly timeout t0 t0 m later := by
  unfold inTime at h
  unfold StillEarly
  split at h
  next hno => rwa [if_pos hno, ← beq_iff_eq]
  next hno =>
    simp only [Bool.and_eq_true, beq_iff_eq, Bool.or_eq_true, decide_eq_true_eq] at h
    rw [if_neg hno]
    exact ⟨h.1, h.2.imp_right fun hlt => Nat.add_lt_add_left hlt t0⟩

theorem StillEarly.split {timeout : Word} {t0 now m k : Nat} {later : List Nat}
    (h : StillEarly timeout t0 now (m + k) later) :
    ∃ a b, later = a ++ b ∧ StillEarly timeout t0 now m a ∧ StillEarly timeout t0 (now + a.sum) k b := by
  unfold StillEarly at h ⊢
  split at h
  next hno => exact ⟨[], [], h, by simp [hno]⟩
  next hno =>
    obtain ⟨hlen, hsum⟩ := h
    have htotal := congrArg List.sum (List.take_append_drop m later)
    rw [List.sum_append] at htotal
    refine ⟨later.take m, later.drop m, (List.take_append_drop m later).symm, ?_⟩
    rw [if_neg hno, if_neg hno]
    exact ⟨⟨by simp [hlen], by omega⟩, by simp [hlen], by omega⟩

theorem StillEarly.eq_nil {timeout : Word} {t0 now : Nat} {later : List Nat} (h : StillEarly timeout t0 now 0 later) :
    later = [] := by
  unfold StillEarly at h
  split at h
  · exact h
  · exact List.eq_nil_of_length_eq_zero h.1

theorem run_deadlinePassed_early {timeout : Word} {t0 : Nat} {later : List Nat} {c : Ctx}
    (h : StillEarly timeout t0 c.env.now 1 later) (ho : c.env.offers ⟨[], later, []⟩ = true) :
    deadlinePassed t0 timeout c = .ok false { c with env := c.env.used ⟨[], later, []⟩ } := by
  unfold StillEarly at h
  split at h
  next hno =>
    subst hno h
    exact run_deadlinePassed_none t0 c
  next hno =>
    obtain ⟨hlen, hsum⟩ := h
    obtain ⟨d, rfl⟩ := List.length_eq_one_iff.mp hlen
    rw [run_deadlinePassed t0 timeout c d _ hno (offers_ticks ho), decide_eq_false (by simp at hsum; omega)]
    rfl

/-- An attempt that is not ready goes on to the deadline test. -/
theorem pullUntil_notReady {total budget : Nat} {timeout : Word} {c : Ctx} (t0 fuel : Nat)
    (hshort : c.sess.stash.length < total) (ho : c.env.offers ⟨List.replicate (budget + 1) 0, [], []⟩ = true) :
    pullUntil total timeout budget t0 (fuel + 1) c =
      (deadlinePassed t0 timeout >>= fun late =>
        if late then raise (.timeout 0 0 0 true)
        else idlePoint >>= fun go => if go then pullUntil total timeout budget t0 fuel else raise .cancelled)
        (c.pulledOn [List.replicate (budget + 1) 0] ⟨List.replicate (budget + 1) 0, [], []⟩) :=
  run_bind_ok (run_readSkip_notReady hshort ho)

/-- An attempt that is not ready, with the deadline not passed, does as the host says at the idle point. -/
theorem pullUntil_idlePoint {total budget : Nat} {timeout : Word} {c : Ctx} {t0 : Nat} {later : List Nat} {go : Bool}
    (fuel : Nat) (hshort : c.sess.stash.length < total) (hearly : StillEarly timeout t0 c.env.now 1 later)
    (ho : c.env.offers ⟨List.replicate (budget + 1) 0, later, [go]⟩ = true) :
    pullUntil total timeout budget t0 (fuel + 1) c =
      (if go then pullUntil total timeout budget t0 fuel else raise .cancelled)
        (c.pulledOn [List.replicate (budget + 1) 0] ⟨List.replicate (budget + 1) 0, later, [go]⟩) := by
  have hsplit : (⟨List.replicate (budget + 1) 0, later, [go]⟩ : Answers) =
      Answers.followedBy ⟨List.replicate (budget + 1) 0, [], []⟩ (Answers.followedBy ⟨[], later, []⟩ ⟨[], [], [go]⟩) := by
    simp [Answers.followedBy]
  rw [hsplit, Env.offers_followedBy, Env.offers_followedBy, Bool.and_eq_true, Bool.and_eq_true] at ho
  obtain ⟨hreads, hticks, hidles⟩ := ho
  have hidle := ((Env.offers_iff _ _).mp hidles).2.2
  have hlate := run_deadlinePassed_early (t0 := t0) (timeout := timeout)
    (c := c.pulledOn [List.replicate (budget + 1) 0] ⟨List.replicate (budget + 1) 0, [], []⟩) hearly hticks
  have hidle := run_idle_cons ((c.pulledOn [List.replicate (budget + 1) 0] ⟨List.replicate (budget + 1) 0, [], []⟩).pulledOn
    [] ⟨[], later, []⟩) go _ hidle
  refine (pullUntil_notReady t0 fuel hshort hreads).trans ((run_bind_ok hlate).trans ((run_bind_ok hidle).trans ?_))
  rw [hsplit, ← List.append_nil [List.replicate (budget + 1) 0], ← Ctx.pulledOn_pulledOn,
    ← List.append_nil [], ← Ctx.pulledOn_pulledOn]
  rfl

/-- The answers of `m` attempts that are not ready and after which the operation goes on. -/
def idleAttempts (m budget : Nat) (later : List Nat) : Answers :=
  ⟨List.replicate (m * (budget + 1)) 0, later, List.replicate m true⟩

theorem idleAttempts_succ (m budget : Nat) (a b : List Nat) : idleAttempts (m + 1) budget (a ++ b) =
    Answers.followedBy ⟨List.replicate (budget + 1) 0, a, [true]⟩ (idleAttempts m budget b) := by
  rw [idleAttempts, Nat.succ_mul, Nat.add_comm (m * (budget + 1)), List.replicate_add]
  rfl

theorem pullUntil_attempts {total budget : Nat} {timeout : Word} {t0 : Nat} (m fuel : Nat) {later : List Nat} {c : Ctx}
    (hshort : c.sess.stash.length < total) (hearly : StillEarly timeout t0 c.env.now m later)
    (ho : c.env.offers (idleAttempts m budget later) = true) :
    pullUntil total timeout budget t0 (m + fuel) c = pullUntil total timeout budget t0 fuel
      (c.pulledOn (List.replicate m (List.replicate (budget + 1) 0)) (idleAttempts m budget later)) := by
  induction m generalizing later c with
  | zero =>
    obtain rfl := hearly.eq_nil
    simp [idleAttempts, Ctx.pulledOn, Link.notePulls, Env.used]
  | succ m ih =>
    rw [Nat.add_comm m 1] at hearly
    obtain ⟨a, b, rfl, ha, hb⟩ := hearly.split
    rw [idleAttempts_succ, Env.offers_followedBy, Bool.and_eq_true] at ho
    rw [Nat.add_right_comm, idleAttempts_succ]
    have hrest := ih (c := c.pulledOn [List.replicate (budget + 1) 0] ⟨List.replicate (budget + 1) 0, a, [true]⟩)
      hshort hb ho.2
    refine (pullUntil_idlePoint (m + fuel) hshort ha ho.1).trans (hrest.trans ?_)
    rw [Ctx.pulledOn_pulledOn]
    rfl

/-! ### READ_RX_STREAM_BLK -/

/-- With operands in range the operation notes the time and begins its attempts. -/
theorem run_readRxStreamBlk_begin {size n budget d0 : Nat} {timeout : Word} {c : Ctx} (h1 : 1 ≤ n) (h8 : n ≤ 8)
    (hcap : size * n ≤ 4096) (ho : c.env.offers ⟨[], [d0], []⟩ = true) :
    readRxStreamBlk size n timeout budget c =
      (pullUntil (size * n) timeout budget (c.env.now + d0) (c.env.reads.length + 1) >>= fun b =>
        pure (channelSlices b size n)) (c.pulledOn [] ⟨[], [d0], []⟩) :=
  (run_bind_ok (run_checkSlices c h1 h8 hcap)).trans ((run_bind_ok (run_now_cons c d0 _ (offers_ticks ho))).trans rfl)

/-- The operation delivers what its attempts end with. -/
theorem exec_readRxStreamBlk_ok {s : State} {size n timeout budget : Word} {d0 : Nat} {b : List Byte} {c' : Ctx}
    (hbusy : s.busy = false) (hn : 1 ≤ n.toNat ∧ n.toNat ≤ 8 ∧ size.toNat * n.toNat ≤ 4096)
    (hb : size.toNat * n.toNat ≤ b.length) (ho : s.ctx.env.offers ⟨[], [d0], []⟩ = true)
    (h : pullUntil (size.toNat * n.toNat) timeout budget.toNat (s.ctx.env.now + d0) (s.ctx.env.reads.length + 1)
      (s.ctx.pulledOn [] ⟨[], [d0], []⟩) = .ok (b.take (size.toNat * n.toNat)) c') :
    exec (.readRxStreamBlk size n timeout budget) s =
      .next (s.finishedOk (b.take (size.toNat * n.toNat)) c') := by
  obtain ⟨h1, h8, hcap⟩ := hn
  have hrun : readRxStreamBlk size.toNat n.toNat timeout budget.toNat s.ctx =
      .ok (channelSlices (b.take (size.toNat * n.toNat)) size.toNat n.toNat) c' :=
    (run_readRxStreamBlk_begin h1 h8 hcap ho).trans (run_bind_ok h)
  rw [← flatten_channelSlices_take _ _ _ hb]
  exact operate_answering_ok hbusy (run_bind_ok hrun)

theorem exec_readRxStreamBlk_error {s : State} {size n timeout budget : Word} {d0 : Nat} {e : Err} {c' : Ctx}
    (hbusy : s.busy = false) (hn : 1 ≤ n.toNat ∧ n.toNat ≤ 8 ∧ size.toNat * n.toNat ≤ 4096)
    (ho : s.ctx.env.offers ⟨[], [d0], []⟩ = true)
    (h : pullUntil (size.toNat * n.toNat) timeout budget.toNat (s.ctx.env.now + d0) (s.ctx.env.reads.length + 1)
      (s.ctx.pulledOn [] ⟨[], [d0], []⟩) = .error (.raise e) c') :
    exec (.readRxStreamBlk size n timeout budget) s = .next (s.finishedErr e c') := by
  obtain ⟨h1, h8, hcap⟩ := hn
  have hrun : readRxStreamBlk size.toNat n.toNat timeout budget.toNat s.ctx = _ :=
    (run_readRxStreamBlk_begin h1 h8 hcap ho).trans (run_bind_error h)
  exact operate_of_raise hbusy (run_bind_error (run_bind_error hrun))

/-- The fuel of the operation covers the attempts that its answers allow, and one more. -/
theorem fuel_of_attempts {e : Env} {m budget : Nat} {ws : List Word} {ts : List Nat} {is : List Bool}
    (ho : e.offers ⟨List.replicate (m * (budget + 1)) 0 ++ ws, ts, is⟩ = true) :
    ∃ fuel, e.reads.length + 1 = m + (fuel + 1) := by
  have hlen := congrArg List.length (offers_reads ho)
  simp only [List.length_append, List.length_replicate, Nat.mul_succ] at hlen
  exact ⟨e.reads.length - m, by omega⟩

/-- Settles O34: the stash alone; or `m` attempts that are not ready, then one that is. -/
theorem streamBlockingCompletes : Obligations.StreamBlockingCompletes := by
  intro s size n timeout budget m d0 later p hbusy hn
  refine ⟨fun hstash ho => ?_, fun hshort hearly hp ho => ?_⟩
  · exact exec_readRxStreamBlk_ok hbusy hn hstash ho
      (run_bind_ok (run_readSkip_stash _ _ (s.ctx.pulledOn [] ⟨[], [d0], []⟩) hstash))
  · obtain ⟨fuel, hfuel⟩ := fuel_of_attempts ho
    have hsplit : (⟨List.replicate (m * (budget.toNat + 1)) 0 ++ p.reads, d0 :: later, List.replicate m true⟩ : Answers) =
        Answers.followedBy ⟨[], [d0], []⟩ (Answers.followedBy (idleAttempts m budget.toNat later) ⟨p.reads, [], []⟩) := by
      simp [Answers.followedBy, idleAttempts]
    rw [hsplit, Env.offers_followedBy, Env.offers_followedBy, Bool.and_eq_true, Bool.and_eq_true] at ho
    obtain ⟨hstart, hidle, hready⟩ := ho
    refine exec_readRxStreamBlk_ok hbusy hn (Pull.fills hp) hstart ?_
    have hattempts := pullUntil_attempts (c := s.ctx.pulledOn [] ⟨[], [d0], []⟩) m (fuel + 1) hshort
      (stillEarly_of_inTime _ hearly) hidle
    have hlast := run_readSkip_offered (c := (s.ctx.pulledOn [] ⟨[], [d0], []⟩).pulledOn
      (List.replicate m (List.replicate (budget.toNat + 1) 0)) (idleAttempts m budget.toNat later)) hshort hp hready
    rw [hfuel]
    refine hattempts.trans ((run_bind_ok hlast).trans ?_)
    rw [Ctx.pulledOn_pulledOn, Ctx.pulledOn_pulledOn, hsplit]
    rfl

/-- An attempt that is not ready, with the deadline passed, raises `Timeout` (40_device_ops.md rule R153). -/
theorem pullUntil_late {total budget : Nat} {timeout : Word} {c : Ctx} {t0 late : Nat} (fuel : Nat)
    (hshort : c.sess.stash.length < total) (hno : timeout ≠ params.noTimeout)
    (hlate : t0 + timeout.toNat ≤ c.env.now + late)
    (ho : c.env.offers ⟨List.replicate (budget + 1) 0, [late], []⟩ = true) :
    pullUntil total timeout budget t0 (fuel + 1) c = raise (.timeout 0 0 0 true)
      (c.pulledOn [List.replicate (budget + 1) 0] ⟨List.replicate (budget + 1) 0, [late], []⟩) := by
  have hsplit : (⟨List.replicate (budget + 1) 0, [late], []⟩ : Answers) =
      Answers.followedBy ⟨List.replicate (budget + 1) 0, [], []⟩ ⟨[], [late], []⟩ := by simp [Answers.followedBy]
  rw [hsplit, Env.offers_followedBy, Bool.and_eq_true] at ho
  have hpassed := run_deadlinePassed t0 timeout
    (c.pulledOn [List.replicate (budget + 1) 0] ⟨List.replicate (budget + 1) 0, [], []⟩) late _ hno (offers_ticks ho.2)
  rw [decide_eq_true (by exact hlate)] at hpassed
  refine (pullUntil_notReady t0 fuel hshort ho.1).trans ((run_bind_ok hpassed).trans ?_)
  rw [hsplit, ← List.append_nil [List.replicate (budget + 1) 0], ← Ctx.pulledOn_pulledOn]
  rfl

/-- The context after the start of the operation, `m` attempts, and one attempt more. -/
theorem Ctx.pulledOn_last (c : Ctx) (m : Nat) (ws : List Word) (start idle last : Answers) :
    ((c.pulledOn [] start).pulledOn (List.replicate m ws) idle).pulledOn [ws] last =
      c.pulledOn (List.replicate (m + 1) ws) (start.followedBy (idle.followedBy last)) := by
  rw [Ctx.pulledOn_pulledOn, Ctx.pulledOn_pulledOn, List.nil_append, ← List.replicate_succ']

/-- Settles O35: `m` attempts from which the operation goes on, then one that ends it. -/
theorem streamBlockingEndsEarly : Obligations.StreamBlockingEndsEarly := by
  intro s size n timeout budget m d0 later hbusy hn hshort
  have hzeros : List.replicate ((m + 1) * (budget.toNat + 1)) (0 : Word) =
      List.replicate (m * (budget.toNat + 1)) 0 ++ List.replicate (budget.toNat + 1) 0 := by
    rw [List.replicate_append_replicate, Nat.succ_mul]
  rw [hzeros]
  refine ⟨fun late hdeadline hearly hlate ho => ?_, fun hearly ho => ?_⟩
  · obtain ⟨fuel, hfuel⟩ := fuel_of_attempts ho
    have hsplit : (⟨List.replicate (m * (budget.toNat + 1)) 0 ++ List.replicate (budget.toNat + 1) 0,
          d0 :: (later ++ [late]), List.replicate m true⟩ : Answers) =
        Answers.followedBy ⟨[], [d0], []⟩ (Answers.followedBy (idleAttempts m budget.toNat later)
          ⟨List.replicate (budget.toNat + 1) 0, [late], []⟩) := by
      simp [Answers.followedBy, idleAttempts]
    rw [hsplit, Env.offers_followedBy, Env.offers_followedBy, Bool.and_eq_true, Bool.and_eq_true] at ho
    obtain ⟨hstart, hidle, hlast⟩ := ho
    have hattempts := pullUntil_attempts (c := s.ctx.pulledOn [] ⟨[], [d0], []⟩) m (fuel + 1) hshort
      (stillEarly_of_inTime _ hearly) hidle
    have hraise := pullUntil_late (c := (s.ctx.pulledOn [] ⟨[], [d0], []⟩).pulledOn
      (List.replicate m (List.replicate (budget.toNat + 1) 0)) (idleAttempts m budget.toNat later))
      (t0 := s.ctx.env.now + d0) fuel hshort hdeadline
      (show s.ctx.env.now + d0 + timeout.toNat ≤ s.ctx.env.now + d0 + later.sum + late by omega) hlast
    rw [← hfuel] at hattempts
    rw [Ctx.pulledOn_last, ← hsplit] at hraise
    exact exec_readRxStreamBlk_error hbusy hn hstart (hattempts.trans hraise)
  · obtain ⟨fuel, hfuel⟩ := fuel_of_attempts ho
    obtain ⟨a, b, rfl, ha, hb⟩ := (stillEarly_of_inTime (s.ctx.env.now + d0) hearly).split
    have hsplit : (⟨List.replicate (m * (budget.toNat + 1)) 0 ++ List.replicate (budget.toNat + 1) 0,
          d0 :: (a ++ b), List.replicate m true ++ [false]⟩ : Answers) =
        Answers.followedBy ⟨[], [d0], []⟩ (Answers.followedBy (idleAttempts m budget.toNat a)
          ⟨List.replicate (budget.toNat + 1) 0, b, [false]⟩) := by
      simp [Answers.followedBy, idleAttempts]
    rw [hsplit, Env.offers_followedBy, Env.offers_followedBy, Bool.and_eq_true, Bool.and_eq_true] at ho
    obtain ⟨hstart, hidle, hlast⟩ := ho
    have hattempts := pullUntil_attempts (c := s.ctx.pulledOn [] ⟨[], [d0], []⟩) m (fuel + 1) hshort ha hidle
    have habort := pullUntil_idlePoint (c := (s.ctx.pulledOn [] ⟨[], [d0], []⟩).pulledOn
      (List.replicate m (List.replicate (budget.toNat + 1) 0)) (idleAttempts m budget.toNat a)) fuel hshort hb hlast
    rw [← hfuel] at hattempts
    rw [Ctx.pulledOn_last, ← hsplit] at habort
    exact exec_readRxStreamBlk_error hbusy hn hstart (hattempts.trans habort)

end Sys2Proof.Machine
end

section
/-! PROOFS. 41_bus_ops.md rules R181, R184 to R189 and 42_srq_ops.md rules R230 to R236: the operand checks behind the
gate. Each operation makes its checks before it changes anything, so that a failing one ends it where it began. -/

namespace Sys2Proof.Machine

open Config

/-- Behind the gate an operation goes on with what follows. -/
theorem run_gate_bind {α : Type} {c : Ctx} (h : c.sess.admits = true) (k : Unit → Op α) : (gate >>= k) c = k () c :=
  run_bind_ok (run_gate c h)

/-- A check that passes. -/
theorem run_require_pass {α : Type} {p : Prop} [Decidable p] {e : Err} (h : p) (k : Unit → Op α) (c : Ctx) :
    (require p e >>= k) c = k () c := run_bind_ok (run_require_true p e c h)

/-- A check that fails. -/
theorem run_require_fail {α : Type} {p : Prop} [Decidable p] {e : Err} (h : ¬ p) (k : Unit → Op α) (c : Ctx)
    (he : e.faults = false := by rfl) : (require p e >>= k) c = .error (.raise e) c := by
  rw [run_require_bind he, if_neg h]

/-! ### The bus family -/

theorem run_send_error {code address verify : Nat} {payload : List Byte} {e : Err} {c : Ctx} (hgate : c.sess.admits = true)
    (h : sendError code address verify payload = some e) : send code address verify payload c = .error (.raise e) c := by
  unfold sendError at h
  rw [send, run_gate_bind hgate]
  split at h
  next hread =>
    cases h
    exact run_require_fail (not_not_intro hread) _ c
  next hread =>
    rw [run_require_pass hread]
    split at h
    next hverify =>
      cases h
      exact run_require_fail (Nat.not_le.mpr hverify) _ c
    next hverify =>
      rw [run_require_pass (Nat.not_lt.mp hverify)]
      exact run_bind_error (run_build_error c h)

theorem run_checkRead_error {address dlen : Nat} {e : Err} (c : Ctx) (h : readError address dlen = some e) :
    checkRead address dlen c = .error (.raise e) c := by
  unfold readError at h
  split at h
  next haddress =>
    cases h
    exact run_require_fail (Nat.not_le.mpr haddress) _ c
  next haddress =>
    refine (run_require_pass (Nat.not_lt.mp haddress) _ c).trans ?_
    split at h
    next hlen =>
      cases h
      rw [run_require_false _ _ c hlen]
      rfl
    next => cases h

/-- The address and the length of a read that pass. -/
theorem readable_of_readError {address dlen : Nat} (h : readError address dlen = none) : readable address dlen = true := by
  unfold readError at h
  split at h
  next => cases h
  next haddress =>
    split at h
    next => cases h
    next hlen =>
      obtain ⟨h1, h256⟩ := not_not.mp hlen
      simp only [readable, Bool.and_eq_true, decide_eq_true_eq]
      exact ⟨⟨Nat.not_lt.mp haddress, h1⟩, h256⟩

/-- In a session that is ready `ReadBounded` goes from its operands to the length of its response. -/
theorem run_readBounded_length {address dlen : Nat} {c : Ctx} (hok : c.sess.ok = true) (hgate : c.sess.admits = true)
    (h : readable address dlen = true) :
    readBounded address dlen c =
      (require (c.sess.readLength dlen * c.sess.channels ≤ params.rxCap)
        (.invalidCommand 8 (c.sess.readLength dlen * c.sess.channels)) >>= fun _ =>
      build params.codeRead.toNat address [] dlen >>= fun b =>
      transact b.1 (c.sess.readLength dlen) (c.sess.readLength dlen) >>= fun frames =>
      validateFrom b.2 [] false true 0 frames >>= fun rs => pure (rs.flatMap fun r => r.2)) c := by
  obtain ⟨-, hready, hset⟩ := Session.admits_iff.mp hgate
  obtain ⟨chain, -, n, hchain, -, hn⟩ := Session.ready_set hok hready
  have hlength : c.sess.readLength dlen = frameLen (params.headerBytes + chain.toNat * dlen) := by
    simp [Session.readLength, Session.chainLength, hchain]
  have hchannels : c.sess.channels = n := by simp [Session.channels, hn]
  rw [readBounded, run_gate_bind hgate, run_bind_ok (run_checkRead c h), run_bind_ok (run_needChain c chain hchain),
    run_bind_ok (run_needNch c n hn), hlength, hchannels]

theorem run_readBounded_error {address dlen : Nat} {e : Err} {c : Ctx} (hok : c.sess.ok = true)
    (hgate : c.sess.admits = true) (h : c.sess.boundedError address dlen = some e) :
    readBounded address dlen c = .error (.raise e) c := by
  unfold Session.boundedError at h
  split at h
  next x hx =>
    cases h
    rw [readBounded, run_gate_bind hgate]
    exact run_bind_error (run_checkRead_error c hx)
  next hnone =>
    rw [run_readBounded_length hok hgate (readable_of_readError hnone)]
    split at h
    next hbig =>
      cases h
      exact run_require_fail (Nat.not_le.mpr hbig) _ c
    next => cases h

theorem run_readStreaming_error {address dlen : Nat} {e : Err} {c : Ctx} (hgate : c.sess.admits = true)
    (h : readError address dlen = some e) : readStreaming address dlen c = .error (.raise e) c := by
  rw [readStreaming, run_gate_bind hgate]
  exact run_bind_error (run_checkRead_error c h)

theorem run_readCoherent_error {address dlen : Nat} {e : Err} {c : Ctx} (hgate : c.sess.admits = true)
    (h : coherentError address dlen = some e) : readCoherent address dlen c = .error (.raise e) c := by
  unfold coherentError at h
  rw [readCoherent, run_gate_bind hgate]
  split at h
  next haddress =>
    cases h
    exact run_require_fail (Nat.not_le.mpr haddress) _ c
  next haddress =>
    refine (run_require_pass (Nat.not_lt.mp haddress) _ c).trans ?_
    split at h
    next hlen =>
      cases h
      exact run_require_fail hlen _ c
    next => cases h

/-! ### The SRQ family -/

theorem run_srq_error {code param address : Nat} {payload : List Byte} {e : Err} {c : Ctx} (hgate : c.sess.admits = true)
    (h : srqError code param address payload = some e) : srq code param address payload c = .error (.raise e) c := by
  unfold srqError at h
  rw [srq, run_gate_bind hgate]
  split at h
  next hcode =>
    cases h
    exact run_require_fail (Nat.not_le.mpr hcode) _ c
  next hcode =>
    refine (run_require_pass (Nat.not_lt.mp hcode) _ c).trans ?_
    split at h
    next hparam =>
      cases h
      exact run_require_fail (Nat.not_le.mpr hparam) _ c
    next hparam =>
      refine (run_require_pass (Nat.not_lt.mp hparam) _ c).trans ?_
      split at h
      next haddress =>
        cases h
        exact run_require_fail (Nat.not_le.mpr haddress) _ c
      next haddress =>
        refine (run_require_pass (Nat.not_lt.mp haddress) _ c).trans ?_
        split at h
        next hlen =>
          cases h
          exact run_require_fail (Nat.not_le.mpr hlen) _ c
        next => cases h

/-- With a request code in range, whether the flag bit is set makes no difference to the checks of `Srq`. -/
theorem srqError_of_code {code code' param address : Nat} {payload : List Byte} (h : code ≤ 0xFF) (h' : code' ≤ 0xFF) :
    srqError code param address payload = srqError code' param address payload := by
  unfold srqError
  rw [if_neg (Nat.not_lt.mpr h), if_neg (Nat.not_lt.mpr h')]

theorem flagged_le {code : Nat} (h : code ≤ 0x7F) : code ||| params.srqSyncFlag.toNat ≤ 0xFF :=
  Nat.le_of_lt_succ (Nat.or_lt_two_pow (n := 8) (by omega) (by decide))

theorem run_srqSync_error {code param address delay : Nat} {payload : List Byte} {e : Err} {c : Ctx}
    (hok : c.sess.ok = true) (hgate : c.sess.admits = true) (h : syncError code param address payload = some e) :
    srqSync code param address delay payload c = .error (.raise e) c := by
  obtain ⟨-, hready, -⟩ := Session.admits_iff.mp hgate
  obtain ⟨-, version, -, -, hversion, -⟩ := Session.ready_set hok hready
  unfold syncError at h
  rw [srqSync, run_gate_bind hgate]
  split at h
  next hcode =>
    cases h
    exact run_require_fail (Nat.not_le.mpr hcode) _ c
  next hcode =>
    have hcode := Nat.not_lt.mp hcode
    refine (run_require_pass hcode _ c).trans ((run_bind_ok (run_needVersion c version hversion)).trans ?_)
    have hsync := srqError_of_code (flagged_le hcode) (show code ≤ 0xFF by omega) (param := param) (address := address)
      (payload := payload)
    split
    · exact run_bind_error (run_srq_error hgate (hsync.trans h))
    · exact run_bind_error (run_srq_error hgate h)

theorem run_program_error {address : Nat} {data : List Byte} {e : Err} {c : Ctx} (hgate : c.sess.admits = true)
    (h : programError address data = some e) : program address data c = .error (.raise e) c := by
  unfold programError at h
  rw [program, run_gate_bind hgate]
  split at h
  next haddress =>
    cases h
    exact run_require_fail (Nat.not_le.mpr haddress) _ c
  next haddress =>
    refine (run_require_pass (Nat.not_lt.mp haddress) _ c).trans ?_
    split at h
    next hlen =>
      cases h
      exact run_require_fail hlen _ c
    next => cases h

/-- `BUS_WRITE` is a `SEND` whose own two checks pass (41_bus_ops.md rule R185). -/
theorem sendError_codeWrite (address : Nat) (data : List Byte) :
    sendError params.codeWrite.toNat address 0 data = buildError 0x44 address data 0 := rfl

/-- Settles O20. -/
theorem operandChecks : Obligations.OperandChecks := by
  intro s e hbusy hok hgate
  refine ⟨fun code address verify data h => ?_, fun address data h => ?_, fun address dlen h => ?_,
    fun address dlen h => ?_, fun address dlen h => ?_, fun code param address data h => ?_,
    fun code param address delay data h => ?_, fun address data h => ?_⟩
  · exact operate_of_raise hbusy (run_bind_error (run_bind_error (run_send_error hgate h)))
  · exact operate_of_raise hbusy (run_bind_error (run_bind_error
      (run_send_error hgate ((sendError_codeWrite _ _).trans h))))
  · exact operate_of_raise hbusy (run_bind_error (run_readBounded_error hok hgate h))
  · exact operate_of_raise hbusy (run_bind_error (run_readStreaming_error hgate h))
  · exact operate_of_raise hbusy (run_bind_error (run_readCoherent_error hgate h))
  · exact operate_of_raise hbusy (run_bind_error (run_srq_error hgate h))
  · exact operate_of_raise hbusy (run_bind_error (run_srqSync_error hok hgate h))
  · exact operate_of_raise hbusy (run_bind_error (run_program_error hgate h))

end Sys2Proof.Machine
end

section
/-! PROOFS. 60_exceptions.md rule R262: `InvalidCommand` changes nothing and comes from the bus and SRQ families only. The
operand checks behind the gate end an operation where it began (`operandChecks`); once they pass, nothing that the
operation does raises `InvalidCommand` (`NoCommand`): the commands it makes of its own, the mailbox write, the explicit
`WAIT`, the status read and the chunks of an image, have good operands. -/

namespace Sys2Proof.Machine

open Config

/-- The operation stops with `InvalidCommand` (rule R262). -/
def Stop.isInvalidCommand : Stop → Bool
  | .raise (.invalidCommand _ _) => true
  | _ => false

/-- Code 2 is that of `InvalidCommand` (rule R260). -/
theorem Err.toResult_err_eq_two (e : Err) : e.toResult.err = 2 ↔ (Stop.raise e).isInvalidCommand = true := by
  cases e <;> simp [Err.toResult, Stop.isInvalidCommand]

/-- From any context the operation does not raise `InvalidCommand`. -/
abbrev NoCommand {α : Type} (m : Op α) : Prop :=
  Sat (fun _ => True) m (fun _ _ => True) fun e _ => e.isInvalidCommand = false

/-! ### The primitives -/

theorem noCommand_pure {α : Type} (a : α) : NoCommand (pure a : Op α) := Sat.pure fun _ h => h

theorem noCommand_raise {α : Type} (e : Err) (he : (Stop.raise e).isInvalidCommand = false := by rfl) :
    NoCommand (raise e : Op α) := Sat.raise fun _ _ => he

theorem noCommand_wait {α : Type} (n : Need) : NoCommand (fun c => .error (.wait n) c : Op α) := fun _ _ => rfl

theorem noCommand_require {p : Prop} [Decidable p] (e : Err) (he : (Stop.raise e).isInvalidCommand = false := by rfl) :
    NoCommand (require p e) := Sat.ite (fun _ => noCommand_pure _) fun _ => noCommand_raise e he

/-- A check that passes, whatever it would raise. -/
theorem noCommand_require_pass {p : Prop} [Decidable p] {e : Err} (h : p) : NoCommand (require p e) :=
  Sat.ite (fun _ => noCommand_pure _) fun hno => absurd h hno

theorem noCommand_getSess : NoCommand getSess := fun _ h => h
theorem noCommand_modifySess (f : Session → Session) : NoCommand (modifySess f) := fun _ h => h
theorem noCommand_readsLeft : NoCommand readsLeft := fun _ h => h
theorem noCommand_ticksLeft : NoCommand ticksLeft := fun _ h => h
theorem noCommand_regWrite (i : Nat) (v : Word) : NoCommand (regWrite i v) := fun _ h => h
theorem noCommand_regWrite16 (i : Nat) (u : Bool) (v : Half) : NoCommand (regWrite16 i u v) := fun _ h => h

theorem noCommand_regRead (i : Nat) : NoCommand (regRead i) := by
  intro c h
  cases hr : c.env.reads with
  | nil => rw [run_regRead_nil i c hr]; rfl
  | cons v rest => rw [run_regRead_cons i c v rest hr]; exact h

theorem noCommand_now : NoCommand now := by
  intro c h
  cases ht : c.env.ticks with
  | nil => rw [run_now_nil c ht]; rfl
  | cons t rest => rw [run_now_cons c t rest ht]; exact h

theorem noCommand_idlePoint : NoCommand idlePoint := by
  intro c h
  cases hi : c.env.idles with
  | nil => rw [run_idle_nil c hi]; rfl
  | cons a rest => rw [run_idle_cons c a rest hi]; exact h

theorem noCommand_needNch : NoCommand needNch := by
  refine noCommand_getSess.bind fun r => ?_
  cases r.nch with
  | some n => exact noCommand_pure n
  | none => exact noCommand_raise _

theorem noCommand_needChain : NoCommand needChain := by
  intro c h
  cases hc : c.sess.chain with
  | some n => rw [run_needChain c n hc]; exact h
  | none => simp [needChain, hc, Stop.isInvalidCommand]

theorem noCommand_needVersion : NoCommand needVersion := by
  intro c h
  cases hv : c.sess.modVersion with
  | some v => rw [run_needVersion c v hv]; exact h
  | none => simp [needVersion, hv, Stop.isInvalidCommand]

/-! ### The device operations -/

theorem noCommand_readWords (index : Nat → Nat) (n k : Nat) : NoCommand (readWords index k n) := by
  induction n generalizing k with
  | zero => exact noCommand_pure _
  | succ n ih => exact (noCommand_regRead _).bind fun _ => (ih _).bind fun _ => noCommand_pure _

theorem noCommand_bulkRead (i n : Nat) : NoCommand (bulkRead i n) :=
  (noCommand_readWords _ _ _).bind fun _ => noCommand_pure _

theorem noCommand_writeWords (ws : List Word) (i : Nat) : NoCommand (writeWords i ws) := by
  induction ws generalizing i with
  | nil => exact noCommand_pure _
  | cons w ws ih => exact (noCommand_regWrite _ _).bind fun _ => ih _

theorem noCommand_writeHalves (hs : List Half) (i : Nat) (u : Bool) : NoCommand (writeHalves i u hs) := by
  induction hs generalizing i u with
  | nil => exact noCommand_pure _
  | cons h hs ih => exact (noCommand_regWrite16 _ _ _).bind fun _ => ih _ _

theorem noCommand_checkRange (o v lo hi : Nat) : NoCommand (checkRange o v lo hi) := noCommand_require _

theorem noCommand_trigger (action : Nat) : NoCommand (trigger action) :=
  (noCommand_checkRange _ _ _ _).bind fun _ => (noCommand_modifySess _).bind fun _ => noCommand_regWrite _ _

theorem noCommand_deadlinePassed (t0 : Nat) (timeout : Word) : NoCommand (deadlinePassed t0 timeout) :=
  Sat.ite (fun _ => noCommand_pure _) fun _ => noCommand_now.bind fun _ => noCommand_pure _

theorem noCommand_waitStatus (set clr timeout : Word) : NoCommand (waitStatus set clr timeout) := by
  have hpoll : ∀ set clr t0 fuel, NoCommand (pollStatus set clr timeout t0 fuel) := by
    intro set clr t0 fuel
    induction fuel with
    | zero => exact noCommand_wait .read
    | succ fuel ih =>
      refine (noCommand_regRead _).bind fun _ => Sat.ite (fun _ => noCommand_raise _) fun _ =>
        Sat.ite (fun _ => noCommand_pure _) fun _ => ?_
      exact (noCommand_deadlinePassed _ _).bind fun _ => Sat.ite (fun _ => noCommand_raise _) fun _ => ih
  exact noCommand_now.bind fun _ => noCommand_readsLeft.bind fun _ => hpoll _ _ _ _

theorem noCommand_cfgChannels (n : Nat) : NoCommand (cfgChannels n) :=
  (noCommand_checkRange _ _ _ _).bind fun _ => (noCommand_regWrite _ _).bind fun _ => noCommand_modifySess _

theorem noCommand_cfgClock (d ti tu : Nat) : NoCommand (cfgClock d ti tu) :=
  (noCommand_checkRange _ _ _ _).bind fun _ => (noCommand_checkRange _ _ _ _).bind fun _ =>
    (noCommand_checkRange _ _ _ _).bind fun _ => noCommand_regWrite _ _

theorem noCommand_cfgReset (rt ht : Nat) : NoCommand (cfgReset rt ht) :=
  (noCommand_checkRange _ _ _ _).bind fun _ => (noCommand_checkRange _ _ _ _).bind fun _ => noCommand_regWrite _ _

theorem noCommand_cfgTransmit (len f w lb : Nat) : NoCommand (cfgTransmit len f w lb) :=
  (noCommand_checkRange _ _ _ _).bind fun _ => (noCommand_checkRange _ _ _ _).bind fun _ =>
    (noCommand_checkRange _ _ _ _).bind fun _ => (noCommand_checkRange _ _ _ _).bind fun _ =>
      (noCommand_regWrite _ _).bind fun _ => noCommand_modifySess _

theorem noCommand_cfgReceive (len sk wnz lb : Nat) : NoCommand (cfgReceive len sk wnz lb) :=
  (noCommand_checkRange _ _ _ _).bind fun _ => (noCommand_checkRange _ _ _ _).bind fun _ =>
    (noCommand_checkRange _ _ _ _).bind fun _ => (noCommand_checkRange _ _ _ _).bind fun _ => noCommand_regWrite _ _

theorem noCommand_writeCommand (b : List Byte) : NoCommand (writeCommand b) :=
  (noCommand_checkRange _ _ _ _).bind fun _ => noCommand_getSess.bind fun _ =>
    Sat.ite (fun _ => noCommand_writeHalves _ _ _) fun _ => noCommand_writeWords _ _

theorem noCommand_readRx (size : Nat) : NoCommand (readRx size) :=
  (noCommand_checkRange _ _ _ _).bind fun _ => (noCommand_bulkRead _ _).bind fun _ => noCommand_pure _

theorem noCommand_checkSlices (size n : Nat) : NoCommand (checkSlices size n) :=
  (noCommand_checkRange _ _ _ _).bind fun _ => noCommand_require _

theorem noCommand_readRxAll (size n : Nat) : NoCommand (readRxAll size n) :=
  (noCommand_checkSlices _ _).bind fun _ => (noCommand_bulkRead _ _).bind fun _ => noCommand_pure _

theorem noCommand_skipZeros (budget k : Nat) : NoCommand (skipZeros k budget) := by
  induction budget generalizing k with
  | zero => exact (noCommand_regRead _).bind fun _ => Sat.ite (fun _ => noCommand_pure _) fun _ => noCommand_pure _
  | succ budget ih => exact (noCommand_regRead _).bind fun _ => Sat.ite (fun _ => noCommand_pure _) fun _ => ih _

theorem noCommand_readSkip (total budget : Nat) : NoCommand (readSkip total budget) := by
  refine noCommand_getSess.bind fun r => Sat.ite
    (fun _ => (noCommand_modifySess _).bind fun _ => noCommand_pure _) fun _ => (noCommand_skipZeros _ _).bind fun found => ?_
  cases found with
  | none => exact noCommand_pure _
  | some p => exact (noCommand_readWords _ _ _).bind fun _ => (noCommand_modifySess _).bind fun _ => noCommand_pure _

theorem noCommand_readRxStream (size n budget : Nat) : NoCommand (readRxStream size n budget) := by
  refine (noCommand_checkSlices _ _).bind fun _ => (noCommand_readSkip _ _).bind fun b => ?_
  cases b <;> exact noCommand_pure _

theorem noCommand_pullUntil (total : Nat) (timeout : Word) (budget t0 fuel : Nat) :
    NoCommand (pullUntil total timeout budget t0 fuel) := by
  induction fuel with
  | zero => exact noCommand_wait .read
  | succ fuel ih =>
    refine (noCommand_readSkip _ _).bind fun b => ?_
    cases b with
    | some b => exact noCommand_pure _
    | none =>
      exact (noCommand_deadlinePassed _ _).bind fun _ => Sat.ite (fun _ => noCommand_raise _) fun _ =>
        noCommand_idlePoint.bind fun _ => Sat.ite (fun _ => ih) fun _ => noCommand_raise _

theorem noCommand_readRxStreamBlk (size n : Nat) (timeout : Word) (budget : Nat) :
    NoCommand (readRxStreamBlk size n timeout budget) :=
  (noCommand_checkSlices _ _).bind fun _ => noCommand_now.bind fun _ => noCommand_readsLeft.bind fun _ =>
    (noCommand_pullUntil _ _ _ _ _).bind fun _ => noCommand_pure _

theorem noCommand_loadConfig (b : List Byte) : NoCommand (loadConfig b) := by
  have hfields : ∀ ranges f, NoCommand (checkFields b f ranges) := by
    intro ranges
    induction ranges with
    | nil => exact fun _ => noCommand_pure _
    | cons r ranges ih => exact fun _ => (noCommand_checkRange _ _ _ _).bind fun _ => ih _
  exact (noCommand_checkRange _ _ _ _).bind fun _ => (hfields _ _).bind fun _ => noCommand_modifySess _

/-! ### Transactions and frames -/

theorem noCommand_gate : NoCommand gate :=
  noCommand_getSess.bind fun _ => (noCommand_require _).bind fun _ => (noCommand_require _).bind fun _ =>
    noCommand_require _

theorem noCommand_transact (cmd : List Byte) (lt lr : Nat) : NoCommand (transact cmd lt lr) :=
  noCommand_getSess.bind fun _ => (noCommand_cfgTransmit _ _ _ _).bind fun _ => (noCommand_cfgReceive _ _ _ _).bind
    fun _ => (noCommand_writeCommand _).bind fun _ => (noCommand_trigger _).bind fun _ =>
    (Sat.ignoring (noCommand_waitStatus _ _ _)).bind fun _ => noCommand_needNch.bind fun _ => noCommand_readRxAll _ _

theorem noCommand_validate (k : Nat) (f : List Byte) (req : Request) (payload : List Byte) (verify count : Bool) :
    NoCommand (validate k f req payload verify count) := by
  have hheader : NoCommand (checkHeader k (parseHeader f) req) :=
    (noCommand_require _).bind fun _ => (noCommand_require _).bind fun _ => (noCommand_require _).bind fun _ =>
      noCommand_require _
  have hcount : NoCommand (checkCount k (parseHeader f) count) :=
    Sat.ite (fun _ => noCommand_needChain.bind fun _ => noCommand_require _) fun _ => noCommand_pure _
  have hecho : ∀ body n wanted, NoCommand (checkEcho k body payload n wanted) := by
    intro body n wanted
    refine Sat.ite (fun _ => ?_) fun _ => noCommand_pure _
    split
    · exact noCommand_pure _
    · exact noCommand_raise _
  have hidle : ∀ i, NoCommand (checkIdle k i f) := by
    intro i
    unfold checkIdle
    split
    · exact noCommand_raise _
    · exact noCommand_pure _
  exact hheader.bind fun _ => (noCommand_require _).bind fun _ => hcount.bind fun _ => (noCommand_require _).bind fun _ =>
    (hecho _ _ _).bind fun _ => (hidle _).bind fun _ => noCommand_pure _

theorem noCommand_validateFrom (req : Request) (payload : List Byte) (verify count : Bool) (fs : List (List Byte))
    (k : Nat) : NoCommand (validateFrom req payload verify count k fs) := by
  induction fs generalizing k with
  | nil => exact noCommand_pure _
  | cons f fs ih => exact (noCommand_validate _ _ _ _ _ _).bind fun _ => (ih _).bind fun _ => noCommand_pure _

theorem noCommand_coherenceCheck (bodies : List (List Byte)) (n dlen : Nat) :
    NoCommand (coherenceCheck bodies n dlen) := by
  unfold coherenceCheck
  split
  · exact noCommand_raise _
  · split
    · exact noCommand_raise _
    · exact noCommand_pure _

/-- `Build` of good operands. -/
theorem noCommand_build {code address : Nat} {payload : List Byte} {rdlen : Nat}
    (h : buildable code address payload rdlen = true) : NoCommand (build code address payload rdlen) := by
  intro c _
  rw [run_build _ _ _ _ c h]
  trivial

/-! ### The bus family behind its checks -/

/-- What `Send`'s checks leave (41_bus_ops.md rule R184). -/
theorem sendError_eq_none {code address verify : Nat} {payload : List Byte}
    (h : sendError code address verify payload = none) :
    code ≠ params.codeRead.toNat ∧ verify ≤ 1 ∧ buildable code address payload 0 = true := by
  unfold sendError at h
  split at h
  next => cases h
  next hread =>
    split at h
    next => cases h
    next hverify => exact ⟨hread, Nat.not_lt.mp hverify, buildable_of_buildError h⟩

theorem noCommand_send {code address verify : Nat} {payload : List Byte}
    (h : sendError code address verify payload = none) : NoCommand (send code address verify payload) := by
  obtain ⟨hread, hverify, hbuild⟩ := sendError_eq_none h
  exact noCommand_gate.bind fun _ => (noCommand_require_pass hread).bind fun _ =>
    (noCommand_require_pass hverify).bind fun _ => (noCommand_build hbuild).bind fun _ =>
    (noCommand_transact _ _ _).bind fun _ => noCommand_validateFrom _ _ _ _ _ _

theorem noCommand_checkRead {address dlen : Nat} (h : readable address dlen = true) : NoCommand (checkRead address dlen) := by
  intro c _
  rw [run_checkRead c h]
  trivial

/-- In the context `d` the operation does not raise `InvalidCommand`. -/
abbrev NoCommandIn {α : Type} (d : Ctx) (m : Op α) : Prop :=
  Sat (· = d) m (fun _ _ => True) fun e _ => e.isInvalidCommand = false

theorem NoCommand.at {α : Type} {m : Op α} (h : NoCommand m) (d : Ctx) : NoCommandIn d m :=
  h.conseq (fun _ _ => trivial) (fun _ _ h => h) fun _ _ h => h

theorem noCommand_of_everywhere {α : Type} {m : Op α} (h : ∀ d, NoCommandIn d m) : NoCommand m := fun c _ => h c c rfl

/-- The gate, the chain and the channel count are read without a change. -/
theorem sat_gate_in (d : Ctx) : Sat (· = d) gate (fun _ c => c = d) fun e _ => e.isInvalidCommand = false := by
  rintro c rfl
  cases hgate : c.sess.admits with
  | true => rw [run_gate c hgate]
  | false => rw [run_gate_error c hgate]; rfl

theorem sat_needChain_in (d : Ctx) : Sat (· = d) needChain (fun chain c => d.sess.chainLength = chain ∧ c = d)
    fun e _ => e.isInvalidCommand = false := by
  rintro c rfl
  cases hc : c.sess.chain with
  | some chain => rw [run_needChain c chain hc]; simp [Session.chainLength, hc]
  | none => simp [needChain, hc, Stop.isInvalidCommand]

theorem sat_needNch_in (d : Ctx) : Sat (· = d) needNch (fun n c => d.sess.channels = n ∧ c = d)
    fun e _ => e.isInvalidCommand = false := by
  rintro c rfl
  cases hn : c.sess.nch with
  | some n => rw [run_needNch c n hn]; simp [Session.channels, hn]
  | none => simp [needNch, run_bind, hn, run_raise, Stop.isInvalidCommand]

/-- `ReadBounded` of a response that fits the receive buffer. -/
theorem noCommandIn_readBounded {address dlen : Nat} {d : Ctx} (h : readable address dlen = true)
    (hfits : d.sess.readLength dlen * d.sess.channels ≤ params.rxCap) : NoCommandIn d (readBounded address dlen) := by
  have hcheck : Sat (· = d) (checkRead address dlen) (fun _ c => c = d) fun e _ => e.isInvalidCommand = false := by
    rintro c rfl
    rw [run_checkRead c h]
  refine (sat_gate_in d).bind fun _ => hcheck.bind fun _ => (sat_needChain_in d).bind fun chain =>
    Sat.given fun hchain => (sat_needNch_in d).bind fun n => Sat.given fun hn => ?_
  subst hchain hn
  have hrest : NoCommand (build params.codeRead.toNat address [] dlen >>= fun b => do
      let frames ← transact b.1 (d.sess.readLength dlen) (d.sess.readLength dlen)
      let rs ← validateFrom b.2 [] false true 0 frames
      pure (rs.flatMap fun r => r.2)) :=
    (noCommand_build (readable_buildable h)).bind fun _ => (noCommand_transact _ _ _).bind fun _ =>
      (noCommand_validateFrom _ _ _ _ _ _).bind fun _ => noCommand_pure _
  have hall : NoCommand (require (d.sess.readLength dlen * d.sess.channels ≤ params.rxCap)
      (.invalidCommand 8 (d.sess.readLength dlen * d.sess.channels)) >>= fun _ => build params.codeRead.toNat address [] dlen
      >>= fun b => do
        let frames ← transact b.1 (d.sess.readLength dlen) (d.sess.readLength dlen)
        let rs ← validateFrom b.2 [] false true 0 frames
        pure (rs.flatMap fun r => r.2)) := (noCommand_require_pass hfits).bind fun _ => hrest
  exact NoCommand.at hall d

theorem noCommand_pullChunks (n : Nat) (timeout : Word) (budget k : Nat) (frames : List (List Byte)) :
    NoCommand (pullChunks n timeout budget k frames) := by
  induction k generalizing frames with
  | zero => exact noCommand_pure _
  | succ k ih => exact (noCommand_readRxStreamBlk _ _ _ _).bind fun _ => ih _

theorem noCommand_readStreaming {address dlen : Nat} (h : readable address dlen = true) :
    NoCommand (readStreaming address dlen) :=
  noCommand_gate.bind fun _ => (noCommand_checkRead h).bind fun _ => (noCommand_build (readable_buildable h)).bind fun _ =>
    noCommand_needChain.bind fun _ => noCommand_needNch.bind fun _ => noCommand_getSess.bind fun _ =>
    (noCommand_cfgTransmit _ _ _ _).bind fun _ => (noCommand_cfgReceive _ _ _ _).bind fun _ =>
    (noCommand_writeCommand _).bind fun _ => (noCommand_trigger _).bind fun _ =>
    (noCommand_pullChunks _ _ _ _ _).bind fun _ => (noCommand_trigger _).bind fun _ =>
    (Sat.ignoring (noCommand_waitStatus _ _ _)).bind fun _ => (noCommand_validateFrom _ _ _ _ _ _).bind fun _ =>
    noCommand_pure _

theorem noCommand_readCoherent {address dlen : Nat} (h : coherentError address dlen = none) :
    NoCommand (readCoherent address dlen) := by
  unfold coherentError at h
  split at h
  next => cases h
  next haddress =>
    split at h
    next => cases h
    next hlen =>
      have haddress := Nat.not_lt.mp haddress
      obtain ⟨h1, h256⟩ := not_not.mp hlen
      exact noCommand_gate.bind fun _ => (noCommand_require_pass haddress).bind fun _ =>
        (noCommand_require_pass ⟨h1, h256⟩).bind fun _ => (noCommand_build (pollable haddress h1 h256)).bind fun _ =>
        (noCommand_transact _ _ _).bind fun _ => (noCommand_validateFrom _ _ _ _ _ _).bind fun _ =>
        noCommand_needNch.bind fun _ => (noCommand_coherenceCheck _ _ _).bind fun _ => noCommand_pure _

theorem noCommand_initializeBus : NoCommand initializeBus := by
  have hcounts : ∀ rs n, NoCommand (checkCounts rs n) := by
    intro rs n
    unfold checkCounts
    split
    · exact noCommand_raise _
    · exact noCommand_pure _
  exact noCommand_getSess.bind fun _ => (noCommand_require _).bind fun _ => (noCommand_trigger _).bind fun _ =>
    (Sat.ignoring (noCommand_waitStatus _ _ _)).bind fun _ => (noCommand_cfgChannels _).bind fun _ =>
    (noCommand_cfgClock _ _ _).bind fun _ => (noCommand_cfgReset _ _).bind fun _ =>
    (noCommand_build (pollable (by decide) (by decide) (by decide))).bind fun _ => (noCommand_transact _ _ _).bind fun _ =>
    (noCommand_validateFrom _ _ _ _ _ _).bind fun _ => noCommand_needNch.bind fun _ => (hcounts _ _).bind fun _ =>
    (noCommand_require _).bind fun _ => (noCommand_coherenceCheck _ _ _).bind fun _ => (noCommand_require _).bind fun _ =>
    (noCommand_modifySess _).bind fun _ => noCommand_pure _

/-! ### The SRQ family behind its checks -/

theorem noCommand_readModuleStatus : NoCommand readModuleStatus := by
  refine noCommand_of_everywhere fun d => (sat_gate_in d).bind fun _ => (sat_needChain_in d).bind fun chain =>
    Sat.given fun hchain => (sat_needNch_in d).bind fun n => Sat.given fun hn => ?_
  subst hchain hn
  exact Sat.ite (fun hfits => noCommandIn_readBounded (by decide) hfits)
    fun _ => NoCommand.at (noCommand_readStreaming (by decide)) d

/-- The operands of `Srq` that pass. -/
theorem srqOperands_of_srqError {code param address : Nat} {payload : List Byte}
    (h : srqError code param address payload = none) : srqOperands code param address payload = true := by
  unfold srqError at h
  split at h
  next => cases h
  next hcode =>
    split at h
    next => cases h
    next hparam =>
      split at h
      next => cases h
      next haddress =>
        split at h
        next => cases h
        next hlen =>
          simp only [srqOperands, Bool.and_eq_true, decide_eq_true_eq]
          exact ⟨⟨⟨Nat.not_lt.mp hcode, Nat.not_lt.mp hparam⟩, Nat.not_lt.mp haddress⟩, Nat.not_lt.mp hlen⟩

theorem srqOperands_iff {code param address : Nat} {payload : List Byte} :
    srqOperands code param address payload = true ↔
      code ≤ 0xFF ∧ param ≤ 0xFF ∧ address ≤ 0xFFFF ∧ payload.length ≤ 252 := by
  simp only [srqOperands, Bool.and_eq_true, decide_eq_true_eq, and_assoc]
  rfl

/-- The mailbox write of a record has good operands (42_srq_ops.md rule R232). -/
theorem sendError_record {rec : List Byte} (h1 : 4 ≤ rec.length) (h256 : rec.length ≤ 256) :
    sendError params.codeWrite.toNat params.srqMboxAddr 0 rec = none := by
  have hne : ¬ rec.length = 0 := by omega
  have hle : ¬ params.maxDataLen < rec.length := Nat.not_lt.mpr h256
  rw [sendError, if_neg (by decide), if_neg (by decide), buildError, if_neg (by decide), if_neg (by decide),
    if_pos (by decide), if_neg hne, if_neg hle]

theorem noCommand_postRecord {rec : List Byte} (h1 : 4 ≤ rec.length) (h256 : rec.length ≤ 256) :
    NoCommand (postRecord rec) :=
  noCommand_getSess.bind fun _ => Sat.ite
    (fun _ => (noCommand_modifySess _).bind fun _ =>
      (Sat.ignoring (noCommand_send (sendError_record h1 h256))).bind fun _ => noCommand_modifySess _)
    fun _ => noCommand_pure _

theorem noCommand_srq {code param address : Nat} {payload : List Byte}
    (h : srqOperands code param address payload = true) : NoCommand (srq code param address payload) := by
  obtain ⟨hcode, hparam, haddress, hlen⟩ := srqOperands_iff.mp h
  have hrec := srqRecord_length code param address payload
  exact noCommand_gate.bind fun _ => (noCommand_require_pass hcode).bind fun _ =>
    (noCommand_require_pass hparam).bind fun _ => (noCommand_require_pass haddress).bind fun _ =>
    (noCommand_require_pass hlen).bind fun _ => (noCommand_postRecord (by omega) (by omega)).bind fun _ =>
    (noCommand_trigger _).bind fun _ => noCommand_getSess.bind fun _ => Sat.ignoring (noCommand_waitStatus _ _ _)

theorem noCommand_legacyWait (delay : Nat) : NoCommand (legacyWait delay) := by
  have hwait : ∀ target fuel, NoCommand (waitUntil target fuel) := by
    intro target fuel
    induction fuel with
    | zero => exact noCommand_wait .tick
    | succ fuel ih => exact noCommand_now.bind fun _ => Sat.ite (fun _ => noCommand_pure _) fun _ => ih
  exact Sat.ite (fun _ => noCommand_now.bind fun _ => noCommand_ticksLeft.bind fun _ => hwait _ _)
    fun _ => noCommand_pure _

theorem noCommand_checkSrqStatus : NoCommand checkSrqStatus := by
  refine noCommand_getSess.bind fun _ => Sat.ite (fun _ => noCommand_readModuleStatus.bind fun _ =>
    noCommand_needChain.bind fun _ => noCommand_needNch.bind fun _ => ?_) fun _ => noCommand_pure _
  split
  · exact noCommand_raise _
  · exact noCommand_pure _

theorem noCommand_srqSync {code param address delay : Nat} {payload : List Byte} (hcode : code ≤ 0x7F)
    (h : srqOperands code param address payload = true) : NoCommand (srqSync code param address delay payload) := by
  have hflagged : srqOperands (code ||| params.srqSyncFlag.toNat) param address payload = true :=
    srqOperands_iff.mpr ⟨flagged_le hcode, (srqOperands_iff.mp h).2⟩
  have hwait : NoCommand (send params.codeWait.toNat 0 0 []) := noCommand_send (by decide)
  exact noCommand_gate.bind fun _ => (noCommand_require_pass hcode).bind fun _ => noCommand_needVersion.bind fun _ =>
    Sat.ite (fun _ => (noCommand_srq hflagged).bind fun _ => noCommand_checkSrqStatus)
      fun _ => (noCommand_srq h).bind fun _ => (noCommand_legacyWait _).bind fun _ =>
        Sat.ite (fun _ => (Sat.ignoring hwait).bind fun _ => noCommand_checkSrqStatus)
          fun _ => noCommand_checkSrqStatus

/-- The chunks of an image that stays inside the flash have good operands (42_srq_ops.md rule R236). -/
theorem noCommand_programChunks {address : Nat} (delay k i : Nat) (b : List Byte)
    (h : b = [] ∨ address + i * params.srqChunk + b.length ≤ 65536) :
    NoCommand (programChunks address delay i (chunksOf params.srqChunk k b)) := by
  induction k generalizing i b with
  | zero => exact noCommand_pure _
  | succ k ih =>
    cases b with
    | nil => exact noCommand_pure _
    | cons x xs =>
      have hlen := h.resolve_left nofun
      have hchunk : ((x :: xs).take params.srqChunk).length = min 128 (xs.length + 1) := List.length_take
      have hcode : (if i = 0 then params.srqEraseWrite.toNat else params.srqWrite.toNat) ≤ 0x7F := by
        split <;> decide
      simp only [params_srqChunk, List.length_cons] at hlen
      refine (noCommand_srqSync hcode (srqOperands_iff.mpr ⟨by omega, ?_, ?_, ?_⟩)).bind fun _ => ih (i + 1) _ ?_
      · rw [hchunk]; omega
      · simp only [params_srqChunk]; omega
      · rw [hchunk]; omega
      · rcases Nat.le_total (xs.length + 1) 128 with hlast | hmore
        · exact .inl (List.drop_eq_nil_of_le (by simpa using hlast))
        · refine .inr ?_
          simp only [params_srqChunk, List.length_drop, List.length_cons]
          omega

theorem noCommand_program {address : Nat} {data : List Byte} (h : programError address data = none) :
    NoCommand (program address data) := by
  unfold programError at h
  split at h
  next => cases h
  next haddress =>
    split at h
    next => cases h
    next hlen =>
      have hlen := not_not.mp hlen
      have hchecksums : ∀ expected, NoCommand (checkChecksums expected) := by
        intro expected
        refine noCommand_readModuleStatus.bind fun _ => noCommand_needChain.bind fun _ => noCommand_needNch.bind fun _ => ?_
        split
        · exact noCommand_raise _
        · exact noCommand_pure _
      exact noCommand_gate.bind fun _ => (noCommand_require_pass (Nat.not_lt.mp haddress)).bind fun _ =>
        (noCommand_require_pass hlen).bind fun _ => noCommand_getSess.bind fun _ =>
        (noCommand_programChunks _ _ 0 data (.inr (by omega))).bind fun _ => (hchecksums _).bind fun _ => noCommand_pure _

/-! ### At the operation port -/

/-- An operation that raises no `InvalidCommand` in the context it starts in delivers none. -/
theorem err_ne_two {i : Instr} {body : Op (Option (List Byte))} {s t : State} (hbody : NoCommandIn s.ctx body)
    (hbusy : s.busy = false) (h : operate i body s = .next t) : t.err ≠ some 2 := by
  intro herr
  have hends := hbody s.ctx rfl
  rcases operate_cases h with ⟨hb, -⟩ | ⟨-, out, c, -, rfl⟩ | ⟨-, e, c, hrun, rfl⟩ | ⟨-, n, c, -, rfl⟩
  · simp [hbusy] at hb
  · cases out <;> simp [okResult] at herr
  · rw [hrun] at hends
    have hyes := (Err.toResult_err_eq_two e).mp (by simpa using herr)
    exact Bool.false_ne_true (hends.symm.trans hyes)
  · cases herr

/-- An operation of the device family, or `INITIALIZE`, delivers no `InvalidCommand`. -/
theorem exec_noCommand {i : Instr} (hi : i.format = .descriptor) (hgated : i.gated = false) :
    ∃ body, (∀ s, exec i s = operate i body s) ∧ NoCommand body := by
  cases i with
  | trigger a => exact ⟨_, fun _ => rfl, (noCommand_trigger _).bind fun _ => noCommand_pure _⟩
  | waitStatus st cl t =>
    exact ⟨_, fun _ => rfl, ((noCommand_waitStatus _ _ _).bind fun _ => noCommand_pure _).bind fun _ => noCommand_pure _⟩
  | cfgChannels n => exact ⟨_, fun _ => rfl, (noCommand_cfgChannels _).bind fun _ => noCommand_pure _⟩
  | cfgClock d ti tu => exact ⟨_, fun _ => rfl, (noCommand_cfgClock _ _ _).bind fun _ => noCommand_pure _⟩
  | cfgReset rt ht => exact ⟨_, fun _ => rfl, (noCommand_cfgReset _ _).bind fun _ => noCommand_pure _⟩
  | cfgTransmit len f w lb => exact ⟨_, fun _ => rfl, (noCommand_cfgTransmit _ _ _ _).bind fun _ => noCommand_pure _⟩
  | cfgReceive len sk wnz lb => exact ⟨_, fun _ => rfl, (noCommand_cfgReceive _ _ _ _).bind fun _ => noCommand_pure _⟩
  | writeCommand data => exact ⟨_, fun _ => rfl, (noCommand_writeCommand _).bind fun _ => noCommand_pure _⟩
  | readRx size => exact ⟨_, fun _ => rfl, (noCommand_readRx _).bind fun _ => noCommand_pure _⟩
  | readRxAll size n =>
    exact ⟨_, fun _ => rfl, ((noCommand_readRxAll _ _).bind fun _ => noCommand_pure _).bind fun _ => noCommand_pure _⟩
  | readRxStream size n budget =>
    exact ⟨_, fun _ => rfl, (noCommand_readRxStream _ _ _).bind fun _ => noCommand_pure _⟩
  | readRxStreamBlk size n timeout budget =>
    exact ⟨_, fun _ => rfl,
      ((noCommand_readRxStreamBlk _ _ _ _).bind fun _ => noCommand_pure _).bind fun _ => noCommand_pure _⟩
  | loadConfig data => exact ⟨_, fun _ => rfl, (noCommand_loadConfig _).bind fun _ => noCommand_pure _⟩
  | initBus => exact ⟨_, fun _ => rfl, noCommand_initializeBus.bind fun _ => noCommand_pure _⟩
  | codeEnum | codeWait | codeTest | codeWrite | codePoll | codeRead => cases hi
  | srqEraseWrite | srqWrite | srqRunProc => cases hi
  | _ => cases hgated

/-- What `ReadBounded`'s checks leave. -/
theorem fits_of_boundedError {r : Session} {address dlen : Nat} (h : r.boundedError address dlen = none) :
    readError address dlen = none ∧ r.readLength dlen * r.channels ≤ params.rxCap := by
  unfold Session.boundedError at h
  split at h
  next => cases h
  next hread =>
    split at h
    next => cases h
    next hfits => exact ⟨hread, Nat.not_lt.mp hfits⟩

/-- What `SrqSync`'s checks leave. -/
theorem srqError_of_syncError {code param address : Nat} {payload : List Byte}
    (h : syncError code param address payload = none) : code ≤ 0x7F ∧ srqError code param address payload = none := by
  unfold syncError at h
  split at h
  next => cases h
  next hcode => exact ⟨Nat.not_lt.mp hcode, h⟩

/-- What an operation behind the gate does: a check refuses it where it is, or no `InvalidCommand` comes of it. -/
def RefusedOrNoCommand (s : State) (i : Instr) : Prop :=
  (∃ e, exec i s = .next (s.finishedErr e s.ctx))
  ∨ ∃ body, (∀ s, exec i s = operate i body s) ∧ NoCommandIn s.ctx body

/-- The split on an operation's own checks. -/
theorem refusedOrNoCommand {s : State} {i : Instr} {body : Op (Option (List Byte))} (checks : Option Err)
    (hexec : ∀ s, exec i s = operate i body s) (hbad : ∀ e, checks = some e → exec i s = .next (s.finishedErr e s.ctx))
    (hgood : checks = none → NoCommandIn s.ctx body) : RefusedOrNoCommand s i := by
  cases hc : checks with
  | some e => exact .inl ⟨e, hbad e hc⟩
  | none => exact .inr ⟨body, hexec, hgood hc⟩

theorem exec_refusedOrNoCommand {i : Instr} {s : State} (hgated : i.gated = true) (hbusy : s.busy = false)
    (hok : s.ctx.sess.ok = true) (hgate : s.ctx.sess.admits = true) : RefusedOrNoCommand s i := by
  have hchecks := fun e => operandChecks s e hbusy hok hgate
  cases i with
  | send code address verify data =>
    refine refusedOrNoCommand (sendError code.toNat address.toNat verify.toNat data) (fun _ => rfl)
      (fun e => by
        obtain ⟨hsend, -⟩ := hchecks e
        exact hsend code address verify data) fun h => NoCommand.at ?_ _
    exact ((noCommand_send h).bind fun _ => noCommand_pure _).bind fun _ => noCommand_pure _
  | busWrite address data =>
    refine refusedOrNoCommand (buildError 0x44 address.toNat data 0) (fun _ => rfl)
      (fun e => by
        obtain ⟨-, hwrite, -⟩ := hchecks e
        exact hwrite address data) fun h => NoCommand.at ?_ _
    exact (Sat.ignoring (noCommand_send ((sendError_codeWrite _ _).trans h))).bind fun _ => noCommand_pure _
  | busWait =>
    have hsend : NoCommand (send params.codeWait.toNat 0 0 []) := noCommand_send (by decide)
    exact .inr ⟨_, fun _ => rfl, NoCommand.at ((Sat.ignoring hsend).bind fun _ => noCommand_pure _) _⟩
  | readBounded address dlen =>
    refine refusedOrNoCommand (s.ctx.sess.boundedError address.toNat dlen.toNat) (fun _ => rfl)
      (fun e => by
        obtain ⟨-, -, hbounded, -⟩ := hchecks e
        exact hbounded address dlen) fun h => ?_
    obtain ⟨hread, hfits⟩ := fits_of_boundedError h
    exact (noCommandIn_readBounded (readable_of_readError hread) hfits).bind fun _ => noCommand_pure _
  | readStreaming address dlen =>
    refine refusedOrNoCommand (readError address.toNat dlen.toNat) (fun _ => rfl)
      (fun e => by
        obtain ⟨-, -, -, hstreaming, -⟩ := hchecks e
        exact hstreaming address dlen) fun h => NoCommand.at ?_ _
    exact (noCommand_readStreaming (readable_of_readError h)).bind fun _ => noCommand_pure _
  | readCoherent address dlen =>
    refine refusedOrNoCommand (coherentError address.toNat dlen.toNat) (fun _ => rfl)
      (fun e => by
        obtain ⟨-, -, -, -, hcoherent, -⟩ := hchecks e
        exact hcoherent address dlen) fun h => NoCommand.at ?_ _
    exact (noCommand_readCoherent h).bind fun _ => noCommand_pure _
  | srq code param address data =>
    refine refusedOrNoCommand (srqError code.toNat param.toNat address.toNat data) (fun _ => rfl)
      (fun e => by
        obtain ⟨-, -, -, -, -, hsrq, -⟩ := hchecks e
        exact hsrq code param address data) fun h => NoCommand.at ?_ _
    exact (noCommand_srq (srqOperands_of_srqError h)).bind fun _ => noCommand_pure _
  | srqSync code param address delay data =>
    refine refusedOrNoCommand (syncError code.toNat param.toNat address.toNat data) (fun _ => rfl)
      (fun e => by
        obtain ⟨-, -, -, -, -, -, hsync, -⟩ := hchecks e
        exact hsync code param address delay data) fun h => NoCommand.at ?_ _
    obtain ⟨hcode, hsrq⟩ := srqError_of_syncError h
    exact (noCommand_srqSync hcode (srqOperands_of_srqError hsrq)).bind fun _ => noCommand_pure _
  | program address data =>
    refine refusedOrNoCommand (programError address.toNat data) (fun _ => rfl)
      (fun e => by
        obtain ⟨-, -, -, -, -, -, -, hprogram⟩ := hchecks e
        exact hprogram address data) fun h => NoCommand.at ?_ _
    exact (noCommand_program h).bind fun _ => noCommand_pure _
  | readModuleStatus =>
    exact .inr ⟨_, fun _ => rfl, NoCommand.at (noCommand_readModuleStatus.bind fun _ => noCommand_pure _) _⟩
  | _ => cases hgated

/-- The gate's error is a `StateError`. -/
theorem gateError_err_ne_two (r : Session) : r.gateError.toResult.err ≠ 2 := fun h =>
  absurd ((Err.toResult_err_eq_two _).mp h) Bool.false_ne_true

/-- Settles O18: outside the gate and past the checks no `InvalidCommand` is raised, and a check that fails ends the
operation where it began. -/
theorem invalidCommandChangesNothing : Obligations.InvalidCommandChangesNothing := by
  intro i s t hi hok hbusy h herr
  cases hgated : i.gated with
  | false =>
    obtain ⟨body, hexec, hbody⟩ := exec_noCommand hi hgated
    rw [hexec] at h
    exact absurd herr (err_ne_two (NoCommand.at hbody _) hbusy h)
  | true =>
    refine ⟨?_, rfl⟩
    cases hgate : s.ctx.sess.admits with
    | false =>
      rw [exec_refused hgated hbusy hgate] at h
      cases h
      exact absurd (Option.some.inj herr) (gateError_err_ne_two _)
    | true =>
      have hsess := Ctx.ok_sess (State.ok_iff.mp hok).1
      rcases exec_refusedOrNoCommand hgated hbusy hsess hgate with ⟨e, hrefused⟩ | ⟨body, hexec, hbody⟩
      · rw [hrefused] at h
        cases h
        rfl
      · rw [hexec] at h
        exact absurd herr (err_ne_two hbody hbusy h)

end Sys2Proof.Machine
end

section
/-! PROOFS. 41_bus_ops.md rules R184 to R189 and 42_srq_ops.md rule R234: how the sends and the reads end without an error.
The laws say how each operation runs (`run_send`, `run_readBounded`, `run_readStreaming`, `run_readStatus`); the coherent
read is run here. -/

namespace Sys2Proof.Machine

open Config

/-- Settles O41: the three are sends. -/
theorem sendFamilyCompletes : Obligations.SendFamilyCompletes := by
  intro s e hbusy hok
  have hsess := Ctx.ok_sess hok
  refine ⟨fun code address verify data h => ?_, fun address data h => ?_, fun h => ?_⟩
  · exact operate_answering_ok hbusy ((run_bind_ok (run_send _ _ _ _ e _ hsess h)).trans rfl)
  · exact operate_silently_ok hbusy (run_ignoring _ _ _ _ (run_send _ _ _ _ e _ hsess h))
  · exact operate_silently_ok hbusy (run_ignoring _ _ _ _ (run_send _ _ _ _ e _ hsess h))

/-- Settles O43. -/
theorem readBoundedCompletes : Obligations.ReadBoundedCompletes := by
  intro s address dlen e hbusy hok h
  have hsess := Ctx.ok_sess hok
  exact ⟨operate_answering_ok hbusy (run_readBounded _ _ e _ hsess h), boundedAnswer_len _ hsess _ _ _ h⟩

/-- Settles O44: the read writes no stash of its own, and the stash was empty. -/
theorem readStreamingCompletes : Obligations.ReadStreamingCompletes := by
  intro s address dlen x hbusy hok h
  refine ⟨operate_answering_ok hbusy (run_readStreaming _ _ x _ (Ctx.ok_sess hok) h), ?_⟩
  have hempty : s.ctx.sess.stash = [] := by
    simp only [Ctx.canReadStreaming, Bool.and_eq_true, beq_iff_eq] at h
    obtain ⟨⟨⟨⟨⟨⟨⟨-, hstash⟩, -⟩, -⟩, -⟩, -⟩, -⟩, -⟩ := h
    exact hstash
  exact (cookieTaken_stash _).trans hempty

/-- A module's status is 8 bytes long, whichever read fetches it. -/
theorem statusAnswer_len {c : Ctx} {x : StatusAnswers} (hok : c.sess.ok = true) (h : c.canReadStatus x = true) :
    (c.statusAnswer x).length = c.sess.channels * c.sess.chainLength * 8 := by
  cases hfits : c.sess.statusFits with
  | true =>
    simp only [Ctx.canReadStatus, hfits, if_true] at h
    simp only [Ctx.statusAnswer, hfits, if_true]
    exact boundedAnswer_len c hok _ _ _ h
  | false =>
    simp only [Ctx.canReadStatus, hfits, Bool.false_eq_true, if_false] at h
    simp only [Ctx.statusAnswer, hfits, Bool.false_eq_true, if_false]
    exact streamingAnswer_len c hok _ _ _ h

/-- Settles O53. -/
theorem readModuleStatusCompletes : Obligations.ReadModuleStatusCompletes := by
  intro s x hbusy hok h
  have hsess := Ctx.ok_sess hok
  exact ⟨operate_answering_ok hbusy (run_readStatus x _ hsess h), statusAnswer_len hsess h⟩

/-! ### The coherent read -/

/-- The length of a poll's command and frame (41_bus_ops.md rule R189). -/
theorem pollCommand_length (req : Request) (dlen : Nat) : (requestBytes req (pollMasks dlen)).length = 8 + 2 * dlen := by
  rw [requestBytes_length, pollMasks_length]

/-- A poll's frame for every channel fits the receive buffer. -/
theorem pollLength_fits {dlen n : Nat} (h : 2 * dlen ≤ 256) (hn : n ≤ 8) : pollLength dlen * n ≤ 4096 := by
  have hlen : pollLength dlen ≤ 267 := frameLen_le (by simp only [params_headerBytes]; omega)
  have := Nat.mul_le_mul hlen hn
  omega

/-- The counts of the channels of a poll sum to the number of modules. -/
theorem countSum_pollAnswer {c : Ctx} {address dlen : Nat} {e : Exchange} {chain : Half} (hchain : c.sess.chain = some chain)
    (h : (c.frames (pollLength dlen) e).all ((c.sess.pollRequest address dlen).accepts c.sess.chain [] false) = true) :
    countSum (c.pollAnswer address dlen e) = c.sess.chainLength * c.sess.channels := by
  have hcount : ∀ f ∈ c.frames (pollLength dlen) e,
      ((c.sess.pollRequest address dlen).answer f).1.toNat = c.sess.chainLength := by
    intro f hf
    have hf := List.all_eq_true.mp h f hf
    rw [hchain] at hf
    rw [answer_count _ _ _ _ _ hf]
    simp [Session.chainLength, hchain]
  have hsum := sum_const _ _ _ hcount
  have hchannels : (c.frames (pollLength dlen) e).length = c.sess.channels := channelSlices_length _ _ _
  rw [countSum, Ctx.pollAnswer, List.map_map, ← hchannels, ← hsum]
  rfl

/-- The transaction of a poll, after `Build` has taken the cookie. -/
theorem run_transact_poll {address dlen n : Nat} {e : Exchange} {c : Ctx} (hcfg : c.sess.cfg.inRange = true)
    (hn : c.sess.nch = some n) (hn1 : 1 ≤ n) (hn8 : n ≤ 8) (hdlen : 2 * dlen ≤ 256)
    (h : c.canTransact (pollLength dlen) e = true) :
    transact (requestBytes (c.sess.pollRequest address dlen) (pollMasks dlen))
        (frameLen (requestBytes (c.sess.pollRequest address dlen) (pollMasks dlen)).length)
        (frameLen (requestBytes (c.sess.pollRequest address dlen) (pollMasks dlen)).length) c.cookieTaken =
      .ok (c.frames (pollLength dlen) e) (c.polledModules address dlen e) := by
  have hchannels : c.sess.channels = n := by simp [Session.channels, hn]
  have hlen : pollLength dlen ≤ 267 := frameLen_le (by simp only [params_headerBytes]; omega)
  have hfits : pollLength dlen * c.sess.channels ≤ 4096 := by rw [hchannels]; exact pollLength_fits hdlen hn8
  rw [pollCommand_length]
  refine (run_transact _ (pollLength dlen) (pollLength dlen) e c.cookieTaken (by simpa using hcfg)
    ⟨n, by simpa using hn, hn1, hn8⟩ (by rw [pollCommand_length]; omega) (by omega) (by omega) (by simpa using hfits)
    ((canTransact_cookie _ _ _).trans h)).trans ?_
  rw [frames_cookie]
  rfl

/-- `ReadCoherent` when it ends without an error (41_bus_ops.md rule R189). -/
theorem run_readCoherent {address dlen : Nat} {e : Exchange} {c : Ctx} (hok : c.sess.ok = true)
    (h : c.canPoll address dlen e = true)
    (hco : coherent ((c.pollAnswer address dlen e).map fun r => r.2) c.sess.channels dlen = true) :
    readCoherent address dlen c =
      .ok (le32 (BitVec.ofNat 32 (c.sess.chainLength * c.sess.channels))
          ++ (List.range dlen).map fun i => orByte ((c.pollAnswer address dlen e).map fun r => r.2) 0 i)
        (c.polledModules address dlen e) := by
  simp only [Ctx.canPoll, Bool.and_eq_true, decide_eq_true_eq] at h
  obtain ⟨⟨⟨⟨⟨hadmits, haddress⟩, h1⟩, h256⟩, htransact⟩, hframes⟩ := h
  obtain ⟨hcfg, hready, hnch⟩ := Session.admits_iff.mp hadmits
  obtain ⟨n, hn, hn1, hn8⟩ := Session.admits_nch hok hnch
  obtain ⟨chain, v, n', hchain, -, -⟩ := Session.ready_set hok hready
  have hchannels : c.sess.channels = n := by simp [Session.channels, hn]
  have hchain' : (c.polledModules address dlen e).sess.chain = c.sess.chain :=
    (transacted_chain _ _ _ _ _).trans (cookieTaken_chain _)
  have hn' : (c.polledModules address dlen e).sess.nch = some n := ((transacted_nch _ _ _ _ _).trans (cookieTaken_nch _)).trans hn
  rw [hchannels] at hco
  refine (run_gate_bind hadmits _).trans ?_
  refine (run_require_pass haddress _ c).trans ?_
  refine (run_require_pass ⟨h1, h256⟩ _ c).trans ?_
  refine (run_bind_ok (run_build _ _ _ _ c (pollable haddress h1 h256))).trans ?_
  refine (run_bind_ok (run_transact_poll (Session.ok_cfg hok hcfg) hn hn1 hn8 h256 htransact)).trans ?_
  refine (run_bind_ok (run_validateFrom _ _ false true _ 0 (c.polledModules address dlen e)
    (fun _ => by rw [hchain', hchain]; rfl) (by rw [if_pos rfl, hchain']; exact hframes))).trans ?_
  refine (run_bind_ok (run_needNch _ n hn')).trans ?_
  refine (run_bind_ok (run_coherenceCheck _ n dlen _ hco)).trans ?_
  rw [← countSum_pollAnswer hchain hframes]
  rfl

/-- Settles O45. -/
theorem readCoherentCompletes : Obligations.ReadCoherentCompletes := by
  intro s address dlen e hbusy hok h hco
  exact operate_answering_ok hbusy (run_readCoherent (Ctx.ok_sess hok) h hco)

end Sys2Proof.Machine
end

section
/-! PROOFS. 41_bus_ops.md rule R182: the order of the transactions of a transaction. 60_exceptions.md rules R279 and R280:
a completion wait that fails ends a `SEND`, or the mailbox write of an `SRQ`, where it stands. Both rest on what a
transaction has done when its wait begins (`run_transact_started`). -/

namespace Sys2Proof.Machine

open Config

/-! ### The transactions of `Transact` -/

/-- The writes of a command, one per half-word or word, in rising order (20_memory.md rule R73). -/
def commandWrites (wide : Bool) (b : List Byte) : List Txn :=
  if wide then (halvesOf b).zipIdx.map fun p => .write16 (0x100 + p.2 / 2) (p.2 % 2 == 1) p.1
  else (wordsOf b).zipIdx.map fun p => .write (0x100 + p.2) p.1

theorem commandWrites_length (wide : Bool) (b : List Byte) :
    (commandWrites wide b).length = if wide then (b.length + 1) / 2 else (b.length + 3) / 4 := by
  cases wide
  · simp [commandWrites, wordsOf_length]
  · simp [commandWrites, halvesOf_length]

theorem inCmdBuf_iff {i : Nat} : inCmdBuf i = true ↔ 0x100 ≤ i ∧ i < 0x142 := by
  rw [inCmdBuf, Bool.and_eq_true]
  exact and_congr decide_eq_true_iff decide_eq_true_iff

theorem mem_commandWrites_words {b : List Byte} {t : Txn} (hb : b.length ≤ 264) (ht : t ∈ commandWrites false b) :
    ∃ i v, t = .write i v ∧ inCmdBuf i = true := by
  obtain ⟨⟨v, k⟩, hmem, rfl⟩ := List.mem_map.mp ht
  have hk := (List.mem_zipIdx' hmem).1
  rw [wordsOf_length] at hk
  exact ⟨_, _, rfl, inCmdBuf_iff.mpr ⟨by omega, by omega⟩⟩

theorem mem_commandWrites_halves {b : List Byte} {t : Txn} (hb : b.length ≤ 264) (ht : t ∈ commandWrites true b) :
    ∃ i u v, t = .write16 i u v ∧ inCmdBuf i = true := by
  obtain ⟨⟨v, k⟩, hmem, rfl⟩ := List.mem_map.mp ht
  have hk := (List.mem_zipIdx' hmem).1
  rw [halvesOf_length] at hk
  exact ⟨_, _, _, rfl, inCmdBuf_iff.mpr ⟨by omega, by omega⟩⟩

/-- The framing words, the command and the start, in this order. -/
theorem Link.started_log (l : Link) (g : CfgRecord) (cmd : List Byte) (lt lr : Nat) :
    (l.started g cmd lt lr).log.reverse = l.log.reverse
      ++ [.write 5 (txWord lt g.fast.toNat g.cfgWide16.toNat g.loopbackSelfTest.toNat),
          .write 6 (rxWord lr g.rxSkipWords.toNat g.rxWaitNonzero.toNat g.rxLoopback.toNat)]
      ++ commandWrites (g.cfgWide16 == 1) cmd ++ [.write 0 0x4] := by
  rw [Link.started, Link.write_log, List.reverse_cons, Link.writeCommand_log, Link.write_log, Link.write_log]
  simp only [List.reverse_cons, List.append_assoc, List.cons_append, List.nil_append, commandWrites]
  rfl

/-- The transactions of a transaction that completes. -/
theorem Ctx.transacted_trace (c : Ctx) (cmd : List Byte) (lt lr : Nat) (e : Exchange) :
    (c.transacted cmd lt lr e).trace = (c.link.started c.sess.cfg cmd lt lr).log.reverse
      ++ (e.wait.polls ++ [e.wait.last]).map (fun w => Txn.read 1 w)
      ++ (numbered (fun k => 0x400 + k) 0 e.words).map (fun p => Txn.read p.1 p.2) := by
  simp only [Ctx.trace, Ctx.transacted, Link.noteReads_eq, List.reverse_append, List.reverse_reverse, List.map_map]
  rfl

/-- Settles O39. -/
theorem transactOrder : Obligations.TransactOrder := by
  intro cmd lt lr e c hok hcfg hnch hcmd hlt hlr hcap h
  have hsess := Ctx.ok_sess hok
  have hn := Session.admits_nch hsess (Option.isSome_iff_ne_none.mpr hnch)
  refine ⟨_, commandWrites (c.sess.cfg.cfgWide16 == 1) cmd,
    run_transact cmd lt lr e c (Session.ok_cfg hsess hcfg) hn hcmd hlt hlr hcap h, rfl, ?_, ?_, ?_⟩
  · rw [Ctx.transacted_trace, Link.started_log]
    simp only [Ctx.trace, List.append_assoc]
  · simp only [commandWrites_length, beq_iff_eq]
  · refine List.all_eq_true.mpr fun t ht => ?_
    cases hwide : c.sess.cfg.cfgWide16 == 1 with
    | true =>
      rw [hwide] at ht
      obtain ⟨i, u, v, rfl, hi⟩ := mem_commandWrites_halves hcmd ht
      simp [hi]
    | false =>
      rw [hwide] at ht
      obtain ⟨i, v, rfl, hi⟩ := mem_commandWrites_words hcmd ht
      simp only [hi, bne, hwide, Bool.not_false, Bool.and_self]

/-! ### A wait that fails -/

/-- Up to its completion wait a transaction has set the framing words, written the command and started it. -/
theorem run_transact_started {cmd : List Byte} {lt lr : Nat} {c : Ctx} (hg : c.sess.cfg.inRange = true)
    (hcmd : cmd.length ≤ 264) (hlt : lt ≤ 65535) (hlr : lr ≤ 65535) :
    transact cmd lt lr c =
      (ignoring (waitStatus doneSet doneClr c.sess.cfg.busTimeout) >>= fun _ => needNch >>= fun n => readRxAll lr n)
        { sess := c.sess.setWide16 (c.sess.cfg.cfgWide16 == 1), link := c.link.started c.sess.cfg cmd lt lr, env := c.env } := by
  obtain ⟨-, -, -, -, ⟨hf1, hf2, hf3⟩, ⟨hx1, hx2, hx3⟩⟩ := CfgRecord.ranges hg
  refine (run_bind_ok (run_cfgTransmit _ _ _ _ c hlt hf1 hf2 hf3)).trans ?_
  refine (run_bind_ok (run_cfgReceive _ _ _ _ _ hlr hx1 hx2 hx3)).trans ?_
  refine (run_bind_ok (run_writeCommand _ _ hcmd)).trans ?_
  refine (run_bind_ok (run_trigger 2 _ (by decide))).trans ?_
  rw [wide_eq]
  rfl

/-- The context after a completion wait that saw a failure bit: nothing is read, nothing is undone. -/
def Ctx.failedSend (c : Ctx) (code address : Nat) (payload : List Byte) (x : Polling) : Ctx where
  sess := (c.sess.cookieTaken.setWide16 (c.sess.cfg.cfgWide16 == 1)).setBusState .faulted
  link := (c.link.started c.sess.cfg (requestBytes (c.sess.request code address payload 0) payload)
    (frameLen (8 + payload.length)) (frameLen (8 + payload.length))).noteReads
      ((x.polls ++ [x.last]).map fun w => (1, w))
  env := c.env.used x.answers

/-- `Transact` whose completion wait sees a failure bit. -/
theorem run_transact_failure {cmd : List Byte} {len : Nat} {c : Ctx} {x : Polling} (hg : c.sess.cfg.inRange = true)
    (hcmd : cmd.length ≤ 264) (hlen : len ≤ 65535) (hx : x.fails doneSet doneClr c.sess.cfg.busTimeout = true)
    (ho : c.env.offers x.answers = true) :
    transact cmd len len c = .error (.raise (.failure x.last 0x191 0x008))
      { sess := (c.sess.setWide16 (c.sess.cfg.cfgWide16 == 1)).setBusState .faulted
        link := (c.link.started c.sess.cfg cmd len len).noteReads ((x.polls ++ [x.last]).map fun w => (1, w))
        env := c.env.used x.answers } := by
  refine (run_transact_started hg hcmd hlen hlen).trans (run_bind_error (run_bind_error ?_))
  exact run_waitStatus_failure _ _ _ x
    { sess := c.sess.setWide16 (c.sess.cfg.cfgWide16 == 1), link := c.link.started c.sess.cfg cmd len len, env := c.env } hx ho

/-- `Send` whose completion wait sees a failure bit. -/
theorem run_send_failure {code address verify : Nat} {payload : List Byte} {c : Ctx} {x : Polling} (hok : c.sess.ok = true)
    (hgate : c.sess.admits = true) (h : sendError code address verify payload = none)
    (hx : x.fails doneSet doneClr c.sess.cfg.busTimeout = true) (ho : c.env.offers x.answers = true) :
    send code address verify payload c =
      .error (.raise (.failure x.last 0x191 0x008)) (c.failedSend code address payload x) := by
  obtain ⟨hread, hverify, hbuild⟩ := sendError_eq_none h
  have hcfg := Session.ok_cfg hok (Session.admits_iff.mp hgate).1
  have hlen := buildable_len hbuild
  have hframe : frameLen (8 + payload.length) ≤ 267 := frameLen_le (by omega)
  refine (run_gate_bind hgate _).trans ?_
  refine (run_require_pass hread _ c).trans ?_
  refine (run_require_pass hverify _ c).trans ?_
  refine (run_bind_ok (run_build _ _ _ _ c hbuild)).trans (run_bind_error ?_)
  rw [requestBytes_length]
  refine (run_transact_failure (c := c.cookieTaken) (by simpa using hcfg) (by rw [requestBytes_length]; omega) (by omega)
    (by simpa using hx) ho).trans ?_
  simp only [ctx_cookieTaken_sess, cookieTaken_cfg]
  rfl

/-- An error of the mailbox write is the error of the `Srq`, in the context that the write leaves (42_srq_ops.md rule
R232). -/
theorem run_srq_postError {code param address : Nat} {payload : List Byte} {c d : Ctx} {e : Err}
    (hgate : c.sess.admits = true) (h : srqError code param address payload = none)
    (hnew : c.sess.lastSrq ≠ some (srqRecord code param address payload))
    (hsend : send params.codeWrite.toNat params.srqMboxAddr 0 (srqRecord code param address payload)
      { c with sess := c.sess.setLastSrq none } = .error (.raise e) d) :
    srq code param address payload c = .error (.raise e) d := by
  have hoperands := srqOperands_of_srqError h
  simp only [srqOperands, Bool.and_eq_true, decide_eq_true_eq] at hoperands
  obtain ⟨⟨⟨hcode, hparam⟩, haddress⟩, hlen⟩ := hoperands
  have hpost : postRecord (srqRecord code param address payload) c = .error (.raise e) d := by
    rw [postRecord, run_bind_ok (run_getSess c), if_pos hnew, run_bind_ok (run_modifySess _ c)]
    exact run_bind_error (run_bind_error hsend)
  refine (run_gate_bind hgate _).trans ?_
  refine (run_require_pass hcode _ c).trans ?_
  refine (run_require_pass hparam _ c).trans ?_
  refine (run_require_pass haddress _ c).trans ?_
  refine (run_require_pass hlen _ c).trans ?_
  exact run_bind_error hpost

/-- The record of an `Srq` with good operands is a good mailbox write. -/
theorem sendError_srqRecord {code param address : Nat} {payload : List Byte}
    (h : srqError code param address payload = none) :
    sendError params.codeWrite.toNat params.srqMboxAddr 0 (srqRecord code param address payload) = none := by
  have hlen := (srqOperands_iff.mp (srqOperands_of_srqError h)).2.2.2
  have hrec := srqRecord_length code param address payload
  exact sendError_record (by omega) (by omega)

/-- Settles O42. -/
theorem sendFailsFast : Obligations.SendFailsFast := by
  intro s x hbusy hok hgate hx ho
  have hsess := Ctx.ok_sess hok
  refine ⟨fun code address verify data h => ?_, fun code param address data rec h hrec hnew => ?_⟩
  · exact operate_of_raise hbusy (run_bind_error (run_bind_error (run_send_failure hsess hgate h hx ho)))
  · subst hrec
    have hsend := run_send_failure (c := { s.ctx with sess := s.ctx.sess.setLastSrq none })
      (setLast_ok _ hsess) hgate (sendError_srqRecord h) hx ho
    exact operate_of_raise hbusy (run_bind_error (run_srq_postError hgate h hnew hsend))

end Sys2Proof.Machine
end

section
/-! PROOFS. 42_srq_ops.md rules R233 and R236: `SRQ_SYNC` and `PROGRAM`, when every module answers well and when one does
not. The status test and the checksum test are run alike, each to its first bad module; the chunks of an image are sent one
after the other, each from the state that the one before it leaves. -/

namespace Sys2Proof.Machine

open Config

/-! ### The chunks of an image -/

theorem chunksOf_of_ne_nil {size k : Nat} {b : List Byte} (h : b ≠ []) :
    chunksOf size (k + 1) b = b.take size :: chunksOf size k (b.drop size) := by
  cases b with
  | nil => exact absurd rfl h
  | cons x xs => rfl

theorem chunksOf_nil (size k : Nat) : chunksOf size k [] = [] := by cases k <;> rfl

theorem length_drop_le {size k : Nat} {b : List Byte} (hsize : 0 < size) (h : b.length ≤ k + 1) :
    (b.drop size).length ≤ k := by
  rw [List.length_drop]
  omega

/-- The chunks put together are the image. -/
theorem flatten_chunksOf {size k : Nat} {b : List Byte} (hsize : 0 < size) (h : b.length ≤ k) :
    (chunksOf size k b).flatten = b := by
  induction k generalizing b with
  | zero => rw [List.length_eq_zero_iff.mp (Nat.le_zero.mp h)]; rfl
  | succ k ih =>
    by_cases hb : b = []
    · rw [hb, chunksOf_nil]; rfl
    · rw [chunksOf_of_ne_nil hb, List.flatten_cons, ih (length_drop_le hsize h), List.take_append_drop]

/-- The chunks are as many as the image has whole or begun chunks. -/
theorem length_chunksOf {size k : Nat} {b : List Byte} (hsize : 0 < size) (h : b.length ≤ k) :
    (chunksOf size k b).length = ceilDiv b.length size := by
  induction k generalizing b with
  | zero =>
    rw [List.length_eq_zero_iff.mp (Nat.le_zero.mp h)]
    exact (Nat.div_eq_of_lt (by simp only [List.length_nil]; omega)).symm
  | succ k ih =>
    by_cases hb : b = []
    · rw [hb, chunksOf_nil]
      exact (Nat.div_eq_of_lt (by simp only [List.length_nil]; omega)).symm
    · have hpos := List.length_pos_iff.mpr hb
      rw [chunksOf_of_ne_nil hb, List.length_cons, ih (length_drop_le hsize h), List.length_drop, ceilDiv, ceilDiv,
        ← Nat.add_div_right _ hsize]
      rcases Nat.le_total b.length size with hlast | hmore
      · rw [Nat.sub_eq_zero_of_le hlast, Nat.div_eq_of_lt_le (k := 1) (by omega) (by omega)]
        exact (Nat.div_eq_of_lt_le (by omega) (by omega)).symm
      · congr 1
        omega

/-- No chunk is empty. -/
theorem ne_nil_of_mem_chunksOf {size k : Nat} {b chunk : List Byte} (hsize : 0 < size) (h : chunk ∈ chunksOf size k b) :
    chunk ≠ [] := by
  induction k generalizing b with
  | zero => cases h
  | succ k ih =>
    by_cases hb : b = []
    · rw [hb, chunksOf_nil] at h
      cases h
    · rw [chunksOf_of_ne_nil hb] at h
      rcases List.mem_cons.mp h with rfl | hrest
      · have hpos := List.length_pos_iff.mpr hb
        rw [← List.length_pos_iff, List.length_take]
        omega
      · exact ih hrest

/-- Every chunk but the last is whole. -/
theorem length_of_mem_dropLast_chunksOf {size k : Nat} {b chunk : List Byte}
    (h : chunk ∈ (chunksOf size k b).dropLast) : chunk.length = size := by
  induction k generalizing b with
  | zero => cases h
  | succ k ih =>
    by_cases hb : b = []
    · rw [hb, chunksOf_nil] at h
      cases h
    · rw [chunksOf_of_ne_nil hb] at h
      by_cases hlast : chunksOf size k (b.drop size) = []
      · rw [hlast] at h
        cases h
      · rw [List.dropLast_cons_of_ne_nil hlast] at h
        rcases List.mem_cons.mp h with rfl | hrest
        · have hmore : b.drop size ≠ [] := fun hnil => hlast (by rw [hnil, chunksOf_nil])
          have hpos := List.length_pos_iff.mpr hmore
          rw [List.length_drop] at hpos
          rw [List.length_take]
          omega
        · exact ih hrest

/-! ### The chunks as they are sent -/

/-- Sending chunks one after the other, each from the state that the one before it leaves. -/
theorem run_programChunks {address delay i : Nat} {chunks : List (List Byte)} {xs : List SyncAnswers} {c : Ctx}
    (hok : c.sess.ok = true) (h : c.canProgramChunks address delay i chunks xs = true) :
    programChunks address delay i chunks c = .ok () (c.afterChunks address i chunks xs)
    ∧ (c.afterChunks address i chunks xs).sess.ok = true := by
  induction chunks generalizing i xs c with
  | nil =>
    cases xs with
    | nil => exact ⟨rfl, hok⟩
    | cons x xs => cases h
  | cons chunk chunks ih =>
    cases xs with
    | nil => cases h
    | cons x xs =>
      obtain ⟨hsync, hrest⟩ := Bool.and_eq_true_iff.mp h
      obtain ⟨hrun, hok'⟩ := ih (afterSync_ok c _ _ _ _ _ _ hok hsync) hrest
      exact ⟨(run_bind_ok (run_srqSync _ _ _ _ _ x c hok hsync)).trans hrun, hok'⟩

/-- The session after the chunks. -/
theorem afterChunks_sess {address i : Nat} {chunks : List (List Byte)} {xs : List SyncAnswers} {c : Ctx} :
    ∃ l ck w, (c.afterChunks address i chunks xs).sess = { c.sess with lastSrq := l, cookieCtr := ck, wide16 := w } := by
  induction chunks generalizing i xs c with
  | nil => exact ⟨_, _, _, rfl⟩
  | cons chunk chunks ih =>
    cases xs with
    | nil => exact ⟨_, _, _, rfl⟩
    | cons x xs =>
      obtain ⟨l, ck, w, hsync⟩ := afterSync_sess c (chunkCode i) (chunk.length - 1) (address + i * params.srqChunk) chunk x
      obtain ⟨l', ck', w', hrest⟩ := ih (i := i + 1) (xs := xs)
        (c := c.afterSync (chunkCode i) (chunk.length - 1) (address + i * params.srqChunk) chunk x)
      exact ⟨l', ck', w', hrest.trans (by rw [hsync])⟩

/-! ### The tests of the modules -/

/-- The checksum test of `Program` (42_srq_ops.md rule R236). -/
theorem run_checkChecksums {expected : Word} {d : Ctx} {x : StatusAnswers} (hok : d.sess.ok = true)
    (h : d.canReadStatus x = true) :
    checkChecksums expected d = match d.firstModule x (programmedWith expected) with
      | some (k, m) => .error (.raise (.checksumMismatch expected (d.statusOf x k m).codeChecksum k m)) (d.afterStatus x)
      | none => .ok () (d.afterStatus x) := by
  obtain ⟨hcfg, hready, hnch⟩ := Session.admits_iff.mp (canReadStatus_admits h)
  obtain ⟨n, hn, -, -⟩ := Session.admits_nch hok hnch
  obtain ⟨chain, v, n', hchain, -, -⟩ := Session.ready_set hok hready
  have hchannels : d.sess.channels = n := by simp [Session.channels, hn]
  have hlength : d.sess.chainLength = chain.toNat := by simp [Session.chainLength, hchain]
  have hchain' : (d.afterStatus x).sess.chain = some chain := by simpa [afterStatus_sess] using hchain
  have hn' : (d.afterStatus x).sess.nch = some n := by simpa [afterStatus_sess] using hn
  refine (run_bind_ok (run_readStatus x d hok h)).trans ?_
  refine (run_bind_ok (run_needChain _ chain hchain')).trans ?_
  refine (run_bind_ok (run_needNch _ n hn')).trans ?_
  simp only [Ctx.firstModule, Ctx.statusOf, hchannels, hlength]
  have htest : ∀ p : Nat × Nat, ((statusRecord (d.statusAnswer x) chain.toNat p.1 p.2).codeChecksum != expected) =
      !programmedWith expected (statusRecord (d.statusAnswer x) chain.toNat p.1 p.2) := fun _ => rfl
  simp only [htest]
  generalize List.find? _ _ = first
  rcases first with _ | ⟨k, m⟩ <;> rfl

/-- A test that all modules pass has no first bad module. -/
theorem firstModule_eq_none {d : Ctx} {x : StatusAnswers} {test : StatusRecord → Bool} (h : d.everyModule x test = true) :
    d.firstModule x test = none := (find_not _ _).mp h

/-- A status read leaves the bus state as it was. -/
theorem afterStatus_busState (d : Ctx) (x : StatusAnswers) : (d.afterStatus x).sess.busState = d.sess.busState := by
  rw [afterStatus_sess, Session.setWide16_busState, cookieTaken_bs]

/-! ### `SRQ_SYNC` -/

/-- Settles O50. -/
theorem srqSyncCompletes : Obligations.SrqSyncCompletes := by
  intro s code param address delay data x hbusy hok h
  exact operate_silently_ok hbusy (run_srqSync _ _ _ _ _ x _ (Ctx.ok_sess hok) h)

/-- `SrqSync` whose status test finds a module bad. -/
theorem run_srqSync_firstBad {code param address delay k m : Nat} {payload : List Byte} {x : SyncAnswers} {c : Ctx}
    (hok : c.sess.ok = true) (hskip : c.sess.cfg.skipStatusCheck = 0)
    (h : c.canSyncRequest code param address delay payload x = true)
    (hbad : (c.syncRequested code param address payload x).firstModule x.status srqSucceeded = some (k, m)) :
    srqSync code param address delay payload c =
      .error (.raise (.srqFailed
          ((c.syncRequested code param address payload x).statusOf x.status k m).srqStatus.toNat k m))
        (c.afterSync code param address payload x) := by
  obtain ⟨l, ck, w, hsess⟩ := syncRequested_sess c code param address payload x
  have hafter : c.afterSync code param address payload x =
      (c.syncRequested code param address payload x).afterStatus x.status := if_pos hskip
  have hrun := run_syncRequest code param address delay payload x c hok h
  simp only [Ctx.canSyncRequest, Bool.and_eq_true, Bool.or_eq_true] at h
  obtain ⟨⟨⟨⟨-, hsrq⟩, -⟩, -⟩, hstatus⟩ := h
  have hread := hstatus.resolve_left (by simp [hskip])
  have hskip' : (c.syncRequested code param address payload x).sess.cfg.skipStatusCheck = 0 := by rw [hsess]; exact hskip
  rw [hrun, run_checkSrqStatus _ x.status (syncRequested_ok c _ _ _ _ _ hok hsrq) hskip' hread, hbad, hafter]

/-! ### `PROGRAM` -/

/-- `Program` up to its checksum test (42_srq_ops.md rule R236). -/
theorem run_program {address : Nat} {data : List Byte} {xs : List SyncAnswers} {st : StatusAnswers} {c : Ctx}
    (hok : c.sess.ok = true) (h : c.canProgramChunksOf address data xs st = true) :
    program address data c =
      (checkChecksums (params.cksum data) >>= fun _ => pure (le32 (params.cksum data)))
        (c.afterChunks address 0 (imageChunks data) xs)
    ∧ (c.afterChunks address 0 (imageChunks data) xs).sess.ok = true
    ∧ (c.afterChunks address 0 (imageChunks data) xs).sess.busState = .ready
    ∧ (c.afterChunks address 0 (imageChunks data) xs).canReadStatus st = true := by
  simp only [Ctx.canProgramChunksOf, Bool.and_eq_true, decide_eq_true_eq] at h
  obtain ⟨⟨⟨⟨hadmits, hpos⟩, hroom⟩, hchunks⟩, hread⟩ := h
  obtain ⟨l, ck, w, hsess⟩ := afterChunks_sess (address := address) (i := 0) (chunks := imageChunks data) (xs := xs) (c := c)
  obtain ⟨hrun, hok'⟩ := run_programChunks hok hchunks
  have haddress : address ≤ 0xFFFF := by omega
  refine ⟨?_, hok', by rw [hsess]; exact (Session.admits_iff.mp hadmits).2.1, hread⟩
  refine (run_gate_bind hadmits _).trans ?_
  refine (run_require_pass haddress _ c).trans ?_
  refine (run_require_pass ⟨hpos, hroom⟩ _ c).trans ?_
  exact (run_bind_ok (run_getSess c)).trans (run_bind_ok hrun)

/-- Settles O51: the two tests end at the first bad module, and neither the chunks nor the status read write `bus_state`. -/
theorem firstBadModuleReported : Obligations.FirstBadModuleReported := by
  intro s k m hbusy hok
  have hsess := Ctx.ok_sess hok
  refine ⟨fun code param address delay data x hgate hskip h hbad => ⟨?_, ?_⟩, fun address data xs st h hbad => ?_⟩
  · exact operate_of_raise hbusy (run_bind_error (run_srqSync_firstBad hsess hskip h hbad))
  · obtain ⟨l, ck, w, hafter⟩ := afterSync_sess s.ctx code.toNat param.toNat address.toNat data x
    rw [hafter]
    exact (Session.admits_iff.mp hgate).2.1
  · obtain ⟨hrun, hok', hready, hread⟩ := run_program hsess h
    refine ⟨operate_of_raise hbusy (run_bind_error (hrun.trans (run_bind_error ?_))),
      (afterStatus_busState _ _).trans hready⟩
    rw [run_checkChecksums hok' hread, hbad]
    rfl

/-- Settles O52. -/
theorem programCompletes : Obligations.ProgramCompletes := by
  intro s address data xs st hbusy hok h
  obtain ⟨hchunks, hall⟩ := Bool.and_eq_true_iff.mp h
  obtain ⟨hrun, hok', -, hread⟩ := run_program (Ctx.ok_sess hok) hchunks
  have hpos : 0 < params.srqChunk := by decide
  have hcheck : checkChecksums (params.cksum data) (s.ctx.afterChunks address.toNat 0 (imageChunks data) xs) =
      .ok () (s.ctx.programmed address.toNat data xs st) := by
    rw [run_checkChecksums hok' hread, firstModule_eq_none hall]
    rfl
  exact ⟨operate_answering_ok hbusy (hrun.trans (run_bind_ok hcheck)), flatten_chunksOf hpos (Nat.le_refl _),
    length_chunksOf hpos (Nat.le_refl _), fun chunk hmem => length_of_mem_dropLast_chunksOf hmem,
    fun chunk hmem => ⟨List.length_pos_iff.mpr (ne_nil_of_mem_chunksOf hpos hmem), length_le_size_of_mem_chunksOf hmem⟩⟩

end Sys2Proof.Machine
end

section
/-! PROOFS. 41_bus_ops.md rule R191: `INITIALIZE`. Up to the frames of its probe it is one run (`run_initializeBus`); what
it makes of them are four tests in order (`probeTests`), each of which ends it or lets it go on. -/

namespace Sys2Proof.Machine

open Config

/-- What `Initialize` does with the answers of its probe. -/
def probeTests (rs : List (Half × List Byte)) (n : Nat) : Op (List Byte) := do
  checkCounts rs n
  require (countOf rs 0 ≠ 0) (.noModulesDetected n)
  let v ← coherenceCheck (rs.map fun r => r.2) n 1
  let version := byteAt v 0
  require (params.minVersion ≤ version.toNat) (.unsupportedVersion version.toNat params.minVersion)
  modifySess fun r => r.initialised (countOf rs 0) n version
  pure (le16 (countOf rs 0) ++ [version])

/-! ### Up to the probe -/

/-- The context in which the probe has been answered. -/
abbrev Ctx.probed (c : Ctx) (x : Startup) : Ctx := (c.startedUp x).polledModules params.modStatusAddr 1 x.probe

theorem Ctx.probed_nch (c : Ctx) (x : Startup) : (c.probed x).sess.nch = some c.sess.cfg.channels.toNat :=
  (transacted_nch _ _ _ _ _).trans (cookieTaken_nch _)

/-- The bus reset, its wait and the three configuration writes. -/
theorem run_startUp {c : Ctx} {x : Startup} (hg : c.sess.cfg.inRange = true) (hcfg : c.sess.cfgValid = true)
    (hwait : x.wait.succeeds params.stReady params.stResetActive c.sess.cfg.busTimeout = true)
    (ho : c.env.offers x.wait.answers = true) :
    initializeBus c = (build params.codePoll.toNat params.modStatusAddr (pollMasks 1) 0 >>= fun b => do
      let frames ← transact b.1 (frameLen b.1.length) (frameLen b.1.length)
      let rs ← validateFrom b.2 (pollMasks 1) false false 0 frames
      let n ← needNch
      probeTests rs n) (c.startedUp x) := by
  obtain ⟨⟨hn1, hn8⟩, ⟨hd, hti, htu⟩, ⟨hrt, hht⟩, -, -, -⟩ := CfgRecord.ranges hg
  refine (run_bind_ok (run_getSess c)).trans ?_
  refine (run_require_pass hcfg _ c).trans ?_
  refine (run_bind_ok (run_trigger 0 c (by decide))).trans ?_
  refine (run_bind_ok (run_ignoring _ _ _ _ (run_waitStatus _ _ _ x.wait _ hwait (by exact ho)))).trans ?_
  refine (run_bind_ok (run_cfgChannels _ _ hn1 hn8)).trans ?_
  refine (run_bind_ok (run_cfgClock _ _ _ _ hd hti htu)).trans ?_
  refine (run_bind_ok (run_cfgReset _ _ _ hrt hht)).trans ?_
  simp only [BitVec.ofNat_toNat, BitVec.setWidth_eq]
  rfl

/-- `Initialize` up to its tests, when the probe is answered with good frames. -/
theorem run_initializeBus {c : Ctx} {x : Startup} (hok : c.sess.ok = true) (h : c.canProbe x = true) :
    initializeBus c = probeTests (c.probeAnswer x) c.sess.cfg.channels.toNat (c.probed x) := by
  simp only [Ctx.canProbe, Bool.and_eq_true] at h
  obtain ⟨⟨⟨⟨hcfg, hwait⟩, ho⟩, htransact⟩, hframes⟩ := h
  rw [Env.offers_followedBy, Bool.and_eq_true] at ho
  have hg := Session.ok_cfg hok hcfg
  obtain ⟨⟨hn1, hn8⟩, -⟩ := CfgRecord.ranges hg
  refine (run_startUp hg hcfg hwait ho.1).trans ?_
  refine (run_bind_ok (run_build _ _ _ _ _ (pollable (by decide) (by decide) (by decide)))).trans ?_
  refine (run_bind_ok (run_transact_poll (c := c.startedUp x) (dlen := 1) hg rfl hn1 hn8 (by decide) htransact)).trans ?_
  refine (run_bind_ok (run_validateFrom _ (pollMasks 1) false false _ 0 (c.probed x) nofun hframes)).trans ?_
  exact run_bind_ok (run_needNch _ _ (c.probed_nch x))

/-- The probe is answered for every configured channel. -/
theorem probeAnswer_length (c : Ctx) (x : Startup) : (c.probeAnswer x).length = c.sess.cfg.channels.toNat :=
  (List.length_map _).trans (channelSlices_length _ _ _)

/-! ### The tests -/

section
variable {rs : List (Half × List Byte)} {n : Nat} {d : Ctx}

/-- The lowest channel with another count is the one reported. -/
theorem run_probeTests_mismatch {k : Nat} (hk : k < n) (hdiff : countOf rs k ≠ countOf rs 0)
    (hfirst : ∀ k', k' < k → countOf rs k' = countOf rs 0) :
    probeTests rs n d = .error (.raise (.channelMismatch k (countOf rs 0).toNat (countOf rs k).toNat)) d := by
  have hfind : ((List.range n).find? fun c => countOf rs c != countOf rs 0) = some k :=
    find?_eq_some_of_pairwise List.pairwise_lt_range (List.mem_range.mpr hk) (bne_iff_ne.mpr hdiff)
      fun k' _ hlt => bne_eq_false_iff_eq.mpr (hfirst k' hlt)
  refine run_bind_error ?_
  rw [checkCounts, hfind]
  rfl

/-- Equal counts pass. -/
theorem run_probeTests_counts (hall : ∀ k, k < n → countOf rs k = countOf rs 0) :
    probeTests rs n d = (require (countOf rs 0 ≠ 0) (.noModulesDetected n) >>= fun _ => do
      let v ← coherenceCheck (rs.map fun r => r.2) n 1
      let version := byteAt v 0
      require (params.minVersion ≤ version.toNat) (.unsupportedVersion version.toNat params.minVersion)
      modifySess fun r => r.initialised (countOf rs 0) n version
      pure (le16 (countOf rs 0) ++ [version])) d := by
  have hfind : ((List.range n).find? fun c => countOf rs c != countOf rs 0) = none :=
    List.find?_eq_none.mpr fun k hk => by simp [hall k (List.mem_range.mp hk)]
  refine run_bind_ok (c := d) (a := ()) ?_
  rw [checkCounts, hfind]
  rfl

theorem run_probeTests_none (hall : ∀ k, k < n → countOf rs k = countOf rs 0) (h0 : countOf rs 0 = 0) :
    probeTests rs n d = .error (.raise (.noModulesDetected n)) d :=
  (run_probeTests_counts hall).trans (run_require_fail (not_not_intro h0) _ d)

/-- With modules on every channel, an incoherent probe is reported. -/
theorem run_probeTests_incoherent {e : Err} (hall : ∀ k, k < n → countOf rs k = countOf rs 0) (h0 : countOf rs 0 ≠ 0)
    (hcheck : coherenceCheck (rs.map fun r => r.2) n 1 d = .error (.raise e) d) :
    probeTests rs n d = .error (.raise e) d :=
  (run_probeTests_counts hall).trans ((run_require_pass h0 _ d).trans (run_bind_error hcheck))

/-- The version of a coherent probe is the byte that all modules agree on. -/
theorem run_probeTests_coherent (hall : ∀ k, k < n → countOf rs k = countOf rs 0) (h0 : countOf rs 0 ≠ 0)
    (hco : coherent (rs.map fun r => r.2) n 1 = true) :
    probeTests rs n d = (require (params.minVersion ≤ (probedVersion rs).toNat)
        (.unsupportedVersion (probedVersion rs).toNat params.minVersion) >>= fun _ => do
      modifySess fun r => r.initialised (countOf rs 0) n (probedVersion rs)
      pure (le16 (countOf rs 0) ++ [probedVersion rs])) d :=
  (run_probeTests_counts hall).trans ((run_require_pass h0 _ d).trans
    ((run_bind_ok (run_coherenceCheck _ n 1 d hco)).trans rfl))

end

/-- The first difference between the OR and the AND of a channel is reported. -/
theorem run_coherenceCheck_byte_within {bodies : List (List Byte)} {n k : Nat} (d : Ctx) (hk : k < n)
    (hdiff : orByte bodies k 0 ≠ andByte bodies k 0) (hfirst : ∀ k', k' < k → orByte bodies k' 0 = andByte bodies k' 0) :
    coherenceCheck bodies n 1 d =
      .error (.raise (.coherenceError k 0 (orByte bodies k 0).toNat (andByte bodies k 0).toNat)) d := by
  refine (coherenceCheckRule bodies n 1 d).1 k 0 hk Nat.one_pos hdiff fun k' i' _ hi' hbefore => ?_
  obtain rfl : i' = 0 := Nat.lt_one_iff.mp hi'
  exact hfirst k' (hbefore.resolve_right fun h => Nat.lt_irrefl _ h.2)

/-- With none within a channel, the first channel that differs from channel 0 is reported. -/
theorem run_coherenceCheck_byte_across {bodies : List (List Byte)} {n k : Nat} (d : Ctx) (hk : k < n)
    (hwithin : ∀ k', k' < n → orByte bodies k' 0 = andByte bodies k' 0) (hdiff : orByte bodies k 0 ≠ orByte bodies 0 0)
    (hfirst : ∀ k', k' < k → orByte bodies k' 0 = orByte bodies 0 0) :
    coherenceCheck bodies n 1 d =
      .error (.raise (.coherenceError k 0 (orByte bodies 0 0).toNat (256 + (orByte bodies k 0).toNat))) d := by
  refine (coherenceCheckRule bodies n 1 d).2.1 k 0 (fun k' i' hk' hi' => ?_) hk Nat.one_pos hdiff
    fun k' i' _ hi' hbefore => ?_
  · obtain rfl : i' = 0 := Nat.lt_one_iff.mp hi'
    exact hwithin k' hk'
  · obtain rfl : i' = 0 := Nat.lt_one_iff.mp hi'
    exact hfirst k' (hbefore.resolve_right fun h => Nat.lt_irrefl _ h.2)

/-- Settles O48. -/
theorem initializeTestsInOrder : Obligations.InitializeTestsInOrder := by
  intro s x hbusy hok h
  have hrun := run_initializeBus (Ctx.ok_sess hok) h
  obtain ⟨⟨hn1, -⟩, -⟩ := CfgRecord.ranges
    (Session.ok_cfg (Ctx.ok_sess hok) (by simp only [Ctx.canProbe, Bool.and_eq_true] at h; exact h.1.1.1.1))
  have hends : ∀ e : Err,
      probeTests (s.ctx.probeAnswer x) s.ctx.sess.cfg.channels.toNat (s.ctx.probed x) = .error (.raise e) (s.ctx.probed x) →
      exec .initBus s = .next (s.finishedErr e (s.ctx.probed x)) := fun e htests =>
    operate_of_raise hbusy (run_bind_error (hrun.trans htests))
  refine ⟨cookieTaken_bs _, fun k hk hdiff hfirst => ?_, fun hzero => ?_, fun hall h0 => ⟨fun k hk hdiff hfirst => ?_,
    fun k hk hwithin hdiff hfirst => ?_⟩, fun hall h0 hco hversion => ?_⟩
  · exact hends _ (run_probeTests_mismatch hk hdiff hfirst)
  · have h0 := hzero 0 hn1
    exact hends _ (run_probeTests_none (fun k hk => (hzero k hk).trans h0.symm) h0)
  · exact hends _ (run_probeTests_incoherent hall h0 (run_coherenceCheck_byte_within _ hk hdiff hfirst))
  · exact hends _ (run_probeTests_incoherent hall h0 (run_coherenceCheck_byte_across _ hk hwithin hdiff hfirst))
  · have hversion : (probedVersion (s.ctx.probeAnswer x)).toNat = 0 := Nat.lt_one_iff.mp hversion
    have hlow : ¬ params.minVersion ≤ (probedVersion (s.ctx.probeAnswer x)).toNat := by rw [hversion]; decide
    have hfail := (run_probeTests_coherent (d := s.ctx.probed x) hall h0 hco).trans (run_require_fail hlow _ _)
    rw [hversion] at hfail
    exact hends _ hfail

/-! ### Completion -/

/-- The count of a channel is its answer's. -/
theorem countOf_of_forall {rs : List (Half × List Byte)} {chain : Half} {k : Nat} (h : ∀ r ∈ rs, r.1 = chain)
    (hk : k < rs.length) : countOf rs k = chain := by
  rw [countOf, List.getD_eq_getElem _ _ (by simpa using hk), List.getElem_map]
  exact h _ (List.getElem_mem hk)

/-- The session that a successful `INITIALIZE` leaves. -/
theorem initialised_sess (c : Ctx) (x : Startup) :
    (c.initialised x).sess = { c.sess with
      busState := .ready
      chain := some (countOf (c.probeAnswer x) 0)
      modules := some ((countOf (c.probeAnswer x) 0).toNat * c.sess.cfg.channels.toNat)
      modVersion := some (probedVersion (c.probeAnswer x))
      stash := []
      lastSrq := none
      cookieCtr := if c.sess.cfg.skipCookie = 1 then c.sess.cookieCtr else c.sess.cookieCtr + 1
      nch := some c.sess.cfg.channels.toNat
      wide16 := c.sess.cfg.cfgWide16 == 1 } := by
  have hprobed : (c.probed x).sess =
      (c.sess.busReset.setNch c.sess.cfg.channels.toNat).cookieTaken.setWide16 (c.sess.cfg.cfgWide16 == 1) :=
    congrArg (Session.setWide16 _) (by rw [ctx_cookieTaken_sess, cookieTaken_cfg]; rfl)
  change (c.probed x).sess.initialised _ _ _ = _
  rw [hprobed, Session.cookieTaken]
  change (Session.setWide16 (if c.sess.cfg.skipCookie = 1 then _ else _) _).initialised _ _ _ = _
  by_cases hskip : c.sess.cfg.skipCookie = 1
  · rw [if_pos hskip, if_pos hskip]
    rfl
  · rw [if_neg hskip, if_neg hskip]
    rfl

/-- Settles O47. -/
theorem initializeCompletes : Obligations.InitializeCompletes := by
  intro s x hbusy hok h
  simp only [Ctx.canInitialize, Bool.and_eq_true, List.all_eq_true, beq_iff_eq, bne_iff_ne, ne_eq, decide_eq_true_eq] at h
  obtain ⟨⟨⟨⟨hprobe, hcounts⟩, h0⟩, hco⟩, hversion⟩ := h
  have hall : ∀ k, k < s.ctx.sess.cfg.channels.toNat →
      countOf (s.ctx.probeAnswer x) k = countOf (s.ctx.probeAnswer x) 0 := fun k hk =>
    countOf_of_forall hcounts (by rwa [probeAnswer_length])
  have hrun : initializeBus s.ctx =
      .ok (le16 (countOf (s.ctx.probeAnswer x) 0) ++ [probedVersion (s.ctx.probeAnswer x)]) (s.ctx.initialised x) :=
    (run_initializeBus (Ctx.ok_sess hok) hprobe).trans
      ((run_probeTests_coherent hall h0 hco).trans (run_require_pass hversion _ _))
  exact ⟨_, _, operate_answering_ok hbusy hrun, initialised_sess s.ctx x,
    Nat.pos_of_ne_zero fun hz => h0 (BitVec.eq_of_toNat_eq hz), hversion, hcounts⟩

end Sys2Proof.Machine
end

section
/-! PROOFS. 42_srq_ops.md rule R232: `SRQ`. A record is remembered once its mailbox write has validated, a record
remembered is not sent again, and a mailbox write that ends with an error leaves none remembered and strobes nothing. -/

namespace Sys2Proof.Machine

open Config

/-- After the mailbox write, if there was one, the record is the one remembered. -/
theorem posted_lastSrq (c : Ctx) (rec : List Byte) (x : SrqAnswers) : (c.posted rec x).sess.lastSrq = some rec := by
  rw [Ctx.posted]
  split
  next hrepeats => exact beq_iff_eq.mp hrepeats
  next => rfl

/-- A record that is the last one written is not written again. -/
theorem posted_of_lastSrq {c : Ctx} {rec : List Byte} (x : SrqAnswers) (h : c.sess.lastSrq = some rec) :
    c.posted rec x = c := if_pos (beq_iff_eq.mpr h)

/-- The strobe and its wait: one write and the polls. -/
theorem strobed_trace (c : Ctx) (x : Polling) :
    (c.strobed x).trace = c.trace ++ [.write 0 0x2] ++ (x.polls ++ [x.last]).map (fun w => Txn.read 1 w) := by
  simp only [Ctx.strobed, Ctx.polled, Ctx.trace, Link.noteReads_eq, Link.write_log, List.reverse_append,
    List.reverse_reverse, List.reverse_cons, List.map_map]
  rfl

/-- What a send may change. The record remembered is not in it, nor is the strobe, which is another trigger than the
start of a transaction. -/
def sendScope : Scope where
  wide := true
  cookie := true
  stores := fun _ => true

theorem stays_send_scope (d : Ctx) (code address verify : Nat) (payload : List Byte) :
    Stays sendScope d (send code address verify payload) :=
  stays_send (n := params.headerBytes + payload.length) ⟨rfl, rfl, rfl, fun _ _ => rfl⟩ _ _ _ _ (Nat.le_refl _)

/-- The error of a send changes at most `bus_state` (60_exceptions.md rule R280). -/
theorem stoppedAt_lastSrq_log (e : Stop) (c : Ctx) :
    (stoppedAt e c).sess.lastSrq = c.sess.lastSrq ∧ (stoppedAt e c).link.log = c.link.log := by
  unfold stoppedAt
  split
  · split <;> exact ⟨rfl, rfl⟩
  · exact ⟨rfl, rfl⟩

/-- A send that ends with an error leaves the record remembered as it was, and has not strobed. -/
theorem send_error_keeps {code address verify : Nat} {payload : List Byte} {d c : Ctx} {e : Stop}
    (h : send code address verify payload d = .error e c) :
    c.sess.lastSrq = d.sess.lastSrq ∧ ∃ new, c.trace = d.trace ++ new ∧ Txn.write 0 0x2 ∉ new := by
  have hends := stays_send_scope d code address verify payload d (Within.refl _ d)
  rw [h] at hends
  obtain ⟨b, hwithin, rfl⟩ := hends
  obtain ⟨hlast, hlog⟩ := stoppedAt_lastSrq_log e b
  obtain ⟨new, hnew, hno⟩ := hwithin.log
  refine ⟨hlast.trans (hwithin.record rfl rfl), new.reverse, ?_, fun hmem => hno rfl (List.mem_reverse.mp hmem)⟩
  rw [Ctx.trace, hlog, hnew, List.reverse_append, Ctx.trace]

/-- Settles O49. -/
theorem srqCompletes : Obligations.SrqCompletes := by
  rintro s code param address data rec hbusy hok rfl
  refine ⟨fun x h => ⟨?_, ?_, fun hlast => ?_⟩, fun e c hgate h hnew hsend => ?_⟩
  · exact operate_silently_ok hbusy (run_srq _ _ _ _ x _ (Ctx.ok_sess hok) h)
  · exact posted_lastSrq _ _ _
  · have hposted := posted_of_lastSrq x hlast
    have hafter : s.ctx.afterSrq code.toNat param.toNat address.toNat data x = s.ctx.strobed x.strobe :=
      congrArg (Ctx.strobed · x.strobe) hposted
    rw [hafter]
    exact ⟨strobed_sess _ _, strobed_trace _ _⟩
  · exact ⟨operate_of_raise hbusy (run_bind_error (run_srq_postError hgate h hnew hsend)), send_error_keeps hsend⟩

end Sys2Proof.Machine
end
